-- ==== Sys2Proof/Word.lean ====
section
/-! DEFINITION. The words of the CX16: the byte, the sixteen position numbers with their group and keypad
address (R2), the small numbers the rules range over, and the two containers that hold one thing for each
keypad bus and one thing for each position. -/

namespace Sys2Proof

/-- One byte of a record or frame (chapter 12). -/
abbrev Byte := BitVec 8

/-- A position, numbered 0 to 15 (R2). Its card line carries the same number. -/
abbrev Pos := Fin 16

/-- A group of four positions; keypad bus g serves group g (R2). -/
abbrev Group := Fin 4

/-- A keypad's address on its bus (R2). -/
abbrev Addr := Fin 4

/-- A bank of table memory (R56). -/
abbrev Bank := Fin 4

/-- A mode row of a bank (R56). -/
abbrev Mode := Fin 8

/-- A code handled by the IF, TM and the DE, 0x00 to 0x3F (R1). -/
abbrev Code := Fin 64

/-- The group of a position (R2). -/
def groupOf (p : Pos) : Group := ⟨p.val / 4, by omega⟩

/-- The keypad bus address of a position (R2). -/
def addrOf (p : Pos) : Addr := ⟨p.val % 4, by omega⟩

/-- Position 4g + a, the one in group g at offset a (R2). -/
def posAt (g : Group) (a : Addr) : Pos := ⟨4 * g.val + a.val, by omega⟩

/-- The sixteen positions in ascending order. -/
def allPositions : List Pos := [0, 1, 2, 3, 4, 5, 6, 7, 8, 9, 10, 11, 12, 13, 14, 15]

/-- The four groups (equally the four addresses of a bus, and the four banks) in ascending order. -/
def allFour : List (Fin 4) := [0, 1, 2, 3]

/-- Four like things, numbered 0 to 3. -/
structure Quad (α : Type) where
  q0 : α
  q1 : α
  q2 : α
  q3 : α
  deriving DecidableEq, Repr

/-- The thing numbered `i`. -/
def Quad.get {α : Type} (q : Quad α) : Fin 4 → α
  | 0 => q.q0
  | 1 => q.q1
  | 2 => q.q2
  | 3 => q.q3

/-- `q` with `x` in place of the thing numbered `i`. -/
def Quad.set {α : Type} (q : Quad α) (i : Fin 4) (x : α) : Quad α :=
  match i with
  | 0 => { q with q0 := x }
  | 1 => { q with q1 := x }
  | 2 => { q with q2 := x }
  | 3 => { q with q3 := x }

/-- The same thing four times. -/
def Quad.all {α : Type} (x : α) : Quad α := ⟨x, x, x, x⟩

/-- Every one of the four changed by `f`. -/
def Quad.map {α β : Type} (f : α → β) (q : Quad α) : Quad β := ⟨f q.q0, f q.q1, f q.q2, f q.q3⟩

/-- The four in ascending order. -/
def Quad.toList {α : Type} (q : Quad α) : List α := [q.q0, q.q1, q.q2, q.q3]

/-- One thing for each position: position 4g + a is the thing `a` of group `g` (R2). -/
structure PerPos (α : Type) where
  groups : Quad (Quad α)
  deriving DecidableEq, Repr

/-- The thing of position `p`. -/
def PerPos.get {α : Type} (t : PerPos α) (p : Pos) : α := (t.groups.get (groupOf p)).get (addrOf p)

/-- `t` with `x` for position `p`. -/
def PerPos.set {α : Type} (t : PerPos α) (p : Pos) (x : α) : PerPos α :=
  ⟨t.groups.set (groupOf p) ((t.groups.get (groupOf p)).set (addrOf p) x)⟩

/-- `t` with the thing of position `p` changed by `f`. -/
def PerPos.modify {α : Type} (t : PerPos α) (p : Pos) (f : α → α) : PerPos α := t.set p (f (t.get p))

/-- The same thing for every position. -/
def PerPos.all {α : Type} (x : α) : PerPos α := ⟨Quad.all (Quad.all x)⟩

/-- Every position's thing changed by `f`. -/
def PerPos.map {α β : Type} (f : α → β) (t : PerPos α) : PerPos β := ⟨t.groups.map (Quad.map f)⟩

/-- `q` with the thing numbered `i` changed by `f`. -/
def Quad.modify {α : Type} (q : Quad α) (i : Fin 4) (f : α → α) : Quad α := q.set i (f (q.get i))

end Sys2Proof
end

