-- ==== Sys2Proof/Syntax.lean ====
section
/-! DEFINITION. The commands of the CX16: one constructor for each row of spec/opcode_table.json.
A request carries the tag and the payload bytes of its record, in the encoding of R186; an event carries the
bus, the position and what the event brings. -/

namespace Sys2Proof

/-- The two link modes (R171). -/
inductive LinkMode where
  | uart
  | usb
  deriving DecidableEq, Repr

/-- What a reader's STATE frame reports (section 12.5: 0 empty, 1 throat, 2 seated). -/
inductive ReaderCondition where
  | empty
  | throat
  | seated
  deriving DecidableEq, Repr

/-- What a reader's FAULT frame names (section 12.5: 1 JAM, 2 CONTACT, 3 POWER). -/
inductive FaultCause where
  | jam
  | contact
  | power
  deriving DecidableEq, Repr

/-- The commands the part can be given: the requests of the workstation and the events of its clock, link,
keypad buses and card lines. -/
inductive Instr where
  /-- POWER_ON_RESET (R182), with the level of the LINK_SEL strap and of the WCTS pin at the reset. -/
  | powerOnReset (linkSel : LinkMode) (wcts : Bool)
  /-- LINK_UP (R176). -/
  | linkUp
  /-- LINK_DOWN (R176). -/
  | linkDown
  /-- RECORD_DISCARD (R172, R173): the bytes that arrived, from the kind byte on, for the receiver to judge; with
  none named, those of a record whose length field is above 250. -/
  | recordDiscard (bytes : List Byte := [0, 0, 0xFF])
  /-- UNKNOWN_REQUEST (R174): a good record of the given kind byte. -/
  | unknownRequest (kind tag : Byte) (payload : List Byte)
  /-- RECORD_SENT (R176). -/
  | recordSent
  /-- OPEN_POSITION (position, bank, start mode), R9. -/
  | openPosition (tag : Byte) (payload : List Byte)
  /-- CLOSE_POSITION (position), R11. -/
  | closePosition (tag : Byte) (payload : List Byte)
  /-- RESET_POSITION (position), R14. -/
  | resetPosition (tag : Byte) (payload : List Byte)
  /-- SET_MODE (position, mode), R15. -/
  | setMode (tag : Byte) (payload : List Byte)
  /-- POSITION_STATUS (position), R16. -/
  | positionStatus (tag : Byte) (payload : List Byte)
  /-- BUS_SET (group, rate, round period, response window, thinning), R19. -/
  | busSet (tag : Byte) (payload : List Byte)
  /-- BUS_STATUS (group), R41. -/
  | busStatus (tag : Byte) (payload : List Byte)
  /-- BANK_OPEN (bank), R63. -/
  | bankOpen (tag : Byte) (payload : List Byte)
  /-- BANK_CLOSE, R65. -/
  | bankClose (tag : Byte) (payload : List Byte)
  /-- BANK_FREEZE (bank), R66. -/
  | bankFreeze (tag : Byte) (payload : List Byte)
  /-- TABLE_WRITE (bank, mode, first code, run count, entries), R67. -/
  | tableWrite (tag : Byte) (payload : List Byte)
  /-- MODE_SET (bank, mode, secret, mask), R69. -/
  | modeSet (tag : Byte) (payload : List Byte)
  /-- TABLE_READ (bank, mode, first code, count), R70. -/
  | tableRead (tag : Byte) (payload : List Byte)
  /-- ATTENTION_SET (window), R95. -/
  | attentionSet (tag : Byte) (payload : List Byte)
  /-- ATTEND (attention number, action, replacement?), R96. -/
  | attend (tag : Byte) (payload : List Byte)
  /-- COLLECT (position, start mode, min length, max length, full policy, full mode?, end mode?,
  inter-key timeout?, total timeout), R105. -/
  | collect (tag : Byte) (payload : List Byte)
  /-- COLLECT_STATUS (position), R117. -/
  | collectStatus (tag : Byte) (payload : List Byte)
  /-- COLLECT_STOP (position), R118. -/
  | collectStop (tag : Byte) (payload : List Byte)
  /-- ENTRY_READ (position), R119. -/
  | entryRead (tag : Byte) (payload : List Byte)
  /-- ENTRY_WIPE (position), R120. -/
  | entryWipe (tag : Byte) (payload : List Byte)
  /-- PROMPT (position, form, text, hold, echo field?), R126. -/
  | prompt (tag : Byte) (payload : List Byte)
  /-- PROMPT_CLEAR (position), R134. -/
  | promptClear (tag : Byte) (payload : List Byte)
  /-- BEEP (position, beep), R135. -/
  | beep (tag : Byte) (payload : List Byte)
  /-- CARD_LINE_SET (group, rate, power-answer timeout), R140. -/
  | cardLineSet (tag : Byte) (payload : List Byte)
  /-- CARD_STATUS (position), R151. -/
  | cardStatus (tag : Byte) (payload : List Byte)
  /-- CARD_POWER (position), R157. -/
  | cardPower (tag : Byte) (payload : List Byte)
  /-- CARD_EXCHANGE (position, command, timeout), R158. -/
  | cardExchange (tag : Byte) (payload : List Byte)
  /-- CARD_PRESENT (position, header, timeout), R159. -/
  | cardPresent (tag : Byte) (payload : List Byte)
  /-- CARD_RELEASE (position), R161. -/
  | cardRelease (tag : Byte) (payload : List Byte)
  /-- CARD_ABORT (position), R168. -/
  | cardAbort (tag : Byte) (payload : List Byte)
  /-- LINK_RATE (rate), R180. -/
  | linkRate (tag : Byte) (payload : List Byte)
  /-- RESET_ARM, R181. -/
  | resetArm (tag : Byte) (payload : List Byte)
  /-- COUNTER_RESET, R181. -/
  | counterReset (tag : Byte) (payload : List Byte)
  /-- IDENTIFY, R183. -/
  | identify (tag : Byte) (payload : List Byte)
  /-- COUNTER_STATUS, R183. -/
  | counterStatus (tag : Byte) (payload : List Byte)
  /-- ROUND_TIMER_EXPIRY (R21). -/
  | roundTimerExpiry (bus : Group)
  /-- POLL_LAST_BYTE_LEAVES (R29). -/
  | pollLastByteLeaves (bus : Group)
  /-- KEYPAD_REPLY (R37): the complete reply's bytes after its sync byte: status, codes, S2, S1. -/
  | keypadReply (bus : Group) (reply : List Byte)
  /-- RESPONSE_WINDOW_EXPIRY (R31). -/
  | responseWindowExpiry (bus : Group)
  /-- WITHDRAWAL (R73). -/
  | withdrawal
  /-- LAPSE_TIMER_EXPIRY (R98). -/
  | lapseTimerExpiry
  /-- INTERKEY_EXPIRY (R115). -/
  | interkeyExpiry (pos : Pos)
  /-- TOTAL_TIMER_EXPIRY (R116). -/
  | totalTimerExpiry (pos : Pos)
  /-- PROMPT_HOLD_EXPIRY (R131). -/
  | promptHoldExpiry (pos : Pos)
  /-- STATE_FRAME (R146). -/
  | stateFrame (line : Pos) (reported : ReaderCondition)
  /-- FAULT_FRAME (R147). -/
  | faultFrame (line : Pos) (cause : FaultCause)
  /-- DONE_FRAME (R148). -/
  | doneFrame (line : Pos)
  /-- ANSWER_FRAME (R162), with the frame's payload. -/
  | answerFrame (line : Pos) (payload : List Byte)
  /-- RESPONSE_FRAME (R162), with the frame's payload. -/
  | responseFrame (line : Pos) (payload : List Byte)
  /-- UNLISTED_FRAME_KIND (R139, R187): a frame whose check passes, of another kind or an ill-fitting payload. -/
  | unlistedFrameKind (line : Pos) (kind : Byte) (payload : List Byte)
  /-- FAILING_FRAME (R138, R139): the bytes that arrived, from the kind byte on, for the receiver to judge; with none
  named, those of a frame whose length field is above 240. -/
  | failingFrame (line : Pos) (bytes : List Byte := [0, 0xFF])
  /-- CARD_FRAME_SENT (R141). -/
  | cardFrameSent (line : Pos)
  /-- LINE_SILENCE_EXPIRY (R142). -/
  | lineSilenceExpiry (line : Pos)
  /-- HELLO_ANSWER_EXPIRY (R143). -/
  | helloAnswerExpiry (line : Pos)
  /-- NO_READER_HELLO_EXPIRY (R145). -/
  | noReaderHelloExpiry (line : Pos)
  /-- EXCHANGE_TIMER_EXPIRY (R163). -/
  | exchangeTimerExpiry (pos : Pos)
  /-- TICK (R5, R6). -/
  | tick
  /-- KEYPAD_REPLY_BYTE (R29). -/
  | keypadReplyByte (bus : Group) (byte : Byte)
  /-- CARD_LINE_SYNC_BYTE (R138). -/
  | cardLineSyncByte (line : Pos)
  /-- LINK_SYNC_BYTE (R172). -/
  | linkSyncByte
  deriving DecidableEq, Repr

end Sys2Proof
end

