-- ==== Sys2Proof/Config.lean ====
section
/-! DEFINITION. What a CX16 fixes: the sizes and the fixed times of the rules, the defaults of its settings,
and the one value the manual leaves to each unit, its serial number. -/

namespace Sys2Proof.Config

/-- Places of the intake FIFO (R42). -/
def fifoPlaces : Nat := 128

/-- Places of the IF a poll in flight reserves (R27). -/
def pollPlaces : Nat := 5

/-- Most notices plus engine reservation the OQ holds (R176). -/
def noticeLimit : Nat := 64

/-- Most replies the OQ holds (R176). -/
def replyLimit : Nat := 8

/-- Largest payload of a workstation record (R172, section 12.2). -/
def recordPayload : Nat := 250

/-- Largest payload of a card line frame (R138, section 12.5). -/
def framePayload : Nat := 240

/-- Bytes of a full packet of the USB bulk pipes (R173). -/
def usbPacket : Nat := 64

/-- Notice slots the DE asks for before a withdrawal (R74). -/
def engineSlots : Nat := 2

/-- The committed count at which pressure becomes HIGH (R52). -/
def pressureHigh : Nat := 64

/-- The committed count at which pressure returns to NORMAL (R52). -/
def pressureNormal : Nat := 48

/-- Line silence before a HELLO, in ticks (R142). -/
def lineSilence : Nat := 500

/-- Time a HELLO waits for its answer, in ticks (R142). -/
def helloAnswer : Nat := 200

/-- Period of the HELLOs of a line in NO_READER, in ticks (R137, R145). -/
def noReaderHello : Nat := 2000

/-- The take timeout of a release, in ticks (R161). -/
def takeTimeout : Nat := 30000

/-- The silicon revision (R182). -/
def siliconRevision : Nat := 3

/-- The attention window after a reset, in ticks (R92). -/
def attentionWindow : Nat := 2000

/-- The serial number of the unit, 8 bytes, fixed for each unit at manufacture (R183). A free value: the manual
does not give it, and nothing here says what it is. -/
opaque serial : BitVec 64

end Sys2Proof.Config
end

