-- ==== Sys2Proof/Machine/State.lean ====
section
/-! DEFINITION. The state of the CX16, block by block as section 3 of the scope chapter lists them, the reasons a
step can stop, and the state after reset. Everything is plain data. -/

namespace Sys2Proof.Machine

open Sys2Proof

/-- A timer of the part (R6). `running n` holds a remaining count of `n` ticks; a count of 0 means that a tick
has brought it to 0 and its expiry event has not been taken yet (notes/assumptions/2). -/
inductive Timer where
  | stopped
  | running (left : Nat)
  deriving DecidableEq, Repr

/-- The beeps (R57, R135). -/
inductive Beep where
  | none
  | short
  | long
  deriving DecidableEq, Repr

/-! ### Position contexts (PC) -/

/-- A position's state (R3). -/
inductive PosState where
  | closed
  | opened
  deriving DecidableEq, Repr

/-- The position record (R3). -/
structure PosRecord where
  state : PosState
  bank : Bank
  mode : Mode
  keysEntered : Nat
  strayHolds : Nat
  refusals : Nat
  duplicates : Nat
  misses : Nat
  checkErrors : Nat
  deriving DecidableEq, Repr

/-- The record after power-on reset and after counter reset (R3). -/
def PosRecord.initial : PosRecord := ⟨.closed, 0, 0, 0, 0, 0, 0, 0, 0⟩

/-! ### Keypad bus controllers (KBC) -/

/-- The four settings of a keypad bus (R17, R19). -/
structure BusSettings where
  rate : Nat
  period : Nat
  window : Nat
  thinning : Nat
  deriving DecidableEq, Repr

/-- The default settings (R17). -/
def BusSettings.initial : BusSettings := ⟨19200, 20, 6, 3⟩

/-- Keypad presence (R18). -/
inductive Presence where
  | unheard
  | online
  | offline
  deriving DecidableEq, Repr

/-- What a KBC holds for one address (R18). -/
structure AddrState where
  presence : Presence
  lastSeq : Option Bool
  misses : Nat
  quiet : Nat
  thinning : Nat
  alarm : Bool
  deriving DecidableEq, Repr

/-- The values of R18 after power-on reset and counter reset. -/
def AddrState.initial : AddrState := ⟨.unheard, .none, 0, 8, 0, false⟩

/-- How far a poll in flight has got (R29). -/
inductive PollPhase where
  /-- the poll is being sent and the KBC drives the bus -/
  | sending
  /-- the last byte has left, and no sync byte of a reply has arrived -/
  | awaiting
  /-- the sync byte has arrived, and these bytes of the reply behind it -/
  | receiving (got : List Byte)
  /-- the status byte's key count was 5, 6 or 7: the reply is a miss, and the bytes that follow are ignored -/
  | overlong
  deriving DecidableEq, Repr

/-- The poll in flight (R17, R28): what it carried, the IF places it holds, the settings it was sent with, and
whether a counter reset has disowned it (R40). `carried` is the content number and the 32 characters. -/
structure Poll where
  addr : Addr
  taken : Bool
  beep : Beep
  carried : Option (BitVec 16 × List Byte)
  reserved : Nat
  rate : Nat
  window : Nat
  phase : PollPhase
  disowned : Bool
  deriving DecidableEq, Repr

/-- The round of a bus (R17): in progress with so many addresses still to visit (so the next address is one
less than that number), or finished. -/
inductive Round where
  | inProgress (toVisit : Nat)
  | finished
  deriving DecidableEq, Repr

/-- The per-bus state of R17, with the response window timer of R29 and the four addresses of R18. -/
structure Bus where
  settings : BusSettings
  pending : Option BusSettings
  roundCounter : BitVec 16
  round : Round
  roundDue : Bool
  roundTimer : Timer
  windowTimer : Timer
  poll : Option Poll
  addrs : Quad AddrState
  deriving DecidableEq, Repr

/-- The values of R17 and R18 at power-on reset and counter reset: round 0 in progress, next address 3. -/
def Bus.initial : Bus :=
  { settings := BusSettings.initial, pending := .none, roundCounter := 0, round := .inProgress 4,
    roundDue := false, roundTimer := .running 20, windowTimer := .stopped, poll := .none,
    addrs := Quad.all AddrState.initial }

/-! ### Intake FIFO (IF) -/

/-- Where an intake entry came from (R42). -/
inductive Origin where
  | keypad
  | synthetic
  deriving DecidableEq, Repr

/-- One intake entry (R42). -/
structure IntakeEntry where
  pos : Pos
  code : Code
  origin : Origin
  void : Bool
  deriving DecidableEq, Repr

/-- The eight synthetic codes, 0x38 to 0x3F in this order (R1). -/
inductive Synth where
  | interkeyLapse
  | cardArrived
  | cardSeated
  | cardGone
  | keypadLost
  | keypadBack
  | promptEnded
  | keypadAlarm
  deriving DecidableEq, Repr

/-- The eight pending flags of one position (R43). -/
structure PendingFlags where
  interkeyLapse : Bool
  cardArrived : Bool
  cardSeated : Bool
  cardGone : Bool
  keypadLost : Bool
  keypadBack : Bool
  promptEnded : Bool
  keypadAlarm : Bool
  deriving DecidableEq, Repr

/-- All eight flags clear (R43). -/
def PendingFlags.clear : PendingFlags := ⟨false, false, false, false, false, false, false, false⟩

/-- The pressure of the IF (R43). -/
inductive Pressure where
  | normal
  | high
  deriving DecidableEq, Repr

/-- The state of the IF (R43). The occupied count is the length of the entry list. -/
structure Intake where
  entries : List IntakeEntry
  reserved : Nat
  flags : PerPos PendingFlags
  pressure : Pressure
  deriving DecidableEq, Repr

/-- The IF after power-on reset and counter reset (R43, R54). -/
def Intake.initial : Intake := ⟨[], 0, PerPos.all PendingFlags.clear, .normal⟩

/-! ### Table memory (TM) -/

/-- The actions of a disposition (R57, R58). -/
inductive Action where
  | discard
  | forward
  | hold
  | eraseLast
  | clearEntry
  | complete
  | cancel
  deriving DecidableEq, Repr

/-- The echo kinds of a disposition (R57, R59). -/
inductive Echo where
  | none
  | char
  | mask
  | blankLast
  deriving DecidableEq, Repr

/-- A valid disposition entry (R57): the spare bits and undefined encodings cannot be written down. -/
structure Disposition where
  nextMode : Mode
  action : Action
  echo : Echo
  beep : Beep
  attention : Bool
  report : Bool
  deriving DecidableEq, Repr

/-- A mode descriptor (R60). -/
structure Descriptor where
  secret : Bool
  mask : Byte
  deriving DecidableEq, Repr

/-- Table memory (R56, R61). Each of the two memories lists (address, content) pairs in rising address order and
lists no content equal to the initial contents of R62; an address that is not listed reads as those. The open
bank's state is OPEN and every other bank's is CLOSED (R61), so the pointer alone is kept. -/
structure Tables where
  entries : List (Nat × Disposition)
  descriptors : List (Nat × Descriptor)
  openBank : Option Bank
  frozen : Quad Bool
  deriving DecidableEq, Repr

/-- TM after power-on reset: the initial contents everywhere (R61, R62). -/
def Tables.initial : Tables := ⟨[], [], .none, Quad.all false⟩

/-! ### Attention slot (AS) -/

/-- The attention record (R93). -/
structure Attention where
  number : BitVec 16
  pos : Pos
  code : Code
  masked : Bool
  origin : Origin
  modeAtRaise : Mode
  held : Disposition
  raiseTime : BitVec 32
  deriving DecidableEq, Repr

/-- The state of the AS (R92). The DE is HALTED exactly when a record is present (R72, R92). -/
structure AttentionSlot where
  record : Option Attention
  lapseTimer : Timer
  window : Nat
  number : BitVec 16
  deriving DecidableEq, Repr

/-- The AS after power-on reset (R92). -/
def AttentionSlot.initial : AttentionSlot := ⟨.none, .stopped, Config.attentionWindow, 0⟩

/-! ### Entry collector (EC) -/

/-- The states of an entry record (R103). -/
inductive EntryState where
  | collecting
  | complete
  deriving DecidableEq, Repr

/-- The full policies (R103, R109). -/
inductive FullPolicy where
  | stop
  | roll
  | complete
  deriving DecidableEq, Repr

/-- The entry record (R103). -/
structure Entry where
  state : EntryState
  secret : Bool
  buffer : List Code
  minLength : Nat
  maxLength : Nat
  policy : FullPolicy
  fullMode : Option Mode
  endMode : Option Mode
  interkeyTimeout : Option Nat
  totalTimeout : Nat
  interkeyTimer : Timer
  totalTimer : Timer
  fullReached : Bool
  startTime : BitVec 32
  presented : Bool
  deriving DecidableEq, Repr

/-! ### Prompt units (PU) -/

/-- The two prompt slots (R124). -/
inductive Slot where
  | a
  | b
  deriving DecidableEq, Repr

/-- The cells where echo is written (R125): one line, a column and a width. -/
structure EchoField where
  line : Nat
  column : Nat
  width : Nat
  deriving DecidableEq, Repr

/-- A prompt as stored (R125). -/
structure Prompt where
  text : List Byte
  hold : Nat
  field : Option EchoField
  deriving DecidableEq, Repr

/-- The hold phases of the current prompt (R124). -/
inductive HoldPhase where
  | notStarted
  | running
  | shown
  | ended
  deriving DecidableEq, Repr

/-- The prompt unit of one position (R124). -/
structure PromptUnit where
  slotA : Option Prompt
  slotB : Option Prompt
  currentSlot : Slot
  phase : HoldPhase
  holdTimer : Timer
  content : List Byte
  number : BitVec 16
  dirty : Bool
  cursor : Nat
  beep : Beep
  deriving DecidableEq, Repr

/-- The space character. -/
def space : Byte := 0x20

/-- A blank display: 32 spaces (R124). -/
def blankDisplay : List Byte := List.replicate 32 space

/-- The prompt unit after power-on reset and counter reset (R124). -/
def PromptUnit.initial : PromptUnit :=
  { slotA := .none, slotB := .none, currentSlot := .a, phase := .notStarted, holdTimer := .stopped,
    content := blankDisplay, number := 0, dirty := true, cursor := 0, beep := .none }

/-! ### Card line controllers (CLC) -/

/-- A rate and a power-answer timeout (R137, R140). -/
structure LineSettings where
  rate : Nat
  timeout : Nat
  deriving DecidableEq, Repr

/-- The default settings of a card line (R137). -/
def LineSettings.initial : LineSettings := ⟨38400, 1500⟩

/-- Reader presence (R137). -/
inductive ReaderPresence where
  | unheard
  | present
  | lost
  deriving DecidableEq, Repr

/-- The card states (R137). -/
inductive CardState where
  | noReader
  | empty
  | throat
  | seated
  | powering
  | ready
  | exchanging
  | releasing
  | presented
  | fault
  deriving DecidableEq, Repr

/-- A frame of the transmit list (R137, R138). `opening` is an opening frame still WAITING (R156): its content
is in its exchange record until it begins to leave as POWER_ON or COMMAND. -/
inductive TxFrame where
  | hello
  | powerOn
  | powerOff
  | command (payload : List Byte)
  | eject
  | askRepeat
  | opening
  deriving DecidableEq, Repr

/-- The receive state of a card line (R137, R138): RECEIVING holds the bytes that have come after the sync byte. -/
inductive FrameRx where
  | hunting
  | receiving (got : List Byte)
  deriving DecidableEq, Repr

/-- The state of one card line (R137). The transmit list is the frame leaving, if any, and those waiting. -/
structure CardLine where
  settings : LineSettings
  pending : Option LineSettings
  presence : ReaderPresence
  state : CardState
  cause : Option FaultCause
  powerUnknown : Bool
  misses : Nat
  checkFails : Nat
  helloOut : Bool
  rx : FrameRx
  txLeaving : Option TxFrame
  txWaiting : List TxFrame
  silenceTimer : Timer
  helloTimer : Timer
  noReaderTimer : Timer
  checkErrors : Nat
  lateFrames : Nat
  faults : Nat
  changes : Nat
  deriving DecidableEq, Repr

/-- The values of R137 after power-on reset. -/
def CardLine.initial : CardLine :=
  { settings := LineSettings.initial, pending := .none, presence := .unheard, state := .noReader,
    cause := .none, powerUnknown := false, misses := 0, checkFails := 0, helloOut := false,
    rx := .hunting, txLeaving := .none, txWaiting := [], silenceTimer := .stopped,
    helloTimer := .stopped, noReaderTimer := .running Config.noReaderHello, checkErrors := 0,
    lateFrames := 0, faults := 0, changes := 0 }

/-! ### Exchange sequencer (XS) -/

/-- The kinds of exchange (R154). -/
inductive ExchangeKind where
  | power
  | command
  | present
  | release
  deriving DecidableEq, Repr

/-- The outcomes of an exchange (R154). -/
inductive ExchangeOutcome where
  | done
  | noResponse
  | cardGone
  | readerFault
  | lineError
  | entryGone
  deriving DecidableEq, Repr

/-- The phase of an exchange record (R154); in RESULT_HELD the outcome and any data are present. -/
inductive ExchangePhase where
  | awaiting
  | held (outcome : ExchangeOutcome) (data : Option (List Byte))
  deriving DecidableEq, Repr

/-- The exchange record (R154). `sent` says that the opening frame is SENT. -/
structure Exchange where
  kind : ExchangeKind
  tag : Byte
  phase : ExchangePhase
  sent : Bool
  command : Option (List Byte)
  header : Option (List Byte)
  timer : Timer
  repeatUsed : Bool
  deriving DecidableEq, Repr

/-! ### Records of the link -/

/-- The requests (section 12.2), and a record of a kind that is not a request kind (R174). -/
inductive ReqKind where
  | unknown (kind : Byte)
  | openPosition | closePosition | resetPosition | setMode | positionStatus
  | busSet | busStatus
  | bankOpen | bankClose | bankFreeze | tableWrite | modeSet | tableRead
  | attentionSet | attend
  | collect | collectStatus | collectStop | entryRead | entryWipe
  | prompt | promptClear | beep
  | cardLineSet | cardStatus
  | cardPower | cardExchange | cardPresent | cardRelease | cardAbort
  | linkRate | resetArm | counterReset | identify | counterStatus
  deriving DecidableEq, Repr

/-- A complete record that passed its check (R174). -/
structure Request where
  kind : ReqKind
  tag : Byte
  payload : List Byte
  deriving DecidableEq, Repr

/-- The statuses of a reply, in the order of the table of R179. -/
inductive Status where
  | ok | unknownRequest | badRecord | badValue | notArmed | positionOpen | positionClosed | busy
  | wrongState | noEntry | entrySecret | entryLength | notDigits | notReady | noExchange | noAttention
  | slotsFull | bankClosed | bankFrozen | bankInUse | bankWriting | runCrossesRow
  deriving DecidableEq, Repr

/-- What a request is answered (R179): a status, the adjusted flag and the result fields in the encoding of
R186. -/
structure Answer where
  status : Status
  adjusted : Bool
  fields : List Byte
  deriving DecidableEq, Repr

/-- The notices that an application of a disposition can post (R89). -/
inductive AppNotice where
  /-- KEY (R82). -/
  | key (pos : Pos) (code : Code) (modeAfter : Mode)
  /-- ENTRY_PROGRESS (R88). -/
  | entryProgress (pos : Pos) (length : Nat) (secret : Bool)
  /-- ENTRY_COMPLETE (R112); the codes are absent for a secret entry. -/
  | entryComplete (pos : Pos) (length : Nat) (secret : Bool) (codes : Option (List Code))
  /-- ENTRY_ENDED with cause CANCELLED (R113). -/
  | entryCancelled (pos : Pos) (length : Nat) (secret : Bool) (modeAfter : Mode)
  deriving DecidableEq, Repr

/-- The causes of STARTED (R182). -/
inductive StartCause where
  | powerOn
  | counterReset
  deriving DecidableEq, Repr

/-- The notices (section 12.3). -/
inductive Notice where
  | app (n : AppNotice)
  /-- ENTRY_ENDED with cause EXPIRED (R116). -/
  | entryExpired (pos : Pos) (length : Nat) (secret : Bool) (modeAfter : Mode) (ends : Nat)
  /-- ATTENTION (R94). -/
  | attention (number : BitVec 16) (pos : Pos) (reported : Byte) (origin : Origin) (modeAtRaise : Mode)
      (held : Disposition) (window : Nat)
  /-- ATTENTION_LAPSED (R99). -/
  | attentionLapsed (number : BitVec 16) (pos : Pos) (reported : Byte) (action : Action) (refused : Bool)
      (modeAfter : Mode) (outcome : Option AppNotice)
  /-- KEYPAD_STATE (R39). -/
  | keypadState (pos : Pos) (presence : Presence)
  /-- FIFO_PRESSURE (R53). -/
  | fifoPressure (pressure : Pressure) (occupied reserved : Nat)
  /-- CARD_STATE (R150). -/
  | cardState (pos : Pos) (state : CardState) (presence : ReaderPresence) (cause : Option FaultCause)
      (changes : Nat)
  /-- EXCHANGE_DONE (R166). -/
  | exchangeDone (pos : Pos) (tag : Byte) (kind : ExchangeKind) (outcome : ExchangeOutcome)
      (data : Option (List Byte))
  /-- STARTED (R182). -/
  | started (cause : StartCause) (mode : LinkMode)
  deriving DecidableEq, Repr

/-- A record of the outbound queue (R176): a reply or a notice. -/
inductive OutRecord where
  | reply (kind : ReqKind) (tag : Byte) (answer : Answer)
  | notice (n : Notice)
  deriving DecidableEq, Repr

/-! ### Outbound queue (OQ) -/

/-- The content of an owed ENTRY_ENDED (EXPIRED) (R116, R177). -/
structure OwedExpiry where
  length : Nat
  secret : Bool
  modeAfter : Mode
  ends : Nat
  deriving DecidableEq, Repr

/-- The content of an owed CARD_STATE; the change count is read at service (R150, R177). -/
structure OwedCard where
  state : CardState
  presence : ReaderPresence
  cause : Option FaultCause
  deriving DecidableEq, Repr

/-- The content of an owed FIFO_PRESSURE (R53). -/
structure OwedPressure where
  pressure : Pressure
  occupied : Nat
  reserved : Nat
  deriving DecidableEq, Repr

/-- The outbound queue (R176, R177): the records in order, whether the transfer of the head record has begun,
the engine reservation (R72), and the owed notices. The held exchange results are in the exchange records, and
the counts of replies and notices queued are counts over the list. -/
structure OutQueue where
  queue : List OutRecord
  begun : Bool
  reservation : Nat
  expired : PerPos (Option OwedExpiry)
  cards : PerPos (Option OwedCard)
  keypads : PerPos (Option Presence)
  pressure : Option OwedPressure
  deriving DecidableEq, Repr

/-- No record, no reservation, nothing owed. -/
def OutQueue.empty : OutQueue :=
  ⟨[], false, 0, PerPos.all .none, PerPos.all .none, PerPos.all .none, .none⟩

/-! ### Workstation link (WL) -/

/-- The receive state of the WL (R171, R172): RECEIVING holds the bytes that have come after the sync byte, WAITING one
complete record. -/
inductive RxState where
  | hunting
  | receiving (got : List Byte)
  | waiting (r : Request)
  deriving DecidableEq, Repr

/-- The state of the WL (R171). -/
structure Link where
  mode : LinkMode
  rate : Nat
  pendingRate : Option Nat
  rx : RxState
  up : Bool
  armed : Bool
  errors : Nat
  deriving DecidableEq, Repr

/-- The WL after power-on reset with the given strap and WCTS level: in UART mode the link follows WCTS, in USB
mode it is down until the function is configured (R171). -/
def Link.powerOn (mode : LinkMode) (wcts : Bool) : Link :=
  { mode := mode, rate := 115200, pendingRate := .none, rx := .hunting,
    up := match mode with
      | .uart => wcts
      | .usb => false,
    armed := false, errors := 0 }

/-! ### The whole part -/

/-- The state of the CX16, with the queue of the commands that wait for it. -/
structure State where
  /-- the commands waiting, first in first out (the model's own field) -/
  pending : List Instr
  /-- the time count (R5) -/
  timeCount : BitVec 32
  link : Link
  oq : OutQueue
  pos : PerPos PosRecord
  bus : Quad Bus
  intake : Intake
  tables : Tables
  attn : AttentionSlot
  entry : PerPos (Option Entry)
  pu : PerPos PromptUnit
  line : PerPos CardLine
  xs : PerPos (Option Exchange)
  deriving DecidableEq, Repr

/-- Why a step can stop with a fault. No rule of the manual stops the part: every command has its effect in
every state, so this type has no constructor and no step answers a fault. -/
inductive Fault where
  deriving DecidableEq, Repr

/-- Why a step can be refused. -/
inductive Refusal where
  /-- Raised by an arm of exec that has no meaning yet; no arm of this model does. Safe: the step stops. -/
  | notModelled (mnemonic : String)
  deriving DecidableEq, Repr

/-- Every block at the values its chapter's reset table gives for power-on reset (R3, R5, R17, R18, R43, R61,
R62, R72, R92, R122, R124, R137, R154, R171, R176), before the first visits of round 0 and the first HELLOs. -/
def State.powerOnValues (mode : LinkMode) (wcts : Bool) : State :=
  { pending := [], timeCount := 0, link := Link.powerOn mode wcts,
    oq := { OutQueue.empty with
      queue := [.notice (.started .powerOn mode)]
      begun := (Link.powerOn mode wcts).up },
    pos := PerPos.all PosRecord.initial, bus := Quad.all Bus.initial, intake := Intake.initial,
    tables := Tables.initial, attn := AttentionSlot.initial, entry := PerPos.all .none,
    pu := PerPos.all PromptUnit.initial, line := PerPos.all CardLine.initial, xs := PerPos.all .none }

/-- The presence poll of address 3 that round 0 sends at power-on reset (R21, R23 row 2, R28): taken bit 1 and
the blank display, under the default settings. -/
def Poll.firstPoll : Poll :=
  { addr := 3, taken := true, beep := .none, carried := .some (0, blankDisplay), reserved := 5,
    rate := 19200, window := 6, phase := .sending, disowned := false }

/-- The machine right after power-on reset, strapped for UART and with WCTS negated (notes/assumptions/1):
the tables' values, with what the reset event itself starts: round 0 on each bus, whose visit of address 3 has
sent its presence poll under 5 reserved places (R21, R22, R27), and the HELLO of each card line (R152). -/
def State.reset : State :=
  { State.powerOnValues .uart false with
    bus := Quad.all { Bus.initial with round := .inProgress 3, poll := .some Poll.firstPoll }
    intake := { Intake.initial with reserved := 20 }
    line := PerPos.all { CardLine.initial with txLeaving := .some .hello } }

end Sys2Proof.Machine
end

