-- ==== Sys2Proof/Machine/Flags.lean ====
section
/-! DEFINITION. The small computations that the rules share: saturating and held counters, clamping with its
adjusted flag, what a timer does, the digit test, the eight pending flags of a position. -/

namespace Sys2Proof.Machine

open Sys2Proof

/-- One more, held at `top`. -/
def holdAt (top n : Nat) : Nat := min top (n + 1)

/-- A counter of 0 to 65535: increments by 1 and saturates (R4). -/
def sat16 (n : Nat) : Nat := holdAt 65535 n

/-- A value brought into a range (R8, R19, R95, R106). -/
def clamp (lo hi n : Nat) : Nat := if n < lo then lo else if hi < n then hi else n

/-! ### Timers (R6) -/

/-- A tick of the time base: a running timer's remaining count falls by 1 (R6). A timer whose count a tick has
already brought to 0 waits for its expiry event. -/
def Timer.tick : Timer → Timer
  | .stopped => .stopped
  | .running n => .running (n - 1)

/-- A tick has brought the count to 0: the expiry is due. A stopped timer does not expire (R6). -/
def Timer.due : Timer → Bool
  | .stopped => false
  | .running n => n == 0

/-- The remaining time a status request reports: none when stopped. A count brought to 0 whose expiry has not
been taken is reported as 1, the last value of the ranges of R117 (notes/assumptions/2). -/
def Timer.remaining : Timer → Option Nat
  | .stopped => .none
  | .running n => .some (max 1 n)

/-! ### Codes (R1) -/

/-- A digit code, 0x00 to 0x09. -/
def isDigit (c : Code) : Bool := decide (c.val ≤ 9)

/-- The code of a synthetic code's name (R1). -/
def Synth.code : Synth → Code
  | .interkeyLapse => 0x38
  | .cardArrived => 0x39
  | .cardSeated => 0x3A
  | .cardGone => 0x3B
  | .keypadLost => 0x3C
  | .keypadBack => 0x3D
  | .promptEnded => 0x3E
  | .keypadAlarm => 0x3F

/-- The eight synthetic codes in ascending order. -/
def Synth.inOrder : List Synth :=
  [.interkeyLapse, .cardArrived, .cardSeated, .cardGone, .keypadLost, .keypadBack, .promptEnded, .keypadAlarm]

/-- The display characters of a code (R1): one for a digit, two zeros for DOUBLE_ZERO, none for the others. -/
def displayChars (c : Code) : List Byte :=
  if c.val ≤ 9 then [BitVec.ofNat 8 (0x30 + c.val)]
  else if c.val = 0x0E then [0x30, 0x30]
  else []

/-! ### Pending flags (R43) -/

/-- Whether the flag for a synthetic code is set. -/
def PendingFlags.get (f : PendingFlags) : Synth → Bool
  | .interkeyLapse => f.interkeyLapse
  | .cardArrived => f.cardArrived
  | .cardSeated => f.cardSeated
  | .cardGone => f.cardGone
  | .keypadLost => f.keypadLost
  | .keypadBack => f.keypadBack
  | .promptEnded => f.promptEnded
  | .keypadAlarm => f.keypadAlarm

/-- The flags with the one for a synthetic code written. -/
def PendingFlags.put (f : PendingFlags) (k : Synth) (v : Bool) : PendingFlags :=
  match k with
  | .interkeyLapse => { f with interkeyLapse := v }
  | .cardArrived => { f with cardArrived := v }
  | .cardSeated => { f with cardSeated := v }
  | .cardGone => { f with cardGone := v }
  | .keypadLost => { f with keypadLost := v }
  | .keypadBack => { f with keypadBack := v }
  | .promptEnded => { f with promptEnded := v }
  | .keypadAlarm => { f with keypadAlarm := v }

/-- How many flags of a position are set. -/
def PendingFlags.count (f : PendingFlags) : Nat := Synth.inOrder.countP (fun k => f.get k)

/-! ### Clamps of the requests -/

/-- The clamped settings of a BUS_SET (R19). -/
def clampBus (rate period window thinning : Nat) : BusSettings :=
  ⟨rate, clamp 5 250 period, clamp 2 20 window, min 15 thinning⟩

/-- Whether the clamp of R19 changed a field. -/
def clampBusAdjusted (period window thinning : Nat) : Bool :=
  decide (clamp 5 250 period ≠ period ∨ clamp 2 20 window ≠ window ∨ 15 < thinning)

/-- The max length of a COLLECT as stored (R106). -/
def storedMax (maxLen : Nat) : Nat := clamp 1 16 maxLen

/-- The min length of a COLLECT as stored: clamped after, and against, the stored max length (R106). -/
def storedMin (minLen maxLen : Nat) : Nat := min minLen (storedMax maxLen)

/-- The inter-key timeout of a COLLECT as stored (R106). -/
def storedInterkey (t : Option Nat) : Option Nat := t.map (clamp 5 300)

/-- The total timeout of a COLLECT as stored (R106). -/
def storedTotal (t : Nat) : Nat := clamp 10 1200 t

/-- Whether R106 clamped a field of a COLLECT. -/
def collectAdjusted (minLen maxLen : Nat) (interkey : Option Nat) (total : Nat) : Bool :=
  decide (storedMax maxLen ≠ maxLen ∨ storedMin minLen maxLen ≠ minLen ∨ storedInterkey interkey ≠ interkey ∨
    storedTotal total ≠ total)

/-- The text of a PROMPT as stored: the first 32 characters, a space for each one outside 0x20 to 0x7E (R125). -/
def storedText (text : List Byte) : List Byte :=
  (text.take 32).map (fun c => if 0x20 ≤ c.toNat ∧ c.toNat ≤ 0x7E then c else space)

/-- The echo field of a PROMPT as stored: its width cut to 16 less the column (R125). -/
def storedField (f : EchoField) : EchoField := { f with width := min f.width (16 - f.column) }

/-- Whether R125 clamped a field of a PROMPT. -/
def promptAdjusted (text : List Byte) (hold : Nat) (f : Option EchoField) : Bool :=
  decide (storedText text ≠ text ∨ 600 < hold ∨ f.map storedField ≠ f)

end Sys2Proof.Machine
end

