-- ==== Sys2Proof/Machine/Operands.lean ====
section
/-! DEFINITION. The formats of chapter 12: how the fields of request payloads are read and those of replies and
notices written (R186), the check (R185), the disposition entry (R188), the keypad poll and reply, the card line
frames and the entry block. -/

namespace Sys2Proof.Machine

open Sys2Proof

/-! ### Reading fields (R186) -/

/-- A byte as a number below `n`, if it is one. -/
def below (n : Nat) (b : Byte) : Option (Fin n) := if h : b.toNat < n then .some ⟨b.toNat, h⟩ else .none

/-- A 2-byte number, most significant byte first. -/
def be16 (hi lo : Byte) : Nat := hi.toNat * 256 + lo.toNat

/-- A 4-byte number, most significant byte first. -/
def be32 (b3 b2 b1 b0 : Byte) : Nat := be16 b3 b2 * 65536 + be16 b1 b0

/-- An optional 1-byte field: all ones when absent. -/
def optByte (b : Byte) : Option Nat := if b = 0xFF then .none else .some b.toNat

/-- An optional 2-byte field: all ones when absent. -/
def optWord (hi lo : Byte) : Option Nat := if be16 hi lo = 0xFFFF then .none else .some (be16 hi lo)

/-! ### Writing fields (R186) -/

/-- A 1-byte number. -/
def u8 (n : Nat) : List Byte := [BitVec.ofNat 8 n]

/-- A 2-byte number, most significant byte first. -/
def u16 (n : Nat) : List Byte := [BitVec.ofNat 8 (n / 256), BitVec.ofNat 8 n]

/-- A 4-byte number, most significant byte first. -/
def u32 (n : Nat) : List Byte :=
  [BitVec.ofNat 8 (n / 16777216), BitVec.ofNat 8 (n / 65536), BitVec.ofNat 8 (n / 256), BitVec.ofNat 8 n]

/-- Yes and no. -/
def yesNo (b : Bool) : List Byte := [if b then 1 else 0]

/-- A number or none, in 1 byte; none is all ones. -/
def optU8 : Option Nat → List Byte
  | .none => [0xFF]
  | .some n => u8 n

/-- A number or none, in 2 bytes; none is all ones. -/
def optU16 : Option Nat → List Byte
  | .none => [0xFF, 0xFF]
  | .some n => u16 n

/-- A byte string: a length byte, then the bytes. -/
def byteString (l : List Byte) : List Byte := u8 l.length ++ l

/-- A code as a byte. -/
def codeByte (c : Code) : Byte := BitVec.ofNat 8 c.val

/-- The place of a value in the list of its defining table, counting from 0 (R186). -/
def PosState.index : PosState → Nat
  | .closed => 0
  | .opened => 1

/-- The place of a value in the table of R18. -/
def Presence.index : Presence → Nat
  | .unheard => 0
  | .online => 1
  | .offline => 2

/-- The place of a value in the table of R42. -/
def Origin.index : Origin → Nat
  | .keypad => 0
  | .synthetic => 1

/-- The place of a value in the table of R43. -/
def Pressure.index : Pressure → Nat
  | .normal => 0
  | .high => 1

/-- The encoding of an action (section 12.6). -/
def Action.index : Action → Nat
  | .discard => 0
  | .forward => 1
  | .hold => 2
  | .eraseLast => 3
  | .clearEntry => 4
  | .complete => 5
  | .cancel => 6

/-- The encoding of an echo (section 12.6). -/
def Echo.index : Echo → Nat
  | .none => 0
  | .char => 1
  | .mask => 2
  | .blankLast => 3

/-- The encoding of a beep (sections 12.4 and 12.6). -/
def Beep.index : Beep → Nat
  | .none => 0
  | .short => 1
  | .long => 2

/-- The place of an entry's state in NONE, COLLECTING, COMPLETE (R16, R97, R117). -/
def entryStateIndex : Option Entry → Nat
  | .none => 0
  | .some e => match e.state with
    | .collecting => 1
    | .complete => 2

/-- The place of a value in the table of R103. -/
def FullPolicy.index : FullPolicy → Nat
  | .stop => 0
  | .roll => 1
  | .complete => 2

/-- The place of a value in the table of R124. -/
def Slot.index : Slot → Nat
  | .a => 0
  | .b => 1

/-- The place of a value in the table of R137. -/
def ReaderPresence.index : ReaderPresence → Nat
  | .unheard => 0
  | .present => 1
  | .lost => 2

/-- The place of a value in the table of R137. -/
def CardState.index : CardState → Nat
  | .noReader => 0
  | .empty => 1
  | .throat => 2
  | .seated => 3
  | .powering => 4
  | .ready => 5
  | .exchanging => 6
  | .releasing => 7
  | .presented => 8
  | .fault => 9

/-- The place of a fault cause in none, JAM, CONTACT, POWER (R137). -/
def causeIndex : Option FaultCause → Nat
  | .none => 0
  | .some .jam => 1
  | .some .contact => 2
  | .some .power => 3

/-- The place of a value in the table of R154. -/
def ExchangeKind.index : ExchangeKind → Nat
  | .power => 0
  | .command => 1
  | .present => 2
  | .release => 3

/-- The place of a value in the table of R154. -/
def ExchangeOutcome.index : ExchangeOutcome → Nat
  | .done => 0
  | .noResponse => 1
  | .cardGone => 2
  | .readerFault => 3
  | .lineError => 4
  | .entryGone => 5

/-- The place of a phase in AWAITING, RESULT_HELD (R154). -/
def ExchangePhase.index : ExchangePhase → Nat
  | .awaiting => 0
  | .held _ _ => 1

/-- The place of a value in the table of R171. -/
def linkModeIndex : LinkMode → Nat
  | .uart => 0
  | .usb => 1

/-- The place of a value in the table of R182. -/
def StartCause.index : StartCause → Nat
  | .powerOn => 0
  | .counterReset => 1

/-- The place of a round in "in progress or finished" (R41). -/
def Round.index : Round → Nat
  | .inProgress _ => 0
  | .finished => 1

/-- A status byte, in the order of the table of R179. -/
def Status.index : Status → Nat
  | .ok => 0x00 | .unknownRequest => 0x01 | .badRecord => 0x02 | .badValue => 0x03 | .notArmed => 0x04
  | .positionOpen => 0x05 | .positionClosed => 0x06 | .busy => 0x07 | .wrongState => 0x08 | .noEntry => 0x09
  | .entrySecret => 0x0A | .entryLength => 0x0B | .notDigits => 0x0C | .notReady => 0x0D
  | .noExchange => 0x0E | .noAttention => 0x0F | .slotsFull => 0x10 | .bankClosed => 0x11
  | .bankFrozen => 0x12 | .bankInUse => 0x13 | .bankWriting => 0x14 | .runCrossesRow => 0x15

/-- The kind byte of a request (section 12.2). -/
def ReqKind.byte : ReqKind → Byte
  | .unknown k => k
  | .openPosition => 0x01 | .closePosition => 0x02 | .resetPosition => 0x03 | .setMode => 0x04
  | .positionStatus => 0x05 | .busSet => 0x06 | .busStatus => 0x07 | .bankOpen => 0x08
  | .bankClose => 0x09 | .bankFreeze => 0x0A | .tableWrite => 0x0B | .modeSet => 0x0C
  | .tableRead => 0x0D | .attentionSet => 0x0E | .attend => 0x0F | .collect => 0x10
  | .collectStatus => 0x11 | .collectStop => 0x12 | .entryRead => 0x13 | .entryWipe => 0x14
  | .prompt => 0x15 | .promptClear => 0x16 | .beep => 0x17 | .cardLineSet => 0x18
  | .cardStatus => 0x19 | .cardPower => 0x1A | .cardExchange => 0x1B | .cardPresent => 0x1C
  | .cardRelease => 0x1D | .cardAbort => 0x1E | .linkRate => 0x1F | .resetArm => 0x20
  | .counterReset => 0x21 | .identify => 0x22 | .counterStatus => 0x23

/-- The request of a kind byte (section 12.2). Every other value is no request kind (R174). -/
def reqKindOf (b : Byte) : ReqKind :=
  match b.toNat with
  | 0x01 => .openPosition | 0x02 => .closePosition | 0x03 => .resetPosition | 0x04 => .setMode
  | 0x05 => .positionStatus | 0x06 => .busSet | 0x07 => .busStatus | 0x08 => .bankOpen
  | 0x09 => .bankClose | 0x0A => .bankFreeze | 0x0B => .tableWrite | 0x0C => .modeSet
  | 0x0D => .tableRead | 0x0E => .attentionSet | 0x0F => .attend | 0x10 => .collect
  | 0x11 => .collectStatus | 0x12 => .collectStop | 0x13 => .entryRead | 0x14 => .entryWipe
  | 0x15 => .prompt | 0x16 => .promptClear | 0x17 => .beep | 0x18 => .cardLineSet
  | 0x19 => .cardStatus | 0x1A => .cardPower | 0x1B => .cardExchange | 0x1C => .cardPresent
  | 0x1D => .cardRelease | 0x1E => .cardAbort | 0x1F => .linkRate | 0x20 => .resetArm
  | 0x21 => .counterReset | 0x22 => .identify | 0x23 => .counterStatus
  | _ => .unknown b

/-- The kind byte of a request's reply: 0x80 plus the kind, and 0x80 alone for UNKNOWN_REQUEST (section 12.2). -/
def ReqKind.replyByte : ReqKind → Byte
  | .unknown _ => 0x80
  | k => 0x80 + k.byte

/-! ### Answers -/

/-- OK with result fields and no clamp. -/
def Answer.ok (fields : List Byte) : Answer := ⟨.ok, false, fields⟩

/-- OK with result fields and the adjusted flag. -/
def Answer.stored (adjusted : Bool) (fields : List Byte) : Answer := ⟨.ok, adjusted, fields⟩

/-- A refusal, with the fields it names (R179). -/
def Answer.no (status : Status) (fields : List Byte) : Answer := ⟨status, false, fields⟩

/-- The payload of a reply (R186): status, flags, result fields. -/
def Answer.payload (a : Answer) : List Byte := u8 a.status.index ++ yesNo a.adjusted ++ a.fields

/-! ### The check (R185) -/

/-- The two sums after one more byte. -/
def checkStep (sums : Nat × Nat) (b : Byte) : Nat × Nat :=
  ((sums.1 + b.toNat) % 255, (sums.2 + (sums.1 + b.toNat) % 255) % 255)

/-- The sums (S1, S2) over the checked bytes. -/
def checkSums (l : List Byte) : Nat × Nat := l.foldl checkStep (0, 0)

/-- The two check bytes as sent: S2, then S1. -/
def checkBytes (l : List Byte) : List Byte := u8 (checkSums l).2 ++ u8 (checkSums l).1

/-- Checked bytes with the check behind them, as the sender sends them. -/
def withCheck (body : List Byte) : List Byte := body ++ checkBytes body

/-- The receiver's judgement: the two check bytes received match the sums over the checked bytes received. -/
def passesCheck (body check : List Byte) : Bool := decide (check = checkBytes body)

/-! ### Records as they are received (R172 to R174, section 12.2) -/

/-- The checked bytes of a record: kind, tag, payload length, payload (section 12.2). -/
def recordBody (kind tag : Byte) (payload : List Byte) : List Byte := kind :: tag :: (u8 payload.length ++ payload)

/-- The bytes of a request's record from its kind byte on, with its check. -/
def Request.bytes (r : Request) : List Byte := withCheck (recordBody r.kind.byte r.tag r.payload)

/-- Whether the bytes taken since the sync byte end the record (R172): at the length byte when it is above 250, else at
the second check byte. -/
def recordEnds : List Byte → Bool
  | _ :: _ :: len :: rest => decide (Config.recordPayload < len.toNat ∨ len.toNat + 2 ≤ rest.length)
  | _ => false

/-- The request of the bytes of a record, from its kind byte on; none for bytes that are discarded: a length field above
250, a length that it does not give, or a failing check (R172, R173). -/
def goodRecord : List Byte → Option Request
  | kind :: tag :: len :: rest =>
    if len.toNat ≤ Config.recordPayload ∧ rest.length = len.toNat + 2 ∧
        passesCheck (recordBody kind tag (rest.take len.toNat)) (rest.drop len.toNat) = true then
      .some ⟨reqKindOf kind, tag, rest.take len.toNat⟩
    else .none
  | _ => .none

/-- The packets of a USB transfer, of 64 bytes but for the last, which is short, or zero-length when the bytes fill their
packets (R173). `filling` holds the bytes of the packet being filled. -/
def usbPackets (filling : List Byte) : List Byte → List (List Byte)
  | [] => [filling]
  | b :: rest =>
    if filling.length + 1 = Config.usbPacket then (filling ++ [b]) :: usbPackets [] rest
    else usbPackets (filling ++ [b]) rest

/-- The bytes of a USB transfer, which ends at its first packet that is not full; none while it has not ended (R173). -/
def usbTransfer : List (List Byte) → Option (List Byte)
  | [] => .none
  | p :: rest => if p.length < Config.usbPacket then .some p else (usbTransfer rest).map fun bytes => p ++ bytes

/-! ### The disposition entry (section 12.6, R188) -/

/-- The action of an encoding; 7 is undefined. -/
def actionOf : Nat → Option Action
  | 0 => .some .discard
  | 1 => .some .forward
  | 2 => .some .hold
  | 3 => .some .eraseLast
  | 4 => .some .clearEntry
  | 5 => .some .complete
  | 6 => .some .cancel
  | _ => .none

/-- The echo of an encoding. -/
def echoOf : Nat → Echo
  | 0 => .none
  | 1 => .char
  | 2 => .mask
  | _ => .blankLast

/-- The beep of an encoding; 3 is undefined. -/
def beepOf : Nat → Option Beep
  | 0 => .some .none
  | 1 => .some .short
  | 2 => .some .long
  | _ => .none

/-- A two-byte disposition entry, if it is valid: action not 7, beep not 3, spare bits 0 (R188). -/
def readDisposition (b0 b1 : Byte) : Option Disposition :=
  match actionOf (b0.toNat / 8 % 8), beepOf (b1.toNat % 4) with
  | .some a, .some bp =>
    if b1.toNat / 16 = 0 then
      .some { nextMode := ⟨b0.toNat % 8, by omega⟩, action := a, echo := echoOf (b0.toNat / 64), beep := bp,
              attention := decide (b1.toNat / 4 % 2 = 1), report := decide (b1.toNat / 8 % 2 = 1) }
    else .none
  | _, _ => .none

/-- The two-byte form of a disposition entry. -/
def writeDisposition (d : Disposition) : List Byte :=
  [BitVec.ofNat 8 (d.nextMode.val + 8 * d.action.index + 64 * d.echo.index),
   BitVec.ofNat 8 (d.beep.index + (if d.attention then 4 else 0) + (if d.report then 8 else 0))]

/-- The outcome of reading a run of entries: all of them, or the index of the first that is not valid (R67). -/
inductive RunRead where
  | good (entries : List Disposition)
  | bad (index : Nat)
  deriving DecidableEq, Repr

/-- The entries of a run in ascending code order, the first of them with index `i`. -/
def readRun (i : Nat) : List Byte → RunRead
  | b0 :: b1 :: rest =>
    match readDisposition b0 b1 with
    | .none => .bad i
    | .some d =>
      match readRun (i + 1) rest with
      | .good ds => .good (d :: ds)
      | .bad j => .bad j
  | _ => .good []

/-! ### Notices (section 12.3) -/

/-- The kind byte of an application's notice. -/
def AppNotice.kindByte : AppNotice → Byte
  | .key _ _ _ => 0xE0
  | .entryProgress _ _ _ => 0xE1
  | .entryComplete _ _ _ _ => 0xE2
  | .entryCancelled _ _ _ _ => 0xE3

/-- The place of an application's notice in none, KEY, ENTRY_PROGRESS, ENTRY_COMPLETE, ENTRY_ENDED (R97). -/
def appNoticeIndex : Option AppNotice → Nat
  | .none => 0
  | .some (.key _ _ _) => 1
  | .some (.entryProgress _ _ _) => 2
  | .some (.entryComplete _ _ _ _) => 3
  | .some (.entryCancelled _ _ _ _) => 4

/-- The payload of an application's notice. -/
def AppNotice.payload : AppNotice → List Byte
  | .key p c m => u8 p.val ++ [codeByte c] ++ u8 m.val
  | .entryProgress p n sec => u8 p.val ++ u8 n ++ yesNo sec
  | .entryComplete p n sec codes => u8 p.val ++ u8 n ++ yesNo sec ++ (codes.getD []).map codeByte
  | .entryCancelled p n sec m => u8 p.val ++ u8 0 ++ u8 n ++ yesNo sec ++ u8 m.val ++ u8 1

/-- The kind byte of a notice. -/
def Notice.kindByte : Notice → Byte
  | .app n => n.kindByte
  | .entryExpired _ _ _ _ _ => 0xE3
  | .attention _ _ _ _ _ _ _ => 0xE4
  | .attentionLapsed _ _ _ _ _ _ _ => 0xE5
  | .keypadState _ _ => 0xE6
  | .fifoPressure _ _ _ => 0xE7
  | .cardState _ _ _ _ _ => 0xE8
  | .exchangeDone _ _ _ _ _ => 0xE9
  | .started _ _ => 0xEA

/-- The payload of a notice. -/
def Notice.payload : Notice → List Byte
  | .app n => n.payload
  | .entryExpired p n sec m ends => u8 p.val ++ u8 1 ++ u8 n ++ yesNo sec ++ u8 m.val ++ u8 ends
  | .attention num p rep o m d w =>
    u16 num.toNat ++ u8 p.val ++ [rep] ++ u8 o.index ++ u8 m.val ++ writeDisposition d ++ u16 w
  | .attentionLapsed num p rep a r m out =>
    u16 num.toNat ++ u8 p.val ++ [rep] ++ u8 a.index ++ yesNo r ++ u8 m.val ++
      (match out with
        | .none => [0x00]
        | .some n => n.kindByte :: n.payload)
  | .keypadState p pr => u8 p.val ++ u8 pr.index
  | .fifoPressure pr occ res => u8 pr.index ++ u8 occ ++ u8 res
  | .cardState p st pr c n => u8 p.val ++ u8 st.index ++ u8 pr.index ++ u8 (causeIndex c) ++ u8 n
  | .exchangeDone p tag k o data =>
    u8 p.val ++ [tag] ++ u8 k.index ++ u8 o.index ++ byteString (data.getD [])
  | .started c m => u8 c.index ++ u8 Config.siliconRevision ++ u8 (linkModeIndex m)

/-- The kind byte of a record of the queue. -/
def OutRecord.kindByte : OutRecord → Byte
  | .reply k _ _ => k.replyByte
  | .notice n => n.kindByte

/-- The tag of a record of the queue: notices carry the tag 0 (section 12.3). -/
def OutRecord.tagByte : OutRecord → Byte
  | .reply _ t _ => t
  | .notice _ => 0

/-- The payload of a record of the queue. -/
def OutRecord.payload : OutRecord → List Byte
  | .reply _ _ a => a.payload
  | .notice n => n.payload

/-- The checked bytes of a record of the queue. -/
def OutRecord.body (r : OutRecord) : List Byte := recordBody r.kindByte r.tagByte r.payload

/-- The sync byte of a workstation record on UART (section 12.2). -/
def linkSync : Byte := 0xC5

/-- The bytes of a record on the link: a sync byte on UART only, the checked bytes, the check. -/
def OutRecord.bytes (mode : LinkMode) (r : OutRecord) : List Byte :=
  (match mode with
    | .uart => [linkSync]
    | .usb => []) ++ withCheck r.body

/-- The packets of a record on the IN pipe (R173). -/
def OutRecord.packets (r : OutRecord) : List (List Byte) := usbPackets [] (r.bytes .usb)

/-! ### Keypad polls and replies (section 12.4) -/

/-- The control byte of a poll. -/
def Poll.control (q : Poll) : Byte :=
  BitVec.ofNat 8 (64 * q.addr.val + (if q.taken then 32 else 0) + (if q.carried.isSome then 16 else 0) +
    4 * q.beep.index)

/-- The checked bytes of a poll: the control byte and the 32 characters when they are carried. -/
def Poll.body (q : Poll) : List Byte := q.control :: ((q.carried.map Prod.snd).getD [])

/-- The sync byte of polls and keypad replies (section 12.4). -/
def keypadSync : Byte := 0x69

/-- The frame of a poll. -/
def Poll.frame (q : Poll) : List Byte := keypadSync :: withCheck q.body

/-- A complete keypad reply (R29). -/
structure Reply where
  addr : Nat
  seq : Bool
  applied : Bool
  alarm : Bool
  codes : List Byte
  checkOk : Bool
  deriving DecidableEq, Repr

/-- The fields of a complete reply, given its bytes after the sync byte; none when the bytes are no complete
reply: no status byte, a key count above 4, or a length that the count does not give. -/
def readReply : List Byte → Option Reply
  | [] => .none
  | status :: rest =>
    let n := status.toNat % 8
    if n ≤ 4 ∧ rest.length = n + 2 then
      .some { addr := status.toNat / 64, seq := decide (status.toNat / 32 % 2 = 1),
              applied := decide (status.toNat / 16 % 2 = 1), alarm := decide (status.toNat / 8 % 2 = 1),
              codes := rest.take n, checkOk := passesCheck (status :: rest.take n) (rest.drop n) }
    else .none

/-- How far a reply has got with these bytes behind its sync byte (R29): a key count of 5 to 7 in the status byte makes
what follows no reply. -/
def replyPhase : List Byte → PollPhase
  | [] => .receiving []
  | status :: rest => if 4 < status.toNat % 8 then .overlong else .receiving (status :: rest)

/-- The key codes of a reply as codes (R1); every one is 0x37 or below in a valid reply (R30). -/
def Reply.keys (r : Reply) : List Code := r.codes.filterMap (below 64)

/-- A valid reply of the polled address: R30's three tests. -/
def Reply.valid (r : Reply) (a : Addr) : Bool :=
  r.checkOk && decide (r.addr = a.val) && r.codes.all (fun c => decide (c.toNat ≤ 0x37))

/-! ### Card line frames and the entry block (sections 12.5 and 12.7) -/

/-- The fourteen half-byte cells of an entry block: the digits in keyed order, then 0xF (R160). -/
def blockCells (digits : List Code) : List Nat :=
  digits.map Fin.val ++ List.replicate (14 - digits.length) 15

/-- Half-byte cells as bytes, high half first. -/
def pairCells : List Nat → List Byte
  | hi :: lo :: rest => BitVec.ofNat 8 (16 * hi + lo) :: pairCells rest
  | _ => []

/-- The entry block of an entry's digits (R160). -/
def entryBlock (digits : List Code) : List Byte :=
  BitVec.ofNat 8 (0x20 + digits.length) :: pairCells (blockCells digits)

/-- The kind byte and payload of a frame that leaves on a card line; an opening frame still WAITING is no frame
on the line. -/
def TxFrame.content : TxFrame → Option (Byte × List Byte)
  | .hello => .some (0x01, [])
  | .powerOn => .some (0x02, [])
  | .powerOff => .some (0x03, [])
  | .command payload => .some (0x04, payload)
  | .eject => .some (0x05, [])
  | .askRepeat => .some (0x06, [])
  | .opening => .none

/-- The sync byte of a card line frame (section 12.5). -/
def cardSync : Byte := 0x96

/-- The checked bytes of a card line frame: kind, payload length, payload (section 12.5). -/
def frameBody (kind : Byte) (payload : List Byte) : List Byte := kind :: (u8 payload.length ++ payload)

/-- The bytes of a card line frame after its sync byte. -/
def frameBytes (kind : Byte) (payload : List Byte) : List Byte := withCheck (frameBody kind payload)

/-- The bytes of a frame on a card line. -/
def TxFrame.bytes (f : TxFrame) : List Byte :=
  match f.content with
  | .none => []
  | .some (kind, payload) =>
    cardSync :: frameBytes kind payload

/-- Whether the bytes taken since the sync byte end the frame (R138): at the length byte when it is above 240, else at
the second check byte. -/
def frameEnds : List Byte → Bool
  | _ :: len :: rest => decide (Config.framePayload < len.toNat ∨ len.toNat + 2 ≤ rest.length)
  | _ => false

/-- The kind and payload of the bytes of a frame, from its kind byte on; none for a frame that fails its check or whose
length field is above 240 (R138, R139). -/
def goodFrame : List Byte → Option (Byte × List Byte)
  | kind :: len :: rest =>
    if len.toNat ≤ Config.framePayload ∧ rest.length = len.toNat + 2 ∧
        passesCheck (frameBody kind (rest.take len.toNat)) (rest.drop len.toNat) = true then
      .some (kind, rest.take len.toNat)
    else .none
  | _ => .none

/-- The reader condition of a STATE frame's payload byte (section 12.5). -/
def conditionOf (b : Byte) : Option ReaderCondition :=
  match b.toNat with
  | 0 => .some .empty
  | 1 => .some .throat
  | 2 => .some .seated
  | _ => .none

/-- The payload byte of a STATE frame. -/
def conditionByte : ReaderCondition → Byte
  | .empty => 0
  | .throat => 1
  | .seated => 2

/-- The fault cause of a FAULT frame's payload byte (section 12.5). -/
def causeOf (b : Byte) : Option FaultCause :=
  match b.toNat with
  | 1 => .some .jam
  | 2 => .some .contact
  | 3 => .some .power
  | _ => .none

/-- The payload byte of a FAULT frame. -/
def causeByte : FaultCause → Byte
  | .jam => 1
  | .contact => 2
  | .power => 3

end Sys2Proof.Machine
end

