-- ==== Sys2Proof/Machine/Ops.lean ====
section
/-! DEFINITION. The operations that several commands share: the updates of one block's state, the outbound queue
with its owed notices and the engine's reservation (R176 to R178), and the intake FIFO with its synthetic
admission, flag service and pressure (R42 to R53). -/

namespace Sys2Proof.Machine

open Sys2Proof

/-! ### Updates of one block -/

/-- The position record of `p` changed by `f`. -/
def State.onPos (p : Pos) (f : PosRecord → PosRecord) (s : State) : State := { s with pos := s.pos.modify p f }

/-- The bus `g` changed by `f`. -/
def State.onBus (g : Group) (f : Bus → Bus) (s : State) : State := { s with bus := s.bus.modify g f }

/-- The entry of `p` written. -/
def State.putEntry (p : Pos) (e : Option Entry) (s : State) : State := { s with entry := s.entry.set p e }

/-- The prompt unit of `p` changed by `f`. -/
def State.onPu (p : Pos) (f : PromptUnit → PromptUnit) (s : State) : State := { s with pu := s.pu.modify p f }

/-- The card line of `p` changed by `f`. -/
def State.onLine (p : Pos) (f : CardLine → CardLine) (s : State) : State := { s with line := s.line.modify p f }

/-- The exchange record of `p` written. -/
def State.putXs (p : Pos) (x : Option Exchange) (s : State) : State := { s with xs := s.xs.set p x }

/-- The IF changed by `f`. -/
def State.onIntake (f : Intake → Intake) (s : State) : State := { s with intake := f s.intake }

/-- The OQ changed by `f`. -/
def State.onOq (f : OutQueue → OutQueue) (s : State) : State := { s with oq := f s.oq }

/-- The WL changed by `f`. -/
def State.onLink (f : Link → Link) (s : State) : State := { s with link := f s.link }

/-- The AS changed by `f`. -/
def State.onAttn (f : AttentionSlot → AttentionSlot) (s : State) : State := { s with attn := f s.attn }

/-! ### The outbound queue -/

/-- Whether a record is a reply. -/
def OutRecord.isReply : OutRecord → Bool
  | .reply _ _ _ => true
  | .notice _ => false

/-- The replies queued (R176). -/
def OutQueue.replies (q : OutQueue) : Nat := q.queue.countP OutRecord.isReply

/-- The notices queued (R176). -/
def OutQueue.notices (q : OutQueue) : Nat := q.queue.countP (fun r => !r.isReply)

/-- The free notice slots: 64 less the notices queued and the engine reservation (R177). -/
def OutQueue.freeSlots (q : OutQueue) : Nat := Config.noticeLimit - (q.notices + q.reservation)

/-- A record joins at the tail (R176). The transfer of the head record begins in the event in which it is the
head and the link is up (notes/assumptions/6). -/
def State.enqueue (r : OutRecord) (s : State) : State :=
  s.onOq fun q => { q with queue := q.queue ++ [r], begun := q.begun || s.link.up }

/-- The kinds of owed notice, one per flag (R177). -/
inductive OwedKey where
  | result (p : Pos)
  | expired (p : Pos)
  | card (p : Pos)
  | keypad (p : Pos)
  | pressure
  deriving DecidableEq, Repr

/-- The order in which the OQ serves the flags (R177). -/
def OwedKey.inOrder : List OwedKey :=
  allPositions.map .result ++ allPositions.map .expired ++ allPositions.map .card ++
    allPositions.map .keypad ++ [.pressure]

/-- The notice a set flag stands for, with the content standing now, and the state with the flag cleared: a held
result's record is removed, a card state's change count becomes 0 (R150, R166, R177). None for a clear flag. -/
def takeOwed (k : OwedKey) (s : State) : Option (Notice × State) :=
  match k with
  | .result p =>
    match s.xs.get p with
    | .none => .none
    | .some x =>
      match x.phase with
      | .awaiting => .none
      | .held outcome data => .some (.exchangeDone p x.tag x.kind outcome data, s.putXs p .none)
  | .expired p =>
    match s.oq.expired.get p with
    | .none => .none
    | .some o =>
      .some (.entryExpired p o.length o.secret o.modeAfter o.ends,
        s.onOq fun q => { q with expired := q.expired.set p .none })
  | .card p =>
    match s.oq.cards.get p with
    | .none => .none
    | .some o =>
      .some (.cardState p o.state o.presence o.cause (s.line.get p).changes,
        (s.onOq fun q => { q with cards := q.cards.set p .none }).onLine p fun l => { l with changes := 0 })
  | .keypad p =>
    match s.oq.keypads.get p with
    | .none => .none
    | .some pr => .some (.keypadState p pr, s.onOq fun q => { q with keypads := q.keypads.set p .none })
  | .pressure =>
    match s.oq.pressure with
    | .none => .none
    | .some o => .some (.fifoPressure o.pressure o.occupied o.reserved, s.onOq fun q => { q with pressure := .none })

/-- Whether a flag is set. -/
def isOwed (s : State) (k : OwedKey) : Bool := (takeOwed k s).isSome

/-- Whether any owed flag is set (R178). -/
def anyOwed (s : State) : Bool := OwedKey.inOrder.any (isOwed s)

/-- One flag served, if it is set and a slot is free. -/
def serveOne (s : State) (k : OwedKey) : State :=
  match takeOwed k s with
  | .none => s
  | .some (n, t) => if 0 < s.oq.freeSlots then t.enqueue (.notice n) else s

/-- The owed-notice service (R177): flags in order, one record per free slot, until no slot is free or no flag
is set. It is made at every event that frees a slot or sets a flag. -/
def serveOwed (s : State) : State := OwedKey.inOrder.foldl serveOne s

/-- A notice posted from the engine's reservation: one slot moves from the reservation into the queue (R178). -/
def postReserved (n : Notice) (s : State) : State :=
  (s.onOq fun q => { q with reservation := q.reservation - 1 }).enqueue (.notice n)

/-- The slots of the engine's reservation not used are released, and are free at once for owed flags (R178). -/
def releaseReservation (s : State) : State := serveOwed (s.onOq fun q => { q with reservation := 0 })

/-- CARD_STATE is owed with the line's present content (R150). -/
def postCardState (p : Pos) (s : State) : State :=
  let l := s.line.get p
  serveOwed (s.onOq fun q => { q with cards := q.cards.set p (.some ⟨l.state, l.presence, l.cause⟩) })

/-- KEYPAD_STATE is owed with the address's present presence (R39). -/
def postKeypadState (p : Pos) (pr : Presence) (s : State) : State :=
  serveOwed (s.onOq fun q => { q with keypads := q.keypads.set p (.some pr) })

/-- ENTRY_ENDED (EXPIRED) is owed with the latest fields; ends counts the expiries folded in (R116). -/
def postExpired (p : Pos) (length : Nat) (secret : Bool) (modeAfter : Mode) (s : State) : State :=
  let ends := match s.oq.expired.get p with
    | .none => 1
    | .some o => holdAt 255 o.ends
  serveOwed (s.onOq fun q => { q with expired := q.expired.set p (.some ⟨length, secret, modeAfter, ends⟩) })

/-! ### The intake FIFO -/

/-- The occupied count: the entries in the list, void ones included (R43). -/
def Intake.occupied (f : Intake) : Nat := f.entries.length

/-- The unreserved free space (R44). -/
def Intake.free (f : Intake) : Nat := Config.fifoPlaces - (f.occupied + f.reserved)

/-- The pending flags set across all positions (R26, R49). -/
def Intake.flagCount (f : Intake) : Nat := (allPositions.map fun p => (f.flags.get p).count).sum

/-- An entry joins at the tail, with void clear (R42). -/
def Intake.enter (f : Intake) (p : Pos) (c : Code) (o : Origin) : Intake :=
  { f with entries := f.entries ++ [⟨p, c, o, false⟩] }

/-- A pending flag written. -/
def Intake.putFlag (f : Intake) (p : Pos) (k : Synth) (v : Bool) : Intake :=
  { f with flags := f.flags.modify p fun g => g.put k v }

/-- A pending flag served: its code enters at the tail and the flag clears. -/
def Intake.serveFlag (f : Intake) (p : Pos) (k : Synth) : Intake := (f.enter p k.code .synthetic).putFlag p k false

/-- Synthetic admission (R48). -/
def admitSynth (p : Pos) (k : Synth) (s : State) : State :=
  match (s.pos.get p).state with
  | .closed => s
  | .opened =>
    if (s.intake.flags.get p).get k then s
    else if 1 ≤ s.intake.free then s.onIntake fun f => f.enter p k.code .synthetic
    else s.onIntake fun f => f.putFlag p k true

/-- One flag of the ordinary service (R49): served when it is set and a place is free. -/
def Intake.serveIfFree (f : Intake) (slot : Pos × Synth) : Intake :=
  if (f.flags.get slot.1).get slot.2 = true ∧ 1 ≤ f.free then f.serveFlag slot.1 slot.2 else f

/-- The pending flags in ascending position and, within a position, ascending code (R49). -/
def flagOrder : List (Pos × Synth) := allPositions.flatMap fun p => Synth.inOrder.map fun k => (p, k)

/-- The ordinary service of the pending flags from freed places (R49). -/
def Intake.serveFlags (f : Intake) : Intake := flagOrder.foldl Intake.serveIfFree f

/-- The places left and the IF after the flags in the list have been given them one after another (R47). -/
def Intake.serveOwn (p : Pos) : List Synth → Nat → Intake → Intake
  | [], _, f => f
  | _, 0, f => f
  | k :: ks, n + 1, f =>
    if (f.flags.get p).get k then serveOwn p ks n (f.serveFlag p k) else serveOwn p ks (n + 1) f

/-- A reservation of `n` places ends with no code entered: the places are released and serve flags (R45, R49). -/
def Intake.release (f : Intake) (n : Nat) : Intake := Intake.serveFlags { f with reserved := f.reserved - n }

/-- A batch of an OPEN position enters under a reservation of `n` places (R46, R47): the places it does not use
first serve the position's own flags, the codes follow, and what is left goes to the ordinary service. -/
def Intake.enterBatch (f : Intake) (p : Pos) (codes : List Code) (n : Nat) : Intake :=
  let own := Intake.serveOwn p Synth.inOrder (n - codes.length) { f with reserved := f.reserved - n }
  Intake.serveFlags { own with entries := own.entries ++ codes.map fun c => ⟨p, c, .keypad, false⟩ }

/-- The pressure that the test of R52 gives on a committed count. -/
def nextPressure (now : Pressure) (committed : Nat) : Pressure :=
  match now with
  | .normal => if Config.pressureHigh ≤ committed then .high else .normal
  | .high => if committed ≤ Config.pressureNormal then .normal else .high

/-- The judgement of pressure at the end of an event that changes either count (R52), with the FIFO_PRESSURE that
a change posts (R53). `before` is the state the event began in. -/
def judgePressure (before s : State) : State :=
  if s.intake.occupied = before.intake.occupied ∧ s.intake.reserved = before.intake.reserved then s
  else
    let next := nextPressure s.intake.pressure (s.intake.occupied + s.intake.reserved)
    if next = s.intake.pressure then s
    else
      serveOwed ((s.onIntake fun f => { f with pressure := next }).onOq fun q =>
        { q with pressure := .some ⟨next, s.intake.occupied, s.intake.reserved⟩ })

/-! ### Readings that several blocks make -/

/-- Whether the position is OPEN. -/
def State.isOpen (s : State) (p : Pos) : Bool := decide ((s.pos.get p).state = .opened)

/-- The position's entry is COLLECTING (R88). -/
def State.entryCollecting (s : State) (p : Pos) : Bool :=
  match s.entry.get p with
  | .none => false
  | .some e => decide (e.state = .collecting)

/-- The position is OPEN and its entry is COLLECTING (R23). -/
def State.collecting (s : State) (p : Pos) : Bool := s.isOpen p && s.entryCollecting p

/-- An exchange is in flight on the line: the position's record is AWAITING (R137, R154). -/
def State.inFlight (s : State) (p : Pos) : Bool :=
  match s.xs.get p with
  | .none => false
  | .some x => decide (x.phase = .awaiting)

/-- The length of the position's entry, 0 at NONE. -/
def State.entryLength (s : State) (p : Pos) : Nat :=
  match s.entry.get p with
  | .none => 0
  | .some e => e.buffer.length

/-- Whether the position's entry exists and is secret (R77). -/
def State.entrySecret (s : State) (p : Pos) : Bool :=
  match s.entry.get p with
  | .none => false
  | .some e => e.secret

/-- The DE is HALTED: an attention is outstanding (R72). -/
def State.halted (s : State) : Bool := s.attn.record.isSome

end Sys2Proof.Machine
end

