-- ==== Sys2Proof/Machine/Prompts.lean ====
section
/-! DEFINITION. Prompts and Echo (chapter 8): display composition, echo, holds and beeps of one prompt unit, and
the requests PROMPT, PROMPT_CLEAR and BEEP with the prompt hold's expiry. -/

namespace Sys2Proof.Machine

open Sys2Proof

/-! ### Slots -/

/-- The current prompt (R124). -/
def PromptUnit.current (u : PromptUnit) : Option Prompt :=
  match u.currentSlot with
  | .a => u.slotA
  | .b => u.slotB

/-- The prompt in the slot that is not current. -/
def PromptUnit.other (u : PromptUnit) : Option Prompt :=
  match u.currentSlot with
  | .a => u.slotB
  | .b => u.slotA

/-- The slot that is not the given one. -/
def Slot.opposite : Slot → Slot
  | .a => .b
  | .b => .a

/-- A slot written. -/
def PromptUnit.putSlot (u : PromptUnit) (k : Slot) (pr : Option Prompt) : PromptUnit :=
  match k with
  | .a => { u with slotA := pr }
  | .b => { u with slotB := pr }

/-! ### Composition -/

/-- PU composes display content: the content number rises and the content is dirty (R124). -/
def PromptUnit.compose (u : PromptUnit) (content : List Byte) : PromptUnit :=
  { u with content := content, number := u.number + 1, dirty := true }

/-- The display character at which an echo field begins (R125). -/
def EchoField.base (f : EchoField) : Nat := 16 * f.line + f.column

/-- The content with every cell of an echo field set to a space. -/
def blankCells (f : EchoField) (content : List Byte) : List Byte :=
  content.take f.base ++ List.replicate f.width space ++ content.drop (f.base + f.width)

/-- The text padded with spaces to 32 characters (R125). -/
def padText (text : List Byte) : List Byte := text ++ List.replicate (32 - text.length) space

/-- The display content of a prompt that becomes current (R129). -/
def promptContent (pr : Prompt) : List Byte :=
  match pr.field with
  | .none => padText pr.text
  | .some f => blankCells f (padText pr.text)

/-- The prompt of the current slot becomes current (R129). -/
def PromptUnit.show (u : PromptUnit) (pr : Prompt) : PromptUnit :=
  { u.compose (promptContent pr) with cursor := 0, phase := .notStarted, holdTimer := .stopped }

/-- A close's effect on prompts (R12, R124): both slots empty, no hold, blank content composed, no beep. -/
def PromptUnit.close (u : PromptUnit) : PromptUnit :=
  { u.compose blankDisplay with
    slotA := .none, slotB := .none, phase := .notStarted, holdTimer := .stopped, cursor := 0, beep := .none }

/-- PROMPT_CLEAR's effect (R134): the beep and the current slot pointer are kept. The hold phase, which R134 does not
name, becomes NOT_STARTED as at a close (notes/assumptions/20). -/
def PromptUnit.clear (u : PromptUnit) : PromptUnit :=
  { u.compose blankDisplay with
    slotA := .none, slotB := .none, phase := .notStarted, holdTimer := .stopped, cursor := 0 }

/-- The content carried has been applied (R130): the dirty mark clears and a hold not started starts. -/
def PromptUnit.applied (u : PromptUnit) : PromptUnit :=
  let v := { u with dirty := false }
  match u.current, u.phase with
  | .some pr, .notStarted =>
    if pr.hold = 0 then { v with phase := .shown }
    else { v with phase := .running, holdTimer := .running (pr.hold * 100) }
  | _, _ => v

/-! ### Echo -/

/-- One character written into the echo field (R132). -/
def PromptUnit.writeCell (f : EchoField) (u : PromptUnit) (c : Byte) : PromptUnit :=
  if u.cursor < f.width then { u with content := u.content.set (f.base + u.cursor) c, cursor := u.cursor + 1 }
  else
    { u with content := u.content.take f.base ++ (((u.content.drop f.base).take f.width).drop 1 ++ [c]) ++
        u.content.drop (f.base + f.width) }

/-- The writes of one echo, which together compose new content once when there is at least one (R132). -/
def PromptUnit.writeCells (f : EchoField) (u : PromptUnit) (cs : List Byte) : PromptUnit :=
  match cs with
  | [] => u
  | _ :: _ =>
    let v := cs.foldl (PromptUnit.writeCell f) u
    v.compose v.content

/-- BLANK_LAST (R133). -/
def PromptUnit.blankLast (f : EchoField) (u : PromptUnit) : PromptUnit :=
  if u.cursor = 0 then u
  else { u.compose (u.content.set (f.base + (u.cursor - 1)) space) with cursor := u.cursor - 1 }

/-- The echo step (R85, R132, R133) on the current prompt's echo field, if there is one. -/
def PromptUnit.echo (kind : Echo) (code : Code) (mask : Byte) (u : PromptUnit) : PromptUnit :=
  match u.current with
  | .none => u
  | .some pr =>
    match pr.field with
    | .none => u
    | .some f =>
      match kind with
      | .none => u
      | .char => u.writeCells f (displayChars code)
      | .mask => u.writeCells f [mask]
      | .blankLast => u.blankLast f

/-- COLLECT's and CLEAR_ENTRY's reset of the echo field (R133). -/
def PromptUnit.resetEcho (u : PromptUnit) : PromptUnit :=
  match u.current.bind (fun pr => pr.field) with
  | .none => { u with cursor := 0 }
  | .some f => { u.compose (blankCells f u.content) with cursor := 0 }

/-- A beep set pending replaces the one pending; NONE sets none (R86, R135). -/
def PromptUnit.setBeep (b : Beep) (u : PromptUnit) : PromptUnit :=
  match b with
  | .none => u
  | .short => { u with beep := .short }
  | .long => { u with beep := .long }

/-! ### The requests -/

/-- The forms of PROMPT (R126). -/
inductive PromptForm where
  | replace
  | queue
  deriving DecidableEq, Repr

/-- The form of an encoding: REPLACE, QUEUE (R126, R186). -/
def promptFormOf : Nat → Option PromptForm
  | 0 => .some .replace
  | 1 => .some .queue
  | _ => .none

/-- The fields of a PROMPT payload after its position (R186): form, text as a byte string, hold, and an echo field
behind its presence byte. -/
structure PromptFields where
  form : Nat
  text : List Byte
  hold : Nat
  field : Option EchoField
  deriving DecidableEq, Repr

/-- The fields read, if the payload has the length they give and the presence byte is 0 or 1. -/
def readPrompt (payload : List Byte) : Option PromptFields :=
  match payload with
  | form :: n :: rest =>
    match rest.drop n.toNat with
    | [h1, h0, present, line, column, width] =>
      if present = 0 then .some ⟨form.toNat, rest.take n.toNat, be16 h1 h0, .none⟩
      else if present = 1 then
        .some ⟨form.toNat, rest.take n.toNat, be16 h1 h0, .some ⟨line.toNat, column.toNat, width.toNat⟩⟩
      else .none
    | _ => .none
  | _ => .none

/-- R126's first check of an echo field. -/
def fieldOk : Option EchoField → Bool
  | .none => true
  | .some f => decide (f.line ≤ 1 ∧ f.column ≤ 15 ∧ f.width ≠ 0)

/-- The place a PROMPT takes (R127, R128): the unit after it, the slot, and whether it became current; none when a
QUEUE finds no place. -/
def PromptUnit.place (u : PromptUnit) (form : PromptForm) (pr : Prompt) : Option (PromptUnit × Slot × Bool) :=
  let alone := (({ u with slotA := .none, slotB := .none } : PromptUnit).putSlot u.currentSlot (.some pr)).show pr
  match form with
  | .replace => .some (alone, u.currentSlot, true)
  | .queue =>
    match u.current with
    | .none => .some (((u.putSlot u.currentSlot (.some pr)).show pr), u.currentSlot, true)
    | .some _ =>
      match u.phase with
      | .ended => .some (((u.putSlot u.currentSlot (.some pr)).show pr), u.currentSlot, true)
      | .notStarted | .running | .shown =>
        match u.other with
        | .none => .some (u.putSlot u.currentSlot.opposite (.some pr), u.currentSlot.opposite, false)
        | .some _ => .none

/-- An echo field as sent: a presence byte, then line, column and width (R186). -/
def fieldBytes : Option EchoField → List Byte
  | .none => [0, 0, 0, 0]
  | .some f => [1] ++ u8 f.line ++ u8 f.column ++ u8 f.width

/-- PROMPT (R125 to R128). -/
def doPrompt (payload : List Byte) (s : State) : State × Answer :=
  match payload with
  | pb :: rest =>
    match readPrompt rest, below 16 pb with
    | .some f, .some p =>
      match promptFormOf f.form with
      | .none => (s, .no .badValue [])
      | .some form =>
        if !fieldOk f.field then (s, .no .badValue [])
        else if !s.isOpen p then (s, .no .positionClosed [])
        else
          let pr : Prompt := ⟨storedText f.text, min f.hold 600, f.field.map storedField⟩
          match (s.pu.get p).place form pr with
          | .none => (s, .no .slotsFull [])
          | .some (u, slot, cur) =>
            (s.onPu p fun _ => u,
              .stored (promptAdjusted f.text f.hold f.field)
                (u8 slot.index ++ yesNo cur ++ u8 pr.text.length ++ u16 pr.hold ++ fieldBytes pr.field))
    | _, _ => (s, .no .badRecord [])
  | _ => (s, .no .badRecord [])

/-- The prompts in a unit's slots. -/
def PromptUnit.prompts (u : PromptUnit) : Nat := u.slotA.toList.length + u.slotB.toList.length

/-- PROMPT_CLEAR (R134). -/
def doPromptClear (payload : List Byte) (s : State) : State × Answer :=
  match payload with
  | [pb] =>
    match below 16 pb with
    | .none => (s, .no .badRecord [])
    | .some p =>
      if !s.isOpen p then (s, .no .positionClosed [])
      else (s.onPu p PromptUnit.clear, .ok (u8 (s.pu.get p).prompts))
  | _ => (s, .no .badRecord [])

/-- BEEP (R135). -/
def doBeep (payload : List Byte) (s : State) : State × Answer :=
  match payload with
  | [pb, bb] =>
    match below 16 pb with
    | .none => (s, .no .badRecord [])
    | .some p =>
      match beepOf bb.toNat with
      | .some .short => (s.onPu p (PromptUnit.setBeep .short), .ok (u8 (s.pu.get p).beep.index))
      | .some .long => (s.onPu p (PromptUnit.setBeep .long), .ok (u8 (s.pu.get p).beep.index))
      | .some .none => (s, .no .badValue [])
      | .none => (s, .no .badValue [])
  | _ => (s, .no .badRecord [])

/-! ### Hold expiry -/

/-- The queued prompt becomes current at a hold expiry (R131). -/
def PromptUnit.switch (u : PromptUnit) (pr : Prompt) : PromptUnit :=
  ({ u.putSlot u.currentSlot .none with currentSlot := u.currentSlot.opposite }).show pr

/-- The expiry of a hold timer (R131): the timer stops, and PU switches to the queued prompt or ends the current
one and raises PROMPT_ENDED. -/
def holdExpires (p : Pos) (s : State) : State :=
  match (s.pu.get p).other with
  | .some pr => s.onPu p fun u => ({ u with holdTimer := .stopped }).switch pr
  | .none => admitSynth p .promptEnded (s.onPu p fun u => { u with holdTimer := .stopped, phase := .ended })

/-- PROMPT_HOLD_EXPIRY (R131). A timer whose expiry is not due does not expire (R6). -/
def execPromptHoldExpiry (p : Pos) (s : State) : Host.Outcome State Fault Refusal :=
  if (s.pu.get p).holdTimer.due then .next (judgePressure s (holdExpires p s)) else .next s

end Sys2Proof.Machine
end

