-- ==== Sys2Proof/Machine/Tables.lean ====
section
/-! DEFINITION. Disposition Tables (chapter 4): table memory as a memory in one canonical form, and the requests
BANK_OPEN, BANK_CLOSE, BANK_FREEZE, TABLE_WRITE, MODE_SET and TABLE_READ. -/

namespace Sys2Proof.Machine

open Sys2Proof

/-! ### A memory that lists what differs from its initial contents -/

/-- What an address reads as: its listed content, or the initial content. -/
def sparseRead {α : Type} (init : Nat → α) : List (Nat × α) → Nat → α
  | [], a => init a
  | (k, v) :: rest, a => if a = k then v else if a < k then init a else sparseRead init rest a

/-- A write that keeps the addresses rising and lists no initial content. -/
def sparseWrite {α : Type} [DecidableEq α] (init : Nat → α) (a : Nat) (x : α) : List (Nat × α) → List (Nat × α)
  | [] => if x = init a then [] else [(a, x)]
  | (k, v) :: rest =>
    if a = k then (if x = init a then rest else (a, x) :: rest)
    else if a < k then (if x = init a then (k, v) :: rest else (a, x) :: (k, v) :: rest)
    else (k, v) :: sparseWrite init a x rest

/-- The canonical form: every address is at least `low` and below `size`, the addresses rise, and no listed content
is the initial content. -/
def sparseWf {α : Type} [DecidableEq α] (init : Nat → α) (size : Nat) : Nat → List (Nat × α) → Bool
  | _, [] => true
  | low, (k, v) :: rest =>
    decide (low ≤ k) && decide (k < size) && decide (v ≠ init k) && sparseWf init size (k + 1) rest

/-! ### Addresses and initial contents (R56, R62) -/

/-- The address of the disposition entry of a bank, mode row and code. -/
def entryAddr (b : Bank) (m : Mode) (c : Nat) : Nat := (b.val * 8 + m.val) * 64 + c

/-- The address of the mode descriptor of a bank and mode row. -/
def descAddr (b : Bank) (m : Mode) : Nat := b.val * 8 + m.val

/-- The initial disposition entry at an address: DISCARD with the row's own number as next mode (R62, R188). -/
def initialEntry (a : Nat) : Disposition :=
  { nextMode := ⟨a / 64 % 8, by omega⟩, action := .discard, echo := .none, beep := .none, attention := false,
    report := false }

/-- The initial mode descriptor: not secret, mask '*' (R62). -/
def initialDescriptor (_ : Nat) : Descriptor := ⟨false, 0x2A⟩

/-- The disposition entry of a bank, mode row and code. -/
def Tables.readEntry (t : Tables) (b : Bank) (m : Mode) (c : Code) : Disposition :=
  sparseRead initialEntry t.entries (entryAddr b m c.val)

/-- The mode descriptor of a bank and mode row. -/
def Tables.readDescriptor (t : Tables) (b : Bank) (m : Mode) : Descriptor :=
  sparseRead initialDescriptor t.descriptors (descAddr b m)

/-- The entry at code number `c` of a row replaced. -/
def Tables.writeEntry (t : Tables) (b : Bank) (m : Mode) (c : Nat) (d : Disposition) : Tables :=
  { t with entries := sparseWrite initialEntry (entryAddr b m c) d t.entries }

/-- A run of entries replaced, from code number `c` on (R68). -/
def Tables.writeRun (b : Bank) (m : Mode) : Nat → List Disposition → Tables → Tables
  | _, [], t => t
  | c, d :: ds, t => writeRun b m (c + 1) ds (t.writeEntry b m c d)

/-- The descriptor of a row replaced (R69). -/
def Tables.writeDescriptor (t : Tables) (b : Bank) (m : Mode) (d : Descriptor) : Tables :=
  { t with descriptors := sparseWrite initialDescriptor (descAddr b m) d t.descriptors }

/-- The memory is in its canonical form. -/
def Tables.wf (t : Tables) : Bool :=
  sparseWf initialEntry 2048 0 t.entries && sparseWf initialDescriptor 32 0 t.descriptors

/-- A bank's state (R61): OPEN when the pointer names it. -/
def Tables.isOpen (t : Tables) (b : Bank) : Bool := decide (t.openBank = .some b)

/-! ### The requests -/

/-- The number of a bank or none, as a field. -/
def bankField (b : Option Bank) : List Byte := optU8 (b.map Fin.val)

/-- The lowest OPEN position that selects the bank and has an entry (R63 step 3). -/
def bankUser (b : Bank) (s : State) : Option Pos :=
  allPositions.find? fun p => s.isOpen p && decide ((s.pos.get p).bank = b) && (s.entry.get p).isSome

/-- BANK_OPEN (R63). -/
def doBankOpen (payload : List Byte) (s : State) : State × Answer :=
  match payload with
  | [bb] =>
    match below 4 bb with
    | .none => (s, .no .badValue [])
    | .some b =>
      if s.tables.frozen.get b then (s, .no .bankFrozen [])
      else
        match bankUser b s with
        | .some p => (s, .no .bankInUse (u8 p.val))
        | .none => ({ s with tables := { s.tables with openBank := .some b } }, .ok (bankField s.tables.openBank))
  | _ => (s, .no .badRecord [])

/-- BANK_CLOSE (R65). -/
def doBankClose (payload : List Byte) (s : State) : State × Answer :=
  match payload with
  | [] => ({ s with tables := { s.tables with openBank := .none } }, .ok (bankField s.tables.openBank))
  | _ => (s, .no .badRecord [])

/-- BANK_FREEZE (R66). -/
def doBankFreeze (payload : List Byte) (s : State) : State × Answer :=
  match payload with
  | [bb] =>
    match below 4 bb with
    | .none => (s, .no .badValue [])
    | .some b =>
      ({ s with tables := { s.tables with
          openBank := if s.tables.isOpen b then .none else s.tables.openBank
          frozen := s.tables.frozen.set b true } },
        .ok (yesNo (s.tables.isOpen b) ++ yesNo (s.tables.frozen.get b)))
  | _ => (s, .no .badRecord [])

/-- TABLE_WRITE (R67, R68). -/
def doTableWrite (payload : List Byte) (s : State) : State × Answer :=
  match payload with
  | bb :: mb :: first :: count :: run =>
    if count.toNat < 1 ∨ 64 < count.toNat ∨ run.length ≠ 2 * count.toNat then (s, .no .badRecord [])
    else
      match below 4 bb, below 8 mb with
      | .some b, .some m =>
        if !s.tables.isOpen b then (s, .no .bankClosed [])
        else if 64 < first.toNat + count.toNat then (s, .no .runCrossesRow [])
        else
          match readRun 0 run with
          | .bad i => (s, .no .badValue (u8 i))
          | .good ds => ({ s with tables := s.tables.writeRun b m first.toNat ds }, .ok [count])
      | _, _ => (s, .no .badValue [])
  | _ => (s, .no .badRecord [])

/-- The mask as stored (R69): outside 0x20 to 0x7E it becomes '*'. -/
def storedMask (mask : Byte) : Byte := if 0x20 ≤ mask.toNat ∧ mask.toNat ≤ 0x7E then mask else 0x2A

/-- MODE_SET (R69). -/
def doModeSet (payload : List Byte) (s : State) : State × Answer :=
  match payload with
  | [bb, mb, secret, mask] =>
    match below 4 bb, below 8 mb with
    | .some b, .some m =>
      if !s.tables.isOpen b then (s, .no .bankClosed [])
      else if 1 < secret.toNat then (s, .no .badValue [])
      else
        let d : Descriptor := ⟨decide (secret = 1), storedMask mask⟩
        ({ s with tables := s.tables.writeDescriptor b m d },
          .stored (decide (storedMask mask ≠ mask)) (yesNo d.secret ++ [d.mask]))
    | _, _ => (s, .no .badValue [])
  | _ => (s, .no .badRecord [])

/-- A run of a row's entries as stored, in two-byte form (R70). -/
def rowRun (t : Tables) (b : Bank) (m : Mode) : Nat → Nat → List Byte
  | _, 0 => []
  | c, n + 1 => writeDisposition (sparseRead initialEntry t.entries (entryAddr b m c)) ++ rowRun t b m (c + 1) n

/-- TABLE_READ (R70). -/
def doTableRead (payload : List Byte) (s : State) : State × Answer :=
  match payload with
  | [bb, mb, first, count] =>
    match below 4 bb, below 8 mb with
    | .some b, .some m =>
      if count.toNat < 1 ∨ 64 < count.toNat then (s, .no .badValue [])
      else if 64 < first.toNat + count.toNat then (s, .no .runCrossesRow [])
      else
        let d := s.tables.readDescriptor b m
        (s, .ok (yesNo (s.tables.isOpen b) ++ yesNo (s.tables.frozen.get b) ++ yesNo d.secret ++ [d.mask] ++
          [count] ++ rowRun s.tables b m first.toNat count.toNat))
    | _, _ => (s, .no .badValue [])
  | _ => (s, .no .badRecord [])

end Sys2Proof.Machine
end

