-- ==== Sys2Proof/Machine/Entries.lean ====
section
/-! DEFINITION. Entry Collection (chapter 7): the actions on an entry's buffer, the two timers of an entry, and the
requests COLLECT, COLLECT_STATUS, COLLECT_STOP, ENTRY_READ and ENTRY_WIPE. -/

namespace Sys2Proof.Machine

open Sys2Proof

/-! ### What the engine's actions do to an entry -/

/-- The notice EC names for the DE to post (R81): its fields but for the mode after. -/
inductive EntryNotice where
  | completed (length : Nat) (secret : Bool) (codes : Option (List Code))
  | cancelled (length : Nat) (secret : Bool)
  deriving DecidableEq, Repr

/-- Which counter of the position the DE increments for an outcome (R83, R84). -/
inductive Tally where
  | none
  | strayHold
  | refusal
  deriving DecidableEq, Repr

/-- The outcome facts EC returns to the DE (R81). `newMode` is the end mode of an entry ended or completed, or else
the full mode of an entry whose full-reached flag the action set (R87). -/
structure ActionOutcome where
  refused : Bool
  tally : Tally
  newMode : Option Mode
  notice : Option EntryNotice
  deriving DecidableEq, Repr

/-- Nothing refused, counted, ended or posted. -/
def ActionOutcome.plain : ActionOutcome := ⟨false, .none, .none, .none⟩

/-- The codes a notice or reply may carry: those of a plain entry only (R112, R118). -/
def Entry.openCodes (e : Entry) : Option (List Code) := if e.secret then .none else .some e.buffer

/-- An entry completes (R112): the inter-key timer stops and the total timer runs on. -/
def Entry.completed (e : Entry) : Entry := { e with state := .complete, interkeyTimer := .stopped }

/-- What ENTRY_COMPLETE will carry of an entry (R112). -/
def Entry.completeNotice (e : Entry) : EntryNotice := .completed e.buffer.length e.secret e.openCodes

/-- The first of two modes that is given. -/
def firstMode : Option Mode → Option Mode → Option Mode
  | .some m, _ => .some m
  | .none, o => o

/-- HOLD on a COLLECTING entry (R108, R109, R110): an append below the max length, which may set the full-reached
flag and, under policy COMPLETE, complete the entry; at the max length, a refusal under STOP and a drop of the
oldest code under ROLL. (A COLLECTING entry at its max length has policy STOP or ROLL, R109; a state in which it
had policy COMPLETE would be refused as under STOP.) -/
def Entry.hold (c : Code) (modeSecret : Bool) (e : Entry) : Entry × ActionOutcome :=
  if e.buffer.length < e.maxLength then
    let held := { e with buffer := e.buffer ++ [c], secret := e.secret || modeSecret }
    if held.buffer.length = e.maxLength ∧ e.fullReached = false then
      let full := { held with fullReached := true }
      match e.policy with
      | .stop => (full, { ActionOutcome.plain with newMode := e.fullMode })
      | .roll => (full, { ActionOutcome.plain with newMode := e.fullMode })
      | .complete =>
        (full.completed, { ActionOutcome.plain with
          newMode := firstMode e.endMode e.fullMode, notice := .some full.completed.completeNotice })
    else (held, ActionOutcome.plain)
  else
    match e.policy with
    | .stop => (e, { ActionOutcome.plain with refused := true, tally := .refusal })
    | .roll =>
      ({ e with buffer := e.buffer.drop 1 ++ [c], secret := e.secret || modeSecret }, ActionOutcome.plain)
    | .complete => (e, { ActionOutcome.plain with refused := true, tally := .refusal })

/-- COMPLETE on a COLLECTING entry (R112). -/
def Entry.complete (e : Entry) : Entry × ActionOutcome :=
  if e.minLength ≤ e.buffer.length then
    (e.completed, { ActionOutcome.plain with newMode := e.endMode, notice := .some e.completed.completeNotice })
  else (e, { ActionOutcome.plain with refused := true, tally := .refusal })

/-- The action step (R81 to R84, R108 to R113) on the position's entry as it stands; CLEAR_ENTRY also has PU clear
the echo field. DISCARD and FORWARD are not handed to EC. -/
def entryAction (p : Pos) (c : Code) (modeSecret : Bool) (a : Action) (s : State) : State × ActionOutcome :=
  match a with
  | .discard => (s, ActionOutcome.plain)
  | .forward => (s, ActionOutcome.plain)
  | .hold =>
    match s.entry.get p with
    | .some e =>
      match e.state with
      | .collecting => (s.putEntry p (.some (e.hold c modeSecret).1), (e.hold c modeSecret).2)
      | .complete => (s, { ActionOutcome.plain with tally := .strayHold })
    | .none => (s, { ActionOutcome.plain with tally := .strayHold })
  | .eraseLast =>
    match s.entry.get p with
    | .some e =>
      match e.state with
      | .collecting => (s.putEntry p (.some { e with buffer := e.buffer.dropLast }), ActionOutcome.plain)
      | .complete => (s, ActionOutcome.plain)
    | .none => (s, ActionOutcome.plain)
  | .clearEntry =>
    match s.entry.get p with
    | .some e =>
      match e.state with
      | .collecting =>
        ((s.putEntry p (.some { e with buffer := [], fullReached := false })).onPu p PromptUnit.resetEcho,
          ActionOutcome.plain)
      | .complete => (s, ActionOutcome.plain)
    | .none => (s, ActionOutcome.plain)
  | .complete =>
    match s.entry.get p with
    | .some e =>
      match e.state with
      | .collecting => (s.putEntry p (.some e.complete.1), e.complete.2)
      | .complete => (s, { ActionOutcome.plain with refused := true })
    | .none => (s, { ActionOutcome.plain with refused := true })
  | .cancel =>
    match s.entry.get p with
    | .some e =>
      (s.putEntry p .none,
        { ActionOutcome.plain with newMode := e.endMode, notice := .some (.cancelled e.buffer.length e.secret) })
    | .none => (s, ActionOutcome.plain)

/-! ### Timers -/

/-- The IF tells EC that a keypad code of the position has entered: the inter-key timer of a COLLECTING entry that
has an inter-key timeout is loaded (R46, R115). -/
def keyEntered (p : Pos) (s : State) : State :=
  match s.entry.get p with
  | .none => s
  | .some e =>
    match e.state, e.interkeyTimeout with
    | .collecting, .some t => s.putEntry p (.some { e with interkeyTimer := .running (t * 100) })
    | _, _ => s

/-- INTERKEY_EXPIRY (R115): the timer stops and INTERKEY_LAPSE is raised. -/
def execInterkeyExpiry (p : Pos) (s : State) : Host.Outcome State Fault Refusal :=
  match s.entry.get p with
  | .none => .next s
  | .some e =>
    if e.interkeyTimer.due then
      .next (judgePressure s (admitSynth p .interkeyLapse (s.putEntry p (.some { e with interkeyTimer := .stopped }))))
    else .next s

/-- TOTAL_TIMER_EXPIRY (R116): the entry ends with cause EXPIRED, its end mode is written, ENTRY_ENDED is owed. -/
def execTotalTimerExpiry (p : Pos) (s : State) : Host.Outcome State Fault Refusal :=
  match s.entry.get p with
  | .none => .next s
  | .some e =>
    if e.totalTimer.due then
      let mode := e.endMode.getD (s.pos.get p).mode
      .next (postExpired p e.buffer.length e.secret mode
        ((s.putEntry p .none).onPos p fun r => { r with mode := mode }))
    else .next s

/-! ### The requests -/

/-- A mode field that may be absent: absent, a mode, or a value above 7 (R105, R186). -/
def optMode (b : Byte) : Option (Option Mode) :=
  if b = 0xFF then .some .none
  else
    match below 8 b with
    | .none => .none
    | .some m => .some (.some m)

/-- The full policy of an encoding (R103, R186). -/
def policyOf : Nat → Option FullPolicy
  | 0 => .some .stop
  | 1 => .some .roll
  | 2 => .some .complete
  | _ => .none

/-- The entry that an accepted COLLECT begins (R106, R107). -/
def newEntry (secret : Bool) (minLen maxLen : Nat) (policy : FullPolicy) (fullMode endMode : Option Mode)
    (interkey : Option Nat) (total : Nat) (now : BitVec 32) : Entry :=
  { state := .collecting, secret := secret, buffer := [], minLength := storedMin minLen maxLen,
    maxLength := storedMax maxLen, policy := policy, fullMode := fullMode, endMode := endMode,
    interkeyTimeout := storedInterkey interkey, totalTimeout := storedTotal total, interkeyTimer := .stopped,
    totalTimer := .running (storedTotal total * 100), fullReached := false, startTime := now, presented := false }

/-- COLLECT (R105 to R107). -/
def doCollect (payload : List Byte) (s : State) : State × Answer :=
  match payload with
  | [pb, sm, mn, mx, pol, fm, em, i1, i0, t1, t0] =>
    match below 16 pb, optWord t1 t0 with
    | .some p, .some total =>
      match below 8 sm, policyOf pol.toNat, optMode fm, optMode em with
      | .some start, .some policy, .some fullMode, .some endMode =>
        if !s.isOpen p then (s, .no .positionClosed [])
        else if s.tables.isOpen (s.pos.get p).bank then (s, .no .bankWriting [])
        else if s.entryCollecting p then (s, .no .wrongState [])
        else
          let secret := (s.tables.readDescriptor (s.pos.get p).bank start).secret
          let e := newEntry secret mn.toNat mx.toNat policy fullMode endMode (optWord i1 i0) total s.timeCount
          (((s.putEntry p (.some e)).onPos p fun r => { r with mode := start }).onPu p PromptUnit.resetEcho,
            .stored (collectAdjusted mn.toNat mx.toNat (optWord i1 i0) total)
              (u8 e.minLength ++ u8 e.maxLength ++ optU16 e.interkeyTimeout ++ u16 e.totalTimeout ++
                yesNo (s.entry.get p).isSome ++ yesNo secret))
      | _, _, _, _ => (s, .no .badValue [])
    | _, _ => (s, .no .badRecord [])
  | _ => (s, .no .badRecord [])

/-- The fields of COLLECT_STATUS after the state and the current mode (R117). -/
def entryFields (now : BitVec 32) : Option Entry → List Byte
  | .none =>
    u8 0 ++ yesNo false ++ yesNo false ++ yesNo false ++ u8 0 ++ u8 0 ++ u8 0 ++ optU8 .none ++ optU8 .none ++
      optU16 .none ++ u16 0 ++ u32 0 ++ optU16 .none ++ u32 0
  | .some e =>
    u8 e.buffer.length ++ yesNo e.secret ++ yesNo e.fullReached ++ yesNo e.presented ++ u8 e.minLength ++
      u8 e.maxLength ++ u8 e.policy.index ++ optU8 (e.fullMode.map Fin.val) ++ optU8 (e.endMode.map Fin.val) ++
      optU16 e.interkeyTimeout ++ u16 e.totalTimeout ++ u32 (now - e.startTime).toNat ++
      optU16 e.interkeyTimer.remaining ++ u32 (e.totalTimer.remaining.getD 0)

/-- COLLECT_STATUS (R117). -/
def doCollectStatus (payload : List Byte) (s : State) : State × Answer :=
  match payload with
  | [pb] =>
    match below 16 pb with
    | .none => (s, .no .badRecord [])
    | .some p =>
      (s, .ok (u8 (entryStateIndex (s.entry.get p)) ++ u8 (s.pos.get p).mode.val ++
        entryFields s.timeCount (s.entry.get p)))
  | _ => (s, .no .badRecord [])

/-- COLLECT_STOP (R118). The codes of a plain entry follow as they are (notes/assumptions/8). -/
def doCollectStop (payload : List Byte) (s : State) : State × Answer :=
  match payload with
  | [pb] =>
    match below 16 pb with
    | .none => (s, .no .badRecord [])
    | .some p =>
      match s.entry.get p with
      | .none => (s, .no .noEntry [])
      | .some e =>
        match e.state with
        | .complete => (s, .no .noEntry [])
        | .collecting =>
          (s.putEntry p .none,
            .ok (u8 e.buffer.length ++ yesNo e.secret ++ (e.openCodes.getD []).map codeByte))
  | _ => (s, .no .badRecord [])

/-- ENTRY_READ (R119). -/
def doEntryRead (payload : List Byte) (s : State) : State × Answer :=
  match payload with
  | [pb] =>
    match below 16 pb with
    | .none => (s, .no .badRecord [])
    | .some p =>
      match s.entry.get p with
      | .none => (s, .no .noEntry [])
      | .some e =>
        match e.state with
        | .collecting => (s, .no .noEntry [])
        | .complete =>
          if e.secret then (s, .no .entrySecret [])
          else (s, .ok (u8 e.buffer.length ++ e.buffer.map codeByte))
  | _ => (s, .no .badRecord [])

/-- ENTRY_WIPE (R120). -/
def doEntryWipe (payload : List Byte) (s : State) : State × Answer :=
  match payload with
  | [pb] =>
    match below 16 pb with
    | .none => (s, .no .badRecord [])
    | .some p => (s.putEntry p .none, .ok (u8 (entryStateIndex (s.entry.get p))))
  | _ => (s, .no .badRecord [])

/-! ### Presentation -/

/-- The presentation wipe (R121, R167): an entry with presented yes ends with cause PRESENTED. -/
def wipePresented (p : Pos) (s : State) : State :=
  match s.entry.get p with
  | .none => s
  | .some e => if e.presented then s.putEntry p .none else s

/-- An entry that a presentation's frame can carry (R160): COMPLETE, secret, 4 to 12 codes, all digits. -/
def Entry.presentable (e : Entry) : Bool :=
  decide (e.state = .complete) && e.secret && decide (4 ≤ e.buffer.length) && decide (e.buffer.length ≤ 12) &&
    e.buffer.all isDigit

end Sys2Proof.Machine
end

