-- ==== Sys2Proof/Machine/KeypadBuses.lean ====
section
/-! DEFINITION. Keypad Buses (chapter 2): rounds and visits, the poll, its reply and its miss, the receiver, presence, the counter
reset of a bus, and the requests BUS_SET and BUS_STATUS. -/

namespace Sys2Proof.Machine

open Sys2Proof

/-- The address `a` of bus `g` changed by `f`. -/
def State.onAddr (g : Group) (a : Addr) (f : AddrState → AddrState) (s : State) : State :=
  s.onBus g fun b => { b with addrs := b.addrs.modify a f }

/-! ### Rounds and visits -/

/-- A round of a bus starts (R20, R21): the counter rises but for the first round after a reset, the four addresses
are to visit, and pending settings take effect with a fresh load of the round timer. -/
def Bus.startRound (first : Bool) (b : Bus) : Bus :=
  let c := { b with
    roundCounter := if first then b.roundCounter else b.roundCounter + 1, round := .inProgress 4 }
  match c.pending with
  | .none => c
  | .some ps => { c with settings := ps, pending := .none, roundTimer := .running ps.period }

/-- What R23 decides at a visit. -/
inductive PollDecision where
  | poll
  | skip
  | skipThinning
  deriving DecidableEq, Repr

/-- The first row of R23's table whose condition holds. -/
def whomToPoll (pressure : Pressure) (collecting closed : Bool) (roundCounter : BitVec 16) (t : Nat) (d : AddrState) :
    PollDecision :=
  if pressure = .high ∧ collecting = false then .skip
  else if closed = true ∨ d.presence ≠ .online then (if roundCounter.toNat % 16 = 0 then .poll else .skip)
  else if collecting then .poll
  else if d.quiet < 8 then .poll
  else if t ≤ d.thinning then .poll
  else .skipThinning

/-- R26's admission of a poll. -/
def admitsPoll (f : Intake) : Bool := decide (Config.pollPlaces + f.flagCount ≤ f.free)

/-- The poll the KBC sends to an address (R28). -/
def newPoll (g : Group) (a : Addr) (s : State) : Poll :=
  let b := s.bus.get g
  let u := s.pu.get (posAt g a)
  { addr := a, taken := (b.addrs.get a).lastSeq.getD true, beep := u.beep,
    carried := if u.dirty then .some (u.number, u.content) else .none,
    reserved := Config.pollPlaces, rate := b.settings.rate, window := b.settings.window, phase := .sending,
    disowned := false }

/-- A poll is sent (R25, R27, R28): the thinning counter is 0, 5 places are reserved, the beep leaves PU. -/
def sendPoll (g : Group) (a : Addr) (s : State) : State :=
  (((s.onAddr g a fun d => { d with thinning := 0 }).onBus g fun b => { b with poll := .some (newPoll g a s) }).onPu
    (posAt g a) fun u => { u with beep := .none }).onIntake fun f =>
      { f with reserved := f.reserved + Config.pollPlaces }

/-- A visit of an address (R22 to R26): the quiet counter rises, held at 8, and the address is skipped, held back or
polled. -/
def visit (g : Group) (a : Addr) (s : State) : State :=
  let t := s.onAddr g a fun d => { d with quiet := holdAt 8 d.quiet }
  let b := t.bus.get g
  let p := posAt g a
  match whomToPoll t.intake.pressure (t.collecting p) (!t.isOpen p) b.roundCounter b.settings.thinning
      (b.addrs.get a) with
  | .skip => t
  | .skipThinning => t.onAddr g a fun d => { d with thinning := holdAt 15 d.thinning }
  | .poll => if admitsPoll t.intake then sendPoll g a t else t

/-- The round goes on with so many addresses to visit, in descending order, until a poll is sent or the round
finishes (R22). A visit that is skipped or held back and the next one are made in one event (notes/assumptions/25). -/
def runVisits (g : Group) : Nat → State → State
  | 0, s => s.onBus g fun b => { b with round := .finished }
  | n + 1, s =>
    let t := visit g ⟨n % 4, Nat.mod_lt n (by decide)⟩ (s.onBus g fun b => { b with round := .inProgress n })
    match (t.bus.get g).poll with
    | .some _ => t
    | .none => runVisits g n t

/-- The visits, and the round that follows at once when round due is set as the round finishes (R21). -/
def continueRound (g : Group) (n : Nat) (s : State) : State :=
  let t := runVisits g n s
  if (t.bus.get g).round = .finished ∧ (t.bus.get g).roundDue = true then
    runVisits g 4 (t.onBus g fun b => { b with roundDue := false }.startRound false)
  else t

/-- The first round after a reset starts (R21, R40). -/
def firstRound (g : Group) (s : State) : State := continueRound g 4 (s.onBus g (Bus.startRound true))

/-- ROUND_TIMER_EXPIRY (R21): the periodic timer is reloaded; the next round starts, or round due is set. -/
def execRoundTimerExpiry (g : Group) (s : State) : Host.Outcome State Fault Refusal :=
  if (s.bus.get g).roundTimer.due then
    let t := s.onBus g fun b => { b with roundTimer := .running b.settings.period }
    match (t.bus.get g).round with
    | .finished => .next (judgePressure s (continueRound g 4 (t.onBus g (Bus.startRound false))))
    | .inProgress _ => .next (t.onBus g fun b => { b with roundDue := true })
  else .next s

/-! ### The sending of a poll -/

/-- The level of the bus's direction output (R17): the KBC drives while it sends a poll. A pin's level, computed from
the state. -/
def Bus.driving (b : Bus) : Bool :=
  match b.poll with
  | .none => false
  | .some q => decide (q.phase = .sending)

/-- The response window is loaded with the window of the poll (R29). -/
def Bus.loadWindow (q : Poll) (b : Bus) : Bus := { b with poll := .some q, windowTimer := .running q.window }

/-- POLL_LAST_BYTE_LEAVES (R29): the driver is released and the response window is loaded. -/
def execPollLastByteLeaves (g : Group) (s : State) : Host.Outcome State Fault Refusal :=
  match (s.bus.get g).poll with
  | .none => .next s
  | .some q =>
    match q.phase with
    | .sending => .next (s.onBus g (Bus.loadWindow { q with phase := .awaiting }))
    | .awaiting | .receiving _ | .overlong => .next s

/-! ### The end of a poll -/

/-- The poll in flight is absent and its window stopped. -/
def Bus.endPoll (b : Bus) : Bus := { b with poll := .none, windowTimer := .stopped }

/-- The KBC moves on after a poll: to the next address, or to the end of the round (R22, R37). -/
def nextVisit (g : Group) (s : State) : State :=
  match (s.bus.get g).round with
  | .inProgress n => continueRound g n s
  | .finished => s

/-- A keypad goes OFFLINE (R38): the last accepted sequence is none and the alarm state clear. -/
def AddrState.goOffline (d : AddrState) : AddrState := { d with presence := .offline, lastSeq := .none, alarm := false }

/-- A poll ends as a miss (R31). -/
def missPoll (g : Group) (q : Poll) (checkFailed : Bool) (s : State) : State :=
  let p := posAt g q.addr
  let counted := (s.onPos p fun r =>
      { r with misses := sat16 r.misses, checkErrors := if checkFailed then sat16 r.checkErrors else r.checkErrors }).onAddr
    g q.addr fun d => { d with misses := holdAt 3 d.misses }
  let d := (counted.bus.get g).addrs.get q.addr
  let lost := decide (d.presence = .online ∧ d.misses = 3)
  let moved := if lost then postKeypadState p .offline (counted.onAddr g q.addr AddrState.goOffline) else counted
  let released := (moved.onIntake fun f => f.release q.reserved).onBus g Bus.endPoll
  if lost then admitSynth p .keypadLost released else released

/-- The judgement of a valid reply's batch (R32). -/
inductive BatchJudgement where
  | accepted
  | resend
  | empty
  deriving DecidableEq, Repr

/-- R32's table. -/
def judgeBatch (r : Reply) (lastSeq : Option Bool) : BatchJudgement :=
  if r.codes = [] then .empty
  else if lastSeq = .some r.seq then .resend
  else .accepted

/-- Step 3 of R37: the last accepted sequence and the quiet counter for an accepted batch, the duplicates counter
for a resend (R24, R32). -/
def noteBatch (g : Group) (a : Addr) (r : Reply) (j : BatchJudgement) (s : State) : State :=
  match j with
  | .accepted => s.onAddr g a fun d => { d with lastSeq := .some r.seq, quiet := 0 }
  | .resend => s.onPos (posAt g a) fun rec0 => { rec0 with duplicates := sat16 rec0.duplicates }
  | .empty => s

/-- One key code counted and told to EC (R33, R115). -/
def countKey (p : Pos) (s : State) (_ : Code) : State :=
  keyEntered p (s.onPos p fun r => { r with keysEntered := sat16 r.keysEntered })

/-- Steps 4 and 5 of R37: the codes of an accepted batch of an OPEN position enter under the reservation, what they
do not use is released, and the poll in flight is absent (R27, R33, R46, R47). -/
def takeBatch (g : Group) (q : Poll) (r : Reply) (j : BatchJudgement) (s : State) : State :=
  let p := posAt g q.addr
  let entered :=
    if s.isOpen p = true ∧ j = .accepted then
      r.keys.foldl (countKey p) (s.onIntake fun f => f.enterBatch p r.keys q.reserved)
    else s.onIntake fun f => f.release q.reserved
  entered.onBus g Bus.endPoll

/-- Step 7 of R37: the alarm flag against the alarm state, and KEYPAD_ALARM at an edge (R35). -/
def noteAlarm (g : Group) (a : Addr) (alarm : Bool) (s : State) : State :=
  let t := s.onAddr g a fun d => { d with alarm := alarm }
  if alarm = true ∧ ((s.bus.get g).addrs.get a).alarm = false then admitSynth (posAt g a) .keypadAlarm t else t

/-- Step 8 of R37: display-applied for the content carried, when that is still PU's content (R36). -/
def noteDisplay (p : Pos) (q : Poll) (applied : Bool) (s : State) : State :=
  match q.carried with
  | .none => s
  | .some (n, _) => if applied = true ∧ (s.pu.get p).number = n then s.onPu p PromptUnit.applied else s

/-- A valid reply (R37). -/
def validReply (g : Group) (q : Poll) (r : Reply) (s : State) : State :=
  let p := posAt g q.addr
  let heard := s.onAddr g q.addr fun d => { d with misses := 0 }
  let back := decide (((s.bus.get g).addrs.get q.addr).presence ≠ .online)
  let online :=
    if back then postKeypadState p .online (heard.onAddr g q.addr fun d => { d with presence := .online }) else heard
  let j := judgeBatch r ((online.bus.get g).addrs.get q.addr).lastSeq
  let taken := takeBatch g q r j (noteBatch g q.addr r j online)
  let returned := if back then admitSynth p .keypadBack taken else taken
  noteDisplay p q r.applied (noteAlarm g q.addr r.alarm returned)

/-- The end of a disowned poll (R40): round 0 starts, with the round timer loaded. -/
def endDisowned (g : Group) (s : State) : State :=
  firstRound g (s.onBus g fun b => { b.endPoll with roundTimer := .running b.settings.period })

/-- The end of a poll by a complete reply (R30, R37, R40). -/
def replyEnds (g : Group) (q : Poll) (r : Reply) (s : State) : State :=
  if q.disowned then endDisowned g s
  else if r.valid q.addr then nextVisit g (validReply g q r s)
  else nextVisit g (missPoll g q (!r.checkOk) s)

/-! ### The receiver of a bus -/

/-- A byte arrives on a keypad bus (R29): before the reply only the sync byte counts; within it every byte reloads the
window, and the byte that completes it has it judged, ending the poll. While the KBC drives the bus, or with no poll in
flight, there is nothing to receive. -/
def replyByte (g : Group) (s : State) (byte : Byte) : State :=
  match (s.bus.get g).poll with
  | .none => s
  | .some q =>
    match q.phase with
    | .sending => s
    | .awaiting => if byte = keypadSync then s.onBus g (Bus.loadWindow { q with phase := .receiving [] }) else s
    | .receiving got =>
      let t := s.onBus g (Bus.loadWindow { q with phase := replyPhase (got ++ [byte]) })
      match readReply (got ++ [byte]) with
      | .none => t
      | .some r => judgePressure t (replyEnds g q r t)
    | .overlong => s.onBus g (Bus.loadWindow q)

/-- The bytes of a reply arrive: from its sync byte on, unless KEYPAD_REPLY_BYTE has just brought that byte
(notes/assumptions/5). `bytes` are those after the sync byte. -/
def replyArrives (g : Group) (bytes : List Byte) (s : State) : State :=
  (if (s.bus.get g).poll.map Poll.phase = .some (.receiving []) then bytes else keypadSync :: bytes).foldl
    (replyByte g) s

/-- KEYPAD_REPLY_BYTE (R29): one byte arrives; the last of a reply has it judged as KEYPAD_REPLY does. -/
def execKeypadReplyByte (g : Group) (byte : Byte) (s : State) : Host.Outcome State Fault Refusal :=
  .next (replyByte g s byte)

/-- KEYPAD_REPLY (R29, R30, R37): a reply arrives, and the receiver judges it as its last check byte arrives. -/
def execKeypadReply (g : Group) (reply : List Byte) (s : State) : Host.Outcome State Fault Refusal :=
  .next (replyArrives g reply s)

/-- RESPONSE_WINDOW_EXPIRY (R31): the poll ends as a miss, or, disowned, with no effect but round 0 (R40). -/
def execResponseWindowExpiry (g : Group) (s : State) : Host.Outcome State Fault Refusal :=
  match (s.bus.get g).poll with
  | .none => .next s
  | .some q =>
    if (s.bus.get g).windowTimer.due then
      .next (judgePressure s
        (if q.disowned then endDisowned g s else nextVisit g (missPoll g q false s)))
    else .next s

/-! ### Counter reset (R40) -/

/-- A bus at a counter reset: the values of R17 and R18; a poll in flight is disowned, and until its end the round is
finished and the round timer stopped. -/
def Bus.counterReset (b : Bus) : Bus :=
  match b.poll with
  | .none => Bus.initial
  | .some q =>
    { Bus.initial with
      round := .finished, roundTimer := .stopped, windowTimer := b.windowTimer,
      poll := .some { q with disowned := true, reserved := 0 } }

/-- Round 0 starts at the reset itself on a bus with no poll in flight (R21, R40). -/
def startAtReset (s : State) (g : Group) : State :=
  match (s.bus.get g).poll with
  | .some _ => s
  | .none => firstRound g s

/-! ### The requests -/

/-- The rates of a keypad bus (R19). -/
def busRates : List Nat := [9600, 19200, 38400, 57600]

/-- The four settings of a bus as fields (R19, R186). -/
def busSettingsField (b : BusSettings) : List Byte := u32 b.rate ++ u16 b.period ++ u16 b.window ++ u8 b.thinning

/-- BUS_SET (R19). -/
def doBusSet (payload : List Byte) (s : State) : State × Answer :=
  match payload with
  | [gb, r3, r2, r1, r0, p1, p0, w1, w0, t] =>
    match below 4 gb with
    | .none => (s, .no .badRecord [])
    | .some g =>
      let rate := be32 r3 r2 r1 r0
      if rate ∉ busRates then (s, .no .badValue [])
      else
        let ps := clampBus rate (be16 p1 p0) (be16 w1 w0) t.toNat
        (s.onBus g fun b => { b with pending := .some ps },
          .stored (clampBusAdjusted (be16 p1 p0) (be16 w1 w0) t.toNat) (busSettingsField ps))
  | _ => (s, .no .badRecord [])

/-- Pending settings behind their presence byte (R186). -/
def pendingBusField : Option BusSettings → List Byte
  | .none => List.replicate 10 0
  | .some ps => [1] ++ busSettingsField ps

/-- A sequence bit or none (R41, R186). -/
def seqField : Option Bool → List Byte
  | .none => [0xFF]
  | .some q => yesNo q

/-- BUS_STATUS (R41). A disowned poll is reported as the poll in flight (notes/assumptions/26). -/
def doBusStatus (payload : List Byte) (s : State) : State × Answer :=
  match payload with
  | [gb] =>
    match below 4 gb with
    | .none => (s, .no .badRecord [])
    | .some g =>
      let b := s.bus.get g
      let each (f : AddrState → List Byte) : List Byte := b.addrs.toList.flatMap f
      (s, .ok (busSettingsField b.settings ++ pendingBusField b.pending ++ u16 b.roundCounter.toNat ++
        u8 b.round.index ++ yesNo b.roundDue ++ optU8 (b.poll.map fun q => q.addr.val) ++
        each (fun d => u8 d.presence.index) ++ each (fun d => seqField d.lastSeq) ++ each (fun d => u8 d.misses) ++
        each (fun d => u8 d.quiet) ++ each (fun d => u8 d.thinning) ++ each (fun d => yesNo d.alarm)))
  | _ => (s, .no .badRecord [])

end Sys2Proof.Machine
end

