-- ==== Sys2Proof/Machine/Engine.lean ====
section
/-! DEFINITION. The Disposition Engine (chapter 5) and the Attention Slot (chapter 6): withdrawal, lookup, the
application of a disposition, the raise of an attention and its ends, and the requests ATTENTION_SET and ATTEND. -/

namespace Sys2Proof.Machine

open Sys2Proof

/-! ### Application of a disposition -/

/-- The descriptor of the position's current mode in its selected bank (R76, R77). -/
def State.descriptor (s : State) (p : Pos) : Descriptor :=
  s.tables.readDescriptor (s.pos.get p).bank (s.pos.get p).mode

/-- Secret context (R77), on the state as it stands. -/
def State.secretContext (s : State) (p : Pos) : Bool := s.entrySecret p || (s.descriptor p).secret

/-- The action after the clamp of R78. -/
def clampAction (secret : Bool) (c : Code) (a : Action) : Action :=
  if secret = true ∧ isDigit c = true ∧ a = .forward then .hold else a

/-- The echo after the clamp of R78. -/
def clampEcho (secret : Bool) (c : Code) (e : Echo) : Echo :=
  if secret = true ∧ isDigit c = true ∧ e = .char then .mask else e

/-- The counter of the position that an outcome increments (R83, R84). -/
def PosRecord.tally (t : Tally) (r : PosRecord) : PosRecord :=
  match t with
  | .none => r
  | .strayHold => { r with strayHolds := sat16 r.strayHolds }
  | .refusal => { r with refusals := sat16 r.refusals }

/-- The notice an application posts (R89). `length` and `secret` are the entry's after the action, and
`lengthBefore` its length before. -/
def applicationNotice (p : Pos) (c : Code) (a : Action) (report collecting secret : Bool) (lengthBefore length : Nat)
    (modeAfter : Mode) (n : Option EntryNotice) : Option AppNotice :=
  match a, n with
  | .forward, _ => .some (.key p c modeAfter)
  | _, .some (.completed len sec codes) => .some (.entryComplete p len sec codes)
  | _, .some (.cancelled len sec) => .some (.entryCancelled p len sec modeAfter)
  | _, .none =>
    if report = true ∧ collecting = true ∧ length ≠ lengthBefore then .some (.entryProgress p length secret)
    else .none

/-- What an application did, for the blocks that report it (R97, R99). -/
structure Applied where
  action : Action
  refused : Bool
  secretContext : Bool
  notice : Option AppNotice
  deriving DecidableEq, Repr

/-- The beep an outcome sets (R86). -/
def beepStep (refused : Bool) (b : Beep) : Beep := if refused then .long else b

/-- The echo of an outcome: suppressed when the action was refused (R85). -/
def echoStep (refused : Bool) (e : Echo) : Echo := if refused then .none else e

/-- The application of a disposition in its five steps (R80): action, echo, beep, mode, report. Secret context and
the mask are determined before the first step, on the state as it stands. The notice is returned to the caller,
which posts it at the end of the application (R89) or reports it inside ATTENTION_LAPSED (R98). -/
def applyDisposition (p : Pos) (c : Code) (d : Disposition) (s : State) : State × Applied :=
  let secret := s.secretContext p
  let desc := s.descriptor p
  let action := clampAction secret c d.action
  let acted := entryAction p c desc.secret action s
  let out := acted.2
  let mode := out.newMode.getD d.nextMode
  let t := ((acted.1.onPos p (PosRecord.tally out.tally)).onPu p fun u =>
      (u.echo (echoStep out.refused (clampEcho secret c d.echo)) c desc.mask).setBeep
        (beepStep out.refused d.beep)).onPos p fun r => { r with mode := mode }
  (t, { action := action, refused := out.refused, secretContext := secret,
        notice := applicationNotice p c action d.report (t.entryCollecting p) (t.entrySecret p) (s.entryLength p)
          (t.entryLength p) mode out.notice })

/-- A notice, if there is one, posted from the engine's reservation (R89). -/
def postApplied (n : Option AppNotice) (s : State) : State :=
  match n with
  | .none => s
  | .some a => postReserved (.app a) s

/-! ### Attention -/

/-- The reported code of an attention (R93). -/
def reportedCode (masked : Bool) (c : Code) : Byte := if masked then 0xFF else codeByte c

/-- The reported code after an application (R97, R99): also masked when the code is a digit and the application
found secret context. -/
def reportedAfter (a : Attention) (secret : Bool) : Byte := reportedCode (a.masked || (isDigit a.code && secret)) a.code

/-- The raise of an attention (R79, R93, R94): the record is filled, the lapse timer is loaded and ATTENTION is
posted from the reservation. No part of the disposition is applied. -/
def raiseAttention (e : IntakeEntry) (d : Disposition) (s : State) : State :=
  let mode := (s.pos.get e.pos).mode
  let masked := isDigit e.code && s.secretContext e.pos
  let number := s.attn.number + 1
  let rec0 : Attention :=
    { number := number, pos := e.pos, code := e.code, masked := masked, origin := e.origin, modeAtRaise := mode,
      held := d, raiseTime := s.timeCount }
  postReserved
    (.attention number e.pos (reportedCode masked e.code) e.origin mode d s.attn.window)
    (s.onAttn fun a => { a with record := .some rec0, lapseTimer := .running a.window, number := number })

/-- The record of an attention is removed and its lapse timer stops (R92). -/
def dropAttention (s : State) : State := s.onAttn fun a => { a with record := .none, lapseTimer := .stopped }

/-! ### Withdrawal -/

/-- The OQ grants the reservation: no owed flag is set and 2 slots are free (R178). -/
def grantable (s : State) : Bool := !anyOwed s && decide (Config.engineSlots ≤ s.oq.freeSlots)

/-- Whether the disposition of an intake entry raises attention (R79). -/
def raisesAttention (c : Code) (d : Disposition) : Bool := d.attention || decide (c = Synth.keypadAlarm.code)

/-- The processing of a withdrawn entry (R75, R76, R79, R80), its reservation already granted. -/
def processEntry (e : IntakeEntry) (s : State) : State :=
  if e.void = true ∨ s.isOpen e.pos = false then releaseReservation s
  else
    let d := s.tables.readEntry (s.pos.get e.pos).bank (s.pos.get e.pos).mode e.code
    if raisesAttention e.code d then raiseAttention e d s
    else
      let r := applyDisposition e.pos e.code d s
      releaseReservation (postApplied r.2.notice r.1)

/-- A withdrawal (R50, R73, R74): the head entry leaves the IF, its place serves pending flags, and the entry is
processed under a reservation of 2 slots. -/
def withdraw (e : IntakeEntry) (rest : List IntakeEntry) (s : State) : State :=
  processEntry e ((s.onOq fun q => { q with reservation := q.reservation + Config.engineSlots }).onIntake fun f =>
    Intake.serveFlags { f with entries := rest })

/-- WITHDRAWAL (R73), when the DE is READY, the IF is not empty and 2 slots are granted. The application's notice, or
ATTENTION, is queued ahead of the FIFO_PRESSURE that the event's end brings (notes/assumptions/27). -/
def execWithdrawal (s : State) : Host.Outcome State Fault Refusal :=
  match s.intake.entries with
  | [] => .next s
  | e :: rest =>
    if s.halted = false ∧ grantable s = true then .next (judgePressure s (withdraw e rest s)) else .next s

/-! ### The ends of an attention -/

/-- LAPSE_TIMER_EXPIRY (R98, R99): the held disposition is applied, ATTENTION_LAPSED is posted from the reservation's
remaining slot with the application's outcome inside it, and the attention ends. -/
def execLapseTimerExpiry (s : State) : Host.Outcome State Fault Refusal :=
  match s.attn.record with
  | .none => .next s
  | .some a =>
    if s.attn.lapseTimer.due then
      let r := applyDisposition a.pos a.code a.held s
      .next (releaseReservation (postReserved
        (.attentionLapsed a.number a.pos (reportedAfter a r.2.secretContext) r.2.action r.2.refused
          (r.1.pos.get a.pos).mode r.2.notice)
        (dropAttention r.1)))
    else .next s

/-- The attention of a closed or reset position is voided (R100): nothing is applied and nothing posted. -/
def voidAttention (p : Pos) (s : State) : State :=
  match s.attn.record with
  | .none => s
  | .some a => if a.pos = p then releaseReservation (dropAttention s) else s

/-- The position owns the outstanding attention. -/
def ownsAttention (p : Pos) (s : State) : Bool :=
  match s.attn.record with
  | .none => false
  | .some a => decide (a.pos = p)

/-- ATTENTION_SET (R95). -/
def doAttentionSet (payload : List Byte) (s : State) : State × Answer :=
  match payload with
  | [w1, w0] =>
    let w := clamp 50 10000 (be16 w1 w0)
    (s.onAttn fun a => { a with window := w }, .stored (decide (w ≠ be16 w1 w0)) (u16 w))
  | _ => (s, .no .badRecord [])

/-- The actions of ATTEND (R96). -/
inductive AttendAction where
  | apply
  | replace
  | discard
  deriving DecidableEq, Repr

/-- The action of an encoding: APPLY, REPLACE, DISCARD (R96, R186). -/
def attendActionOf : Nat → Option AttendAction
  | 0 => .some .apply
  | 1 => .some .replace
  | 2 => .some .discard
  | _ => .none

/-- The number, action byte and replacement of an ATTEND payload; the presence of the replacement is read from the
payload length (R186). -/
def readAttend : List Byte → Option (BitVec 16 × Byte × Option (Byte × Byte))
  | [n1, n0, a] => .some (BitVec.ofNat 16 (be16 n1 n0), a, .none)
  | [n1, n0, a, d0, d1] => .some (BitVec.ofNat 16 (be16 n1 n0), a, .some (d0, d1))
  | _ => .none

/-- The disposition "DISCARD, next mode unchanged, no echo, no beep" (R90). -/
def discardUnchanged (mode : Mode) : Disposition := ⟨mode, .discard, .none, .none, false, false⟩

/-- The fields of NO_ATTENTION (R96): whether a record is present, and its number or 0. -/
def attentionPresent (a : Option Attention) : List Byte :=
  match a with
  | .none => yesNo false ++ u16 0
  | .some r => yesNo true ++ u16 r.number.toNat

/-- The resolution of an attention by a disposition (R90, R96, R97). -/
def resolve (a : Attention) (d : Disposition) (s : State) : State × Answer :=
  let r := applyDisposition a.pos a.code d s
  let t := releaseReservation (postApplied r.2.notice (dropAttention r.1))
  (t, .ok (u16 a.number.toNat ++ u8 a.pos.val ++ [reportedAfter a r.2.secretContext] ++
    u16 (s.timeCount - a.raiseTime).toNat ++ u8 r.2.action.index ++ yesNo r.2.refused ++
    u8 (entryStateIndex (r.1.entry.get a.pos)) ++ u8 (r.1.entryLength a.pos) ++ u8 (r.1.pos.get a.pos).mode.val ++
    u8 (appNoticeIndex r.2.notice)))

/-- ATTEND (R96). -/
def doAttend (payload : List Byte) (s : State) : State × Answer :=
  match readAttend payload with
  | .none => (s, .no .badRecord [])
  | .some (number, ab, replacement) =>
    match attendActionOf ab.toNat, replacement with
    | .some .replace, .none => (s, .no .badRecord [])
    | .some .apply, .some _ => (s, .no .badRecord [])
    | .some .discard, .some _ => (s, .no .badRecord [])
    | .none, _ => (s, .no .badValue [])
    | .some act, rep =>
      match s.attn.record with
      | .none => (s, .no .noAttention (attentionPresent .none))
      | .some a =>
        if a.number ≠ number then (s, .no .noAttention (attentionPresent (.some a)))
        else
          match act, rep with
          | .apply, _ => resolve a a.held s
          | .discard, _ => resolve a (discardUnchanged (s.pos.get a.pos).mode) s
          | .replace, .some (d0, d1) =>
            match readDisposition d0 d1 with
            | .none => (s, .no .badValue [])
            | .some d => resolve a d s
          | .replace, .none => (s, .no .badRecord [])

end Sys2Proof.Machine
end

