-- ==== Sys2Proof/Machine/CardLines.lean ====
section
/-! DEFINITION. Card Lines (chapter 9), with the part of the exchange sequencer (chapter 10) that line events
reach: the transmit list and the composition of a presentation's frame, the end of an exchange, card state
changes, the loss and restoration of a line, the reader's frames, the line timers, and the requests
CARD_LINE_SET and CARD_STATUS. -/

namespace Sys2Proof.Machine

open Sys2Proof

/-! ### The line's own updates -/

/-- The line silence timer is loaded outside NO_READER while no HELLO is outstanding (R142). -/
def CardLine.loadSilence (l : CardLine) : CardLine :=
  if l.state = .noReader ∨ l.helloOut = true then l else { l with silenceTimer := .running Config.lineSilence }

/-- An opening frame still WAITING is taken out of the transmit list (R156). -/
def CardLine.dropOpening (l : CardLine) : CardLine :=
  { l with txWaiting := l.txWaiting.filter fun f => decide (f ≠ .opening) }

/-- Pending settings are applied when no frame is in transfer and no exchange is in flight (R141). -/
def CardLine.settle (inFlight : Bool) (l : CardLine) : CardLine :=
  match l.pending with
  | .none => l
  | .some ps =>
    if l.txLeaving = .none ∧ l.txWaiting = [] ∧ l.rx = .hunting ∧ inFlight = false then
      { l with settings := ps, pending := .none }
    else l

/-- What every complete frame whose check passes does (R139): it clears both consecutive counts, answers a HELLO
outstanding, and outside NO_READER loads the line silence timer. -/
def CardLine.validFrame (l : CardLine) : CardLine :=
  let m := { l with rx := .hunting, misses := 0, checkFails := 0 }
  let n := if l.helloOut then { m with helloOut := false, helloTimer := .stopped } else m
  n.loadSilence

/-- A frame the line cannot use is discarded and counted (R139, R148, R162). -/
def CardLine.late (l : CardLine) : CardLine := { l with lateFrames := sat16 l.lateFrames }

/-- A move of the card state, counted in the change count (R150). -/
def CardLine.move (st : CardState) (l : CardLine) : CardLine :=
  { l with state := st, changes := holdAt 255 l.changes }

/-- The line's pending settings, tried at the end of an event of the line (R141). -/
def settleLine (p : Pos) (s : State) : State := s.onLine p (CardLine.settle (s.inFlight p))

/-- The card state moves and CARD_STATE is posted (R150). -/
def moveCard (p : Pos) (st : CardState) (s : State) : State := postCardState p (s.onLine p (CardLine.move st))

/-! ### The end of an exchange -/

/-- The end of an exchange in flight (R166): the timer stops and a WAITING opening frame is taken out, the record
moves to RESULT_HELD, a presentation's entry is wiped, EXCHANGE_DONE is offered, and the line's silence timer is
reloaded (R142). -/
def endExchange (p : Pos) (o : ExchangeOutcome) (data : Option (List Byte)) (s : State) : State :=
  match s.xs.get p with
  | .none => s
  | .some x =>
    match x.phase with
    | .held _ _ => s
    | .awaiting =>
      let held := (s.onLine p CardLine.dropOpening).putXs p
        (.some { x with timer := .stopped, phase := .held o data, command := .none, header := .none })
      let wiped := match x.kind with
        | .present => wipePresented p held
        | .power | .command | .release => held
      (serveOwed wiped).onLine p CardLine.loadSilence

/-! ### The transmit list -/

/-- A presentation's frame as it begins to leave (R160): its payload, or none when the entry has meanwhile failed the
conditions. -/
def presentPayload (x : Exchange) (e : Option Entry) : Option (List Byte) :=
  match e with
  | .none => .none
  | .some e => if e.presentable then .some (x.header.getD [] ++ entryBlock e.buffer) else .none

/-- What an opening frame becomes as it begins to leave (R156, R160): the frame on the line with the record and
entry after it, or none when a presentation's entry is gone. -/
def openFrame (p : Pos) (x : Exchange) (s : State) : Option (TxFrame × State) :=
  match x.kind with
  | .power => .some (.powerOn, s.putXs p (.some { x with sent := true }))
  | .command =>
    .some (.command (x.command.getD []), s.putXs p (.some { x with sent := true, command := .none }))
  | .present =>
    match presentPayload x (s.entry.get p) with
    | .none => .none
    | .some payload =>
      .some (.command payload,
        (s.putXs p (.some { x with sent := true, header := .none })).putEntry p
          ((s.entry.get p).map fun e => { e with presented := true }))
  | .release => .none

/-- The next frame of the waiting list begins to leave (R137, R156, R160). A presentation whose entry is gone ends
with ENTRY_GONE, no frame is sent for it, and the frame behind it begins. -/
def beginNext (p : Pos) : List TxFrame → State → State
  | [], s => s.onLine p fun l => { l with txWaiting := [] }
  | f :: rest, s =>
    match f with
    | .opening =>
      match s.xs.get p with
      | .none => beginNext p rest s
      | .some x =>
        match openFrame p x s with
        | .some (g, t) => t.onLine p fun l => { l with txLeaving := .some g, txWaiting := rest }
        | .none =>
          beginNext p rest
            (moveCard p .ready (endExchange p .entryGone .none (s.onLine p fun l => { l with txWaiting := rest })))
    | .hello | .powerOn | .powerOff | .command _ | .eject | .askRepeat =>
      s.onLine p fun l => { l with txLeaving := .some f, txWaiting := rest }

/-- The transmit list goes on when no frame is leaving (R137). -/
def pump (p : Pos) (s : State) : State :=
  match (s.line.get p).txLeaving with
  | .some _ => s
  | .none => beginNext p (s.line.get p).txWaiting s

/-- The CLC is asked for a frame, which joins the transmit list (R137). -/
def ask (p : Pos) (f : TxFrame) (s : State) : State :=
  pump p (s.onLine p fun l => { l with txWaiting := l.txWaiting ++ [f] })

/-- CARD_FRAME_SENT (R141): the frame leaving has left, the next begins, and an idle line applies its pending
settings. With no frame leaving there is none to finish. -/
def execCardFrameSent (p : Pos) (s : State) : Host.Outcome State Fault Refusal :=
  match (s.line.get p).txLeaving with
  | .none => .next s
  | .some _ => .next (settleLine p (pump p (s.onLine p fun l => { l with txLeaving := .none })))

/-! ### Losing a line, failing frames -/

/-- The card states in which the card is powered (R144 step 1). -/
def CardState.powered : CardState → Bool
  | .powering | .ready | .exchanging => true
  | .noReader | .empty | .throat | .seated | .releasing | .presented | .fault => false

/-- The line is lost (R144). -/
def loseLine (p : Pos) (s : State) : State :=
  let lost := s.onLine p fun l =>
    { l.move .noReader with
      powerUnknown := l.powerUnknown || l.state.powered, presence := .lost, cause := .none }
  let ended := endExchange p .lineError .none lost
  postCardState p (ended.onLine p fun l =>
    { l with silenceTimer := .stopped, helloTimer := .stopped, noReaderTimer := .running Config.noReaderHello })

/-- The XS's handling of a failing frame while the record is AWAITING (R165). -/
def failDuring (p : Pos) (x : Exchange) (s : State) : State :=
  if x.repeatUsed = false then ask p .askRepeat (s.putXs p (.some { x with repeatUsed := true }))
  else
    match x.kind with
    | .release => endExchange p .lineError .none s
    | .power | .command | .present =>
      endExchange p .lineError .none
        (moveCard p .seated (ask p .powerOff (s.onLine p CardLine.dropOpening)))

/-- A failing frame outside an exchange (R139): the consecutive check failures, and the loss of the line at the
third outside NO_READER. -/
def failOutside (p : Pos) (s : State) : State :=
  let t := s.onLine p fun l => { l with checkFails := holdAt 3 l.checkFails }
  if (t.line.get p).state ≠ .noReader ∧ (t.line.get p).checkFails = 3 then loseLine p t else t

/-- A frame that fails its check or is abandoned (R138, R139, R142). -/
def failFrame (p : Pos) (s : State) : State :=
  let t := s.onLine p fun l => { l with rx := .hunting, checkErrors := sat16 l.checkErrors }.loadSilence
  match t.xs.get p with
  | .none => failOutside p t
  | .some x =>
    match x.phase with
    | .awaiting => failDuring p x t
    | .held _ _ => failOutside p t

/-- The abandonment that a line timer's expiry makes of a frame being received, before its own effects (R138). -/
def abandon (p : Pos) (s : State) : State :=
  match (s.line.get p).rx with
  | .hunting => s
  | .receiving _ => failFrame p s

/-! ### The line timers -/

/-- LINE_SILENCE_EXPIRY (R142). The heartbeat's HELLO is asked for outside NO_READER only, so none follows an
abandonment that loses the line at this expiry (R142, R145, notes/assumptions/9). -/
def execLineSilenceExpiry (p : Pos) (s : State) : Host.Outcome State Fault Refusal :=
  if (s.line.get p).silenceTimer.due then
    let t := abandon p (s.onLine p fun l => { l with silenceTimer := .stopped })
    .next (settleLine p
      (if (t.line.get p).state = .noReader then t
      else if t.inFlight p then t.onLine p fun l => { l with silenceTimer := .running Config.lineSilence }
      else
        ask p .hello (t.onLine p fun l =>
          { l with silenceTimer := .stopped, helloOut := true, helloTimer := .running Config.helloAnswer })))
  else .next s

/-- The miss of a HELLO (R143). A line that the abandonment of this expiry has already lost is not lost again: its
card state has no further change to post (R144, R150). -/
def missHello (p : Pos) (s : State) : State :=
  let t := s.onLine p fun l => { l with helloOut := false, misses := holdAt 3 l.misses }
  if (t.line.get p).misses = 3 ∧ (t.line.get p).state ≠ .noReader then loseLine p t
  else t.onLine p CardLine.loadSilence

/-- HELLO_ANSWER_EXPIRY (R143): after any abandonment (R138), the expiry with HELLO outstanding is a miss, also when
the abandoned frame was the third failure and has lost the line (R153). -/
def execHelloAnswerExpiry (p : Pos) (s : State) : Host.Outcome State Fault Refusal :=
  if (s.line.get p).helloTimer.due then
    let t := abandon p (s.onLine p fun l => { l with helloTimer := .stopped })
    .next (settleLine p
      (if (t.line.get p).helloOut then missHello p t else t))
  else .next s

/-- NO_READER_HELLO_EXPIRY (R145): the periodic timer is loaded again and a HELLO is asked for. -/
def execNoReaderHelloExpiry (p : Pos) (s : State) : Host.Outcome State Fault Refusal :=
  if (s.line.get p).noReaderTimer.due then
    .next (settleLine p (ask p .hello (abandon p (s.onLine p fun l =>
      { l with noReaderTimer := .running Config.noReaderHello }))))
  else .next s

/-! ### The reader's frames -/

/-- The card state that a reported condition stands for (R145). -/
def reportedState : ReaderCondition → CardState
  | .empty => .empty
  | .throat => .throat
  | .seated => .seated

/-- A valid STATE frame in NO_READER restores the line (R145). -/
def restoreLine (p : Pos) (r : ReaderCondition) (s : State) : State :=
  let unknown := (s.line.get p).powerUnknown
  let t := s.onLine p fun l =>
    ({ l.move (reportedState r) with
      presence := .present, powerUnknown := false, noReaderTimer := .stopped }).loadSilence
  let asked := if unknown then ask p .powerOff t else t
  postCardState p asked

/-- What the table of R146 gives for a card state and a reported condition, with whether a release is in flight: the
card state the report moves to, whether an exchange in flight ends with CARD_GONE, and the codes entered. -/
structure ReportEffect where
  state : CardState
  ends : Bool
  codes : List Synth
  deriving DecidableEq, Repr

/-- The table of R146; none where it says "no change". -/
def reportEffect (st : CardState) (r : ReaderCondition) (releaseInFlight : Bool) : Option ReportEffect :=
  match st, r with
  | .noReader, _ => .none
  | .empty, .empty => .none
  | .empty, .throat => .some ⟨.throat, false, [.cardArrived]⟩
  | .empty, .seated => .some ⟨.seated, false, [.cardArrived, .cardSeated]⟩
  | .throat, .empty => .some ⟨.empty, false, [.cardGone]⟩
  | .throat, .throat => .none
  | .throat, .seated => .some ⟨.seated, false, [.cardSeated]⟩
  | .seated, .empty => .some ⟨.empty, false, [.cardGone]⟩
  | .seated, .throat => .some ⟨.throat, false, []⟩
  | .seated, .seated => .none
  | .powering, .empty => .some ⟨.empty, true, [.cardGone]⟩
  | .powering, .throat => .some ⟨.throat, true, []⟩
  | .powering, .seated => .none
  | .exchanging, .empty => .some ⟨.empty, true, [.cardGone]⟩
  | .exchanging, .throat => .some ⟨.throat, true, []⟩
  | .exchanging, .seated => .none
  | .ready, .empty => .some ⟨.empty, false, [.cardGone]⟩
  | .ready, .throat => .some ⟨.throat, false, []⟩
  | .ready, .seated => .none
  | .releasing, .empty => .some ⟨.empty, true, [.cardGone]⟩
  | .releasing, .throat => if releaseInFlight then .none else .some ⟨.presented, false, []⟩
  | .releasing, .seated => if releaseInFlight then .none else .some ⟨.seated, false, []⟩
  | .presented, .empty => .some ⟨.empty, false, [.cardGone]⟩
  | .presented, .throat => .none
  | .presented, .seated => .some ⟨.seated, false, [.cardSeated]⟩
  | .fault, .empty => .some ⟨.empty, false, [.cardGone]⟩
  | .fault, .throat => .none
  | .fault, .seated => .none

/-- A release is in flight: the record is AWAITING and of kind RELEASE (R146, R148). -/
def State.releaseInFlight (s : State) (p : Pos) : Bool :=
  match s.xs.get p with
  | .none => false
  | .some x => decide (x.phase = .awaiting ∧ x.kind = .release)

/-- A valid STATE frame outside NO_READER (R146), in the order: state, exchange end, CARD_STATE, codes. The move out
of FAULT sets the fault cause to none. -/
def reportCard (p : Pos) (r : ReaderCondition) (s : State) : State :=
  match reportEffect (s.line.get p).state r (s.releaseInFlight p) with
  | .none => s
  | .some e =>
    let moved := s.onLine p fun l =>
      { l.move e.state with cause := if l.state = .fault then .none else l.cause }
    let ended := if e.ends then endExchange p .cardGone .none moved else moved
    e.codes.foldl (fun t k => admitSynth p k t) (postCardState p ended)

/-- A valid STATE frame (R139, R145, R146). -/
def takeState (p : Pos) (r : ReaderCondition) (s : State) : State :=
  let t := s.onLine p CardLine.validFrame
  judgePressure s (settleLine p
    (if (s.line.get p).state = .noReader then restoreLine p r t else reportCard p r t))

/-- A valid FAULT frame (R147): outside NO_READER the cause is set and the faults counted; outside FAULT the card state
becomes FAULT, an exchange in flight ends with READER_FAULT and CARD_STATE is posted. In NO_READER the frame is
discarded and counted (R145, R148). -/
def takeFault (p : Pos) (c : FaultCause) (s : State) : State :=
  let t := s.onLine p CardLine.validFrame
  settleLine p
    (match (s.line.get p).state with
      | .noReader => t.onLine p CardLine.late
      | .fault => t.onLine p fun l => { l with cause := .some c, faults := sat16 l.faults }
      | .empty | .throat | .seated | .powering | .ready | .exchanging | .releasing | .presented =>
        postCardState p (endExchange p .readerFault .none (t.onLine p fun l =>
          { l.move .fault with cause := .some c, faults := sat16 l.faults })))

/-- A valid DONE frame (R148, R162): in RELEASING the card is PRESENTED, and a release in flight ends DONE; in any other
card state the frame is discarded and counted. -/
def takeDone (p : Pos) (s : State) : State :=
  let t := s.onLine p CardLine.validFrame
  settleLine p
    (if (s.line.get p).state = .releasing then
      let moved := moveCard p .presented t
      if s.releaseInFlight p then endExchange p .done .none moved else moved
    else t.onLine p CardLine.late)

/-- An ANSWER or RESPONSE that the CLC hands to the XS (R162): `awaits` says which kinds of record await it, and
`fits` whether its length is right. A frame of wrong length that a record awaits is a failing frame, counted in
line check errors (R165). -/
def takeAnswer (p : Pos) (awaits : ExchangeKind → Bool) (fits : Bool) (payload : List Byte) (s : State) : State :=
  match s.xs.get p with
  | .none => s.onLine p CardLine.late
  | .some x =>
    match x.phase with
    | .held _ _ => s.onLine p CardLine.late
    | .awaiting =>
      if awaits x.kind = false ∨ x.sent = false then s.onLine p CardLine.late
      else if fits then endExchange p .done (.some payload) (moveCard p .ready s)
      else failDuring p x (s.onLine p fun l => { l with checkErrors := sat16 l.checkErrors })

/-- A valid ANSWER or RESPONSE: in NO_READER it is a late frame (R145, R148). -/
def answerArrives (p : Pos) (awaits : ExchangeKind → Bool) (fits : Bool) (payload : List Byte) (s : State) : State :=
  let t := s.onLine p CardLine.validFrame
  settleLine p
    (if (s.line.get p).state = .noReader then t.onLine p CardLine.late
    else takeAnswer p awaits fits payload t)

/-- The records that await an ANSWER (R162). -/
def ExchangeKind.awaitsAnswer : ExchangeKind → Bool
  | .power => true
  | .command | .present | .release => false

/-- The records that await a RESPONSE (R162). -/
def ExchangeKind.awaitsResponse : ExchangeKind → Bool
  | .command | .present => true
  | .power | .release => false

/-- A valid ANSWER (R162), of 1 to 32 bytes when its length is right. -/
def takeAnswerFrame (p : Pos) (payload : List Byte) (s : State) : State :=
  answerArrives p ExchangeKind.awaitsAnswer (decide (1 ≤ payload.length ∧ payload.length ≤ 32)) payload s

/-- A valid RESPONSE (R162), of 2 to 240 bytes when its length is right. -/
def takeResponseFrame (p : Pos) (payload : List Byte) (s : State) : State :=
  answerArrives p ExchangeKind.awaitsResponse (decide (2 ≤ payload.length ∧ payload.length ≤ 240)) payload s

/-- A valid frame of a kind not listed, or whose payload does not fit its kind: discarded and counted (R139, R187). -/
def takeUnlisted (p : Pos) (s : State) : State := settleLine p (s.onLine p fun l => l.validFrame.late)

/-- A valid frame handled by its kind (R139, R187). -/
def takeFrame (p : Pos) (kind : Byte) (payload : List Byte) (s : State) : State :=
  match kind.toNat, payload with
  | 0x11, [v] =>
    match conditionOf v with
    | .some r => takeState p r s
    | .none => takeUnlisted p s
  | 0x12, [v] =>
    match causeOf v with
    | .some c => takeFault p c s
    | .none => takeUnlisted p s
  | 0x13, [] => takeDone p s
  | 0x14, _ => takeAnswerFrame p payload s
  | 0x15, _ => takeResponseFrame p payload s
  | _, _ => takeUnlisted p s

/-! ### The receiver -/

/-- The receive state written. -/
def setRx (p : Pos) (rx : FrameRx) (s : State) : State := s.onLine p fun l => { l with rx := rx }

/-- The frame whose bytes have come is judged, the receiver HUNTING again (R138, R139). -/
def judgeFrame (p : Pos) (bytes : List Byte) (s : State) : State :=
  match goodFrame bytes with
  | .none => settleLine p (failFrame p s)
  | .some (kind, payload) => takeFrame p kind payload s

/-- A byte arrives on a card line (R138): HUNTING only the sync byte counts, RECEIVING every byte is the frame's. -/
def lineByte (p : Pos) (s : State) (b : Byte) : State :=
  match (s.line.get p).rx with
  | .hunting => if b = cardSync then setRx p (.receiving []) s else s
  | .receiving got =>
    if frameEnds (got ++ [b]) then judgeFrame p (got ++ [b]) (setRx p .hunting s)
    else setRx p (.receiving (got ++ [b])) s

/-- The bytes of a frame arrive: from its sync byte on, unless CARD_LINE_SYNC_BYTE has just brought that byte
(notes/assumptions/5). `bytes` are those after the sync byte. -/
def frameArrives (p : Pos) (bytes : List Byte) (s : State) : State :=
  (if (s.line.get p).rx = .receiving [] then bytes else cardSync :: bytes).foldl (lineByte p) s

/-- STATE_FRAME (R146): a STATE frame with its check arrives, and takeState handles it. -/
def execStateFrame (p : Pos) (r : ReaderCondition) (s : State) : Host.Outcome State Fault Refusal :=
  .next (frameArrives p (frameBytes 0x11 [conditionByte r]) s)

/-- FAULT_FRAME (R147): a FAULT frame with its check arrives, and takeFault handles it. -/
def execFaultFrame (p : Pos) (c : FaultCause) (s : State) : Host.Outcome State Fault Refusal :=
  .next (frameArrives p (frameBytes 0x12 [causeByte c]) s)

/-- DONE_FRAME (R148): a DONE frame with its check arrives, and takeDone handles it. -/
def execDoneFrame (p : Pos) (s : State) : Host.Outcome State Fault Refusal :=
  .next (frameArrives p (frameBytes 0x13 []) s)

/-- ANSWER_FRAME (R162): an ANSWER with its check arrives, and takeAnswerFrame handles it. -/
def execAnswerFrame (p : Pos) (payload : List Byte) (s : State) : Host.Outcome State Fault Refusal :=
  .next (frameArrives p (frameBytes 0x14 payload) s)

/-- RESPONSE_FRAME (R162): a RESPONSE with its check arrives, and takeResponseFrame handles it. -/
def execResponseFrame (p : Pos) (payload : List Byte) (s : State) : Host.Outcome State Fault Refusal :=
  .next (frameArrives p (frameBytes 0x15 payload) s)

/-- UNLISTED_FRAME_KIND (R139, R187): a frame of another kind with its check arrives. -/
def execUnlistedFrameKind (p : Pos) (kind : Byte) (payload : List Byte) (s : State) :
    Host.Outcome State Fault Refusal :=
  .next (frameArrives p (frameBytes kind payload) s)

/-- FAILING_FRAME (R138, R139): the bytes arrive, and the receiver judges them. -/
def execFailingFrame (p : Pos) (s : State) (bytes : List Byte := [0, 0xFF]) : Host.Outcome State Fault Refusal :=
  .next (frameArrives p bytes s)

/-- CARD_LINE_SYNC_BYTE (R138): a byte 0x96 arrives, which moves a HUNTING receiver to RECEIVING. -/
def execCardLineSyncByte (p : Pos) (s : State) : Host.Outcome State Fault Refusal := .next (lineByte p s cardSync)

/-! ### The requests -/

/-- The rates of a card line (R140). -/
def cardRates : List Nat := [9600, 19200, 38400, 57600, 115200]

/-- A pair becomes the pending settings of a line, and is applied at once when the line is idle (R140, R141). -/
def setPending (ps : LineSettings) (s : State) (p : Pos) : State :=
  settleLine p (s.onLine p fun l => { l with pending := .some ps })

/-- CARD_LINE_SET (R140). -/
def doCardLineSet (payload : List Byte) (s : State) : State × Answer :=
  match payload with
  | [gb, r3, r2, r1, r0, t1, t0] =>
    match below 4 gb with
    | .none => (s, .no .badRecord [])
    | .some g =>
      let rate := be32 r3 r2 r1 r0
      if rate ∉ cardRates then (s, .no .badValue [])
      else
        let t := clamp 200 5000 (be16 t1 t0)
        ((allFour.map (posAt g)).foldl (setPending ⟨rate, t⟩) s,
          .stored (decide (t ≠ be16 t1 t0)) (u32 rate ++ u16 t))
  | _ => (s, .no .badRecord [])

/-- A pair of settings behind its presence byte (R186). -/
def lineSettingsField : Option LineSettings → List Byte
  | .none => [0, 0, 0, 0, 0, 0, 0]
  | .some ps => [1] ++ u32 ps.rate ++ u16 ps.timeout

/-- The exchange field of CARD_STATUS (R151, R186): behind its presence byte the kind, the tag, the phase, repeat
used, and for AWAITING the timer's remaining time. -/
def exchangeField : Option Exchange → List Byte
  | .none => [0, 0, 0, 0, 0, 0, 0]
  | .some x =>
    [1] ++ u8 x.kind.index ++ [x.tag] ++ u8 x.phase.index ++ yesNo x.repeatUsed ++ optU16 x.timer.remaining

/-- CARD_STATUS (R151). -/
def doCardStatus (payload : List Byte) (s : State) : State × Answer :=
  match payload with
  | [pb] =>
    match below 16 pb with
    | .none => (s, .no .badRecord [])
    | .some p =>
      let l := s.line.get p
      (s, .ok (u8 l.state.index ++ u8 l.presence.index ++ u8 (causeIndex l.cause) ++ yesNo l.powerUnknown ++
        u32 l.settings.rate ++ u16 l.settings.timeout ++ lineSettingsField l.pending ++ u8 l.misses ++
        u8 l.checkFails ++ u16 l.checkErrors ++ u16 l.lateFrames ++ u16 l.faults ++ u8 l.changes ++
        exchangeField (s.xs.get p)))
  | _ => (s, .no .badRecord [])

end Sys2Proof.Machine
end

