-- ==== Sys2Proof/Machine/Exchanges.lean ====
section
/-! DEFINITION. Card Exchanges and Entry Presentation (chapter 10): the card requests CARD_POWER, CARD_EXCHANGE,
CARD_PRESENT, CARD_RELEASE and CARD_ABORT, and the exchange timer's expiry. -/

namespace Sys2Proof.Machine

open Sys2Proof

/-- A record in phase AWAITING, with repeat used no and its opening frame WAITING (R155). -/
def newExchange (kind : ExchangeKind) (tag : Byte) (command header : Option (List Byte)) (timeout : Nat) : Exchange :=
  { kind := kind, tag := tag, phase := .awaiting, sent := false, command := command, header := header,
    timer := .running timeout, repeatUsed := false }

/-- The acceptance of a card request (R155): the record is created with its timer loaded, the card state is set
with its CARD_STATE, and the frames are asked for. -/
def startExchange (p : Pos) (x : Exchange) (st : CardState) (frames : List TxFrame) (s : State) : State :=
  frames.foldl (fun t f => ask p f t) (moveCard p st (s.putXs p (.some x)))

/-- The clamp of a request timeout (R158). -/
def requestTimeout (t : Nat) : Nat := clamp 100 30000 t

/-- R155's checks 2 to 4 for a request that needs an OPEN position and one card state; none when they pass. -/
def cardRefusal (p : Pos) (needed : CardState) (s : State) : Option Status :=
  if (s.xs.get p).isSome then .some .busy
  else if !s.isOpen p then .some .positionClosed
  else if (s.line.get p).state ≠ needed then .some .notReady
  else .none

/-- CARD_POWER (R155, R157). -/
def doCardPower (tag : Byte) (payload : List Byte) (s : State) : State × Answer :=
  match payload with
  | [pb] =>
    match below 16 pb with
    | .none => (s, .no .badRecord [])
    | .some p =>
      match cardRefusal p .seated s with
      | .some st => (s, .no st [])
      | .none =>
        let t := (s.line.get p).settings.timeout
        (startExchange p (newExchange .power tag .none .none t) .powering [.opening] s,
          .ok (u8 ExchangeKind.power.index ++ u16 t))
  | _ => (s, .no .badRecord [])

/-- The last two bytes of a list and those before them. -/
def splitLastTwo (l : List Byte) : Option (List Byte × Byte × Byte) :=
  match l.reverse with
  | b0 :: b1 :: front => .some (front.reverse, b1, b0)
  | _ => .none

/-- CARD_EXCHANGE (R155, R158): the command bytes follow from the payload length. -/
def doCardExchange (tag : Byte) (payload : List Byte) (s : State) : State × Answer :=
  match payload with
  | pb :: rest =>
    match below 16 pb, splitLastTwo rest with
    | .some p, .some (command, t1, t0) =>
      if command.length < 1 ∨ 240 < command.length then (s, .no .badRecord [])
      else
        match cardRefusal p .ready s with
        | .some st => (s, .no st [])
        | .none =>
          let t := requestTimeout (be16 t1 t0)
          (startExchange p (newExchange .command tag (.some command) .none t) .exchanging [.opening] s,
            .stored (decide (t ≠ be16 t1 t0)) (u8 ExchangeKind.command.index ++ u16 t))
    | _, _ => (s, .no .badRecord [])
  | _ => (s, .no .badRecord [])

/-- R159's checks of the entry; none when they pass. -/
def presentRefusal (e : Option Entry) : Option Status :=
  match e with
  | .none => .some .noEntry
  | .some e =>
    match e.state with
    | .collecting => .some .noEntry
    | .complete =>
      if e.secret = false ∨ e.buffer.length < 4 ∨ 12 < e.buffer.length then .some .entryLength
      else if !e.buffer.all isDigit then .some .notDigits
      else .none

/-- CARD_PRESENT (R155, R159): the header is a byte string of 4 bytes. -/
def doCardPresent (tag : Byte) (payload : List Byte) (s : State) : State × Answer :=
  match payload with
  | [pb, n, h0, h1, h2, h3, t1, t0] =>
    match below 16 pb with
    | .none => (s, .no .badRecord [])
    | .some p =>
      if n ≠ 4 then (s, .no .badRecord [])
      else
        match cardRefusal p .ready s with
        | .some st => (s, .no st [])
        | .none =>
          match presentRefusal (s.entry.get p) with
          | .some st => (s, .no st [])
          | .none =>
            let t := requestTimeout (be16 t1 t0)
            (startExchange p (newExchange .present tag .none (.some [h0, h1, h2, h3]) t) .exchanging [.opening] s,
              .stored (decide (t ≠ be16 t1 t0))
                (u8 ExchangeKind.present.index ++ u16 t ++ u8 (s.entryLength p)))
  | _ => (s, .no .badRecord [])

/-- The frames a release asks for (R161). -/
def releaseFrames (st : CardState) : List TxFrame := if st = .ready then [.powerOff, .eject] else [.eject]

/-- The card states in which CARD_RELEASE is taken (R161). -/
def CardState.releasable : CardState → Bool
  | .throat | .seated | .ready | .fault => true
  | .noReader | .empty | .powering | .exchanging | .releasing | .presented => false

/-- CARD_RELEASE (R155, R161), taken in either position state. -/
def doCardRelease (tag : Byte) (payload : List Byte) (s : State) : State × Answer :=
  match payload with
  | [pb] =>
    match below 16 pb with
    | .none => (s, .no .badRecord [])
    | .some p =>
      if (s.xs.get p).isSome then (s, .no .busy [])
      else if !(s.line.get p).state.releasable then (s, .no .notReady [])
      else
        (startExchange p (newExchange .release tag .none .none Config.takeTimeout) .releasing
            (releaseFrames (s.line.get p).state) (s.onLine p fun l => { l with cause := .none }),
          .ok (u8 ExchangeKind.release.index ++ u16 Config.takeTimeout))
  | _ => (s, .no .badRecord [])

/-- The POWER_OFF and the move to SEATED that end a POWER, COMMAND or PRESENT exchange at a timeout or an abort; a
release asks for no frame and the card stays RELEASING (R163, R168). -/
def powerDown (p : Pos) (kind : ExchangeKind) (s : State) : State :=
  match kind with
  | .release => s
  | .power | .command | .present => moveCard p .seated (ask p .powerOff (s.onLine p CardLine.dropOpening))

/-- EXCHANGE_TIMER_EXPIRY (R163): the exchange ends with NO_RESPONSE. -/
def execExchangeTimerExpiry (p : Pos) (s : State) : Host.Outcome State Fault Refusal :=
  match s.xs.get p with
  | .none => .next s
  | .some x =>
    if x.phase = .awaiting ∧ x.timer.due = true then
      .next (settleLine p (endExchange p .noResponse .none (powerDown p x.kind s)))
    else .next s

/-- Whether the presentation wipe of an ended exchange finds an entry (R167, R168). -/
def wipesEntry (p : Pos) (s : State) : Bool :=
  match s.entry.get p with
  | .none => false
  | .some e => e.presented

/-- The effects of an abort (R168): the record and its timer are gone, a WAITING opening frame is taken out, a
presentation's entry is wiped, and the end of the exchange reloads the line's silence timer (R142). -/
def abortExchange (p : Pos) (x : Exchange) (s : State) : State :=
  let gone := (powerDown p x.kind s).putXs p .none
  let wiped := match x.kind with
    | .present => wipePresented p gone
    | .power | .command | .release => gone
  settleLine p (wiped.onLine p CardLine.loadSilence)

/-- CARD_ABORT (R168). The third field, whether an entry was wiped, is absent but for PRESENT. -/
def doCardAbort (payload : List Byte) (s : State) : State × Answer :=
  match payload with
  | [pb] =>
    match below 16 pb with
    | .none => (s, .no .badRecord [])
    | .some p =>
      match s.xs.get p with
      | .none => (s, .no .noExchange [])
      | .some x =>
        match x.phase with
        | .held _ _ => (s, .no .wrongState [])
        | .awaiting =>
          (abortExchange p x s,
            .ok (u8 x.kind.index ++ yesNo (decide (x.kind ≠ .release)) ++
              (match x.kind with
                | .present => yesNo (wipesEntry p s)
                | .power | .command | .release => optU8 .none)))
  | _ => (s, .no .badRecord [])

end Sys2Proof.Machine
end

