-- ==== Sys2Proof/Machine/Positions.lean ====
section
/-! DEFINITION. Positions (chapter 1): the requests OPEN_POSITION, CLOSE_POSITION, RESET_POSITION, SET_MODE and
POSITION_STATUS. -/

namespace Sys2Proof.Machine

open Sys2Proof

/-- OPEN_POSITION (R9). -/
def doOpenPosition (payload : List Byte) (s : State) : State × Answer :=
  match payload with
  | [pb, bb, mb] =>
    match below 16 pb with
    | .none => (s, .no .badRecord [])
    | .some p =>
      match below 4 bb, below 8 mb with
      | .some b, .some m =>
        if s.isOpen p then (s, .no .positionOpen [])
        else (s.onPos p fun r => { r with state := .opened, bank := b, mode := m }, .ok [])
      | _, _ => (s, .no .badValue [])
  | _ => (s, .no .badRecord [])

/-- Every entry of the position in the IF is marked void and its pending flags are cleared (R51). -/
def Intake.voidPosition (p : Pos) (f : Intake) : Intake :=
  { f with
    entries := f.entries.map fun e => if e.pos = p then { e with void := true } else e
    flags := f.flags.set p PendingFlags.clear }

/-- How many of the position's IF entries a close marks void: those not void already (R51). -/
def Intake.toVoid (p : Pos) (f : Intake) : Nat := f.entries.countP fun e => decide (e.pos = p) && !e.void

/-- The effects of a close on the entry, prompts, intake entries, attention and state of a position (R12). -/
def closeWork (p : Pos) (s : State) : State :=
  (voidAttention p (((s.putEntry p .none).onPu p PromptUnit.close).onIntake (Intake.voidPosition p))).onPos p
    fun r => { r with state := .closed }

/-- A powered card is powered off: POWER_OFF is sent and the card state becomes SEATED (R13, R14). -/
def powerOffCard (p : Pos) (s : State) : State := moveCard p .seated (ask p .powerOff s)

/-- The four result fields of a close (R11), on the state before it. -/
def closeFields (p : Pos) (poweredOff : Bool) (s : State) : List Byte :=
  yesNo (s.entry.get p).isSome ++ yesNo (ownsAttention p s) ++ u8 (s.intake.toVoid p) ++ yesNo poweredOff

/-- CLOSE_POSITION (R11 to R13). -/
def doClosePosition (payload : List Byte) (s : State) : State × Answer :=
  match payload with
  | [pb] =>
    match below 16 pb with
    | .none => (s, .no .badRecord [])
    | .some p =>
      if !s.isOpen p then (s, .no .positionClosed [])
      else if (s.xs.get p).isSome then (s, .no .busy [])
      else if (s.line.get p).state = .ready then (powerOffCard p (closeWork p s), .ok (closeFields p true s))
      else (closeWork p s, .ok (closeFields p false s))
  | _ => (s, .no .badRecord [])

/-- The exchange record of a reset position is removed without a notice, and its opening frame with it (R14, R156). -/
def removeExchange (p : Pos) (s : State) : State := (s.onLine p CardLine.dropOpening).putXs p .none

/-- RESET_POSITION (R14): the exchange removed, a close's effects in either position state, the card powered off by
its state, the counters 0. The exchange goes first, so that a slot the voided attention frees posts no EXCHANGE_DONE
for it. -/
def doResetPosition (payload : List Byte) (s : State) : State × Answer :=
  match payload with
  | [pb] =>
    match below 16 pb with
    | .none => (s, .no .badRecord [])
    | .some p =>
      let off := (s.line.get p).state.powered
      let closed := closeWork p (removeExchange p s)
      let carded := if off then powerOffCard p closed else closed
      (carded.onPos p fun r => { PosRecord.initial with bank := r.bank, mode := r.mode },
        .ok (closeFields p off s ++ yesNo (s.xs.get p).isSome))
  | _ => (s, .no .badRecord [])

/-- SET_MODE (R15). -/
def doSetMode (payload : List Byte) (s : State) : State × Answer :=
  match payload with
  | [pb, mb] =>
    match below 16 pb with
    | .none => (s, .no .badRecord [])
    | .some p =>
      match below 8 mb with
      | .none => (s, .no .badValue [])
      | .some m =>
        if !s.isOpen p then (s, .no .positionClosed [])
        else (s.onPos p fun r => { r with mode := m }, .ok [])
  | _ => (s, .no .badRecord [])

/-- The keypad presence of a position's address (R2, R18). -/
def State.keypadPresence (s : State) (p : Pos) : Presence := ((s.bus.get (groupOf p)).addrs.get (addrOf p)).presence

/-- POSITION_STATUS (R16). -/
def doPositionStatus (payload : List Byte) (s : State) : State × Answer :=
  match payload with
  | [pb] =>
    match below 16 pb with
    | .none => (s, .no .badRecord [])
    | .some p =>
      let r := s.pos.get p
      (s, .ok (u8 r.state.index ++ u8 r.bank.val ++ u8 r.mode.val ++ u16 r.keysEntered ++ u16 r.strayHolds ++
        u16 r.refusals ++ u16 r.duplicates ++ u16 r.misses ++ u16 r.checkErrors ++
        u8 (entryStateIndex (s.entry.get p)) ++ u8 (s.entryLength p) ++ yesNo (s.entrySecret p) ++
        u8 (s.line.get p).state.index ++ u8 (s.keypadPresence p).index))
  | _ => (s, .no .badRecord [])

end Sys2Proof.Machine
end

