-- ==== Sys2Proof/Machine/Resets.lean ====
section
/-! DEFINITION. The resets of the whole part and its time base: the power-on reset (R182), the counter reset's effect
on each block (R181 step 2 and the blocks' own rules), and the tick (R5, R6). -/

namespace Sys2Proof.Machine

open Sys2Proof

/-! ### Power-on reset -/

/-- A card line asks for a HELLO at power-on reset (R152). -/
def helloAtReset (s : State) (p : Pos) : State := ask p .hello s

/-- The part right after a power-on reset: every block at its power-on values, the HELLOs asked for, and round 0
started on the four buses (R21, R152, R182). -/
def powerOn (mode : LinkMode) (wcts : Bool) : State :=
  allFour.foldl startAtReset (allPositions.foldl helloAtReset (State.powerOnValues mode wcts))

/-- POWER_ON_RESET (R182). The commands that wait are no state of the part and stay. -/
def execPowerOnReset (linkSel : LinkMode) (wcts : Bool) (s : State) : Host.Outcome State Fault Refusal :=
  .next { powerOn linkSel wcts with pending := s.pending }

/-! ### Counter reset -/

/-- The OQ at step 1 of a counter reset (R181): notices, owed flags and the reservation go; replies stay, and a
notice whose transfer has begun stays at the head to be sent to its end. An EXCHANGE_DONE that waits in the queue goes
with the other notices (notes/assumptions/21). -/
def OutQueue.counterReset (q : OutQueue) : OutQueue :=
  { OutQueue.empty with
    queue := match q.queue with
      | [] => []
      | r :: rest => if q.begun then r :: rest.filter OutRecord.isReply else (r :: rest).filter OutRecord.isReply
    begun := q.begun }

/-- The AS at a counter reset (R92, R101): its number is kept. -/
def AttentionSlot.counterReset (a : AttentionSlot) : AttentionSlot := { AttentionSlot.initial with number := a.number }

/-- A card line at a counter reset (R152), before the frames it asks for: the moves to SEATED post no CARD_STATE. -/
def CardLine.counterReset (l : CardLine) : CardLine :=
  let d := l.dropOpening
  { d with
    state := if l.state.powered then .seated else l.state
    pending := .some LineSettings.initial, misses := 0, checkFails := 0, helloOut := false, helloTimer := .stopped,
    silenceTimer := if l.state = .noReader then l.silenceTimer else .running Config.lineSilence
    checkErrors := 0, lateFrames := 0, faults := 0, changes := 0 }

/-- A card line's frames and settings at a counter reset (R141, R152): POWER_OFF behind the frames waiting for a card
that was powered, and the default settings applied at once on an idle line. `before` is the state the reset met. -/
def lineAtReset (before : State) (s : State) (p : Pos) : State :=
  settleLine p (if (before.line.get p).state.powered then ask p .powerOff s else s)

/-- Every block at its counter-reset values (R181 steps 1 and 2), before the frames and polls that the reset itself
starts. TM keeps its contents and frozen marks (R61, R62); the time base runs on (R5). -/
def State.counterResetValues (s : State) : State :=
  { s with
    link := { s.link with armed := false, errors := 0 }
    oq := s.oq.counterReset
    pos := PerPos.all PosRecord.initial
    bus := s.bus.map Bus.counterReset
    intake := Intake.initial
    tables := { s.tables with openBank := .none }
    attn := s.attn.counterReset
    entry := PerPos.all .none
    pu := PerPos.all PromptUnit.initial
    line := s.line.map CardLine.counterReset
    xs := PerPos.all .none }

/-- The counter reset of every block (R181 steps 1 and 2). -/
def counterResetBlocks (s : State) : State :=
  allFour.foldl startAtReset (allPositions.foldl (lineAtReset s) s.counterResetValues)

/-! ### The tick -/

/-- A tick on the timers of an entry. -/
def Entry.tick (e : Entry) : Entry :=
  { e with interkeyTimer := e.interkeyTimer.tick, totalTimer := e.totalTimer.tick }

/-- A tick on the timers of a bus. -/
def Bus.tick (b : Bus) : Bus := { b with roundTimer := b.roundTimer.tick, windowTimer := b.windowTimer.tick }

/-- A tick on the timers of a card line. -/
def CardLine.tick (l : CardLine) : CardLine :=
  { l with silenceTimer := l.silenceTimer.tick, helloTimer := l.helloTimer.tick, noReaderTimer := l.noReaderTimer.tick }

/-- The time count advances and every running timer's remaining count falls by 1 (R5, R6). -/
def State.tick (s : State) : State :=
  { s with
    timeCount := s.timeCount + 1
    bus := s.bus.map Bus.tick
    attn := { s.attn with lapseTimer := s.attn.lapseTimer.tick }
    entry := s.entry.map (Option.map Entry.tick)
    pu := s.pu.map fun u => { u with holdTimer := u.holdTimer.tick }
    line := s.line.map CardLine.tick
    xs := s.xs.map (Option.map fun x => { x with timer := x.timer.tick }) }

/-- TICK (R5, R6). The expiries a tick brings due are events of their own. -/
def execTick (s : State) : Host.Outcome State Fault Refusal := .next s.tick

end Sys2Proof.Machine
end

