-- ==== Sys2Proof/Machine/Link.lean ====
section
/-! DEFINITION. The Workstation Link (chapter 11): the acceptance of a request with its reply (R174, R179), the stall
of the intake (R175), the departures of the queue (R176), the link events, and the part-level requests LINK_RATE,
RESET_ARM, COUNTER_RESET, IDENTIFY and COUNTER_STATUS. Every request of the workstation is received here. -/

namespace Sys2Proof.Machine

open Sys2Proof

/-! ### Part-level requests -/

/-- The UART rates (R171). -/
def uartRates : List Nat := [115200, 230400, 460800]

/-- LINK_RATE (R180). -/
def doLinkRate (payload : List Byte) (s : State) : State × Answer :=
  match payload with
  | [r3, r2, r1, r0] =>
    match s.link.mode with
    | .usb => (s, .no .wrongState [])
    | .uart =>
      let rate := be32 r3 r2 r1 r0
      if rate ∉ uartRates then (s, .no .badValue [])
      else (s.onLink fun l => { l with pendingRate := .some rate }, .ok [])
  | _ => (s, .no .badRecord [])

/-- RESET_ARM (R181). -/
def doResetArm (payload : List Byte) (s : State) : State × Answer :=
  match payload with
  | [] => (s.onLink fun l => { l with armed := true }, .ok [])
  | _ => (s, .no .badRecord [])

/-- COUNTER_RESET (R181 steps 1 and 2); the reply and STARTED follow at its acceptance. -/
def doCounterReset (payload : List Byte) (s : State) : State × Answer :=
  match payload with
  | [] => if s.link.armed then (counterResetBlocks s, .ok []) else (s, .no .notArmed [])
  | _ => (s, .no .badRecord [])

/-- The part name "CX16" (R183). -/
def partName : List Byte := [0x43, 0x58, 0x31, 0x36]

/-- The unit's serial as 8 bytes (R183). -/
def serialBytes : List Byte :=
  [56, 48, 40, 32, 24, 16, 8, 0].map fun (k : Nat) => (Config.serial >>> k).setWidth 8

/-- IDENTIFY (R183). -/
def doIdentify (payload : List Byte) (s : State) : State × Answer :=
  match payload with
  | [] =>
    (s, .ok (byteString partName ++ u8 Config.siliconRevision ++ u8 (linkModeIndex s.link.mode) ++ u32 s.link.rate ++
      byteString serialBytes))
  | _ => (s, .no .badRecord [])

/-- How many of the sixteen positions have a flag set. -/
def owedCount (s : State) (k : Pos → OwedKey) : Nat := allPositions.countP fun p => isOwed s (k p)

/-- The attention fields of COUNTER_STATUS (R92): position or none, number, reported code, time held. -/
def attentionFields (s : State) : List Byte :=
  match s.attn.record with
  | .none => optU8 .none ++ u16 s.attn.number.toNat ++ u8 0 ++ u16 0
  | .some a =>
    u8 a.pos.val ++ u16 a.number.toNat ++ [reportedCode a.masked a.code] ++ u16 (s.timeCount - a.raiseTime).toNat

/-- COUNTER_STATUS (R183), on the values standing at the acceptance. -/
def doCounterStatus (payload : List Byte) (s : State) : State × Answer :=
  match payload with
  | [] =>
    (s, .ok (u8 s.intake.occupied ++ u8 s.intake.reserved ++ u8 s.intake.pressure.index ++ u8 s.intake.flagCount ++
      attentionFields s ++ u8 s.oq.replies ++ u8 s.oq.notices ++ u8 s.oq.reservation ++
      u8 (owedCount s .result) ++ u8 (owedCount s .expired) ++ u8 (owedCount s .card) ++ u8 (owedCount s .keypad) ++
      yesNo (isOwed s .pressure) ++ bankField s.tables.openBank ++ s.tables.frozen.toList.flatMap yesNo ++
      u16 s.link.errors ++ yesNo s.link.armed))
  | _ => (s, .no .badRecord [])

/-! ### The acceptance of a request -/

/-- The block that owns a request carries it out (R174); a record of another kind is answered UNKNOWN_REQUEST with
the kind byte received (R186). -/
def carryOut (r : Request) (s : State) : State × Answer :=
  match r.kind with
  | .unknown k => (s, .no .unknownRequest [k])
  | .openPosition => doOpenPosition r.payload s
  | .closePosition => doClosePosition r.payload s
  | .resetPosition => doResetPosition r.payload s
  | .setMode => doSetMode r.payload s
  | .positionStatus => doPositionStatus r.payload s
  | .busSet => doBusSet r.payload s
  | .busStatus => doBusStatus r.payload s
  | .bankOpen => doBankOpen r.payload s
  | .bankClose => doBankClose r.payload s
  | .bankFreeze => doBankFreeze r.payload s
  | .tableWrite => doTableWrite r.payload s
  | .modeSet => doModeSet r.payload s
  | .tableRead => doTableRead r.payload s
  | .attentionSet => doAttentionSet r.payload s
  | .attend => doAttend r.payload s
  | .collect => doCollect r.payload s
  | .collectStatus => doCollectStatus r.payload s
  | .collectStop => doCollectStop r.payload s
  | .entryRead => doEntryRead r.payload s
  | .entryWipe => doEntryWipe r.payload s
  | .prompt => doPrompt r.payload s
  | .promptClear => doPromptClear r.payload s
  | .beep => doBeep r.payload s
  | .cardLineSet => doCardLineSet r.payload s
  | .cardStatus => doCardStatus r.payload s
  | .cardPower => doCardPower r.tag r.payload s
  | .cardExchange => doCardExchange r.tag r.payload s
  | .cardPresent => doCardPresent r.tag r.payload s
  | .cardRelease => doCardRelease r.tag r.payload s
  | .cardAbort => doCardAbort r.payload s
  | .linkRate => doLinkRate r.payload s
  | .resetArm => doResetArm r.payload s
  | .counterReset => doCounterReset r.payload s
  | .identify => doIdentify r.payload s
  | .counterStatus => doCounterStatus r.payload s

/-- Whether armed stands after a request: set by an accepted RESET_ARM, clear after any other request and after every
COUNTER_RESET (R181). A RESET_ARM answered BAD_RECORD clears it (notes/assumptions/24). -/
def armedAfter (k : ReqKind) (a : Answer) : Bool := decide (k = .resetArm ∧ a.status = .ok)

/-- STARTED is queued behind the reply of a COUNTER_RESET carried out (R181 step 4). -/
def startedAfter (k : ReqKind) (a : Answer) (s : State) : State :=
  if k = .counterReset ∧ a.status = .ok then s.enqueue (.notice (.started .counterReset s.link.mode)) else s

/-- The event of a request's acceptance (R174): it is carried out, armed is cleared, and its reply is queued at the
end of the event, behind any notice that the event posted. -/
def accept (r : Request) (s : State) : State :=
  let done := carryOut r s
  startedAfter r.kind done.2
    ((done.1.onLink fun l => { l with armed := armedAfter r.kind done.2 }).enqueue (.reply r.kind r.tag done.2))

/-- A record whose bytes have all come is judged, the receiver HUNTING again (R172 to R175): a bad one is discarded and
counted, a good one is accepted, or held WAITING while 8 replies are queued. -/
def judgeRecord (good : Option Request) (s : State) : State :=
  match good with
  | .none => s.onLink fun l => { l with errors := sat16 l.errors }
  | .some r =>
    if Config.replyLimit ≤ s.oq.replies then s.onLink fun l => { l with rx := .waiting r } else accept r s

/-- A byte arrives on the UART (R172, R175): HUNTING only the sync byte counts, RECEIVING every byte is the record's, and
while a record is WAITING bytes are discarded without count. -/
def linkByte (s : State) (b : Byte) : State :=
  match s.link.rx with
  | .waiting _ => s
  | .hunting => if b = linkSync then s.onLink fun l => { l with rx := .receiving [] } else s
  | .receiving got =>
    if recordEnds (got ++ [b]) then judgeRecord (goodRecord (got ++ [b])) (s.onLink fun l => { l with rx := .hunting })
    else s.onLink fun l => { l with rx := .receiving (got ++ [b]) }

/-- A transfer arrives on the OUT pipe (R173, R175). Behind 8 replies it is one whose first packet had been taken before
the eighth (notes/assumptions/22); while a record is WAITING the pipe answers NAK. -/
def linkTransfer (packets : List (List Byte)) (s : State) : State :=
  match s.link.rx with
  | .waiting _ => s
  | .hunting | .receiving _ =>
    judgeRecord ((usbTransfer packets).bind goodRecord) (s.onLink fun l => { l with rx := .hunting })

/-- The bytes of a record arrive, from its kind byte on: on UART behind the record's sync byte, unless LINK_SYNC_BYTE has
just brought that byte (notes/assumptions/5), on USB as one transfer. -/
def recordArrives (bytes : List Byte) (s : State) : State :=
  match s.link.mode with
  | .uart => (if s.link.rx = .receiving [] then bytes else linkSync :: bytes).foldl linkByte s
  | .usb => linkTransfer (usbPackets [] bytes) s

/-- A request's record arrives, with the check that its sender computes. -/
def receive (r : Request) (s : State) : State := recordArrives r.bytes s

/-- Whether the part is willing to take records (R171, R175): WRTS is asserted in UART mode, and OUT transfers are not
answered NAK in USB mode, while fewer than 8 replies are queued: also in the event of a departure that accepts a WAITING
record and so queues the eighth again (notes/assumptions/22). A pin's level, computed from the state. -/
def State.willing (s : State) : Bool := decide (s.oq.replies < Config.replyLimit)

/-! ### Link events and departures -/

/-- LINK_UP (R176): the head record may begin to leave. -/
def execLinkUp (s : State) : Host.Outcome State Fault Refusal :=
  .next ((s.onLink fun l => { l with up := true }).onOq fun q => { q with begun := decide (q.queue ≠ []) })

/-- LINK_DOWN (R173, R176): in UART mode the record being sent is sent to its end; in USB mode a transfer is cut off,
the record is to be offered again, and a transfer being received is dropped without count. -/
def execLinkDown (s : State) : Host.Outcome State Fault Refusal :=
  match s.link.mode with
  | .uart => .next (s.onLink fun l => { l with up := false })
  | .usb =>
    .next ((s.onLink fun l =>
        { l with up := false, rx := match l.rx with
            | .waiting r => .waiting r
            | .hunting | .receiving _ => .hunting }).onOq fun q => { q with begun := false })

/-- RECORD_DISCARD (R172, R173): the bytes arrive and the receiver judges them; a record that fails is discarded and
counted, with no reply. -/
def execRecordDiscard (s : State) (bytes : List Byte := [0, 0, 0xFF]) : Host.Outcome State Fault Refusal :=
  .next (recordArrives bytes s)

/-- LINK_SYNC_BYTE (R172): on the UART a byte 0xC5 arrives, which moves a HUNTING receiver to RECEIVING. -/
def execLinkSyncByte (s : State) : Host.Outcome State Fault Refusal :=
  match s.link.mode with
  | .uart => .next (linkByte s linkSync)
  | .usb => .next s

/-- The pending UART rate comes into force as a LINK_RATE reply's transfer completes (R180). -/
def Link.switchRate (l : Link) : Link :=
  match l.pendingRate with
  | .none => l
  | .some r => { l with rate := r, pendingRate := .none }

/-- The WAITING record is accepted in the event in which a reply leaves (R175). -/
def acceptWaiting (s : State) : State :=
  match s.link.rx with
  | .waiting r => accept r (s.onLink fun l => { l with rx := .hunting })
  | .hunting | .receiving _ => s

/-- What the departure of a record brings (R175, R177, R180). A LINK_RATE reply's switch of the rate comes ahead of the
WAITING record's acceptance (notes/assumptions/23). -/
def departed (r : OutRecord) (s : State) : State :=
  match r with
  | .notice _ => serveOwed s
  | .reply k _ a => acceptWaiting (if k = .linkRate ∧ a.status = .ok then s.onLink Link.switchRate else s)

/-- RECORD_SENT (R176): the head record's transfer completes and it leaves the queue. With no transfer begun there is
none to complete. With the link up the next record's transfer begins ahead of the acceptance of a WAITING record, so a
notice next in the queue outlives a COUNTER_RESET accepted so (notes/assumptions/28). -/
def execRecordSent (s : State) : Host.Outcome State Fault Refusal :=
  match s.oq.begun, s.oq.queue with
  | true, r :: rest =>
    .next (departed r (s.onOq fun q => { q with queue := rest, begun := s.link.up && decide (rest ≠ []) }))
  | _, _ => .next s

/-! ### The requests as commands -/

/-- UNKNOWN_REQUEST (R174). -/
def execUnknownRequest (kind tag : Byte) (payload : List Byte) (s : State) : Host.Outcome State Fault Refusal :=
  .next (receive ⟨.unknown kind, tag, payload⟩ s)

/-- OPEN_POSITION (R9): the request's record arrives, and doOpenPosition carries it out. -/
def execOpenPosition (tag : Byte) (payload : List Byte) (s : State) : Host.Outcome State Fault Refusal :=
  .next (receive ⟨.openPosition, tag, payload⟩ s)

/-- CLOSE_POSITION (R11): the request's record arrives, and doClosePosition carries it out. -/
def execClosePosition (tag : Byte) (payload : List Byte) (s : State) : Host.Outcome State Fault Refusal :=
  .next (receive ⟨.closePosition, tag, payload⟩ s)

/-- RESET_POSITION (R14): the request's record arrives, and doResetPosition carries it out. -/
def execResetPosition (tag : Byte) (payload : List Byte) (s : State) : Host.Outcome State Fault Refusal :=
  .next (receive ⟨.resetPosition, tag, payload⟩ s)

/-- SET_MODE (R15): the request's record arrives, and doSetMode carries it out. -/
def execSetMode (tag : Byte) (payload : List Byte) (s : State) : Host.Outcome State Fault Refusal :=
  .next (receive ⟨.setMode, tag, payload⟩ s)

/-- POSITION_STATUS (R16): the request's record arrives, and doPositionStatus carries it out. -/
def execPositionStatus (tag : Byte) (payload : List Byte) (s : State) : Host.Outcome State Fault Refusal :=
  .next (receive ⟨.positionStatus, tag, payload⟩ s)

/-- BUS_SET (R19): the request's record arrives, and doBusSet carries it out. -/
def execBusSet (tag : Byte) (payload : List Byte) (s : State) : Host.Outcome State Fault Refusal :=
  .next (receive ⟨.busSet, tag, payload⟩ s)

/-- BUS_STATUS (R41): the request's record arrives, and doBusStatus carries it out. -/
def execBusStatus (tag : Byte) (payload : List Byte) (s : State) : Host.Outcome State Fault Refusal :=
  .next (receive ⟨.busStatus, tag, payload⟩ s)

/-- BANK_OPEN (R63): the request's record arrives, and doBankOpen carries it out. -/
def execBankOpen (tag : Byte) (payload : List Byte) (s : State) : Host.Outcome State Fault Refusal :=
  .next (receive ⟨.bankOpen, tag, payload⟩ s)

/-- BANK_CLOSE (R65): the request's record arrives, and doBankClose carries it out. -/
def execBankClose (tag : Byte) (payload : List Byte) (s : State) : Host.Outcome State Fault Refusal :=
  .next (receive ⟨.bankClose, tag, payload⟩ s)

/-- BANK_FREEZE (R66): the request's record arrives, and doBankFreeze carries it out. -/
def execBankFreeze (tag : Byte) (payload : List Byte) (s : State) : Host.Outcome State Fault Refusal :=
  .next (receive ⟨.bankFreeze, tag, payload⟩ s)

/-- TABLE_WRITE (R67): the request's record arrives, and doTableWrite carries it out. -/
def execTableWrite (tag : Byte) (payload : List Byte) (s : State) : Host.Outcome State Fault Refusal :=
  .next (receive ⟨.tableWrite, tag, payload⟩ s)

/-- MODE_SET (R69): the request's record arrives, and doModeSet carries it out. -/
def execModeSet (tag : Byte) (payload : List Byte) (s : State) : Host.Outcome State Fault Refusal :=
  .next (receive ⟨.modeSet, tag, payload⟩ s)

/-- TABLE_READ (R70): the request's record arrives, and doTableRead carries it out. -/
def execTableRead (tag : Byte) (payload : List Byte) (s : State) : Host.Outcome State Fault Refusal :=
  .next (receive ⟨.tableRead, tag, payload⟩ s)

/-- ATTENTION_SET (R95): the request's record arrives, and doAttentionSet carries it out. -/
def execAttentionSet (tag : Byte) (payload : List Byte) (s : State) : Host.Outcome State Fault Refusal :=
  .next (receive ⟨.attentionSet, tag, payload⟩ s)

/-- ATTEND (R96): the request's record arrives, and doAttend carries it out. -/
def execAttend (tag : Byte) (payload : List Byte) (s : State) : Host.Outcome State Fault Refusal :=
  .next (receive ⟨.attend, tag, payload⟩ s)

/-- COLLECT (R105): the request's record arrives, and doCollect carries it out. -/
def execCollect (tag : Byte) (payload : List Byte) (s : State) : Host.Outcome State Fault Refusal :=
  .next (receive ⟨.collect, tag, payload⟩ s)

/-- COLLECT_STATUS (R117): the request's record arrives, and doCollectStatus carries it out. -/
def execCollectStatus (tag : Byte) (payload : List Byte) (s : State) : Host.Outcome State Fault Refusal :=
  .next (receive ⟨.collectStatus, tag, payload⟩ s)

/-- COLLECT_STOP (R118): the request's record arrives, and doCollectStop carries it out. -/
def execCollectStop (tag : Byte) (payload : List Byte) (s : State) : Host.Outcome State Fault Refusal :=
  .next (receive ⟨.collectStop, tag, payload⟩ s)

/-- ENTRY_READ (R119): the request's record arrives, and doEntryRead carries it out. -/
def execEntryRead (tag : Byte) (payload : List Byte) (s : State) : Host.Outcome State Fault Refusal :=
  .next (receive ⟨.entryRead, tag, payload⟩ s)

/-- ENTRY_WIPE (R120): the request's record arrives, and doEntryWipe carries it out. -/
def execEntryWipe (tag : Byte) (payload : List Byte) (s : State) : Host.Outcome State Fault Refusal :=
  .next (receive ⟨.entryWipe, tag, payload⟩ s)

/-- PROMPT (R126): the request's record arrives, and doPrompt carries it out. -/
def execPrompt (tag : Byte) (payload : List Byte) (s : State) : Host.Outcome State Fault Refusal :=
  .next (receive ⟨.prompt, tag, payload⟩ s)

/-- PROMPT_CLEAR (R134): the request's record arrives, and doPromptClear carries it out. -/
def execPromptClear (tag : Byte) (payload : List Byte) (s : State) : Host.Outcome State Fault Refusal :=
  .next (receive ⟨.promptClear, tag, payload⟩ s)

/-- BEEP (R135): the request's record arrives, and doBeep carries it out. -/
def execBeep (tag : Byte) (payload : List Byte) (s : State) : Host.Outcome State Fault Refusal :=
  .next (receive ⟨.beep, tag, payload⟩ s)

/-- CARD_LINE_SET (R140): the request's record arrives, and doCardLineSet carries it out. -/
def execCardLineSet (tag : Byte) (payload : List Byte) (s : State) : Host.Outcome State Fault Refusal :=
  .next (receive ⟨.cardLineSet, tag, payload⟩ s)

/-- CARD_STATUS (R151): the request's record arrives, and doCardStatus carries it out. -/
def execCardStatus (tag : Byte) (payload : List Byte) (s : State) : Host.Outcome State Fault Refusal :=
  .next (receive ⟨.cardStatus, tag, payload⟩ s)

/-- CARD_POWER (R157): the request's record arrives, and doCardPower carries it out. -/
def execCardPower (tag : Byte) (payload : List Byte) (s : State) : Host.Outcome State Fault Refusal :=
  .next (receive ⟨.cardPower, tag, payload⟩ s)

/-- CARD_EXCHANGE (R158): the request's record arrives, and doCardExchange carries it out. -/
def execCardExchange (tag : Byte) (payload : List Byte) (s : State) : Host.Outcome State Fault Refusal :=
  .next (receive ⟨.cardExchange, tag, payload⟩ s)

/-- CARD_PRESENT (R159): the request's record arrives, and doCardPresent carries it out. -/
def execCardPresent (tag : Byte) (payload : List Byte) (s : State) : Host.Outcome State Fault Refusal :=
  .next (receive ⟨.cardPresent, tag, payload⟩ s)

/-- CARD_RELEASE (R161): the request's record arrives, and doCardRelease carries it out. -/
def execCardRelease (tag : Byte) (payload : List Byte) (s : State) : Host.Outcome State Fault Refusal :=
  .next (receive ⟨.cardRelease, tag, payload⟩ s)

/-- CARD_ABORT (R168): the request's record arrives, and doCardAbort carries it out. -/
def execCardAbort (tag : Byte) (payload : List Byte) (s : State) : Host.Outcome State Fault Refusal :=
  .next (receive ⟨.cardAbort, tag, payload⟩ s)

/-- LINK_RATE (R180): the request's record arrives, and doLinkRate carries it out. -/
def execLinkRate (tag : Byte) (payload : List Byte) (s : State) : Host.Outcome State Fault Refusal :=
  .next (receive ⟨.linkRate, tag, payload⟩ s)

/-- RESET_ARM (R181): the request's record arrives, and doResetArm carries it out. -/
def execResetArm (tag : Byte) (payload : List Byte) (s : State) : Host.Outcome State Fault Refusal :=
  .next (receive ⟨.resetArm, tag, payload⟩ s)

/-- COUNTER_RESET (R181): the request's record arrives, and doCounterReset carries it out. -/
def execCounterReset (tag : Byte) (payload : List Byte) (s : State) : Host.Outcome State Fault Refusal :=
  .next (receive ⟨.counterReset, tag, payload⟩ s)

/-- IDENTIFY (R183): the request's record arrives, and doIdentify carries it out. -/
def execIdentify (tag : Byte) (payload : List Byte) (s : State) : Host.Outcome State Fault Refusal :=
  .next (receive ⟨.identify, tag, payload⟩ s)

/-- COUNTER_STATUS (R183): the request's record arrives, and doCounterStatus carries it out. -/
def execCounterStatus (tag : Byte) (payload : List Byte) (s : State) : Host.Outcome State Fault Refusal :=
  .next (receive ⟨.counterStatus, tag, payload⟩ s)

end Sys2Proof.Machine
end

