-- ==== Sys2Proof/Machine/Dispatch.lean ====
section
/-! DEFINITION. One arm per command: the meaning of each row of spec/opcode_table.json. -/

namespace Sys2Proof.Machine

open Sys2Proof

def exec (i : Instr) (s : State) : Host.Outcome State Fault Refusal :=
  match i with
  | .powerOnReset linkSel wcts => Sys2Proof.Machine.execPowerOnReset linkSel wcts s
  | .linkUp => Sys2Proof.Machine.execLinkUp s
  | .linkDown => Sys2Proof.Machine.execLinkDown s
  | .recordDiscard bytes => Sys2Proof.Machine.execRecordDiscard s bytes
  | .unknownRequest kind tag payload => Sys2Proof.Machine.execUnknownRequest kind tag payload s
  | .recordSent => Sys2Proof.Machine.execRecordSent s
  | .openPosition tag payload => Sys2Proof.Machine.execOpenPosition tag payload s
  | .closePosition tag payload => Sys2Proof.Machine.execClosePosition tag payload s
  | .resetPosition tag payload => Sys2Proof.Machine.execResetPosition tag payload s
  | .setMode tag payload => Sys2Proof.Machine.execSetMode tag payload s
  | .positionStatus tag payload => Sys2Proof.Machine.execPositionStatus tag payload s
  | .busSet tag payload => Sys2Proof.Machine.execBusSet tag payload s
  | .busStatus tag payload => Sys2Proof.Machine.execBusStatus tag payload s
  | .bankOpen tag payload => Sys2Proof.Machine.execBankOpen tag payload s
  | .bankClose tag payload => Sys2Proof.Machine.execBankClose tag payload s
  | .bankFreeze tag payload => Sys2Proof.Machine.execBankFreeze tag payload s
  | .tableWrite tag payload => Sys2Proof.Machine.execTableWrite tag payload s
  | .modeSet tag payload => Sys2Proof.Machine.execModeSet tag payload s
  | .tableRead tag payload => Sys2Proof.Machine.execTableRead tag payload s
  | .attentionSet tag payload => Sys2Proof.Machine.execAttentionSet tag payload s
  | .attend tag payload => Sys2Proof.Machine.execAttend tag payload s
  | .collect tag payload => Sys2Proof.Machine.execCollect tag payload s
  | .collectStatus tag payload => Sys2Proof.Machine.execCollectStatus tag payload s
  | .collectStop tag payload => Sys2Proof.Machine.execCollectStop tag payload s
  | .entryRead tag payload => Sys2Proof.Machine.execEntryRead tag payload s
  | .entryWipe tag payload => Sys2Proof.Machine.execEntryWipe tag payload s
  | .prompt tag payload => Sys2Proof.Machine.execPrompt tag payload s
  | .promptClear tag payload => Sys2Proof.Machine.execPromptClear tag payload s
  | .beep tag payload => Sys2Proof.Machine.execBeep tag payload s
  | .cardLineSet tag payload => Sys2Proof.Machine.execCardLineSet tag payload s
  | .cardStatus tag payload => Sys2Proof.Machine.execCardStatus tag payload s
  | .cardPower tag payload => Sys2Proof.Machine.execCardPower tag payload s
  | .cardExchange tag payload => Sys2Proof.Machine.execCardExchange tag payload s
  | .cardPresent tag payload => Sys2Proof.Machine.execCardPresent tag payload s
  | .cardRelease tag payload => Sys2Proof.Machine.execCardRelease tag payload s
  | .cardAbort tag payload => Sys2Proof.Machine.execCardAbort tag payload s
  | .linkRate tag payload => Sys2Proof.Machine.execLinkRate tag payload s
  | .resetArm tag payload => Sys2Proof.Machine.execResetArm tag payload s
  | .counterReset tag payload => Sys2Proof.Machine.execCounterReset tag payload s
  | .identify tag payload => Sys2Proof.Machine.execIdentify tag payload s
  | .counterStatus tag payload => Sys2Proof.Machine.execCounterStatus tag payload s
  | .roundTimerExpiry g => Sys2Proof.Machine.execRoundTimerExpiry g s
  | .pollLastByteLeaves g => Sys2Proof.Machine.execPollLastByteLeaves g s
  | .keypadReply g reply => Sys2Proof.Machine.execKeypadReply g reply s
  | .responseWindowExpiry g => Sys2Proof.Machine.execResponseWindowExpiry g s
  | .withdrawal => Sys2Proof.Machine.execWithdrawal s
  | .lapseTimerExpiry => Sys2Proof.Machine.execLapseTimerExpiry s
  | .interkeyExpiry p => Sys2Proof.Machine.execInterkeyExpiry p s
  | .totalTimerExpiry p => Sys2Proof.Machine.execTotalTimerExpiry p s
  | .promptHoldExpiry p => Sys2Proof.Machine.execPromptHoldExpiry p s
  | .stateFrame p reported => Sys2Proof.Machine.execStateFrame p reported s
  | .faultFrame p cause => Sys2Proof.Machine.execFaultFrame p cause s
  | .doneFrame p => Sys2Proof.Machine.execDoneFrame p s
  | .answerFrame p payload => Sys2Proof.Machine.execAnswerFrame p payload s
  | .responseFrame p payload => Sys2Proof.Machine.execResponseFrame p payload s
  | .unlistedFrameKind p kind payload => Sys2Proof.Machine.execUnlistedFrameKind p kind payload s
  | .failingFrame p bytes => Sys2Proof.Machine.execFailingFrame p s bytes
  | .cardFrameSent p => Sys2Proof.Machine.execCardFrameSent p s
  | .lineSilenceExpiry p => Sys2Proof.Machine.execLineSilenceExpiry p s
  | .helloAnswerExpiry p => Sys2Proof.Machine.execHelloAnswerExpiry p s
  | .noReaderHelloExpiry p => Sys2Proof.Machine.execNoReaderHelloExpiry p s
  | .exchangeTimerExpiry p => Sys2Proof.Machine.execExchangeTimerExpiry p s
  | .tick => Sys2Proof.Machine.execTick s
  | .keypadReplyByte g byte => Sys2Proof.Machine.execKeypadReplyByte g byte s
  | .cardLineSyncByte p => Sys2Proof.Machine.execCardLineSyncByte p s
  | .linkSyncByte => Sys2Proof.Machine.execLinkSyncByte s

end Sys2Proof.Machine
end

