-- ==== Sys2Proof/WellFormed.lean ====
section
/-! DEFINITION. Which commands are well formed: the shape that the rules give a record that reaches R174, a
complete keypad reply (R29) and a complete reader frame (R138), and that the bytes of RECORD_DISCARD and
FAILING_FRAME are ones the receiver does discard. The positions, buses and reader conditions are in range by their
types. The machine's meanings are total: they also answer for a command that is not well formed. -/

namespace Sys2Proof

/-- A record's payload is at most 250 bytes; a longer length field makes the record a discarded one (R172, R173). -/
abbrev recordPayloadOk (payload : List Byte) : Bool := decide (payload.length ≤ Config.recordPayload)

/-- The request kinds are 0x01 to 0x23 (section 12.2). -/
abbrev isRequestKind (kind : Byte) : Bool := decide (1 ≤ kind.toNat ∧ kind.toNat ≤ 0x23)

/-- A complete keypad reply: a status byte with a key count of 0 to 4, that many codes, two check bytes (R29). -/
def replyShapeOk : List Byte → Bool
  | [] => false
  | status :: rest => decide (status.toNat % 8 ≤ 4 ∧ rest.length = status.toNat % 8 + 2)

/-- The largest payload of a card line frame is 240 bytes (section 12.5). -/
abbrev framePayloadOk (payload : List Byte) : Bool := decide (payload.length ≤ Config.framePayload)

/-- A reader frame whose kind is listed in R139 and whose payload fits that kind (R187), or whose wrong length
R162 handles. -/
def listedFrame (kind : Byte) (payload : List Byte) : Bool :=
  match kind.toNat, payload with
  | 0x11, [v] => decide (v.toNat ≤ 2)
  | 0x12, [v] => decide (1 ≤ v.toNat ∧ v.toNat ≤ 3)
  | 0x13, [] => true
  | 0x14, _ => true
  | 0x15, _ => true
  | _, _ => false

/-- The bytes of one frame, from its kind byte to the byte that ends it (R138). -/
def wholeFrame (bytes : List Byte) : Bool := Machine.frameEnds bytes && !Machine.frameEnds bytes.dropLast

/-- The well-formed commands. -/
def Instr.wellFormed : Instr → Bool
  | .powerOnReset _ _ => true
  | .linkUp => true
  | .linkDown => true
  | .recordDiscard bytes => (Machine.goodRecord bytes).isNone
  | .unknownRequest kind _ payload => !isRequestKind kind && recordPayloadOk payload
  | .recordSent => true
  | .openPosition _ payload => recordPayloadOk payload
  | .closePosition _ payload => recordPayloadOk payload
  | .resetPosition _ payload => recordPayloadOk payload
  | .setMode _ payload => recordPayloadOk payload
  | .positionStatus _ payload => recordPayloadOk payload
  | .busSet _ payload => recordPayloadOk payload
  | .busStatus _ payload => recordPayloadOk payload
  | .bankOpen _ payload => recordPayloadOk payload
  | .bankClose _ payload => recordPayloadOk payload
  | .bankFreeze _ payload => recordPayloadOk payload
  | .tableWrite _ payload => recordPayloadOk payload
  | .modeSet _ payload => recordPayloadOk payload
  | .tableRead _ payload => recordPayloadOk payload
  | .attentionSet _ payload => recordPayloadOk payload
  | .attend _ payload => recordPayloadOk payload
  | .collect _ payload => recordPayloadOk payload
  | .collectStatus _ payload => recordPayloadOk payload
  | .collectStop _ payload => recordPayloadOk payload
  | .entryRead _ payload => recordPayloadOk payload
  | .entryWipe _ payload => recordPayloadOk payload
  | .prompt _ payload => recordPayloadOk payload
  | .promptClear _ payload => recordPayloadOk payload
  | .beep _ payload => recordPayloadOk payload
  | .cardLineSet _ payload => recordPayloadOk payload
  | .cardStatus _ payload => recordPayloadOk payload
  | .cardPower _ payload => recordPayloadOk payload
  | .cardExchange _ payload => recordPayloadOk payload
  | .cardPresent _ payload => recordPayloadOk payload
  | .cardRelease _ payload => recordPayloadOk payload
  | .cardAbort _ payload => recordPayloadOk payload
  | .linkRate _ payload => recordPayloadOk payload
  | .resetArm _ payload => recordPayloadOk payload
  | .counterReset _ payload => recordPayloadOk payload
  | .identify _ payload => recordPayloadOk payload
  | .counterStatus _ payload => recordPayloadOk payload
  | .roundTimerExpiry _ => true
  | .pollLastByteLeaves _ => true
  | .keypadReply _ reply => replyShapeOk reply
  | .responseWindowExpiry _ => true
  | .withdrawal => true
  | .lapseTimerExpiry => true
  | .interkeyExpiry _ => true
  | .totalTimerExpiry _ => true
  | .promptHoldExpiry _ => true
  | .stateFrame _ _ => true
  | .faultFrame _ _ => true
  | .doneFrame _ => true
  | .answerFrame _ payload => framePayloadOk payload
  | .responseFrame _ payload => framePayloadOk payload
  | .unlistedFrameKind _ kind payload => framePayloadOk payload && !listedFrame kind payload
  | .failingFrame _ bytes => wholeFrame bytes && (Machine.goodFrame bytes).isNone
  | .cardFrameSent _ => true
  | .lineSilenceExpiry _ => true
  | .helloAnswerExpiry _ => true
  | .noReaderHelloExpiry _ => true
  | .exchangeTimerExpiry _ => true
  | .tick => true
  | .keypadReplyByte _ _ => true
  | .cardLineSyncByte _ => true
  | .linkSyncByte => true

end Sys2Proof
end

