-- ==== Sys2Proof/Safety.lean ====
section
/-! DEFINITION. What a safe run of the CX16 keeps: the limits and relations that the rules promise between events,
block by block, in the terms the statements use. -/

namespace Sys2Proof.Machine

open Sys2Proof

/-- The queue limits of R176 with the reservation of R72 and R178: at most 8 replies, notices and reservation within
64, a reservation of 1 slot exactly while an attention is outstanding, and a record WAITING only behind 8 replies. -/
def OutboundOk (s : State) : Prop :=
  s.oq.replies ≤ 8 ∧ s.oq.notices + s.oq.reservation ≤ 64 ∧ s.oq.reservation = (if s.halted then 1 else 0) ∧
    ∀ r, s.link.rx = .waiting r → s.oq.replies = 8

/-- The places of the IF that a bus's poll in flight holds (R27). -/
def Bus.held (b : Bus) : Nat :=
  match b.poll with
  | .none => 0
  | .some q => q.reserved

/-- The places that the four buses hold (R43). -/
def heldPlaces (s : State) : Nat := s.bus.q0.held + s.bus.q1.held + s.bus.q2.held + s.bus.q3.held

/-- A poll in flight holds 5 places in a round in progress; a disowned one holds none, with the round finished and the
round timer stopped (R21, R27, R40). -/
def Bus.holdOk (b : Bus) : Prop :=
  ∀ q, b.poll = .some q →
    q.reserved = (if q.disowned then 0 else 5) ∧
      (if q.disowned then b.round = .finished ∧ b.roundTimer = .stopped else b.round ≠ .finished)

/-- The IF within its 128 places (R44), its reserved count the sum of the polls' places (R43), and no pending flag
set while a place is free (R49). -/
def IntakeOk (s : State) : Prop :=
  s.intake.occupied + s.intake.reserved ≤ 128 ∧ s.intake.reserved = heldPlaces s ∧
    (∀ g, (s.bus.get g).holdOk) ∧ (0 < s.intake.flagCount → s.intake.free = 0)

/-- What a CLOSED position has (R9, R48, R51, R100, R103): no entry, no prompt and no hold, no pending flag, no
intake entry that can reach a lookup, no attention. -/
def ClosedOk (s : State) (p : Pos) : Prop :=
  (s.pos.get p).state = .closed →
    s.entry.get p = .none ∧ (s.pu.get p).slotA = .none ∧ (s.pu.get p).slotB = .none ∧
      (s.pu.get p).holdTimer = .stopped ∧ s.intake.flags.get p = PendingFlags.clear ∧
      (∀ e ∈ s.intake.entries, e.pos = p → e.void = true) ∧ ownsAttention p s = false

/-- The bank relations of R61 and R64: the open bank is not frozen, and no position with an entry selects it. -/
def BanksOk (s : State) : Prop :=
  ∀ b, s.tables.openBank = .some b →
    s.tables.frozen.get b = false ∧ ∀ p, s.entry.get p ≠ .none → (s.pos.get p).bank ≠ b

/-- An entry within its limits (R103, R106, R108); one collecting under policy COMPLETE is not full yet (R109). -/
def Entry.ok (e : Entry) : Prop :=
  e.buffer.length ≤ e.maxLength ∧ 1 ≤ e.maxLength ∧ e.maxLength ≤ 16 ∧ e.minLength ≤ e.maxLength ∧
    (e.policy = .complete → e.state = .collecting → e.fullReached = false ∧ e.buffer.length < e.maxLength)

/-- The position's entry, if there is one, within its limits. -/
def EntryOk (s : State) (p : Pos) : Prop := ∀ e, s.entry.get p = .some e → e.ok

/-- An echo field within one line (R125). -/
def EchoField.ok (f : EchoField) : Prop := f.line ≤ 1 ∧ 1 ≤ f.width ∧ f.column + f.width ≤ 16

/-- A stored prompt (R125). -/
def Prompt.ok (pr : Prompt) : Prop := pr.text.length ≤ 32 ∧ pr.hold ≤ 600 ∧ ∀ f, pr.field = .some f → f.ok

/-- The width of the current prompt's echo field, 0 without one. -/
def PromptUnit.fieldWidth (u : PromptUnit) : Nat :=
  match u.current.bind (fun pr => pr.field) with
  | .none => 0
  | .some f => f.width

/-- A prompt unit as R124 describes it: 32 characters on the display, the cursor within the echo field, and nothing in
the other slot when the current slot is empty or its prompt has ended (R128, R131). -/
def PromptUnit.ok (u : PromptUnit) : Prop :=
  u.content.length = 32 ∧ u.cursor ≤ u.fieldWidth ∧ (∀ pr, u.slotA = .some pr → pr.ok) ∧
    (∀ pr, u.slotB = .some pr → pr.ok) ∧ (u.current = .none → u.other = .none) ∧
    (u.phase = .ended → u.other = .none) ∧ (u.holdTimer ≠ .stopped → u.current ≠ .none ∧ u.phase = .running)

/-- The card state in which an exchange of a kind is in flight (R155, R157, R158, R161). -/
def ExchangeKind.inFlightState : ExchangeKind → CardState
  | .power => .powering
  | .command => .exchanging
  | .present => .exchanging
  | .release => .releasing

/-- Whether a record's opening frame is still WAITING (R156). -/
def Exchange.openingWaits (x : Exchange) : Bool := decide (x.phase = .awaiting ∧ x.kind ≠ .release ∧ x.sent = false)

/-- A card line and its exchange record agree (R137, R154, R156): NO_READER exactly without a PRESENT reader; an
exchange in flight stands in its kind's card state, and POWERING and EXCHANGING only with one; the transmit list
holds an opening frame exactly while the record's opening frame waits, and nothing waits behind no frame. -/
def CardOk (s : State) (p : Pos) : Prop :=
  ((s.line.get p).state = .noReader ↔ (s.line.get p).presence ≠ .present) ∧
    (∀ x, s.xs.get p = .some x → x.phase = .awaiting → (s.line.get p).state = x.kind.inFlightState) ∧
    ((s.line.get p).state = .powering ∨ (s.line.get p).state = .exchanging → s.inFlight p = true) ∧
    (s.line.get p).txWaiting.count .opening =
      (match s.xs.get p with
        | .none => 0
        | .some x => if x.openingWaits then 1 else 0) ∧
    ((s.line.get p).txLeaving = .none → (s.line.get p).txWaiting = []) ∧
    (s.line.get p).txLeaving ≠ .some .opening

/-- The state of a part right after a power-on reset with the given strap and WCTS level: the values of the reset tables
of R3, R17, R18, R43, R61, R62, R72, R92, R103, R124, R137, R154, R171 and R176, and what the reset itself starts
(R21, R27, R152): each bus polls its address 3 under 5 reserved places and each line's HELLO leaves. -/
structure PoweredOn (mode : LinkMode) (wcts : Bool) (s : State) : Prop where
  timeCount : s.timeCount = 0
  link : s.link = { mode := mode, rate := 115200, pendingRate := .none, rx := .hunting,
                    up := match mode with
                      | .uart => wcts
                      | .usb => false,
                    armed := false, errors := 0 }
  queue : s.oq.queue = [.notice (.started .powerOn mode)]
  reservation : s.oq.reservation = 0
  owed : anyOwed s = false
  positions : ∀ p, s.pos.get p = ⟨.closed, 0, 0, 0, 0, 0, 0, 0, 0⟩
  buses : ∀ g, (s.bus.get g).settings = ⟨19200, 20, 6, 3⟩ ∧ (s.bus.get g).pending = .none ∧
    (s.bus.get g).roundCounter = 0 ∧ (s.bus.get g).roundDue = false ∧ (s.bus.get g).roundTimer = .running 20 ∧
    (s.bus.get g).windowTimer = .stopped ∧ (s.bus.get g).round = .inProgress 3
  polls : ∀ g, ∃ q, (s.bus.get g).poll = .some q ∧ q.addr = 3 ∧ q.taken = true ∧ q.beep = .none ∧
    q.carried = .some (0, List.replicate 32 0x20) ∧ q.reserved = 5 ∧ q.phase = .sending ∧ q.disowned = false
  addresses : ∀ g a, (s.bus.get g).addrs.get a = ⟨.unheard, .none, 0, 8, 0, false⟩
  intake : s.intake.entries = [] ∧ s.intake.reserved = 20 ∧ s.intake.flagCount = 0 ∧ s.intake.pressure = .normal
  entriesInitial : ∀ b m c, s.tables.readEntry b m c = ⟨m, .discard, .none, .none, false, false⟩
  descriptorsInitial : ∀ b m, s.tables.readDescriptor b m = ⟨false, 0x2A⟩
  banks : s.tables.openBank = .none ∧ ∀ b, s.tables.frozen.get b = false
  attention : s.attn = ⟨.none, .stopped, 2000, 0⟩
  entries : ∀ p, s.entry.get p = .none
  prompts : ∀ p, s.pu.get p = ⟨.none, .none, .a, .notStarted, .stopped, List.replicate 32 0x20, 0, true, 0, .none⟩
  lines : ∀ p, s.line.get p =
    { settings := ⟨38400, 1500⟩, pending := .none, presence := .unheard, state := .noReader, cause := .none,
      powerUnknown := false, misses := 0, checkFails := 0, helloOut := false, rx := .hunting,
      txLeaving := .some .hello, txWaiting := [], silenceTimer := .stopped, helloTimer := .stopped,
      noReaderTimer := .running 2000, checkErrors := 0, lateFrames := 0, faults := 0, changes := 0 }
  exchanges : ∀ p, s.xs.get p = .none

/-- Everything a safe run keeps. -/
structure Inv (s : State) : Prop where
  outbound : OutboundOk s
  intake : IntakeOk s
  closed : ∀ p, ClosedOk s p
  banks : BanksOk s
  tables : s.tables.wf = true
  entries : ∀ p, EntryOk s p
  prompts : ∀ p, (s.pu.get p).ok
  cards : ∀ p, CardOk s p

/-- What one step did to a frozen bank (R66): it is still frozen and reads as it did at every mode row and code. -/
def keepsFrozen (s t : State) (b : Bank) : Prop :=
  t.tables.frozen.get b = true ∧ (∀ m c, t.tables.readEntry b m c = s.tables.readEntry b m c) ∧
    ∀ m, t.tables.readDescriptor b m = s.tables.readDescriptor b m

/-! ### The acceptance of a request, in the terms of the statements -/

/-- A request is accepted when its record arrives: the receiver is HUNTING, or RECEIVING with the record's sync byte
just taken, and fewer than 8 replies are queued (R172, R174, R175). That a request's command brings its record's bytes,
and the sync byte with them in HUNTING, is the model's reading (notes/assumptions/5). -/
abbrev State.takesRequests (s : State) : Prop :=
  (s.link.rx = .hunting ∨ s.link.rx = .receiving []) ∧ s.oq.replies < 8

/-- The state in which an accepted request is carried out: the receiver hunts again (R172). -/
def State.received (s : State) : State := { s with link := { s.link with rx := .hunting } }

/-- A request's reply queued at the end of its event, with armed cleared (R174, R181). With the link up the transfer of
the head record has begun: that it begins in the event in which the record is the head is the model's reading
(notes/assumptions/6). -/
def State.replied (s : State) (k : ReqKind) (tag : Byte) (a : Answer) : State :=
  { s with
    link := { s.link with armed := false }
    oq := { s.oq with queue := s.oq.queue ++ [.reply k tag a], begun := s.oq.begun || s.link.up } }

/-- A refusal with no fields: the state is as it stood, apart from armed and the reply (R179). -/
def State.refused (s : State) (k : ReqKind) (tag : Byte) (st : Status) : State :=
  s.received.replied k tag (.no st [])

/-- The command that carries a request's record. -/
def Request.command (r : Request) : Instr :=
  match r.kind with
  | .unknown k => .unknownRequest k r.tag r.payload
  | .openPosition => .openPosition r.tag r.payload
  | .closePosition => .closePosition r.tag r.payload
  | .resetPosition => .resetPosition r.tag r.payload
  | .setMode => .setMode r.tag r.payload
  | .positionStatus => .positionStatus r.tag r.payload
  | .busSet => .busSet r.tag r.payload
  | .busStatus => .busStatus r.tag r.payload
  | .bankOpen => .bankOpen r.tag r.payload
  | .bankClose => .bankClose r.tag r.payload
  | .bankFreeze => .bankFreeze r.tag r.payload
  | .tableWrite => .tableWrite r.tag r.payload
  | .modeSet => .modeSet r.tag r.payload
  | .tableRead => .tableRead r.tag r.payload
  | .attentionSet => .attentionSet r.tag r.payload
  | .attend => .attend r.tag r.payload
  | .collect => .collect r.tag r.payload
  | .collectStatus => .collectStatus r.tag r.payload
  | .collectStop => .collectStop r.tag r.payload
  | .entryRead => .entryRead r.tag r.payload
  | .entryWipe => .entryWipe r.tag r.payload
  | .prompt => .prompt r.tag r.payload
  | .promptClear => .promptClear r.tag r.payload
  | .beep => .beep r.tag r.payload
  | .cardLineSet => .cardLineSet r.tag r.payload
  | .cardStatus => .cardStatus r.tag r.payload
  | .cardPower => .cardPower r.tag r.payload
  | .cardExchange => .cardExchange r.tag r.payload
  | .cardPresent => .cardPresent r.tag r.payload
  | .cardRelease => .cardRelease r.tag r.payload
  | .cardAbort => .cardAbort r.tag r.payload
  | .linkRate => .linkRate r.tag r.payload
  | .resetArm => .resetArm r.tag r.payload
  | .counterReset => .counterReset r.tag r.payload
  | .identify => .identify r.tag r.payload
  | .counterStatus => .counterStatus r.tag r.payload

/-- The requests whose first field is a position (R2). -/
def ReqKind.namesPosition (k : ReqKind) : Bool :=
  decide (k ∈ [.openPosition, .closePosition, .resetPosition, .setMode, .positionStatus, .collect, .collectStatus,
    .collectStop, .entryRead, .entryWipe, .prompt, .promptClear, .beep, .cardStatus, .cardPower, .cardExchange,
    .cardPresent, .cardRelease, .cardAbort])

/-- The requests whose first field is a group (R2). -/
def ReqKind.namesGroup (k : ReqKind) : Bool := decide (k ∈ [.busSet, .busStatus, .cardLineSet])

/-- The payload length of the requests whose fields imply one length (R186, with the fields that the owning rules
name). -/
def ReqKind.fixedLength : ReqKind → Option Nat
  | .unknown _ => .none
  | .bankClose | .resetArm | .counterReset | .identify | .counterStatus => .some 0
  | .closePosition | .resetPosition | .positionStatus | .busStatus | .bankOpen | .bankFreeze | .collectStatus
  | .collectStop | .entryRead | .entryWipe | .promptClear | .cardStatus | .cardPower | .cardRelease | .cardAbort => .some 1
  | .setMode | .attentionSet | .beep => .some 2
  | .openPosition => .some 3
  | .modeSet | .tableRead | .linkRate => .some 4
  | .cardLineSet => .some 7
  | .cardPresent => .some 8
  | .busSet => .some 10
  | .collect => .some 11
  | .tableWrite | .attend | .prompt | .cardExchange => .none

/-! ### Terms of the other statements -/

/-- The frames a card line has to send: the one leaving and those waiting, in order (R137). -/
def CardLine.frames (l : CardLine) : List TxFrame := l.txLeaving.toList ++ l.txWaiting

/-- The line's transmit list has no frame waiting behind none (R137). -/
abbrev CardLine.flows (l : CardLine) : Prop := l.txLeaving = .none → l.txWaiting = []

/-- A frame that arrives is received whole: the receiver is HUNTING, or RECEIVING with the frame's sync byte just taken
(R138). That a frame's command brings its bytes, and the sync byte with them in HUNTING, is the model's reading
(notes/assumptions/5). -/
abbrev CardLine.fresh (l : CardLine) : Prop := l.rx = .hunting ∨ l.rx = .receiving []

/-- The transmit list is empty and the receiver is HUNTING (R141). -/
abbrev CardLine.quiet (l : CardLine) : Prop := l.txLeaving = .none ∧ l.txWaiting = [] ∧ l.rx = .hunting

/-- Nothing is owed and `n` notice slots are free, so a notice posted is queued in its event (R177). -/
abbrev State.slotsFree (s : State) (n : Nat) : Prop := anyOwed s = false ∧ n ≤ s.oq.freeSlots

/-- The IF can take `n` more entries with pressure staying NORMAL, and no flag waits (R48, R49, R52). -/
abbrev State.intakeRoom (s : State) (n : Nat) : Prop :=
  s.intake.pressure = .normal ∧ s.intake.occupied + s.intake.reserved + n < 64 ∧ s.intake.flagCount = 0

/-- The pending flags set, in the order in which places serve them: ascending position, then ascending code (R49). -/
def Intake.flagsSet (f : Intake) : List (Pos × Synth) := flagOrder.filter fun x => (f.flags.get x.1).get x.2

/-- The IF `g` is `f` with the given flags served, each entered at the tail as a synthetic code and cleared, and the given
entries behind them (R47, R49); its reserved count is not said. -/
def Intake.takesIn (g f : Intake) (served : List (Pos × Synth)) (behind : List IntakeEntry) : Prop :=
  g.entries = f.entries ++ served.map (fun x => ⟨x.1, x.2.code, .synthetic, false⟩) ++ behind ∧
    g.pressure = f.pressure ∧
    ∀ p k, (g.flags.get p).get k = ((f.flags.get p).get k && decide ((p, k) ∉ served))

/-- The bytes that the waiting command brings on the UART end at most one record: a request's record, or the bytes of a
RECORD_DISCARD that end no record ahead of their last byte, at a receiver that is not in mid-record (R172). Other commands
bring one byte of a record or none. -/
def State.bringsOneRecord (s : State) : Prop :=
  s.link.mode = .uart →
    (∀ (r : Request) rest, s.pending = r.command :: rest →
      r.command.wellFormed = true ∧ ∀ got, s.link.rx = .receiving got → got = []) ∧
    ∀ bytes rest, s.pending = .recordDiscard bytes :: rest →
      recordEnds bytes.dropLast = false ∧ ∀ got, s.link.rx = .receiving got → got = []

/-- Codes that ENTRY_COMPLETE may carry for a position in the state `s` (R78, R110, R112): those of an entry that is not
secret, the last one perhaps held by the completing disposition itself, in a mode that is not secret. -/
def State.plainCodes (s : State) (p : Pos) (codes : List Code) : Prop :=
  ∃ e, s.entry.get p = .some e ∧ e.secret = false ∧
    (codes = e.buffer ∨ (s.descriptor p).secret = false ∧ ∃ c, codes = e.buffer ++ [c])

/-- An application's notice queued by a step from `s` gives away no secret digit (R78, R82, R112). -/
def AppNotice.keepsSecrets (s : State) : AppNotice → Prop
  | .key p c _ => 9 < c.val ∨ s.secretContext p = false
  | .entryComplete p _ secret codes => ∀ l, codes = .some l → secret = false ∧ s.plainCodes p l
  | .entryProgress _ _ _ => True
  | .entryCancelled _ _ _ _ => True

/-- A notice queued by a step from `s` gives away no secret digit: the reported code of an attention is no digit in secret
context, and an outcome carried in ATTENTION_LAPSED is held to the same (R93, R99). -/
def Notice.keepsSecrets (s : State) : Notice → Prop
  | .app n => n.keepsSecrets s
  | .attention _ p reported _ _ _ _ => 9 < reported.toNat ∨ s.secretContext p = false
  | .attentionLapsed _ p reported _ _ _ outcome =>
    (9 < reported.toNat ∨ s.secretContext p = false) ∧ ∀ n, outcome = .some n → n.keepsSecrets s
  | .entryExpired _ _ _ _ _ => True
  | .keypadState _ _ => True
  | .fifoPressure _ _ _ => True
  | .cardState _ _ _ _ _ => True
  | .exchangeDone _ _ _ _ _ => True
  | .started _ _ => True

/-- The bytes of a keypad reply after its sync byte, with a right check (section 12.4). -/
def keypadReplyBytes (a : Addr) (seq applied alarm : Bool) (codes : List Code) : List Byte :=
  let status : Byte := BitVec.ofNat 8 (64 * a.val + (if seq then 32 else 0) + (if applied then 16 else 0) +
    (if alarm then 8 else 0) + codes.length)
  let body := status :: codes.map codeByte
  body ++ checkBytes body

/-- A poll that a reply answers whole: its last byte has left and nothing of a reply has come, or just its sync byte
(R29). That KEYPAD_REPLY brings the bytes, and the sync byte with them in the first case, is the model's reading
(notes/assumptions/5). -/
abbrev Poll.answerable (q : Poll) : Prop := q.phase = .awaiting ∨ q.phase = .receiving []

/-- The state with the poll of a bus in a phase and its response window just loaded (R29). -/
def State.withPoll (s : State) (g : Group) (q : Poll) (phase : PollPhase) : State :=
  { s with bus := s.bus.modify g fun b =>
    { b with poll := .some { q with phase := phase }, windowTimer := .running q.window } }

/-- The end of the poll in flight starts no new visit of the address: the round goes on below it, or has finished, and no
next round is due (R21, R22). -/
def State.leavesBehind (s : State) (g : Group) (a : Addr) : Prop :=
  ∀ n, (s.bus.get g).round = .inProgress n → n ≤ a.val ∧ (s.bus.get g).roundDue = false

/-- What a valid reply to the poll `q` leaves of the prompt unit of the position polled (R36, R130): applied content that
is still the current one clears the dirty mark and starts a hold not started. The beep is that of the polls sent since. -/
def PromptUnit.heard (u v : PromptUnit) (q : Poll) (applied : Bool) : Prop :=
  let reported := applied = true ∧ q.carried.map Prod.fst = .some u.number
  let starts := reported ∧ u.phase = .notStarted ∧ u.current ≠ .none
  let hold := (u.current.map Prompt.hold).getD 0
  v = { u with
    dirty := u.dirty && !decide reported
    phase := if starts then (if hold = 0 then .shown else .running) else u.phase
    holdTimer := if starts ∧ hold ≠ 0 then .running (hold * 100) else u.holdTimer
    beep := v.beep }

/-- What an event of one position's card leaves as it stands: every block but the card line, the exchange record, the
entry, the outbound queue and the IF, and those of every other position. -/
def State.cardFrame (s t : State) (p : Pos) : Prop :=
  t.pending = s.pending ∧ t.timeCount = s.timeCount ∧ t.pos = s.pos ∧ t.bus = s.bus ∧ t.tables = s.tables ∧
    t.attn = s.attn ∧ t.pu = s.pu ∧ t.oq.reservation = s.oq.reservation ∧ t.oq.expired = s.oq.expired ∧
    t.oq.keypads = s.oq.keypads ∧ t.oq.pressure = s.oq.pressure ∧
    ∀ q, q ≠ p → t.line.get q = s.line.get q ∧ t.xs.get q = s.xs.get q ∧ t.entry.get q = s.entry.get q

/-- The records of a CARD_STATE posted for a line whose change count was `before` (R150). -/
def cardNotice (p : Pos) (st : CardState) (pr : ReaderPresence) (cause : Option FaultCause) (before : Nat) :
    List OutRecord :=
  [.notice (.cardState p st pr cause (min 255 (before + 1)))]

/-- A notice slot is free once the attention of the position, if it owns the outstanding one, has been voided (R12,
R177). -/
abbrev State.slotAfterVoid (s : State) (p : Pos) : Prop :=
  s.oq.notices + (if ownsAttention p s then 0 else s.oq.reservation) < 64

/-- The notice of a card moved to SEATED as its position is closed or reset (R13, R14, R150): queued when a slot is
free. -/
def State.seatedNotice (s : State) (p : Pos) (moved : Bool) : List OutRecord :=
  if moved = true ∧ s.slotAfterVoid p then
    cardNotice p .seated (s.line.get p).presence (s.line.get p).cause (s.line.get p).changes
  else []

/-- What is owed of that notice: all of it without a free slot, its change counted; nothing else (R150, R177). -/
def State.seatedOwed (s t : State) (p : Pos) (moved : Bool) : Prop :=
  if moved = true ∧ ¬ s.slotAfterVoid p then
    t.oq.cards = s.oq.cards.set p (.some ⟨.seated, (s.line.get p).presence, (s.line.get p).cause⟩) ∧
      (t.line.get p).changes = min 255 ((s.line.get p).changes + 1)
  else
    t.oq.cards = s.oq.cards ∧ (t.line.get p).changes = (if moved then 0 else (s.line.get p).changes)

/-- The frame that an opening frame becomes at the front of an idle line's list (R156, R160). -/
def openingFrame (kind : ExchangeKind) (command header : List Byte) (digits : List Code) : TxFrame :=
  match kind with
  | .power => .powerOn
  | .command => .command command
  | .present => .command (header ++ entryBlock digits)
  | .release => .eject

/-- An entry that CARD_PRESENT takes (R159). -/
abbrev Entry.takenByPresent (e : Entry) : Prop :=
  e.state = .complete ∧ e.secret = true ∧ 4 ≤ e.buffer.length ∧ e.buffer.length ≤ 12 ∧ ∀ c ∈ e.buffer, c.val ≤ 9

/-- The entries after the end of an exchange of a kind at a position (R121, R167): a presented entry is gone when the
exchange was a presentation. -/
def State.entriesAfterEnd (s : State) (p : Pos) (kind : ExchangeKind) : PerPos (Option Entry) :=
  match kind, s.entry.get p with
  | .present, .some e => if e.presented then s.entry.set p .none else s.entry
  | .present, .none => s.entry
  | .power, _ => s.entry
  | .command, _ => s.entry
  | .release, _ => s.entry

/-- The frames of a line with an opening frame still WAITING taken out (R156). -/
def CardLine.framesWithoutOpening (l : CardLine) : List TxFrame :=
  l.txLeaving.toList ++ l.txWaiting.filter fun f => decide (f ≠ .opening)

/-- What a frame whose check passes leaves of a line outside NO_READER (R139). -/
def CardLine.heard (l m : CardLine) : Prop :=
  m.presence = l.presence ∧ m.misses = 0 ∧ m.checkFails = 0 ∧ m.helloOut = false ∧
    m.helloTimer = (if l.helloOut then .stopped else l.helloTimer) ∧ m.rx = .hunting ∧
    m.silenceTimer = .running 500 ∧ m.noReaderTimer = l.noReaderTimer ∧ m.powerUnknown = l.powerUnknown ∧
    m.checkErrors = l.checkErrors

/-- What the loss of a line leaves of it (R144), once its CARD_STATE is queued. -/
def CardLine.lostAs (l m : CardLine) : Prop :=
  m.state = .noReader ∧ m.presence = .lost ∧ m.cause = .none ∧
    m.powerUnknown = (l.powerUnknown || l.state.powered) ∧ m.silenceTimer = .stopped ∧ m.helloTimer = .stopped ∧
    m.noReaderTimer = .running 2000 ∧ m.changes = 0

/-- What the abandonment of a frame at a line timer's expiry, with an exchange in flight, leaves by itself (R138, R139):
the receiver hunts, the line check errors counter has risen, the consecutive check failures stand, and the card's other
blocks are as they were. -/
def State.abandonedOnce (s t : State) (p : Pos) : Prop :=
  s.cardFrame t p ∧ t.link = s.link ∧ t.intake = s.intake ∧ (t.line.get p).rx = .hunting ∧
    (t.line.get p).checkErrors = min 65535 ((s.line.get p).checkErrors + 1) ∧
    (t.line.get p).checkFails = (s.line.get p).checkFails

/-- What the acceptance of CARD_POWER, CARD_EXCHANGE or CARD_PRESENT leaves (R155 to R160), its CARD_STATE queued: the
record, whose opening frame leaves at once on an idle line and waits behind the others on a busy one. -/
def exchangeStarts (s t : State) (p : Pos) (kind : ExchangeKind) (st : CardState) (tag : Byte)
    (command header : List Byte) (digits : List Code) (loaded : Nat) : Prop :=
  let idle := (s.line.get p).txLeaving = .none
  t.xs.get p = .some
      { kind := kind, tag := tag, phase := .awaiting, sent := decide idle,
        command := if idle ∨ kind ≠ .command then .none else .some command,
        header := if idle ∨ kind ≠ .present then .none else .some header, timer := .running loaded,
        repeatUsed := false } ∧
    (t.line.get p).state = st ∧ (t.line.get p).changes = 0 ∧
    (t.line.get p).frames = (s.line.get p).frames ++
      [if idle then openingFrame kind command header digits else .opening] ∧
    t.entry.get p = (if idle ∧ kind = .present then
      (s.entry.get p).map fun e => { e with presented := true } else s.entry.get p) ∧
    t.intake = s.intake ∧ t.link = { s.link with rx := .hunting, armed := false } ∧ s.cardFrame t p

/-- The rows of R146's table that move the card state: state, report, new state, codes entered, exchange ends. -/
def reportRows : List (CardState × ReaderCondition × CardState × List Code × Bool) :=
  [(.empty, .throat, .throat, [0x39], false), (.empty, .seated, .seated, [0x39, 0x3A], false),
   (.throat, .empty, .empty, [0x3B], false), (.throat, .seated, .seated, [0x3A], false),
   (.seated, .empty, .empty, [0x3B], false), (.seated, .throat, .throat, [], false),
   (.powering, .empty, .empty, [0x3B], true), (.powering, .throat, .throat, [], true),
   (.exchanging, .empty, .empty, [0x3B], true), (.exchanging, .throat, .throat, [], true),
   (.ready, .empty, .empty, [0x3B], false), (.ready, .throat, .throat, [], false),
   (.releasing, .empty, .empty, [0x3B], true), (.releasing, .throat, .presented, [], false),
   (.releasing, .seated, .seated, [], false), (.presented, .empty, .empty, [0x3B], false),
   (.presented, .seated, .seated, [0x3A], false), (.fault, .empty, .empty, [0x3B], false)]

/-- The entries of R146's table that read "no change", with a release in flight for the two of RELEASING. -/
def idleReports : List (CardState × ReaderCondition × Bool) :=
  [(.empty, .empty, false), (.throat, .throat, false), (.seated, .seated, false), (.powering, .seated, false),
   (.exchanging, .seated, false), (.ready, .seated, false), (.releasing, .throat, true),
   (.releasing, .seated, true), (.presented, .throat, false), (.fault, .throat, false), (.fault, .seated, false)]

end Sys2Proof.Machine
end

