-- ==== Sys2Proof/Certificates/Slice0/Obligations.lean ====
section
/-! DEFINITION. The statements for the provers: what the commands of the CX16 do, rule by rule, and what every step
keeps. -/

open Sys2Proof Sys2Proof.Machine

/-! ### The step, the resets, the link -/

/-- A step runs the command at the front of the queue on the state with the queue's rest. With no command waiting the
part idles (the model's choice, notes/assumptions/3). -/
def Obligations.StepRunsTheFrontCommand : Prop :=
  (∀ (c : Instr) (rest : List Instr) (s : State),
    step { s with pending := c :: rest } = exec c { s with pending := rest }) ∧
  ∀ s : State, s.pending = [] → step s = .next s

/-- The state right after reset has the values of the reset tables, strapped for UART with WCTS negated (the model's
choice, notes/assumptions/1), and meets every invariant. -/
def Obligations.ResetStateIsPoweredOnAndSafe : Prop := PoweredOn .uart false State.reset ∧ Inv State.reset

/-- POWER_ON_RESET (R182 and the reset tables): from any state, every block takes its power-on values. (That the
commands waiting for the part stay in the model's own queue is the model's choice, notes/assumptions/19.) -/
def Obligations.PowerOnResetRestoresEveryBlock : Prop :=
  ∀ (mode : LinkMode) (wcts : Bool) (s : State), ∃ t, exec (.powerOnReset mode wcts) s = .next t ∧
    PoweredOn mode wcts t ∧ Inv t ∧ t.pending = s.pending

/-- LINK_UP, LINK_DOWN, LINK_SYNC_BYTE and RECORD_DISCARD (R172, R173, R175, R176) move the link's own state and the
transfer of the head record, and nothing else. The bytes of RECORD_DISCARD are ones that the receiver's judgement
(length limit, check) discards. (That a transfer cut on USB has not begun is the model's reading, notes/assumptions/6;
that a command brings a record's bytes, its sync byte with them in HUNTING, and that bytes have no effect while a record
is WAITING, notes/assumptions/5.) -/
def Obligations.LinkEventsMoveOnlyTheLink : Prop :=
  (∀ s : State, exec .linkUp s =
    .next { s with link := { s.link with up := true }, oq := { s.oq with begun := decide (s.oq.queue ≠ []) } }) ∧
  (∀ s : State, s.link.mode = .uart → exec .linkDown s = .next { s with link := { s.link with up := false } }) ∧
  (∀ s : State, s.link.mode = .usb → (∀ r, s.link.rx ≠ .waiting r) → exec .linkDown s =
    .next { s with link := { s.link with up := false, rx := .hunting }, oq := { s.oq with begun := false } }) ∧
  (∀ (s : State) (r : Request), s.link.mode = .usb → s.link.rx = .waiting r → exec .linkDown s =
    .next { s with link := { s.link with up := false }, oq := { s.oq with begun := false } }) ∧
  (∀ s : State, s.link.mode = .uart → s.link.rx = .hunting →
    exec .linkSyncByte s = .next { s with link := { s.link with rx := .receiving [] } }) ∧
  (∀ (s : State) (got : List Byte), s.link.mode = .uart → s.link.rx = .receiving got →
    recordEnds (got ++ [0xC5]) = false →
    exec .linkSyncByte s = .next { s with link := { s.link with rx := .receiving (got ++ [0xC5]) } }) ∧
  (∀ s : State, (s.link.mode = .usb ∨ ∃ r, s.link.rx = .waiting r) → exec .linkSyncByte s = .next s) ∧
  (∀ (s : State) (bytes : List Byte), (Instr.recordDiscard bytes).wellFormed = true →
    ((s.link.mode = .uart ∧ (s.link.rx = .hunting ∨ s.link.rx = .receiving []) ∧ recordEnds bytes = true ∧
        recordEnds bytes.dropLast = false) ∨
      (s.link.mode = .usb ∧ ∀ r, s.link.rx ≠ .waiting r)) →
    exec (.recordDiscard bytes) s =
      .next { s with link := { s.link with rx := .hunting, errors := min 65535 (s.link.errors + 1) } }) ∧
  ∀ (s : State) (bytes : List Byte) (r : Request), s.link.rx = .waiting r →
    exec (.recordDiscard bytes) s = .next s

/-- RECORD_SENT (R176, R180): the head record leaves and nothing else changes, when nothing is owed and no record is
WAITING; the reply of an accepted LINK_RATE brings the pending rate into force. With no transfer begun the command
changes nothing (notes/assumptions/4), and the next record's transfer begins in the event of the departure (the model's
reading, notes/assumptions/6). -/
def Obligations.RecordSentLeavesTheQueue : Prop :=
  (∀ (s : State) (n : Notice) (rest : List OutRecord), s.oq.begun = true → s.oq.queue = .notice n :: rest →
    anyOwed s = false → exec .recordSent s =
      .next { s with oq := { s.oq with queue := rest, begun := s.link.up && decide (rest ≠ []) } }) ∧
  (∀ (s : State) (k : ReqKind) (tag : Byte) (a : Answer) (rest : List OutRecord), s.oq.begun = true →
    s.oq.queue = .reply k tag a :: rest → (∀ r, s.link.rx ≠ .waiting r) →
    (k ≠ .linkRate ∨ a.status ≠ .ok ∨ s.link.pendingRate = .none) → exec .recordSent s =
      .next { s with oq := { s.oq with queue := rest, begun := s.link.up && decide (rest ≠ []) } }) ∧
  (∀ (s : State) (tag : Byte) (a : Answer) (rest : List OutRecord) (rate : Nat), s.oq.begun = true →
    s.oq.queue = .reply .linkRate tag a :: rest → (∀ r, s.link.rx ≠ .waiting r) → a.status = .ok →
    s.link.pendingRate = .some rate → exec .recordSent s =
      .next { s with link := { s.link with rate := rate, pendingRate := .none }
                     oq := { s.oq with queue := rest, begun := s.link.up && decide (rest ≠ []) } }) ∧
  ∀ s : State, s.oq.begun = false → exec .recordSent s = .next s

/-- The owed-notice service at a departure (R177): the slot that a departing notice frees goes to the first flag set in
the order of the rule, which is cleared as its notice joins the tail, and the service ends only with no flag set or no
slot free. -/
def Obligations.FreedSlotServesTheFirstOwedFlag : Prop :=
  ∀ (s t : State) (n m : Notice) (rest : List OutRecord) (before after : List OwedKey) (k : OwedKey) (u : State),
    s.oq.begun = true → s.oq.queue = .notice n :: rest → s.oq.notices + s.oq.reservation ≤ 64 →
    OwedKey.inOrder = before ++ k :: after → (∀ j ∈ before, isOwed s j = false) → takeOwed k s = .some (m, u) →
    exec .recordSent s = .next t →
    (∃ more, t.oq.queue = rest ++ .notice m :: more) ∧ isOwed t k = false ∧
      (anyOwed t = false ∨ t.oq.freeSlots = 0)

/-- The stall of the intake (R175): with 8 replies queued a request's record is held WAITING and nothing else changes;
while a record is WAITING no other is taken; and as a reply leaves the WAITING record is accepted, exactly as its
command is with that reply gone. (What arrives while a record is WAITING is lost by the model's reading,
notes/assumptions/5, and so is taken WAITING a USB record behind 8 replies, notes/assumptions/22; the next transfer
begins with the departure, ahead of the acceptance, notes/assumptions/6 and 28; and when the reply is an accepted
LINK_RATE's the pending rate comes into force ahead of the acceptance, notes/assumptions/23.) -/
def Obligations.FullReplyQueueHoldsOneRecord : Prop :=
  (∀ (s : State) (r : Request), (s.link.rx = .hunting ∨ s.link.rx = .receiving []) → r.command.wellFormed = true →
    8 ≤ s.oq.replies → exec r.command s = .next { s with link := { s.link with rx := .waiting r } }) ∧
  (∀ (s : State) (r w : Request), s.link.rx = .waiting w → exec r.command s = .next s) ∧
  (∀ (s : State) (r : Request) (k : ReqKind) (tag : Byte) (a : Answer) (rest : List OutRecord),
    s.oq.begun = true → s.oq.queue = .reply k tag a :: rest → s.link.rx = .waiting r → r.command.wellFormed = true →
    s.oq.replies ≤ 8 → (k ≠ .linkRate ∨ a.status ≠ .ok) → exec .recordSent s = exec r.command
      { s with link := { s.link with rx := .hunting }
               oq := { s.oq with queue := rest, begun := s.link.up && decide (rest ≠ []) } }) ∧
  ∀ (s : State) (r : Request) (tag : Byte) (a : Answer) (rest : List OutRecord),
    s.oq.begun = true → s.oq.queue = .reply .linkRate tag a :: rest → a.status = .ok → s.link.rx = .waiting r →
    r.command.wellFormed = true → s.oq.replies ≤ 8 → exec .recordSent s = exec r.command
      { s with link := { s.link with
                 rx := .hunting, rate := s.link.pendingRate.getD s.link.rate, pendingRate := .none }
               oq := { s.oq with queue := rest, begun := s.link.up && decide (rest ≠ []) } }

/-- The record checks (R2, R174, R186): a record of another kind is answered UNKNOWN_REQUEST with the kind byte
received, in a reply of kind 0x80, and a position above 15, a group above 3 or a payload of another length than the
request's fields imply is answered BAD_RECORD, ahead of every other check. (The length byte in CARD_PRESENT's payload is
the model's reading of R186, notes/assumptions/8.) -/
def Obligations.UnusableRecordsAreAnswered : Prop :=
  (∀ (s : State) (kind tag : Byte) (payload : List Byte), s.takesRequests →
    (Instr.unknownRequest kind tag payload).wellFormed = true →
    exec (.unknownRequest kind tag payload) s =
      .next (s.received.replied (.unknown kind) tag (.no .unknownRequest [kind]))) ∧
  (∀ kind tag : Byte,
    (OutRecord.reply (.unknown kind) tag (.no .unknownRequest [kind])).body = [0x80, tag, 3, 1, 0, kind]) ∧
  (∀ (s : State) (r : Request) (b : Byte) (rest : List Byte), s.takesRequests → r.command.wellFormed = true →
    r.kind.namesPosition = true → r.payload = b :: rest → 15 < b.toNat → exec r.command s = .next (s.refused r.kind r.tag .badRecord)) ∧
  (∀ (s : State) (r : Request) (b : Byte) (rest : List Byte), s.takesRequests → r.command.wellFormed = true →
    r.kind.namesGroup = true → r.payload = b :: rest → 3 < b.toNat → exec r.command s = .next (s.refused r.kind r.tag .badRecord)) ∧
  (∀ (s : State) (r : Request) (n : Nat), s.takesRequests → r.command.wellFormed = true →
    r.kind.fixedLength = .some n → r.payload.length ≠ n →
    exec r.command s = .next (s.refused r.kind r.tag .badRecord)) ∧
  ∀ (s : State) (r : Request), s.takesRequests → r.command.wellFormed = true →
    (r.kind = .attend ∧ r.payload.length ≠ 3 ∧ r.payload.length ≠ 5 ∨ r.kind = .tableWrite ∧ r.payload.length < 4 ∨
      r.kind = .cardExchange ∧ (r.payload.length < 4 ∨ 243 < r.payload.length) ∨
      r.kind = .prompt ∧ (r.payload.length < 3 ∨
        ∃ p form n rest, r.payload = p :: form :: n :: rest ∧ rest.length ≠ n.toNat + 6)) →
    exec r.command s = .next (s.refused r.kind r.tag .badRecord)

/-- The reply of a request (R174, R179): every accepted request receives exactly one reply, with its tag, behind the
replies already queued; and a refused one changes no state but armed: its reply is the only thing it leaves. -/
def Obligations.RequestsGetOneReplyAndRefusalsChangeNothing : Prop :=
  (∀ (s t : State) (r : Request), s.takesRequests → r.command.wellFormed = true → exec r.command s = .next t →
    ∃ a, t.oq.queue.filter OutRecord.isReply = s.oq.queue.filter OutRecord.isReply ++ [.reply r.kind r.tag a]) ∧
  ∀ (s t : State) (r : Request) (q : List OutRecord) (k : ReqKind) (tag : Byte) (a : Answer), s.takesRequests →
    r.command.wellFormed = true → exec r.command s = .next t → t.oq.queue = q ++ [.reply k tag a] → a.status ≠ .ok →
    t = s.received.replied r.kind r.tag a


/-! ### Positions (chapter 1) -/

/-- OPEN_POSITION and SET_MODE (R9, R15), with the order of their checks. -/
def Obligations.OpenPositionAndSetModeWriteTheRecord : Prop :=
  (∀ (s : State) (tag : Byte) (p : Pos) (b : Bank) (m : Mode), s.takesRequests → (s.pos.get p).state = .closed →
    exec (.openPosition tag (u8 p.val ++ u8 b.val ++ u8 m.val)) s =
      .next (({ s.received with pos := s.pos.modify p fun r =>
        { r with state := .opened, bank := b, mode := m } }).replied .openPosition tag (.ok []))) ∧
  (∀ (s : State) (tag bb mb : Byte) (p : Pos), s.takesRequests → (3 < bb.toNat ∨ 7 < mb.toNat) →
    exec (.openPosition tag (u8 p.val ++ [bb, mb])) s = .next (s.refused .openPosition tag .badValue)) ∧
  (∀ (s : State) (tag : Byte) (p : Pos) (b : Bank) (m : Mode), s.takesRequests → (s.pos.get p).state = .opened →
    exec (.openPosition tag (u8 p.val ++ u8 b.val ++ u8 m.val)) s =
      .next (s.refused .openPosition tag .positionOpen)) ∧
  (∀ (s : State) (tag : Byte) (p : Pos) (m : Mode), s.takesRequests → (s.pos.get p).state = .opened →
    exec (.setMode tag (u8 p.val ++ u8 m.val)) s =
      .next (({ s.received with pos := s.pos.modify p fun r => { r with mode := m } }).replied .setMode tag
        (.ok []))) ∧
  (∀ (s : State) (tag mb : Byte) (p : Pos), s.takesRequests → 7 < mb.toNat →
    exec (.setMode tag (u8 p.val ++ [mb])) s = .next (s.refused .setMode tag .badValue)) ∧
  ∀ (s : State) (tag : Byte) (p : Pos) (m : Mode), s.takesRequests → (s.pos.get p).state = .closed →
    exec (.setMode tag (u8 p.val ++ u8 m.val)) s = .next (s.refused .setMode tag .positionClosed)

/-- An accepted CLOSE_POSITION (R11 to R13): what it does to the position's entry, prompts, intake entries, attention,
state and card, what its reply carries, and that every other block and position keeps its state. The CARD_STATE of a card
moved to SEATED is queued ahead of the reply when a slot is free, the voided attention's among them, and is owed
otherwise; a card that does not move posts none. A CLOSED position is answered POSITION_CLOSED, and one with an exchange
record BUSY. -/
def Obligations.ClosePositionEndsThePositionsWork : Prop :=
  (∀ (s : State) (tag : Byte) (p : Pos), s.takesRequests → (s.pos.get p).state = .opened → s.xs.get p = .none →
    (s.line.get p).flows → anyOwed s = false →
    ∃ t, exec (.closePosition tag (u8 p.val)) s = .next t ∧
      t.pos = s.pos.modify p (fun r => { r with state := .closed }) ∧
      t.entry = s.entry.set p .none ∧
      t.pu = s.pu.modify p (fun u =>
        { slotA := .none, slotB := .none, currentSlot := u.currentSlot, phase := .notStarted, holdTimer := .stopped,
          content := List.replicate 32 0x20, number := u.number + 1, dirty := true, cursor := 0, beep := .none }) ∧
      t.intake = { s.intake with
        entries := s.intake.entries.map fun e => if e.pos = p then { e with void := true } else e
        flags := s.intake.flags.set p PendingFlags.clear } ∧
      t.attn = (if ownsAttention p s then { s.attn with record := .none, lapseTimer := .stopped } else s.attn) ∧
      t.oq.reservation = (if ownsAttention p s then 0 else s.oq.reservation) ∧
      (t.line.get p).state = (if (s.line.get p).state = .ready then .seated else (s.line.get p).state) ∧
      (t.line.get p).frames =
        (s.line.get p).frames ++ (if (s.line.get p).state = .ready then [.powerOff] else []) ∧
      ((s.line.get p).state ≠ .ready → t.line.get p = s.line.get p) ∧
      (∀ q, q ≠ p → t.line.get q = s.line.get q) ∧
      t.xs = s.xs ∧ t.bus = s.bus ∧ t.tables = s.tables ∧ t.timeCount = s.timeCount ∧ t.pending = s.pending ∧
      t.link = { s.link with rx := .hunting, armed := false } ∧
      t.oq.expired = s.oq.expired ∧ t.oq.keypads = s.oq.keypads ∧ t.oq.pressure = s.oq.pressure ∧
      s.seatedOwed t p (decide ((s.line.get p).state = .ready)) ∧
      t.oq.queue = s.oq.queue ++ s.seatedNotice p (decide ((s.line.get p).state = .ready)) ++
        [.reply .closePosition tag (.ok
        (yesNo (s.entry.get p).isSome ++ yesNo (ownsAttention p s) ++
          u8 (s.intake.entries.countP fun e => decide (e.pos = p) && !e.void) ++
          yesNo (decide ((s.line.get p).state = .ready))))]) ∧
  (∀ (s : State) (tag : Byte) (p : Pos), s.takesRequests → (s.pos.get p).state = .closed →
    exec (.closePosition tag (u8 p.val)) s = .next (s.refused .closePosition tag .positionClosed)) ∧
  ∀ (s : State) (tag : Byte) (p : Pos), s.takesRequests → (s.pos.get p).state = .opened → s.xs.get p ≠ .none →
    exec (.closePosition tag (u8 p.val)) s = .next (s.refused .closePosition tag .busy)

/-- RESET_POSITION (R14): in either position state and with or without an exchange, the effects of a close, the
exchange record removed with its opening frame, the powered card sent POWER_OFF and SEATED, the counters 0. A record in
RESULT_HELD is discarded with its outcome: the only record that the event queues ahead of the reply is the CARD_STATE of
a card moved to SEATED. -/
def Obligations.ResetPositionEndsEverything : Prop :=
  ∀ (s : State) (tag : Byte) (p : Pos), s.takesRequests → (s.line.get p).flows →
    (∀ k, k ≠ .result p → isOwed s k = false) →
    ∃ t, exec (.resetPosition tag (u8 p.val)) s = .next t ∧
      t.pos = s.pos.modify p (fun r =>
        { state := .closed, bank := r.bank, mode := r.mode, keysEntered := 0, strayHolds := 0, refusals := 0,
          duplicates := 0, misses := 0, checkErrors := 0 }) ∧
      t.entry = s.entry.set p .none ∧
      t.pu = s.pu.modify p (fun u =>
        { slotA := .none, slotB := .none, currentSlot := u.currentSlot, phase := .notStarted, holdTimer := .stopped,
          content := List.replicate 32 0x20, number := u.number + 1, dirty := true, cursor := 0, beep := .none }) ∧
      t.intake = { s.intake with
        entries := s.intake.entries.map fun e => if e.pos = p then { e with void := true } else e
        flags := s.intake.flags.set p PendingFlags.clear } ∧
      t.attn = (if ownsAttention p s then { s.attn with record := .none, lapseTimer := .stopped } else s.attn) ∧
      t.oq.reservation = (if ownsAttention p s then 0 else s.oq.reservation) ∧
      t.xs = s.xs.set p .none ∧
      (t.line.get p).state = (if (s.line.get p).state.powered then .seated else (s.line.get p).state) ∧
      (t.line.get p).frames = (s.line.get p).txLeaving.toList ++
        (s.line.get p).txWaiting.filter (fun f => decide (f ≠ .opening)) ++
        (if (s.line.get p).state.powered then [.powerOff] else []) ∧
      (∀ q, q ≠ p → t.line.get q = s.line.get q) ∧
      t.bus = s.bus ∧ t.tables = s.tables ∧ t.timeCount = s.timeCount ∧ t.pending = s.pending ∧
      t.link = { s.link with rx := .hunting, armed := false } ∧
      t.oq.expired = s.oq.expired ∧ t.oq.keypads = s.oq.keypads ∧ t.oq.pressure = s.oq.pressure ∧
      s.seatedOwed t p (s.line.get p).state.powered ∧
      t.oq.queue = s.oq.queue ++ s.seatedNotice p (s.line.get p).state.powered ++ [.reply .resetPosition tag (.ok
        (yesNo (s.entry.get p).isSome ++ yesNo (ownsAttention p s) ++
          u8 (s.intake.entries.countP fun e => decide (e.pos = p) && !e.void) ++
          yesNo (s.line.get p).state.powered ++ yesNo (s.xs.get p).isSome))]

/-- POSITION_STATUS, BUS_STATUS and COLLECT_STATUS (R16, R41, R117) return the values standing at their acceptance, in
the encoding of R186, and change nothing. (The fields of COLLECT_STATUS at NONE, 1 for a timer that is due, and a disowned
poll reported as the poll in flight are the model's reading, notes/assumptions/8, 2 and 26.) -/
def Obligations.StatusRequestsOfTheCounterSide : Prop :=
  (∀ (s : State) (tag : Byte) (p : Pos), s.takesRequests →
    exec (.positionStatus tag (u8 p.val)) s = .next (s.received.replied .positionStatus tag (.ok
      (u8 (s.pos.get p).state.index ++ u8 (s.pos.get p).bank.val ++ u8 (s.pos.get p).mode.val ++
        u16 (s.pos.get p).keysEntered ++ u16 (s.pos.get p).strayHolds ++ u16 (s.pos.get p).refusals ++
        u16 (s.pos.get p).duplicates ++ u16 (s.pos.get p).misses ++ u16 (s.pos.get p).checkErrors ++
        u8 (entryStateIndex (s.entry.get p)) ++ u8 (s.entryLength p) ++ yesNo (s.entrySecret p) ++
        u8 (s.line.get p).state.index ++
        u8 ((s.bus.get (groupOf p)).addrs.get (addrOf p)).presence.index)))) ∧
  (∀ (s : State) (tag : Byte) (g : Group), s.takesRequests →
    exec (.busStatus tag (u8 g.val)) s = .next (s.received.replied .busStatus tag (.ok
      (u32 (s.bus.get g).settings.rate ++ u16 (s.bus.get g).settings.period ++ u16 (s.bus.get g).settings.window ++
        u8 (s.bus.get g).settings.thinning ++
        (match (s.bus.get g).pending with
          | .none => [0, 0, 0, 0, 0, 0, 0, 0, 0, 0]
          | .some ps => 1 :: (u32 ps.rate ++ u16 ps.period ++ u16 ps.window ++ u8 ps.thinning)) ++
        u16 (s.bus.get g).roundCounter.toNat ++ u8 (s.bus.get g).round.index ++ yesNo (s.bus.get g).roundDue ++
        (match (s.bus.get g).poll with
          | .none => [0xFF]
          | .some q => u8 q.addr.val) ++
        (allFour.map fun a => ((s.bus.get g).addrs.get a).presence.index).flatMap u8 ++
        allFour.flatMap (fun a => match ((s.bus.get g).addrs.get a).lastSeq with
          | .none => [0xFF]
          | .some q => yesNo q) ++
        (allFour.map fun a => ((s.bus.get g).addrs.get a).misses).flatMap u8 ++
        (allFour.map fun a => ((s.bus.get g).addrs.get a).quiet).flatMap u8 ++
        (allFour.map fun a => ((s.bus.get g).addrs.get a).thinning).flatMap u8 ++
        (allFour.map fun a => ((s.bus.get g).addrs.get a).alarm).flatMap yesNo)))) ∧
  (∀ (s : State) (tag : Byte) (p : Pos) (e : Entry), s.takesRequests → s.entry.get p = .some e →
    exec (.collectStatus tag (u8 p.val)) s = .next (s.received.replied .collectStatus tag (.ok
      (u8 (match e.state with
          | .collecting => 1
          | .complete => 2) ++ u8 (s.pos.get p).mode.val ++ u8 e.buffer.length ++ yesNo e.secret ++
        yesNo e.fullReached ++ yesNo e.presented ++ u8 e.minLength ++ u8 e.maxLength ++ u8 e.policy.index ++
        optU8 (e.fullMode.map Fin.val) ++ optU8 (e.endMode.map Fin.val) ++ optU16 e.interkeyTimeout ++
        u16 e.totalTimeout ++ u32 (s.timeCount - e.startTime).toNat ++ optU16 e.interkeyTimer.remaining ++
        u32 (e.totalTimer.remaining.getD 0))))) ∧
  ∀ (s : State) (tag : Byte) (p : Pos), s.takesRequests → s.entry.get p = .none →
    exec (.collectStatus tag (u8 p.val)) s = .next (s.received.replied .collectStatus tag (.ok
      (u8 0 ++ u8 (s.pos.get p).mode.val ++ [0, 0, 0, 0, 0, 0, 0, 0xFF, 0xFF, 0xFF, 0xFF, 0, 0, 0, 0, 0, 0,
        0xFF, 0xFF, 0, 0, 0, 0])))

/-! ### Keypad buses (chapter 2) and the intake FIFO (chapter 3) -/

/-- BUS_SET and CARD_LINE_SET (R19, R140, R141): the clamped set becomes the pending settings of the bus, and of each of
the group's four card lines, where it is applied at once on a line with no frame in transfer and no exchange in flight;
the reply carries the values as stored; a rate outside the list is answered BAD_VALUE. -/
def Obligations.SettingsAreClampedAndStored : Prop :=
  (∀ (s : State) (tag : Byte) (g : Group) (rate period window thinning : Nat), s.takesRequests →
    rate ∈ [9600, 19200, 38400, 57600] → period < 65536 → window < 65536 → thinning < 256 →
    let ps : BusSettings := ⟨rate, max 5 (min 250 period), max 2 (min 20 window), min 15 thinning⟩
    exec (.busSet tag (u8 g.val ++ u32 rate ++ u16 period ++ u16 window ++ u8 thinning)) s =
      .next (({ s.received with bus := s.bus.modify g fun b => { b with pending := .some ps } }).replied .busSet tag
        (.stored (decide (ps ≠ (⟨rate, period, window, thinning⟩ : BusSettings)))
          (u32 rate ++ u16 ps.period ++ u16 ps.window ++ u8 ps.thinning)))) ∧
  (∀ (s : State) (tag : Byte) (g : Group) (rate period window thinning : Nat), s.takesRequests →
    rate ∉ [9600, 19200, 38400, 57600] → rate < 2 ^ 32 →
    exec (.busSet tag (u8 g.val ++ u32 rate ++ u16 period ++ u16 window ++ u8 thinning)) s =
      .next (s.refused .busSet tag .badValue)) ∧
  (∀ (s : State) (tag : Byte) (g : Group) (rate timeout : Nat), s.takesRequests →
    rate ∈ [9600, 19200, 38400, 57600, 115200] → timeout < 65536 →
    let ps : LineSettings := ⟨rate, max 200 (min 5000 timeout)⟩
    ∃ t, exec (.cardLineSet tag (u8 g.val ++ u32 rate ++ u16 timeout)) s = .next t ∧
      t = ({ s.received with line := t.line }).replied .cardLineSet tag
        (.stored (decide (timeout < 200 ∨ 5000 < timeout)) (u32 rate ++ u16 ps.timeout)) ∧
      (∀ p, groupOf p = g → (s.line.get p).quiet → s.inFlight p = false →
        t.line.get p = { s.line.get p with settings := ps, pending := none }) ∧
      (∀ p, groupOf p = g → ¬ ((s.line.get p).quiet ∧ s.inFlight p = false) →
        t.line.get p = { s.line.get p with pending := some ps }) ∧
      ∀ p, groupOf p ≠ g → t.line.get p = s.line.get p) ∧
  ∀ (s : State) (tag : Byte) (g : Group) (rate timeout : Nat), s.takesRequests →
    rate ∉ [9600, 19200, 38400, 57600, 115200] → rate < 2 ^ 32 →
    exec (.cardLineSet tag (u8 g.val ++ u32 rate ++ u16 timeout)) s = .next (s.refused .cardLineSet tag .badValue)

/-- ROUND_TIMER_EXPIRY (R20, R21, R23): with the round in progress the round due mark is set; with it finished the next
round starts, under any pending settings, and with no poll wanted it finishes at once, or its first poll goes to
address 3 of a collecting position under 5 reserved places. A round due mark met at the end of the poll that finishes the
round is cleared and the next round starts in that event, alike. At the end of a poll of an address above 0 the visit of
the next address begins in that event (R22, R37): a collecting one with room is polled, and under HIGH pressure with none
collecting the round runs to its end (that such visits are one event is R22's reading, notes/assumptions/25). A timer
that has not run out changes nothing (notes/assumptions/4). -/
def Obligations.RoundTimerExpiryStartsTheNextRound : Prop :=
  (∀ (s : State) (g : Group) (n : Nat), (s.bus.get g).roundTimer = .running 0 → (s.bus.get g).round = .inProgress n →
    exec (.roundTimerExpiry g) s = .next { s with bus := s.bus.modify g fun b =>
      { b with roundTimer := .running b.settings.period, roundDue := true } }) ∧
  (∀ (s : State) (g : Group), (s.bus.get g).roundTimer = .running 0 → (s.bus.get g).round = .finished →
    (s.bus.get g).roundDue = false → (s.bus.get g).poll = .none → s.intake.pressure = .high →
    (∀ a, s.collecting (posAt g a) = false) →
    exec (.roundTimerExpiry g) s = .next { s with bus := s.bus.modify g fun b =>
      { b with settings := b.pending.getD b.settings, pending := .none,
               roundTimer := .running (b.pending.getD b.settings).period, roundCounter := b.roundCounter + 1,
               round := .finished, addrs := b.addrs.map fun d => { d with quiet := min 8 (d.quiet + 1) } } }) ∧
  (∀ (s : State) (g : Group), (s.bus.get g).roundTimer = .running 0 → (s.bus.get g).round = .finished →
    s.collecting (posAt g 3) = true → ((s.bus.get g).addrs.get 3).presence = .online →
    5 + s.intake.flagCount ≤ s.intake.free →
    ∃ t, exec (.roundTimerExpiry g) s = .next t ∧
      (t.bus.get g).settings = (s.bus.get g).pending.getD (s.bus.get g).settings ∧
      (t.bus.get g).pending = .none ∧
      (t.bus.get g).roundTimer = .running ((s.bus.get g).pending.getD (s.bus.get g).settings).period ∧
      (t.bus.get g).roundCounter = (s.bus.get g).roundCounter + 1 ∧ (t.bus.get g).round = .inProgress 3 ∧
      (t.bus.get g).roundDue = (s.bus.get g).roundDue ∧
      (t.bus.get g).poll = .some
        { addr := 3, taken := ((s.bus.get g).addrs.get 3).lastSeq.getD true, beep := (s.pu.get (posAt g 3)).beep,
          carried := if (s.pu.get (posAt g 3)).dirty then
            .some ((s.pu.get (posAt g 3)).number, (s.pu.get (posAt g 3)).content) else .none,
          reserved := 5, rate := ((s.bus.get g).pending.getD (s.bus.get g).settings).rate,
          window := ((s.bus.get g).pending.getD (s.bus.get g).settings).window, phase := .sending,
          disowned := false } ∧
      t.pu = s.pu.modify (posAt g 3) (fun u => { u with beep := .none }) ∧
      t.intake.reserved = s.intake.reserved + 5 ∧ t.intake.entries = s.intake.entries ∧
      (∀ h, h ≠ g → t.bus.get h = s.bus.get h) ∧ t.pos = s.pos ∧ t.entry = s.entry ∧ t.tables = s.tables ∧
      t.attn = s.attn ∧ t.link = s.link ∧ t.timeCount = s.timeCount) ∧
  (∀ (s : State) (g : Group) (q : Poll) (c : Instr), (s.bus.get g).poll = .some q → q.disowned = false →
    q.addr = 0 → (s.bus.get g).round = .inProgress 0 → (s.bus.get g).roundDue = true → s.intake.flagCount = 0 →
    (c = .responseWindowExpiry g ∧ (s.bus.get g).windowTimer = .running 0 ∨
      ∃ bytes r, c = .keypadReply g bytes ∧ q.answerable ∧ readReply bytes = .some r) →
    let set := (s.bus.get g).pending.getD (s.bus.get g).settings
    ∃ t, exec c s = .next t ∧ (t.bus.get g).roundDue = false ∧
      (t.bus.get g).roundCounter = (s.bus.get g).roundCounter + 1 ∧ (t.bus.get g).settings = set ∧
      (t.bus.get g).pending = .none ∧
      (t.bus.get g).roundTimer =
        (if (s.bus.get g).pending = .none then (s.bus.get g).roundTimer else .running set.period) ∧
      (∀ h, h ≠ g → t.bus.get h = s.bus.get h) ∧
      (s.intake.pressure = .high → (∀ a, s.collecting (posAt g a) = false) →
        (t.bus.get g).round = .finished ∧ (t.bus.get g).poll = .none) ∧
      (s.collecting (posAt g 3) = true → ((s.bus.get g).addrs.get 3).presence = .online → q.reserved = 5 →
        5 ≤ s.intake.reserved → 6 ≤ s.intake.free →
        (t.bus.get g).round = .inProgress 3 ∧
          (t.bus.get g).poll = .some
            { addr := 3, taken := ((s.bus.get g).addrs.get 3).lastSeq.getD true, beep := (s.pu.get (posAt g 3)).beep,
              carried := if (s.pu.get (posAt g 3)).dirty then
                .some ((s.pu.get (posAt g 3)).number, (s.pu.get (posAt g 3)).content) else .none,
              reserved := 5, rate := set.rate, window := set.window, phase := .sending, disowned := false })) ∧
  (∀ (s : State) (g : Group) (q : Poll) (c : Instr) (a : Addr), (s.bus.get g).poll = .some q → q.disowned = false →
    q.addr.val = a.val + 1 → (s.bus.get g).round = .inProgress (a.val + 1) → s.intake.flagCount = 0 →
    (c = .responseWindowExpiry g ∧ (s.bus.get g).windowTimer = .running 0 ∨
      ∃ bytes r, c = .keypadReply g bytes ∧ q.answerable ∧ readReply bytes = .some r) →
    (s.collecting (posAt g a) = true → ((s.bus.get g).addrs.get a).presence = .online → q.reserved = 5 →
      5 ≤ s.intake.reserved → 6 ≤ s.intake.free →
      ∃ t, exec c s = .next t ∧ (t.bus.get g).round = .inProgress a.val ∧
        (t.bus.get g).roundDue = (s.bus.get g).roundDue ∧ (t.bus.get g).roundCounter = (s.bus.get g).roundCounter ∧
        (t.bus.get g).roundTimer = (s.bus.get g).roundTimer ∧ (t.bus.get g).settings = (s.bus.get g).settings ∧
        (t.bus.get g).pending = (s.bus.get g).pending ∧ (∀ h, h ≠ g → t.bus.get h = s.bus.get h) ∧
        (t.bus.get g).addrs.get a = { (s.bus.get g).addrs.get a with
          quiet := min 8 (((s.bus.get g).addrs.get a).quiet + 1), thinning := 0 } ∧
        (t.pu.get (posAt g a)).beep = .none ∧ t.intake.reserved = s.intake.reserved ∧
        (t.bus.get g).poll = .some
          { addr := a, taken := ((s.bus.get g).addrs.get a).lastSeq.getD true, beep := (s.pu.get (posAt g a)).beep,
            carried := if (s.pu.get (posAt g a)).dirty then
              .some ((s.pu.get (posAt g a)).number, (s.pu.get (posAt g a)).content) else .none,
            reserved := 5, rate := (s.bus.get g).settings.rate, window := (s.bus.get g).settings.window,
            phase := .sending, disowned := false }) ∧
    (s.intake.pressure = .high → (s.bus.get g).roundDue = false →
      (∀ b : Addr, b.val ≤ a.val → s.collecting (posAt g b) = false) →
      ∃ t, exec c s = .next t ∧ (t.bus.get g).round = .finished ∧ (t.bus.get g).poll = .none ∧
        (∀ h, h ≠ g → t.bus.get h = s.bus.get h) ∧
        ∀ b : Addr, b.val ≤ a.val → (t.bus.get g).addrs.get b = { (s.bus.get g).addrs.get b with
          quiet := min 8 (((s.bus.get g).addrs.get b).quiet + 1) })) ∧
  ∀ (s : State) (g : Group), (s.bus.get g).roundTimer ≠ .running 0 → exec (.roundTimerExpiry g) s = .next s

/-- A visit of an address (R22 to R28): the quiet counter rises, held at 8, and the first row of the polling table
decides; a poll is held back while the IF has fewer free places than 5 plus the pending flags, and one that is sent
reserves 5 places, takes the beep and clears the thinning counter. -/
def Obligations.VisitFollowsThePollingTable : Prop :=
  ∀ (s : State) (g : Group) (a : Addr),
    let b := s.bus.get g
    let d := b.addrs.get a
    let p := posAt g a
    let row1 := s.intake.pressure = .high ∧ s.collecting p = false
    let row2 := (s.pos.get p).state = .closed ∨ d.presence ≠ .online
    let skipped := { s with bus := s.bus.modify g fun b =>
      { b with addrs := b.addrs.modify a fun d => { d with quiet := min 8 (d.quiet + 1) } } }
    (row1 → visit g a s = skipped) ∧
    (¬ row1 → row2 → b.roundCounter.toNat % 16 ≠ 0 → visit g a s = skipped) ∧
    (¬ row1 → ¬ row2 → s.collecting p = false → 7 ≤ d.quiet → d.thinning < b.settings.thinning →
      visit g a s = { s with bus := s.bus.modify g fun b =>
        { b with addrs := b.addrs.modify a fun d =>
          { d with quiet := min 8 (d.quiet + 1), thinning := min 15 (d.thinning + 1) } } }) ∧
    (¬ row1 → (row2 ∧ b.roundCounter.toNat % 16 = 0 ∨
        ¬ row2 ∧ (s.collecting p = true ∨ d.quiet < 7 ∨ b.settings.thinning ≤ d.thinning)) →
      (s.intake.free < 5 + s.intake.flagCount → visit g a s = skipped) ∧
      (5 + s.intake.flagCount ≤ s.intake.free → visit g a s =
        { s with
          bus := s.bus.modify g fun b =>
            { b with
              addrs := b.addrs.modify a fun d => { d with quiet := min 8 (d.quiet + 1), thinning := 0 }
              poll := .some
                { addr := a, taken := d.lastSeq.getD true, beep := (s.pu.get p).beep,
                  carried := if (s.pu.get p).dirty then .some ((s.pu.get p).number, (s.pu.get p).content) else .none,
                  reserved := 5, rate := b.settings.rate, window := b.settings.window, phase := .sending,
                  disowned := false } }
          pu := s.pu.modify p fun u => { u with beep := .none }
          intake := { s.intake with reserved := s.intake.reserved + 5 } }))

/-- POLL_LAST_BYTE_LEAVES, KEYPAD_REPLY_BYTE and KEYPAD_REPLY at the receiver (R29): the window is loaded as the poll's
last byte leaves and reloaded at the reply's sync byte and every byte after it; before the sync byte other bytes are
ignored, a key count above 4 makes what follows no reply, and the last check byte has the reply judged on the bytes
received, as KEYPAD_REPLY with those bytes does. (That the commands change nothing when no poll is being sent, or none
can be answered, is the model's choice, notes/assumptions/4; that KEYPAD_REPLY brings the reply's bytes, its sync byte
with them unless that byte has just come, notes/assumptions/5.) -/
def Obligations.PollAndReplyBytesLoadTheWindow : Prop :=
  (∀ (s : State) (g : Group) (q : Poll), (s.bus.get g).poll = .some q → q.phase = .sending →
    exec (.pollLastByteLeaves g) s = .next (s.withPoll g q .awaiting)) ∧
  (∀ (s : State) (g : Group), (∀ q, (s.bus.get g).poll = .some q → q.phase ≠ .sending) →
    exec (.pollLastByteLeaves g) s = .next s) ∧
  (∀ (s : State) (g : Group) (q : Poll), (s.bus.get g).poll = .some q → q.phase = .awaiting →
    exec (.keypadReplyByte g 0x69) s = .next (s.withPoll g q (.receiving [])) ∧
    (∀ byte : Byte, byte ≠ 0x69 → exec (.keypadReplyByte g byte) s = .next s) ∧
    ∀ bytes, exec (.keypadReply g bytes) s = exec (.keypadReply g bytes) (s.withPoll g q (.receiving []))) ∧
  (∀ (s : State) (g : Group) (q : Poll) (byte : Byte), (s.bus.get g).poll = .some q → q.phase = .receiving [] →
    exec (.keypadReplyByte g byte) s = .next (s.withPoll g q
      (if byte.toNat % 8 ≤ 4 then .receiving [byte] else .overlong))) ∧
  (∀ (s : State) (g : Group) (q : Poll) (status byte : Byte) (rest : List Byte), (s.bus.get g).poll = .some q →
    q.phase = .receiving (status :: rest) → status.toNat % 8 ≤ 4 →
    (rest.length < status.toNat % 8 + 1 →
      exec (.keypadReplyByte g byte) s = .next (s.withPoll g q (.receiving (status :: rest ++ [byte])))) ∧
    (rest.length = status.toNat % 8 + 1 →
      exec (.keypadReplyByte g byte) s =
        exec (.keypadReply g (status :: rest ++ [byte])) (s.withPoll g q (.receiving [])))) ∧
  (∀ (s : State) (g : Group) (q : Poll), (s.bus.get g).poll = .some q → q.phase = .overlong →
    (∀ byte, exec (.keypadReplyByte g byte) s = .next (s.withPoll g q .overlong)) ∧
    ∀ bytes, exec (.keypadReply g bytes) s = .next (s.withPoll g q .overlong)) ∧
  ∀ (s : State) (g : Group), (∀ q, (s.bus.get g).poll = .some q → q.phase = .sending) →
    (∀ byte, exec (.keypadReplyByte g byte) s = .next s) ∧ ∀ bytes, exec (.keypadReply g bytes) s = .next s

/-- KEYPAD_REPLY with a batch that the sequence protocol accepts, for an OPEN position (R32, R33, R35 to R39, R46): the
codes enter the IF in order, KEYPAD_BACK and KEYPAD_ALARM behind them; the counters, the address's state with its quiet
counter (R24), the inter-key timer, the display mark and the hold that an applied display starts (R130) are as the rules
give; no other position's record, entry or display changes. -/
def Obligations.AcceptedBatchEntersTheIntake : Prop :=
  ∀ (s : State) (g : Group) (q : Poll) (seq applied alarm : Bool) (codes : List Code),
    (s.bus.get g).poll = .some q → q.answerable → q.disowned = false → q.reserved = 5 → 5 ≤ s.intake.reserved →
    1 ≤ codes.length → codes.length ≤ 4 → (∀ c ∈ codes, c.val ≤ 0x37) →
    (s.pos.get (posAt g q.addr)).state = .opened →
    ((s.bus.get g).addrs.get q.addr).lastSeq ≠ .some seq → s.intake.flagCount = 0 →
    s.intake.occupied + s.intake.reserved + codes.length ≤ 131 →
    let p := posAt g q.addr
    let d := (s.bus.get g).addrs.get q.addr
    ∃ t, exec (.keypadReply g (keypadReplyBytes q.addr seq applied alarm codes)) s = .next t ∧
      t.intake.entries = s.intake.entries ++ codes.map (fun c => ⟨p, c, .keypad, false⟩) ++
        (if d.presence = .online then [] else [⟨p, 0x3D, .synthetic, false⟩]) ++
        (if alarm = true ∧ d.alarm = false then [⟨p, 0x3F, .synthetic, false⟩] else []) ∧
      t.intake.flagCount = 0 ∧
      t.pos = s.pos.modify p (fun r => { r with keysEntered := min 65535 (r.keysEntered + codes.length) }) ∧
      ((t.bus.get g).addrs.get q.addr).lastSeq = .some seq ∧
      ((t.bus.get g).addrs.get q.addr).presence = .online ∧
      ((t.bus.get g).addrs.get q.addr).misses = 0 ∧ ((t.bus.get g).addrs.get q.addr).alarm = alarm ∧
      t.entry = s.entry.set p ((s.entry.get p).map fun e =>
        match e.state, e.interkeyTimeout with
        | .collecting, .some units => { e with interkeyTimer := .running (units * 100) }
        | _, _ => e) ∧
      (s.pu.get p).heard (t.pu.get p) q applied ∧
      (∀ r, r ≠ p → t.pu.get r = { s.pu.get r with beep := (t.pu.get r).beep }) ∧
      (s.leavesBehind g q.addr → ((t.bus.get g).addrs.get q.addr).quiet = 0) ∧
      (∀ h, h ≠ g → t.bus.get h = s.bus.get h) ∧ t.tables = s.tables ∧ t.attn = s.attn ∧ t.link = s.link ∧
      t.timeCount = s.timeCount ∧
      (s.slotsFree 1 → ∃ more, t.oq.queue = s.oq.queue ++
        (if d.presence = .online then [] else [.notice (.keypadState p .online)]) ++ more)

/-- A poll that ends without a valid reply (R30, R31, R38, R39): by its response window's expiry or by an invalid
complete reply, the position's misses rise, and its check errors for a failing check; the third miss in a row makes an
ONLINE keypad OFFLINE, with KEYPAD_STATE posted and KEYPAD_LOST entered for an OPEN position; displays and the quiet
counter stand. The visit of the next address begins in that event, on the state with the poll ended and its places
released, and the one after it when that visit sends no poll (R22; that they are one event, notes/assumptions/25). -/
def Obligations.MissedPollsTakeTheKeypadOffline : Prop :=
  (∀ (s : State) (g : Group) (q : Poll) (c : Instr) (checkFailed : Bool),
    (s.bus.get g).poll = .some q → q.disowned = false → q.reserved = 5 → 5 ≤ s.intake.reserved →
    s.intake.occupied + s.intake.reserved ≤ 128 → s.intake.flagCount = 0 →
    (c = .responseWindowExpiry g ∧ (s.bus.get g).windowTimer = .running 0 ∧ checkFailed = false ∨
      ∃ bytes r, c = .keypadReply g bytes ∧ q.answerable ∧ readReply bytes = .some r ∧ r.valid q.addr = false ∧
        checkFailed = !r.checkOk) →
    let p := posAt g q.addr
    let d := (s.bus.get g).addrs.get q.addr
    let lost := d.presence = .online ∧ 2 ≤ d.misses
    ∃ t, exec c s = .next t ∧
      t.pos = s.pos.modify p (fun r => { r with
        misses := min 65535 (r.misses + 1),
        checkErrors := if checkFailed then min 65535 (r.checkErrors + 1) else r.checkErrors }) ∧
      ((t.bus.get g).addrs.get q.addr).misses = min 3 (d.misses + 1) ∧
      ((t.bus.get g).addrs.get q.addr).presence = (if lost then .offline else d.presence) ∧
      ((t.bus.get g).addrs.get q.addr).lastSeq = (if lost then .none else d.lastSeq) ∧
      ((t.bus.get g).addrs.get q.addr).alarm = (if lost then false else d.alarm) ∧
      t.intake.entries = s.intake.entries ++
        (if lost ∧ (s.pos.get p).state = .opened then [⟨p, 0x3C, .synthetic, false⟩] else []) ∧
      t.intake.flagCount = 0 ∧ t.entry = s.entry ∧ t.tables = s.tables ∧ t.attn = s.attn ∧ t.link = s.link ∧
      t.timeCount = s.timeCount ∧ (∀ h, h ≠ g → t.bus.get h = s.bus.get h) ∧
      (∀ r, t.pu.get r = { s.pu.get r with beep := (t.pu.get r).beep }) ∧
      (s.leavesBehind g q.addr → ((t.bus.get g).addrs.get q.addr).quiet = d.quiet) ∧
      (s.slotsFree 1 → ∃ more, t.oq.queue = s.oq.queue ++
        (if lost then [.notice (.keypadState p .offline)] else []) ++ more)) ∧
  ∀ (s : State) (g : Group) (q : Poll) (a : Addr), (s.bus.get g).poll = .some q → q.disowned = false →
    (s.bus.get g).windowTimer = .running 0 → (s.bus.get g).round = .inProgress (a.val + 1) →
    (((s.bus.get g).addrs.get q.addr).presence ≠ .online ∨ ((s.bus.get g).addrs.get q.addr).misses < 2) →
    let u := { s with
      pos := s.pos.modify (posAt g q.addr) fun r => { r with misses := min 65535 (r.misses + 1) }
      bus := s.bus.modify g fun b => { b with
        poll := .none, windowTimer := .stopped, round := .inProgress a.val,
        addrs := b.addrs.modify q.addr fun d => { d with misses := min 3 (d.misses + 1) } }
      intake := s.intake.release q.reserved }
    let v := visit g a u
    ((v.bus.get g).poll ≠ .none → exec (.responseWindowExpiry g) s = .next (judgePressure s v)) ∧
    ((v.bus.get g).poll = .none → a = 0 → (s.bus.get g).roundDue = false → exec (.responseWindowExpiry g) s =
      .next (judgePressure s { v with bus := v.bus.modify g fun b => { b with round := .finished } })) ∧
    ∀ a' : Addr, (v.bus.get g).poll = .none → a'.val + 1 = a.val →
      let w := visit g a' { v with bus := v.bus.modify g fun b => { b with round := .inProgress a'.val } }
      (w.bus.get g).poll ≠ .none → exec (.responseWindowExpiry g) s = .next (judgePressure s w)

/-- The replies that enter no key code (R10, R32, R33, R40): a resend, counted in duplicates, or a reply with no key; a
batch for a CLOSED position, whose keypad is kept in step, its quiet counter among it (R24); an applied display starts the
hold of these replies too (R36, R130). A resend or a reply with no key also brings an UNHEARD or OFFLINE keypad ONLINE and
has its alarm flag compared, with KEYPAD_BACK ahead of KEYPAD_ALARM (R35, R37 to R39). The end of a poll that a counter
reset has disowned, by a complete reply or its window's expiry, changes no counter, presence, sequence, alarm or display
and starts round 0 under the settings pending then (notes/assumptions/14), with the visit of address 3 in that event. -/
def Obligations.RepliesThatEnterNothing : Prop :=
  (∀ (s : State) (g : Group) (q : Poll) (seq applied : Bool) (codes : List Code),
    (s.bus.get g).poll = .some q → q.answerable → q.disowned = false → codes.length ≤ 4 →
    (∀ c ∈ codes, c.val ≤ 0x37) → ((s.bus.get g).addrs.get q.addr).presence = .online →
    (codes = [] ∨ ((s.bus.get g).addrs.get q.addr).lastSeq = .some seq) → s.intake.flagCount = 0 →
    ∃ t, exec (.keypadReply g (keypadReplyBytes q.addr seq applied ((s.bus.get g).addrs.get q.addr).alarm codes)) s =
        .next t ∧
      t.intake.entries = s.intake.entries ∧ t.entry = s.entry ∧
      t.pos = s.pos.modify (posAt g q.addr) (fun r =>
        { r with duplicates := if codes = [] then r.duplicates else min 65535 (r.duplicates + 1) }) ∧
      ((t.bus.get g).addrs.get q.addr).lastSeq = ((s.bus.get g).addrs.get q.addr).lastSeq ∧
      ((t.bus.get g).addrs.get q.addr).misses = 0 ∧
      (s.pu.get (posAt g q.addr)).heard (t.pu.get (posAt g q.addr)) q applied ∧
      (s.leavesBehind g q.addr →
        ((t.bus.get g).addrs.get q.addr).quiet = ((s.bus.get g).addrs.get q.addr).quiet)) ∧
  (∀ (s : State) (g : Group) (q : Poll) (seq applied alarm : Bool) (codes : List Code),
    (s.bus.get g).poll = .some q → q.answerable → q.disowned = false → q.reserved = 5 → 5 ≤ s.intake.reserved →
    codes.length ≤ 4 → (∀ c ∈ codes, c.val ≤ 0x37) →
    (codes = [] ∨ ((s.bus.get g).addrs.get q.addr).lastSeq = .some seq) → s.intake.flagCount = 0 →
    s.intake.occupied + s.intake.reserved ≤ 131 →
    let p := posAt g q.addr
    let d := (s.bus.get g).addrs.get q.addr
    ∃ t, exec (.keypadReply g (keypadReplyBytes q.addr seq applied alarm codes)) s = .next t ∧
      t.intake.entries = s.intake.entries ++
        (if (s.pos.get p).state = .opened ∧ d.presence ≠ .online then [⟨p, 0x3D, .synthetic, false⟩] else []) ++
        (if (s.pos.get p).state = .opened ∧ alarm = true ∧ d.alarm = false then
          [⟨p, 0x3F, .synthetic, false⟩] else []) ∧
      t.intake.flagCount = 0 ∧ t.entry = s.entry ∧
      t.pos = s.pos.modify p (fun r =>
        { r with duplicates := if codes = [] then r.duplicates else min 65535 (r.duplicates + 1) }) ∧
      ((t.bus.get g).addrs.get q.addr).lastSeq = d.lastSeq ∧
      ((t.bus.get g).addrs.get q.addr).presence = .online ∧
      ((t.bus.get g).addrs.get q.addr).misses = 0 ∧ ((t.bus.get g).addrs.get q.addr).alarm = alarm ∧
      (s.pu.get p).heard (t.pu.get p) q applied ∧
      (∀ r, r ≠ p → t.pu.get r = { s.pu.get r with beep := (t.pu.get r).beep }) ∧
      (s.leavesBehind g q.addr → ((t.bus.get g).addrs.get q.addr).quiet = d.quiet) ∧
      (∀ h, h ≠ g → t.bus.get h = s.bus.get h) ∧ t.tables = s.tables ∧ t.attn = s.attn ∧ t.link = s.link ∧
      t.timeCount = s.timeCount ∧
      (s.slotsFree 1 → ∃ more, t.oq.queue = s.oq.queue ++
        (if d.presence = .online then [] else [.notice (.keypadState p .online)]) ++ more)) ∧
  (∀ (s : State) (g : Group) (q : Poll) (seq applied alarm : Bool) (codes : List Code),
    (s.bus.get g).poll = .some q → q.answerable → q.disowned = false → 1 ≤ codes.length → codes.length ≤ 4 →
    (∀ c ∈ codes, c.val ≤ 0x37) → (s.pos.get (posAt g q.addr)).state = .closed →
    ((s.bus.get g).addrs.get q.addr).lastSeq ≠ .some seq → s.intake.flagCount = 0 →
    ∃ t, exec (.keypadReply g (keypadReplyBytes q.addr seq applied alarm codes)) s = .next t ∧
      t.intake.entries = s.intake.entries ∧ t.intake.flagCount = 0 ∧ t.entry = s.entry ∧ t.pos = s.pos ∧
      ((t.bus.get g).addrs.get q.addr).lastSeq = .some seq ∧
      ((t.bus.get g).addrs.get q.addr).presence = .online ∧
      ((t.bus.get g).addrs.get q.addr).misses = 0 ∧ ((t.bus.get g).addrs.get q.addr).alarm = alarm ∧
      (s.pu.get (posAt g q.addr)).heard (t.pu.get (posAt g q.addr)) q applied ∧
      (∀ r, r ≠ posAt g q.addr → t.pu.get r = { s.pu.get r with beep := (t.pu.get r).beep }) ∧
      (s.leavesBehind g q.addr → ((t.bus.get g).addrs.get q.addr).quiet = 0) ∧
      (∀ h, h ≠ g → t.bus.get h = s.bus.get h) ∧ t.tables = s.tables ∧ t.attn = s.attn ∧ t.link = s.link ∧
      t.timeCount = s.timeCount ∧
      (s.slotsFree 1 → ∃ more, t.oq.queue = s.oq.queue ++
        (if ((s.bus.get g).addrs.get q.addr).presence = .online then []
         else [.notice (.keypadState (posAt g q.addr) .online)]) ++ more)) ∧
  ∀ (s : State) (g : Group) (q : Poll) (c : Instr), (s.bus.get g).poll = .some q → q.disowned = true →
    (s.bus.get g).roundDue = false →
    (c = .responseWindowExpiry g ∧ (s.bus.get g).windowTimer = .running 0 ∨
      ∃ bytes r, c = .keypadReply g bytes ∧ q.answerable ∧ readReply bytes = .some r) →
    let set := (s.bus.get g).pending.getD (s.bus.get g).settings
    let d := (s.bus.get g).addrs.get 3
    let u := s.pu.get (posAt g 3)
    ∃ t, exec c s = .next t ∧
      t.pos = s.pos ∧ t.entry = s.entry ∧ t.intake.entries = s.intake.entries ∧ t.intake.flags = s.intake.flags ∧
      t.tables = s.tables ∧ t.attn = s.attn ∧ t.link = s.link ∧
      (∀ a, ((t.bus.get g).addrs.get a).presence = ((s.bus.get g).addrs.get a).presence ∧
        ((t.bus.get g).addrs.get a).lastSeq = ((s.bus.get g).addrs.get a).lastSeq ∧
        ((t.bus.get g).addrs.get a).misses = ((s.bus.get g).addrs.get a).misses ∧
        ((t.bus.get g).addrs.get a).alarm = ((s.bus.get g).addrs.get a).alarm) ∧
      (∀ h, h ≠ g → t.bus.get h = s.bus.get h) ∧
      (t.bus.get g).roundCounter = (s.bus.get g).roundCounter ∧ (t.bus.get g).roundTimer = .running set.period ∧
      (t.bus.get g).roundDue = false ∧ (t.bus.get g).settings = set ∧ (t.bus.get g).pending = .none ∧
      (∀ r, t.pu.get r = { s.pu.get r with beep := (t.pu.get r).beep }) ∧
      (s.intake.pressure = .normal → (s.bus.get g).roundCounter.toNat % 16 = 0 → d.presence ≠ .online →
        5 + s.intake.flagCount ≤ s.intake.free →
        (t.bus.get g).round = .inProgress 3 ∧ (t.bus.get g).windowTimer = .stopped ∧
          (t.bus.get g).addrs.get 3 = { d with quiet := min 8 (d.quiet + 1), thinning := 0 } ∧
          (t.pu.get (posAt g 3)).beep = .none ∧ t.intake.reserved = s.intake.reserved + 5 ∧
          (t.bus.get g).poll = .some
            { addr := 3, taken := d.lastSeq.getD true, beep := u.beep,
              carried := if u.dirty then .some (u.number, u.content) else .none,
              reserved := 5, rate := set.rate, window := set.window, phase := .sending, disowned := false })

/-- Synthetic admission (R48), the service of the pending flags (R45, R47, R49) and the judgement of pressure (R52, R53),
as the operations that every event makes of them: freed places take the flags in ascending position and code, a batch's
own flags stand ahead of its codes; and the withdrawal, the accepted batch and the miss make them so. -/
def Obligations.IntakeAdmitsCodesAndJudgesPressure : Prop :=
  (∀ (s : State) (p : Pos) (k : Synth), (s.pos.get p).state = .closed → admitSynth p k s = s) ∧
  (∀ (s : State) (p : Pos) (k : Synth), (s.pos.get p).state = .opened → (s.intake.flags.get p).get k = false →
    s.intake.occupied + s.intake.reserved < 128 → admitSynth p k s = { s with intake :=
      { s.intake with entries := s.intake.entries ++ [⟨p, k.code, .synthetic, false⟩] } }) ∧
  (∀ (s : State) (p : Pos) (k : Synth), (s.pos.get p).state = .opened → (s.intake.flags.get p).get k = false →
    128 ≤ s.intake.occupied + s.intake.reserved → admitSynth p k s = { s with intake :=
      { s.intake with flags := s.intake.flags.modify p fun f => f.put k true } }) ∧
  (∀ (s : State) (p : Pos) (k : Synth), (s.pos.get p).state = .opened → (s.intake.flags.get p).get k = true →
    admitSynth p k s = s) ∧
  (∀ before s : State, (s.intake.occupied ≠ before.intake.occupied ∨ s.intake.reserved ≠ before.intake.reserved) →
    (judgePressure before s).intake = { s.intake with pressure :=
      match s.intake.pressure with
      | .normal => if 64 ≤ s.intake.occupied + s.intake.reserved then .high else .normal
      | .high => if s.intake.occupied + s.intake.reserved ≤ 48 then .normal else .high }) ∧
  (∀ before s : State, s.intake.occupied = before.intake.occupied → s.intake.reserved = before.intake.reserved →
    judgePressure before s = s) ∧
  (∀ before s : State, s.slotsFree 1 →
    (judgePressure before s).oq.queue = s.oq.queue ++
      (if (judgePressure before s).intake.pressure = s.intake.pressure then []
       else [.notice (.fifoPressure (judgePressure before s).intake.pressure s.intake.occupied s.intake.reserved)])) ∧
  (∀ f : Intake, f.serveFlags.takesIn f (f.flagsSet.take f.free) [] ∧ f.serveFlags.reserved = f.reserved) ∧
  (∀ (f : Intake) (n : Nat), f.release n = Intake.serveFlags { f with reserved := f.reserved - n }) ∧
  (∀ (f : Intake) (p : Pos) (codes : List Code) (n : Nat), ∃ mid : Intake,
    mid.takesIn f ((f.flagsSet.filter fun x => decide (x.1 = p)).take (n - codes.length))
      (codes.map fun c => ⟨p, c, .keypad, false⟩) ∧
    mid.reserved = f.reserved - n ∧ f.enterBatch p codes n = mid.serveFlags) ∧
  (∀ (s t : State) (e : IntakeEntry) (rest : List IntakeEntry), s.intake.entries = e :: rest → s.halted = false →
    anyOwed s = false → 2 ≤ s.oq.freeSlots → exec .withdrawal s = .next t →
    t.intake = { Intake.serveFlags { s.intake with entries := rest } with pressure := t.intake.pressure }) ∧
  (∀ (s t : State) (g : Group) (q : Poll) (seq applied : Bool) (codes : List Code), (s.bus.get g).poll = .some q →
    q.answerable → q.disowned = false → 1 ≤ codes.length → codes.length ≤ 4 → (∀ c ∈ codes, c.val ≤ 0x37) →
    (s.pos.get (posAt g q.addr)).state = .opened → ((s.bus.get g).addrs.get q.addr).presence = .online →
    ((s.bus.get g).addrs.get q.addr).lastSeq ≠ .some seq →
    exec (.keypadReply g (keypadReplyBytes q.addr seq applied ((s.bus.get g).addrs.get q.addr).alarm codes)) s =
      .next t →
    t.intake.entries = (s.intake.enterBatch (posAt g q.addr) codes q.reserved).entries ∧
      t.intake.flags = (s.intake.enterBatch (posAt g q.addr) codes q.reserved).flags) ∧
  ∀ (s t : State) (g : Group) (q : Poll), (s.bus.get g).poll = .some q → q.disowned = false →
    (s.bus.get g).windowTimer = .running 0 →
    (((s.bus.get g).addrs.get q.addr).presence ≠ .online ∨ ((s.bus.get g).addrs.get q.addr).misses < 2) →
    exec (.responseWindowExpiry g) s = .next t →
    t.intake.entries = (s.intake.release q.reserved).entries ∧ t.intake.flags = (s.intake.release q.reserved).flags

/-! ### Disposition tables (chapter 4) -/

/-- BANK_OPEN and BANK_FREEZE (R63, R66), with the order of BANK_OPEN's checks. -/
def Obligations.BankOpenAndFreezeMoveTheOpenBank : Prop :=
  (∀ (s : State) (tag : Byte) (b : Bank), s.takesRequests → s.tables.frozen.get b = false →
    (∀ p, (s.pos.get p).state = .opened → (s.pos.get p).bank = b → s.entry.get p = .none) →
    exec (.bankOpen tag (u8 b.val)) s =
      .next (({ s.received with tables := { s.tables with openBank := .some b } }).replied .bankOpen tag
        (.ok (match s.tables.openBank with
          | .none => [0xFF]
          | .some o => u8 o.val)))) ∧
  (∀ (s : State) (tag : Byte) (b : Bank), s.takesRequests → s.tables.frozen.get b = true →
    exec (.bankOpen tag (u8 b.val)) s = .next (s.refused .bankOpen tag .bankFrozen)) ∧
  (∀ (s : State) (tag : Byte) (b : Bank) (p : Pos), s.takesRequests → s.tables.frozen.get b = false →
    (s.pos.get p).state = .opened → (s.pos.get p).bank = b → s.entry.get p ≠ .none →
    (∀ q : Pos, q.val < p.val →
      ¬ ((s.pos.get q).state = .opened ∧ (s.pos.get q).bank = b ∧ s.entry.get q ≠ .none)) →
    exec (.bankOpen tag (u8 b.val)) s = .next (s.received.replied .bankOpen tag (.no .bankInUse (u8 p.val)))) ∧
  (∀ (s : State) (tag : Byte) (b : Bank), s.takesRequests →
    exec (.bankFreeze tag (u8 b.val)) s =
      .next (({ s.received with tables := { s.tables with
          openBank := if s.tables.openBank = some b then none else s.tables.openBank
          frozen := s.tables.frozen.set b true } }).replied .bankFreeze tag
        (.ok (yesNo (decide (s.tables.openBank = some b)) ++ yesNo (s.tables.frozen.get b))))) ∧
  ∀ (s : State) (tag bb : Byte), s.takesRequests → 3 < bb.toNat →
    exec (.bankOpen tag [bb]) s = .next (s.refused .bankOpen tag .badValue) ∧
    exec (.bankFreeze tag [bb]) s = .next (s.refused .bankFreeze tag .badValue)

/-- BANK_CLOSE (R65): answered OK in every state of the table memory, with the bank that was open; contents, marks and
positions stay, and no COLLECT is then answered BANK_WRITING. -/
def Obligations.BankCloseClosesTheOpenBank : Prop :=
  ∀ (s : State) (tag : Byte), s.takesRequests → ∃ t,
    exec (.bankClose tag []) s = .next t ∧
    t = ({ s.received with tables := { s.tables with openBank := .none } }).replied .bankClose tag
      (.ok (match s.tables.openBank with
        | .none => [0xFF]
        | .some b => u8 b.val)) ∧
    (∀ b, t.tables.isOpen b = false) ∧
    (∀ b m c, t.tables.readEntry b m c = s.tables.readEntry b m c) ∧
    (∀ b m, t.tables.readDescriptor b m = s.tables.readDescriptor b m) ∧
    ∀ payload, (doCollect payload t).2.status ≠ .bankWriting

/-- TABLE_WRITE (R67, R68): a good run replaces the entries at its codes in one event and changes no other entry, no
descriptor and no other block; the refusals, in the order of the checks, the last with the index of the first entry
that is not valid. -/
def Obligations.TableWriteReplacesTheRun : Prop :=
  (∀ (s : State) (tag : Byte) (b : Bank) (m : Mode) (first : Nat) (ds : List Disposition), s.takesRequests →
    s.tables.wf = true → s.tables.openBank = .some b → 1 ≤ ds.length → first + ds.length ≤ 64 →
    ∃ t, exec (.tableWrite tag (u8 b.val ++ u8 m.val ++ u8 first ++ u8 ds.length ++ ds.flatMap writeDisposition)) s =
        .next t ∧
      t = ({ s.received with tables := t.tables }).replied .tableWrite tag (.ok (u8 ds.length)) ∧
      t.tables.openBank = s.tables.openBank ∧ t.tables.frozen = s.tables.frozen ∧
      t.tables.descriptors = s.tables.descriptors ∧
      (∀ (i : Nat) (d : Disposition) (c : Code), ds[i]? = .some d → c.val = first + i →
        t.tables.readEntry b m c = d) ∧
      (∀ c : Code, c.val < first ∨ first + ds.length ≤ c.val → t.tables.readEntry b m c = s.tables.readEntry b m c) ∧
      ∀ b' m' c, b' ≠ b ∨ m' ≠ m → t.tables.readEntry b' m' c = s.tables.readEntry b' m' c) ∧
  (∀ (s : State) (tag bb mb first count : Byte) (run : List Byte), s.takesRequests → run.length ≤ 246 →
    (count = 0 ∨ 64 < count.toNat ∨ run.length ≠ 2 * count.toNat) →
    exec (.tableWrite tag ([bb, mb, first, count] ++ run)) s = .next (s.refused .tableWrite tag .badRecord)) ∧
  (∀ (s : State) (tag bb mb first count : Byte) (run : List Byte), s.takesRequests →
    1 ≤ count.toNat → count.toNat ≤ 64 → run.length = 2 * count.toNat → (3 < bb.toNat ∨ 7 < mb.toNat) →
    exec (.tableWrite tag ([bb, mb, first, count] ++ run)) s = .next (s.refused .tableWrite tag .badValue)) ∧
  (∀ (s : State) (tag first count : Byte) (b : Bank) (m : Mode) (run : List Byte), s.takesRequests →
    1 ≤ count.toNat → count.toNat ≤ 64 → run.length = 2 * count.toNat → s.tables.openBank ≠ .some b →
    exec (.tableWrite tag (u8 b.val ++ u8 m.val ++ [first, count] ++ run)) s =
      .next (s.refused .tableWrite tag .bankClosed)) ∧
  (∀ (s : State) (tag first count : Byte) (b : Bank) (m : Mode) (run : List Byte), s.takesRequests →
    1 ≤ count.toNat → count.toNat ≤ 64 → run.length = 2 * count.toNat → s.tables.openBank = .some b →
    64 < first.toNat + count.toNat →
    exec (.tableWrite tag (u8 b.val ++ u8 m.val ++ [first, count] ++ run)) s =
      .next (s.refused .tableWrite tag .runCrossesRow)) ∧
  ∀ (s : State) (tag first x y : Byte) (b : Bank) (m : Mode) (before : List Disposition) (rest : List Byte),
    s.takesRequests → s.tables.openBank = .some b → rest.length % 2 = 0 → before.length + 1 + rest.length / 2 ≤ 64 →
    first.toNat + (before.length + 1 + rest.length / 2) ≤ 64 →
    (x.toNat / 8 % 8 = 7 ∨ y.toNat % 4 = 3 ∨ y.toNat / 16 ≠ 0) →
    exec (.tableWrite tag (u8 b.val ++ u8 m.val ++ [first] ++ u8 (before.length + 1 + rest.length / 2) ++
        (before.flatMap writeDisposition ++ [x, y] ++ rest))) s =
      .next (s.received.replied .tableWrite tag (.no .badValue (u8 before.length)))

/-- MODE_SET and TABLE_READ (R69, R70): the descriptor is replaced, with '*' for a mask that is no printable character,
and no entry changes; a read returns a row's run and descriptor in the two-byte form and changes nothing. -/
def Obligations.ModeSetWritesAndTableReadReturns : Prop :=
  (∀ (s : State) (tag mask : Byte) (b : Bank) (m : Mode) (secret : Bool), s.takesRequests → s.tables.wf = true →
    s.tables.openBank = .some b →
    let stored : Byte := if 0x20 ≤ mask.toNat ∧ mask.toNat ≤ 0x7E then mask else 0x2A
    ∃ t, exec (.modeSet tag (u8 b.val ++ u8 m.val ++ yesNo secret ++ [mask])) s = .next t ∧
      t = ({ s.received with tables := t.tables }).replied .modeSet tag
        (.stored (decide (stored ≠ mask)) (yesNo secret ++ [stored])) ∧
      t.tables.openBank = s.tables.openBank ∧ t.tables.frozen = s.tables.frozen ∧
      t.tables.entries = s.tables.entries ∧ t.tables.readDescriptor b m = ⟨secret, stored⟩ ∧
      ∀ b' m', b' ≠ b ∨ m' ≠ m → t.tables.readDescriptor b' m' = s.tables.readDescriptor b' m') ∧
  (∀ (s : State) (tag bb mb secret mask : Byte), s.takesRequests → (3 < bb.toNat ∨ 7 < mb.toNat) →
    exec (.modeSet tag [bb, mb, secret, mask]) s = .next (s.refused .modeSet tag .badValue)) ∧
  (∀ (s : State) (tag secret mask : Byte) (b : Bank) (m : Mode), s.takesRequests → s.tables.openBank ≠ .some b →
    exec (.modeSet tag (u8 b.val ++ u8 m.val ++ [secret, mask])) s = .next (s.refused .modeSet tag .bankClosed)) ∧
  (∀ (s : State) (tag secret mask : Byte) (b : Bank) (m : Mode), s.takesRequests → s.tables.openBank = .some b →
    1 < secret.toNat →
    exec (.modeSet tag (u8 b.val ++ u8 m.val ++ [secret, mask])) s = .next (s.refused .modeSet tag .badValue)) ∧
  (∀ (s : State) (tag : Byte) (b : Bank) (m : Mode) (codes : List Code) (first : Nat), s.takesRequests →
    codes ≠ [] → (∀ (i : Nat) (c : Code), codes[i]? = .some c → c.val = first + i) →
    exec (.tableRead tag (u8 b.val ++ u8 m.val ++ u8 first ++ u8 codes.length)) s =
      .next (s.received.replied .tableRead tag (.ok
        (yesNo (decide (s.tables.openBank = some b)) ++ yesNo (s.tables.frozen.get b) ++
          yesNo (s.tables.readDescriptor b m).secret ++ [(s.tables.readDescriptor b m).mask] ++ u8 codes.length ++
          codes.flatMap fun c => writeDisposition (s.tables.readEntry b m c))))) ∧
  (∀ (s : State) (tag bb mb first count : Byte), s.takesRequests →
    (3 < bb.toNat ∨ 7 < mb.toNat ∨ count = 0 ∨ 64 < count.toNat) →
    exec (.tableRead tag [bb, mb, first, count]) s = .next (s.refused .tableRead tag .badValue)) ∧
  ∀ (s : State) (tag first count : Byte) (b : Bank) (m : Mode), s.takesRequests → 1 ≤ count.toNat →
    count.toNat ≤ 64 → 64 < first.toNat + count.toNat →
    exec (.tableRead tag (u8 b.val ++ u8 m.val ++ [first, count])) s =
      .next (s.refused .tableRead tag .runCrossesRow)

/-- The two-byte form of a disposition entry (R57, R188, section 12.6): writing and reading it agree, for every valid
entry and for every two bytes that are read as one; and just the forms that R188 names are not read. -/
def Obligations.DispositionFormRoundTrips : Prop :=
  (∀ d : Disposition, ∃ x y, writeDisposition d = [x, y] ∧ readDisposition x y = .some d) ∧
  (∀ (x y : Byte) (d : Disposition), readDisposition x y = .some d → writeDisposition d = [x, y]) ∧
  (∀ x y : Byte, readDisposition x y = .none ↔
    (x.toNat / 8 % 8 = 7 ∨ y.toNat % 4 = 3 ∨ y.toNat / 16 ≠ 0)) ∧
  ∀ ds : List Disposition, readRun 0 (ds.flatMap writeDisposition) = .good ds

/-! ### The disposition engine (chapter 5) and attention (chapter 6) -/

/-- WITHDRAWAL without attention (R50, R73 to R75, R80, R82, R89): a void entry, or one of a CLOSED position, is
discarded; any other is looked up in its position's bank and mode and applied, and the application's notice, if it has
one, is queued; FORWARD's effect in full. While the engine is halted, the IF is empty or the OQ cannot grant 2 slots,
nothing is withdrawn (that the command then changes nothing is the model's choice, notes/assumptions/4). -/
def Obligations.WithdrawalAppliesTheLookup : Prop :=
  (∀ (s : State) (e : IntakeEntry) (rest : List IntakeEntry), s.intake.entries = e :: rest → s.attn.record = .none →
    s.slotsFree 2 → s.oq.reservation = 0 → s.intake.flagCount = 0 → s.intake.pressure = .normal →
    s.intake.occupied + s.intake.reserved ≤ 64 → (e.void = true ∨ (s.pos.get e.pos).state = .closed) →
    exec .withdrawal s = .next { s with intake := { s.intake with entries := rest } }) ∧
  (∀ (s : State) (e : IntakeEntry) (rest : List IntakeEntry), s.intake.entries = e :: rest → s.attn.record = .none →
    s.slotsFree 2 → s.oq.reservation = 0 → s.intake.flagCount = 0 → s.intake.pressure = .normal →
    s.intake.occupied + s.intake.reserved ≤ 64 → e.void = false → (s.pos.get e.pos).state = .opened →
    e.code ≠ 0x3F →
    let d := s.tables.readEntry (s.pos.get e.pos).bank (s.pos.get e.pos).mode e.code
    let r := applyDisposition e.pos e.code d { s with intake := { s.intake with entries := rest } }
    d.attention = false →
    exec .withdrawal s = .next { r.1 with oq := { s.oq with
      queue := s.oq.queue ++ (r.2.notice.map fun n => OutRecord.notice (.app n)).toList
      begun := s.oq.begun || (r.2.notice.isSome && s.link.up) } }) ∧
  (∀ (s : State) (e : IntakeEntry) (rest : List IntakeEntry), s.intake.entries = e :: rest → s.attn.record = .none →
    s.slotsFree 2 → s.oq.reservation = 0 → s.intake.flagCount = 0 → s.intake.pressure = .normal →
    s.intake.occupied + s.intake.reserved ≤ 64 → e.void = false → (s.pos.get e.pos).state = .opened →
    e.code ≠ 0x3F →
    let d := s.tables.readEntry (s.pos.get e.pos).bank (s.pos.get e.pos).mode e.code
    d.attention = false → d.action = .forward → d.echo = .none → d.beep = .none →
    (9 < e.code.val ∨ s.secretContext e.pos = false) →
    exec .withdrawal s = .next { s with
      intake := { s.intake with entries := rest }
      pos := s.pos.modify e.pos fun r => { r with mode := d.nextMode }
      oq := { s.oq with
        queue := s.oq.queue ++ [.notice (.app (.key e.pos e.code d.nextMode))]
        begun := s.oq.begun || s.link.up } }) ∧
  ∀ s : State, (s.intake.entries = [] ∨ s.attn.record ≠ .none ∨ anyOwed s = true ∨ s.oq.freeSlots < 2) →
    exec .withdrawal s = .next s

/-- The application of a disposition (R77, R78, R80, R85 to R89): the clamps in secret context, and the steps after the
action, from the action's outcome: counter, echo, beep, mode and report. No other position and no other block
changes. -/
def Obligations.ApplicationFollowsTheActionsOutcome : Prop :=
  ∀ (s : State) (p : Pos) (c : Code) (d : Disposition),
    let desc := s.tables.readDescriptor (s.pos.get p).bank (s.pos.get p).mode
    let secret := (match s.entry.get p with
      | .none => false
      | .some e => e.secret) || desc.secret
    let clamped := secret = true ∧ c.val ≤ 9
    let action := if clamped ∧ d.action = .forward then Action.hold else d.action
    let echo := if clamped ∧ d.echo = .char then Echo.mask else d.echo
    let acted := entryAction p c desc.secret action s
    let out := acted.2
    let r := applyDisposition p c d s
    let mode := out.newMode.getD d.nextMode
    r.1.entry = acted.1.entry ∧
    r.1.pos = s.pos.modify p (fun x => { x with
      mode := mode
      strayHolds := if out.tally = .strayHold then min 65535 (x.strayHolds + 1) else x.strayHolds
      refusals := if out.tally = .refusal then min 65535 (x.refusals + 1) else x.refusals }) ∧
    r.1.pu = s.pu.modify p (fun _ =>
      let shown := if out.refused then acted.1.pu.get p else (acted.1.pu.get p).echo echo c desc.mask
      { shown with beep :=
          if out.refused then .long else if d.beep = .none then (s.pu.get p).beep else d.beep }) ∧
    r.1.oq = s.oq ∧ r.1.intake = s.intake ∧ r.1.attn = s.attn ∧ r.1.tables = s.tables ∧ r.1.line = s.line ∧
    r.1.xs = s.xs ∧ r.1.bus = s.bus ∧ r.1.link = s.link ∧ r.1.timeCount = s.timeCount ∧ r.1.pending = s.pending ∧
    r.2.action = action ∧ r.2.refused = out.refused ∧ r.2.secretContext = secret ∧
    r.2.notice = (match out.notice with
      | .some (.completed n sec codes) => .some (.entryComplete p n sec codes)
      | .some (.cancelled n sec) => .some (.entryCancelled p n sec mode)
      | .none =>
        if action = .forward then .some (.key p c mode)
        else if d.report = true ∧ acted.1.entryCollecting p = true ∧ acted.1.entryLength p ≠ s.entryLength p then
          .some (.entryProgress p (acted.1.entryLength p) (acted.1.entrySecret p))
        else .none)

/-- The actions on an entry (R83, R84, R108 to R113): what each does to a COLLECTING entry, a COMPLETE one and none,
and the outcome it returns. -/
def Obligations.ActionsWorkOnTheEntry : Prop :=
  (∀ (s : State) (p : Pos) (c : Code) (ms : Bool) (e : Entry), s.entry.get p = .some e → e.state = .collecting →
    e.buffer.length < e.maxLength → (e.buffer.length + 1 < e.maxLength ∨ e.fullReached = true) →
    entryAction p c ms .hold s = (s.putEntry p (.some { e with
      buffer := e.buffer ++ [c], secret := e.secret || ms }), ⟨false, .none, .none, .none⟩)) ∧
  (∀ (s : State) (p : Pos) (c : Code) (ms : Bool) (e : Entry), s.entry.get p = .some e → e.state = .collecting →
    e.buffer.length + 1 = e.maxLength → e.fullReached = false → e.policy ≠ .complete →
    entryAction p c ms .hold s = (s.putEntry p (.some { e with
      buffer := e.buffer ++ [c], secret := e.secret || ms, fullReached := true }),
      ⟨false, .none, e.fullMode, .none⟩)) ∧
  (∀ (s : State) (p : Pos) (c : Code) (ms : Bool) (e : Entry), s.entry.get p = .some e → e.state = .collecting →
    e.buffer.length + 1 = e.maxLength → e.fullReached = false → e.policy = .complete →
    entryAction p c ms .hold s = (s.putEntry p (.some { e with
      buffer := e.buffer ++ [c], secret := e.secret || ms, fullReached := true, state := .complete,
      interkeyTimer := .stopped }),
      { refused := false, tally := .none,
        newMode := if e.endMode = none then e.fullMode else e.endMode,
        notice := some (.completed e.maxLength (e.secret || ms)
          (if (e.secret || ms) = true then none else some (e.buffer ++ [c]))) })) ∧
  (∀ (s : State) (p : Pos) (c : Code) (ms : Bool) (e : Entry), s.entry.get p = .some e → e.state = .collecting →
    e.buffer.length = e.maxLength → e.policy = .stop →
    entryAction p c ms .hold s = (s, ⟨true, .refusal, .none, .none⟩)) ∧
  (∀ (s : State) (p : Pos) (c : Code) (ms : Bool) (e : Entry), s.entry.get p = .some e → e.state = .collecting →
    e.buffer.length = e.maxLength → e.policy = .roll →
    entryAction p c ms .hold s = (s.putEntry p (.some { e with
      buffer := e.buffer.tail ++ [c], secret := e.secret || ms }), ⟨false, .none, .none, .none⟩)) ∧
  (∀ (s : State) (p : Pos) (c : Code) (ms : Bool), s.entryCollecting p = false →
    entryAction p c ms .hold s = (s, ⟨false, .strayHold, .none, .none⟩) ∧
    entryAction p c ms .eraseLast s = (s, ⟨false, .none, .none, .none⟩) ∧
    entryAction p c ms .clearEntry s = (s, ⟨false, .none, .none, .none⟩) ∧
    entryAction p c ms .complete s = (s, ⟨true, .none, .none, .none⟩)) ∧
  (∀ (s : State) (p : Pos) (c : Code) (ms : Bool) (e : Entry), s.entry.get p = .some e → e.state = .collecting →
    entryAction p c ms .eraseLast s =
      (s.putEntry p (.some { e with buffer := e.buffer.take (e.buffer.length - 1) }), ⟨false, .none, .none, .none⟩) ∧
    entryAction p c ms .clearEntry s =
      ((s.putEntry p (.some { e with buffer := [], fullReached := false })).onPu p PromptUnit.resetEcho,
        ⟨false, .none, .none, .none⟩)) ∧
  (∀ (s : State) (p : Pos) (c : Code) (ms : Bool) (e : Entry), s.entry.get p = .some e → e.state = .collecting →
    e.minLength ≤ e.buffer.length →
    entryAction p c ms .complete s =
      (s.putEntry p (.some { e with state := .complete, interkeyTimer := .stopped }),
        ⟨false, .none, e.endMode, .some (.completed e.buffer.length e.secret
          (if e.secret then .none else .some e.buffer))⟩)) ∧
  (∀ (s : State) (p : Pos) (c : Code) (ms : Bool) (e : Entry), s.entry.get p = .some e → e.state = .collecting →
    e.buffer.length < e.minLength → entryAction p c ms .complete s = (s, ⟨true, .refusal, .none, .none⟩)) ∧
  (∀ (s : State) (p : Pos) (c : Code) (ms : Bool) (e : Entry), s.entry.get p = .some e →
    entryAction p c ms .cancel s =
      (s.putEntry p .none, ⟨false, .none, e.endMode, .some (.cancelled e.buffer.length e.secret)⟩)) ∧
  ∀ (s : State) (p : Pos) (c : Code) (ms : Bool), s.entry.get p = .none →
    entryAction p c ms .cancel s = (s, ⟨false, .none, .none, .none⟩)

/-- WITHDRAWAL that raises attention (R72, R79, R93, R94): the record is filled, the lapse timer loaded with the window
in force and ATTENTION queued from the reservation, of which 1 slot is kept; no part of the disposition is applied. -/
def Obligations.WithdrawalRaisesAttention : Prop :=
  ∀ (s : State) (e : IntakeEntry) (rest : List IntakeEntry), s.intake.entries = e :: rest → s.attn.record = .none →
    s.slotsFree 2 → s.oq.reservation = 0 → s.intake.flagCount = 0 → s.intake.pressure = .normal →
    s.intake.occupied + s.intake.reserved ≤ 64 → e.void = false → (s.pos.get e.pos).state = .opened →
    let mode := (s.pos.get e.pos).mode
    let d := s.tables.readEntry (s.pos.get e.pos).bank mode e.code
    let masked := decide (e.code.val ≤ 9) && s.secretContext e.pos
    (d.attention = true ∨ e.code = 0x3F) →
    exec .withdrawal s = .next { s with
      intake := { s.intake with entries := rest }
      attn := { s.attn with
        record := .some { number := s.attn.number + 1, pos := e.pos, code := e.code, masked := masked,
                          origin := e.origin, modeAtRaise := mode, held := d, raiseTime := s.timeCount }
        lapseTimer := .running s.attn.window
        number := s.attn.number + 1 }
      oq := { s.oq with
        queue := s.oq.queue ++ [.notice (.attention (s.attn.number + 1) e.pos
          (if masked then 0xFF else BitVec.ofNat 8 e.code.val) e.origin mode d s.attn.window)]
        begun := s.oq.begun || s.link.up
        reservation := 1 } }

/-- LAPSE_TIMER_EXPIRY (R98, R99): the held disposition is applied to the position as it stands, ATTENTION_LAPSED is
queued from the remaining slot with the application's notice inside it, and the attention ends; without a due lapse
timer nothing happens (the model's choice, notes/assumptions/4). -/
def Obligations.LapseAppliesTheHeldDisposition : Prop :=
  (∀ (s : State) (a : Attention), s.attn.record = .some a → s.attn.lapseTimer = .running 0 → s.oq.reservation = 1 →
    anyOwed s = false →
    let r := applyDisposition a.pos a.code a.held s
    exec .lapseTimerExpiry s = .next { r.1 with
      attn := { s.attn with record := .none, lapseTimer := .stopped }
      oq := { s.oq with
        queue := s.oq.queue ++ [.notice (.attentionLapsed a.number a.pos
          (if a.masked = true ∨ a.code.val ≤ 9 ∧ r.2.secretContext = true then 0xFF else BitVec.ofNat 8 a.code.val)
          r.2.action r.2.refused (r.1.pos.get a.pos).mode r.2.notice)]
        begun := s.oq.begun || s.link.up
        reservation := 0 } }) ∧
  ∀ s : State, (s.attn.record = .none ∨ s.attn.lapseTimer ≠ .running 0) → exec .lapseTimerExpiry s = .next s

/-- ATTEND and ATTENTION_SET (R90, R95 to R97): the disposition that the action names is applied, its notice queued
ahead of the reply, the attention ended and the slot released; the refusals in the order of the checks, so that a number
that names no record is answered ahead of a replacement that is not valid; the clamp of the window. -/
def Obligations.AttendResolvesTheAttention : Prop :=
  (∀ (s : State) (tag : Byte) (a : Attention) (d : Disposition) (act : List Byte), s.takesRequests →
    s.attn.record = .some a → s.oq.reservation = 1 → anyOwed s = false →
    (act = [0] ∧ d = a.held ∨ act = 1 :: writeDisposition d ∨
      act = [2] ∧ d = ⟨(s.pos.get a.pos).mode, .discard, .none, .none, false, false⟩) →
    let r := applyDisposition a.pos a.code d s.received
    exec (.attend tag (u16 a.number.toNat ++ act)) s = .next (({ r.1 with
      attn := { s.attn with record := .none, lapseTimer := .stopped }
      oq := { s.oq with
        queue := s.oq.queue ++ (r.2.notice.map fun n => OutRecord.notice (.app n)).toList
        begun := s.oq.begun || (r.2.notice.isSome && s.link.up)
        reservation := 0 } }).replied .attend tag (.ok
          (u16 a.number.toNat ++ u8 a.pos.val ++
            [if a.masked = true ∨ a.code.val ≤ 9 ∧ r.2.secretContext = true then 0xFF
             else BitVec.ofNat 8 a.code.val] ++
            u16 (s.timeCount - a.raiseTime).toNat ++ u8 r.2.action.index ++ yesNo r.2.refused ++
            u8 (entryStateIndex (r.1.entry.get a.pos)) ++ u8 (r.1.entryLength a.pos) ++
            u8 (r.1.pos.get a.pos).mode.val ++
            u8 (match r.2.notice with
              | .none => 0
              | .some (.key _ _ _) => 1
              | .some (.entryProgress _ _ _) => 2
              | .some (.entryComplete _ _ _ _) => 3
              | .some (.entryCancelled _ _ _ _) => 4))))) ∧
  (∀ (s : State) (tag : Byte) (n : BitVec 16) (act : List Byte), s.takesRequests → s.attn.record = .none →
    (act = [0] ∨ act = [2] ∨ ∃ x y, act = [1, x, y]) →
    exec (.attend tag (u16 n.toNat ++ act)) s =
      .next (s.received.replied .attend tag (.no .noAttention [0, 0, 0]))) ∧
  (∀ (s : State) (tag : Byte) (n : BitVec 16) (a : Attention) (act : List Byte), s.takesRequests →
    s.attn.record = .some a → a.number ≠ n → (act = [0] ∨ act = [2] ∨ ∃ x y, act = [1, x, y]) →
    exec (.attend tag (u16 n.toNat ++ act)) s =
      .next (s.received.replied .attend tag (.no .noAttention (1 :: u16 a.number.toNat)))) ∧
  (∀ (s : State) (tag act x y : Byte) (n : BitVec 16), s.takesRequests →
    exec (.attend tag (u16 n.toNat ++ [1])) s = .next (s.refused .attend tag .badRecord) ∧
    (act = 0 ∨ act = 2 → exec (.attend tag (u16 n.toNat ++ [act, x, y])) s =
      .next (s.refused .attend tag .badRecord)) ∧
    (2 < act.toNat → exec (.attend tag (u16 n.toNat ++ [act])) s = .next (s.refused .attend tag .badValue) ∧
      exec (.attend tag (u16 n.toNat ++ [act, x, y])) s = .next (s.refused .attend tag .badValue))) ∧
  (∀ (s : State) (tag x y : Byte) (a : Attention), s.takesRequests → s.attn.record = .some a →
    (x.toNat / 8 % 8 = 7 ∨ y.toNat % 4 = 3 ∨ y.toNat / 16 ≠ 0) →
    exec (.attend tag (u16 a.number.toNat ++ [1, x, y])) s = .next (s.refused .attend tag .badValue)) ∧
  ∀ (s : State) (tag : Byte) (w : Nat), s.takesRequests → w < 65536 →
    exec (.attentionSet tag (u16 w)) s =
      .next (({ s.received with attn := { s.attn with window := max 50 (min 10000 w) } }).replied .attentionSet tag
        (.stored (decide (w < 50 ∨ 10000 < w)) (u16 (max 50 (min 10000 w)))))

/-- Digits keyed in secret context (R77, R78, R82, R93, R99, R112): an application in secret context posts no KEY with the
digit; and every notice that a step queues gives codes away only as the rules allow. ENTRY_COMPLETE, also inside
ATTENTION_LAPSED, carries codes only of an entry that is not secret as the step begins, the last of them perhaps keyed in
a mode that is not; KEY carries a digit, and ATTENTION and ATTENTION_LAPSED report one, only outside secret context. (On
UART one command's bytes can bring two records to a receiver in mid-record, and then two requests act in one step: the
premise leaves just those steps out. That a command brings bytes is the model's reading, notes/assumptions/5.) -/
def Obligations.SecretDigitsStayOutOfNotices : Prop :=
  (∀ (s : State) (p : Pos) (c : Code) (d : Disposition) (mode : Mode), c.val ≤ 9 → s.secretContext p = true →
    (applyDisposition p c d s).2.notice ≠ .some (.key p c mode)) ∧
  ∀ s t : State, s.bringsOneRecord → step s = .next t → ∃ kept queued, t.oq.queue = kept ++ queued ∧ kept.Sublist s.oq.queue ∧
    ∀ n, .notice n ∈ queued → n.keepsSecrets s

/-! ### Entry collection (chapter 7) -/

/-- COLLECT (R105 to R107): the refusals in the order of the checks, and what an accepted one begins, with the clamped
fields and the reply that carries them. -/
def Obligations.CollectBeginsAnEntry : Prop :=
  (∀ (s : State) (tag : Byte) (p : Pos) (start : Mode) (mn mx total : Nat) (pol : FullPolicy)
      (fm em : Option Mode) (ik : Option Nat), s.takesRequests → mn < 256 → mx < 256 → total < 65535 →
    (∀ n, ik = some n → n < 65535) → (s.pos.get p).state = .opened →
    s.tables.openBank ≠ some (s.pos.get p).bank → s.entryCollecting p = false →
    let mx' := max 1 (min 16 mx)
    let mn' := min mn mx'
    let ik' := ik.map fun n => max 5 (min 300 n)
    let total' := max 10 (min 1200 total)
    let secret := (s.tables.readDescriptor (s.pos.get p).bank start).secret
    exec (.collect tag (u8 p.val ++ u8 start.val ++ u8 mn ++ u8 mx ++ u8 pol.index ++ optU8 (fm.map Fin.val) ++
        optU8 (em.map Fin.val) ++ optU16 ik ++ u16 total)) s =
      .next (({ s.received with
        entry := s.entry.set p (some
          { state := .collecting, secret := secret, buffer := [], minLength := mn', maxLength := mx', policy := pol,
            fullMode := fm, endMode := em, interkeyTimeout := ik', totalTimeout := total',
            interkeyTimer := .stopped, totalTimer := .running (total' * 100), fullReached := false,
            startTime := s.timeCount, presented := false })
        pos := s.pos.modify p fun r => { r with mode := start }
        pu := s.pu.modify p fun u => match u.current.bind (fun pr => pr.field) with
          | none => { u with cursor := 0 }
          | some f => { u with
              content := u.content.take (16 * f.line + f.column) ++ List.replicate f.width 0x20 ++
                u.content.drop (16 * f.line + f.column + f.width)
              number := u.number + 1, dirty := true, cursor := 0 } }).replied .collect tag
        (.stored (decide (mx' ≠ mx ∨ mn' ≠ mn ∨ ik' ≠ ik ∨ total' ≠ total))
          (u8 mn' ++ u8 mx' ++ optU16 ik' ++ u16 total' ++ yesNo (s.entry.get p).isSome ++ yesNo secret)))) ∧
  (∀ (s : State) (tag sm mn mx pol fm em i1 i0 : Byte) (p : Pos), s.takesRequests →
    exec (.collect tag (u8 p.val ++ [sm, mn, mx, pol, fm, em, i1, i0, 0xFF, 0xFF])) s =
      .next (s.refused .collect tag .badRecord)) ∧
  (∀ (s : State) (tag sm mn mx pol fm em i1 i0 t1 t0 : Byte) (p : Pos), s.takesRequests →
    (t1 ≠ 0xFF ∨ t0 ≠ 0xFF) →
    (7 < sm.toNat ∨ 2 < pol.toNat ∨ 7 < fm.toNat ∧ fm ≠ 0xFF ∨ 7 < em.toNat ∧ em ≠ 0xFF) →
    exec (.collect tag (u8 p.val ++ [sm, mn, mx, pol, fm, em, i1, i0, t1, t0])) s =
      .next (s.refused .collect tag .badValue)) ∧
  ∀ (s : State) (tag mn mx i1 i0 t1 t0 : Byte) (p : Pos) (start : Mode) (pol : FullPolicy) (fm em : Option Mode),
    s.takesRequests → (t1 ≠ 0xFF ∨ t0 ≠ 0xFF) →
    let c := Instr.collect tag (u8 p.val ++ u8 start.val ++ [mn, mx] ++ u8 pol.index ++ optU8 (fm.map Fin.val) ++
      optU8 (em.map Fin.val) ++ [i1, i0, t1, t0])
    ((s.pos.get p).state = .closed → exec c s = .next (s.refused .collect tag .positionClosed)) ∧
    ((s.pos.get p).state = .opened → s.tables.openBank = some (s.pos.get p).bank →
      exec c s = .next (s.refused .collect tag .bankWriting)) ∧
    ((s.pos.get p).state = .opened → s.tables.openBank ≠ some (s.pos.get p).bank → s.entryCollecting p = true →
      exec c s = .next (s.refused .collect tag .wrongState))

/-- COLLECT_STOP, ENTRY_READ and ENTRY_WIPE (R118 to R120): a COLLECTING entry is stopped and removed, a COMPLETE plain
one is read and stays; codes are carried of a plain entry only, and any other entry is refused. A wipe removes an entry
in either state, is answered OK in every position state and entry state, and changes nothing else. (That the codes follow
with no length or presence byte of their own is the model's reading, notes/assumptions/8.) -/
def Obligations.CollectStopEntryReadAndEntryWipe : Prop :=
  (∀ (s : State) (tag : Byte) (p : Pos) (e : Entry), s.takesRequests → s.entry.get p = some e →
    e.state = .collecting → exec (.collectStop tag (u8 p.val)) s =
      .next (({ s.received with entry := s.entry.set p none }).replied .collectStop tag (.ok
        (u8 e.buffer.length ++ yesNo e.secret ++
          (if e.secret then [] else e.buffer.map fun (c : Code) => BitVec.ofNat 8 c.val))))) ∧
  (∀ (s : State) (tag : Byte) (p : Pos), s.takesRequests → s.entryCollecting p = false →
    exec (.collectStop tag (u8 p.val)) s = .next (s.refused .collectStop tag .noEntry)) ∧
  (∀ (s : State) (tag : Byte) (p : Pos), s.takesRequests →
    (s.entry.get p = none ∨ s.entryCollecting p = true) →
    exec (.entryRead tag (u8 p.val)) s = .next (s.refused .entryRead tag .noEntry)) ∧
  (∀ (s : State) (tag : Byte) (p : Pos) (e : Entry), s.takesRequests → s.entry.get p = some e →
    e.state = .complete → e.secret = true →
    exec (.entryRead tag (u8 p.val)) s = .next (s.refused .entryRead tag .entrySecret)) ∧
  (∀ (s : State) (tag : Byte) (p : Pos) (e : Entry), s.takesRequests → s.entry.get p = some e →
    e.state = .complete → e.secret = false →
    exec (.entryRead tag (u8 p.val)) s = .next (s.received.replied .entryRead tag (.ok
      (u8 e.buffer.length ++ e.buffer.map fun (c : Code) => BitVec.ofNat 8 c.val)))) ∧
  ∀ (s : State) (tag : Byte) (p : Pos), s.takesRequests →
    exec (.entryWipe tag (u8 p.val)) s =
      .next (({ s.received with entry := s.entry.set p none }).replied .entryWipe tag (.ok
        (u8 (match s.entry.get p with
          | none => 0
          | some e => match e.state with
            | .collecting => 1
            | .complete => 2))))

/-- INTERKEY_EXPIRY and TOTAL_TIMER_EXPIRY (R48, R115, R116): a due inter-key timer stops and raises INTERKEY_LAPSE,
which enters, sets its flag or is absorbed; a due total timer ends the entry, writes its end mode and owes ENTRY_ENDED,
queued at once with a slot free and folded into the owed one without; a timer that is not due changes nothing
(notes/assumptions/4). -/
def Obligations.EntryTimersExpire : Prop :=
  (∀ (s : State) (p : Pos) (e : Entry), s.entry.get p = some e → e.interkeyTimer = .running 0 →
    (s.pos.get p).state = .opened → s.intakeRoom 1 →
    exec (.interkeyExpiry p) s = .next { s with
      entry := s.entry.set p (some { e with interkeyTimer := .stopped })
      intake := { s.intake with entries := s.intake.entries ++ [⟨p, 0x38, .synthetic, false⟩] } }) ∧
  (∀ (s : State) (p : Pos) (e : Entry), s.entry.get p = some e → e.interkeyTimer = .running 0 →
    (s.pos.get p).state = .opened → (s.intake.free = 0 ∨ (s.intake.flags.get p).interkeyLapse = true) →
    exec (.interkeyExpiry p) s = .next { s with
      entry := s.entry.set p (some { e with interkeyTimer := .stopped })
      intake := { s.intake with flags := s.intake.flags.modify p fun f => { f with interkeyLapse := true } } }) ∧
  (∀ (s : State) (p : Pos) (e : Entry), s.entry.get p = some e → e.totalTimer = .running 0 → s.slotsFree 1 →
    exec (.totalTimerExpiry p) s = .next { s with
      entry := s.entry.set p none
      pos := s.pos.modify p fun r => { r with mode := e.endMode.getD r.mode }
      oq := { s.oq with
        queue := s.oq.queue ++ [.notice (.entryExpired p e.buffer.length e.secret
          (e.endMode.getD (s.pos.get p).mode) 1)]
        begun := s.oq.begun || s.link.up } }) ∧
  (∀ (s : State) (p : Pos) (e : Entry), s.entry.get p = some e → e.totalTimer = .running 0 → s.oq.freeSlots = 0 →
    exec (.totalTimerExpiry p) s = .next { s with
      entry := s.entry.set p none
      pos := s.pos.modify p fun r => { r with mode := e.endMode.getD r.mode }
      oq := { s.oq with expired := s.oq.expired.set p (some
        { length := e.buffer.length, secret := e.secret, modeAfter := e.endMode.getD (s.pos.get p).mode,
          ends := match s.oq.expired.get p with
            | none => 1
            | some o => min 255 (o.ends + 1) }) } }) ∧
  (∀ (s : State) (p : Pos), (∀ e, s.entry.get p = some e → e.interkeyTimer ≠ .running 0) →
    exec (.interkeyExpiry p) s = .next s) ∧
  ∀ (s : State) (p : Pos), (∀ e, s.entry.get p = some e → e.totalTimer ≠ .running 0) →
    exec (.totalTimerExpiry p) s = .next s

/-! ### Prompts (chapter 8) -/

/-- PROMPT (R125 to R129): the stored fields, the place a REPLACE or a QUEUE takes with the display composed when the
prompt becomes current, the reply, and the refusals in the order of the checks. (The form byte, 0 for REPLACE and 1 for
QUEUE, is the model's reading, notes/assumptions/8.) -/
def Obligations.PromptTakesItsPlace : Prop :=
  ∀ (s : State) (tag : Byte) (p : Pos) (form hold : Nat) (text : List Byte) (field : Option EchoField),
    s.takesRequests → form < 256 → hold < 65536 → text.length ≤ 241 →
    (∀ f, field = some f → f.line < 256 ∧ f.column < 256 ∧ f.width < 256) →
    let c := Instr.prompt tag (u8 p.val ++ u8 form ++ byteString text ++ u16 hold ++ fieldBytes field)
    let good := ∀ f, field = some f → f.line ≤ 1 ∧ f.column ≤ 15 ∧ 1 ≤ f.width
    let stored : Prompt :=
      { text := (text.take 32).map fun x => if 0x20 ≤ x.toNat ∧ x.toNat ≤ 0x7E then x else 0x20
        hold := min hold 600
        field := field.map fun f => { f with width := min f.width (16 - f.column) } }
    let padded := stored.text ++ List.replicate (32 - stored.text.length) 0x20
    let shown := match stored.field with
      | none => padded
      | some f => padded.take (16 * f.line + f.column) ++ List.replicate f.width 0x20 ++
          padded.drop (16 * f.line + f.column + f.width)
    let u := s.pu.get p
    let current : PromptUnit :=
      { u with
        slotA := match u.currentSlot with
          | .a => some stored
          | .b => none
        slotB := match u.currentSlot with
          | .a => none
          | .b => some stored
        phase := .notStarted, holdTimer := .stopped, content := shown, number := u.number + 1, dirty := true,
        cursor := 0 }
    let behind : PromptUnit := match u.currentSlot with
      | .a => { u with slotB := some stored }
      | .b => { u with slotA := some stored }
    let answer (slot : Slot) (cur : Bool) : Answer :=
      .stored (decide (stored.text ≠ text ∨ stored.hold ≠ hold ∨ stored.field ≠ field))
        (u8 slot.index ++ yesNo cur ++ u8 stored.text.length ++ u16 stored.hold ++ fieldBytes stored.field)
    let opened := (s.pos.get p).state = .opened
    (1 < form ∨ ¬ good → exec c s = .next (s.refused .prompt tag .badValue)) ∧
    (form ≤ 1 → good → (s.pos.get p).state = .closed → exec c s = .next (s.refused .prompt tag .positionClosed)) ∧
    (form = 0 → good → opened → exec c s =
      .next (({ s.received with pu := s.pu.set p current }).replied .prompt tag (answer u.currentSlot true))) ∧
    (form = 1 → good → opened → u.other = none → (u.current = none ∨ u.phase = .ended) → exec c s =
      .next (({ s.received with pu := s.pu.set p current }).replied .prompt tag (answer u.currentSlot true))) ∧
    (form = 1 → good → opened → u.other = none → u.current ≠ none → u.phase ≠ .ended → exec c s =
      .next (({ s.received with pu := s.pu.set p behind }).replied .prompt tag
        (answer (match u.currentSlot with
          | .a => .b
          | .b => .a) false))) ∧
    (form = 1 → good → opened → u.other ≠ none → u.current ≠ none → u.phase ≠ .ended →
      exec c s = .next (s.refused .prompt tag .slotsFull))

/-- PROMPT_CLEAR (R134): an OPEN position's slots are emptied and its display blanked, with the beep and the current
slot pointer kept; no hold expiry follows; a CLOSED position is answered POSITION_CLOSED. (R134 does not name the hold
phase, and this statement leaves it free: notes/assumptions/20.) -/
def Obligations.PromptClearEmptiesTheSlots : Prop :=
  (∀ (s : State) (tag : Byte) (p : Pos), s.takesRequests → (s.pos.get p).state = .opened →
    let removed := (if (s.pu.get p).slotA = none then 0 else 1) + (if (s.pu.get p).slotB = none then 0 else 1)
    ∃ t, exec (.promptClear tag (u8 p.val)) s = .next t ∧
      t = ({ s.received with pu := s.pu.modify p fun u =>
        { slotA := none, slotB := none, currentSlot := u.currentSlot, phase := (t.pu.get p).phase, holdTimer := .stopped,
          content := List.replicate 32 0x20, number := u.number + 1, dirty := true, cursor := 0,
          beep := u.beep } }).replied .promptClear tag (.ok (u8 removed)) ∧
      exec (.promptHoldExpiry p) t = .next t) ∧
  ∀ (s : State) (tag : Byte) (p : Pos), s.takesRequests → (s.pos.get p).state = .closed →
    exec (.promptClear tag (u8 p.val)) s = .next (s.refused .promptClear tag .positionClosed)

/-- BEEP and PROMPT_HOLD_EXPIRY (R131, R135): the beep replaces the one pending, which the reply carries; a due hold
timer switches to the queued prompt, or ends the current one and raises PROMPT_ENDED; one not due changes nothing
(notes/assumptions/4). -/
def Obligations.BeepAndHoldExpiryMoveThePrompt : Prop :=
  (∀ (s : State) (tag : Byte) (p : Pos) (b : Beep), s.takesRequests → b ≠ .none →
    exec (.beep tag (u8 p.val ++ u8 b.index)) s =
      .next (({ s.received with pu := s.pu.modify p fun u => { u with beep := b } }).replied .beep tag
        (.ok (u8 (s.pu.get p).beep.index)))) ∧
  (∀ (s : State) (tag bb : Byte) (p : Pos), s.takesRequests → (bb = 0 ∨ 2 < bb.toNat) →
    exec (.beep tag (u8 p.val ++ [bb])) s = .next (s.refused .beep tag .badValue)) ∧
  (∀ (s : State) (p : Pos) (pr : Prompt), (s.pu.get p).holdTimer = .running 0 → (s.pu.get p).other = some pr →
    exec (.promptHoldExpiry p) s = .next { s with pu := s.pu.modify p fun u => { u with
      slotA := match u.currentSlot with
        | .a => none
        | .b => some pr
      slotB := match u.currentSlot with
        | .a => some pr
        | .b => none
      currentSlot := match u.currentSlot with
        | .a => .b
        | .b => .a
      phase := .notStarted, holdTimer := .stopped, content := promptContent pr, number := u.number + 1,
      dirty := true, cursor := 0 } }) ∧
  (∀ (s : State) (p : Pos), (s.pu.get p).holdTimer = .running 0 → (s.pu.get p).other = none →
    (s.pos.get p).state = .opened → s.intakeRoom 1 →
    exec (.promptHoldExpiry p) s = .next { s with
      pu := s.pu.modify p fun u => { u with holdTimer := .stopped, phase := .ended }
      intake := { s.intake with entries := s.intake.entries ++ [⟨p, 0x3E, .synthetic, false⟩] } }) ∧
  (∀ (s : State) (p : Pos), (s.pu.get p).holdTimer = .running 0 → (s.pu.get p).other = none →
    (s.pos.get p).state = .opened → s.intake.free = 0 →
    exec (.promptHoldExpiry p) s = .next { s with
      pu := s.pu.modify p fun u => { u with holdTimer := .stopped, phase := .ended }
      intake := { s.intake with flags := s.intake.flags.modify p fun f => { f with promptEnded := true } } }) ∧
  ∀ (s : State) (p : Pos), (s.pu.get p).holdTimer ≠ .running 0 → exec (.promptHoldExpiry p) s = .next s

/-- The echo (R132, R133): writes at the cursor, the shift of a full field, the two writes of DOUBLE_ZERO with two cells
free, one or none, one new content number for each echo that writes, and BLANK_LAST; without a field, or for a code with
no display character, nothing is written. -/
def Obligations.EchoWritesTheField : Prop :=
  (∀ (u : PromptUnit) (pr : Prompt) (f : EchoField) (c : Code) (mask : Byte), u.current = some pr →
    pr.field = some f → u.cursor < f.width →
    let cell := 16 * f.line + f.column + u.cursor
    u.echo .mask c mask = { u with
      content := u.content.set cell mask, number := u.number + 1, dirty := true, cursor := u.cursor + 1 } ∧
    (c.val ≤ 9 → u.echo .char c mask = { u with
      content := u.content.set cell (BitVec.ofNat 8 (0x30 + c.val)), number := u.number + 1, dirty := true,
      cursor := u.cursor + 1 }) ∧
    (9 < c.val → c ≠ 0x0E → u.echo .char c mask = u)) ∧
  (∀ (u : PromptUnit) (pr : Prompt) (f : EchoField) (c : Code) (mask : Byte), u.current = some pr →
    pr.field = some f → u.cursor = f.width → 1 ≤ f.width → 16 * f.line + f.column + f.width ≤ u.content.length →
    let low := 16 * f.line + f.column
    (u.echo .mask c mask).content.length = u.content.length ∧ (u.echo .mask c mask).cursor = f.width ∧
    (u.echo .mask c mask).number = u.number + 1 ∧
    (∀ i, i < low ∨ low + f.width ≤ i → (u.echo .mask c mask).content[i]? = u.content[i]?) ∧
    (∀ i, low ≤ i → i + 1 < low + f.width → (u.echo .mask c mask).content[i]? = u.content[i + 1]?) ∧
    (u.echo .mask c mask).content[low + f.width - 1]? = some mask ∧
    (c.val ≤ 9 → u.echo .char c mask = u.echo .mask c (BitVec.ofNat 8 (0x30 + c.val))) ∧
    (9 < c.val → c ≠ 0x0E → u.echo .char c mask = u)) ∧
  (∀ (u : PromptUnit) (pr : Prompt) (f : EchoField) (mask : Byte) (free : Nat), u.current = some pr →
    pr.field = some f → u.cursor + free = f.width → free ≤ 1 → 1 ≤ f.width →
    16 * f.line + f.column + f.width ≤ u.content.length →
    let low := 16 * f.line + f.column
    let v := u.echo .char 0x0E mask
    v = { u with content := v.content, number := u.number + 1, dirty := true, cursor := f.width } ∧
    v.content.length = u.content.length ∧
    (∀ i, i < low ∨ low + f.width ≤ i → v.content[i]? = u.content[i]?) ∧
    (∀ i, low ≤ i → i + 2 < low + f.width → v.content[i]? = u.content[i + 2 - free]?) ∧
    (2 ≤ f.width → v.content[low + f.width - 2]? = some 0x30) ∧
    v.content[low + f.width - 1]? = some 0x30) ∧
  (∀ (u : PromptUnit) (pr : Prompt) (f : EchoField) (mask : Byte), u.current = some pr → pr.field = some f →
    u.cursor + 2 ≤ f.width →
    let cell := 16 * f.line + f.column + u.cursor
    u.echo .char 0x0E mask = { u with
      content := (u.content.set cell 0x30).set (cell + 1) 0x30, number := u.number + 1, dirty := true,
      cursor := u.cursor + 2 }) ∧
  (∀ (u : PromptUnit) (pr : Prompt) (f : EchoField) (c : Code) (mask : Byte), u.current = some pr →
    pr.field = some f →
    (u.cursor = 0 → u.echo .blankLast c mask = u) ∧
    (0 < u.cursor → u.echo .blankLast c mask = { u with
      content := u.content.set (16 * f.line + f.column + (u.cursor - 1)) 0x20, number := u.number + 1,
      dirty := true, cursor := u.cursor - 1 })) ∧
  ∀ (u : PromptUnit) (kind : Echo) (c : Code) (mask : Byte),
    (u.current = none ∨ (∃ pr, u.current = some pr ∧ pr.field = none) ∨ kind = .none) → u.echo kind c mask = u

/-! ### Card lines (chapter 9) -/

/-- CARD_FRAME_SENT and CARD_LINE_SYNC_BYTE (R137, R138, R141, R156, R160): the next frame begins to leave; an opening
frame goes out as POWER_ON, or as COMMAND with the command bytes given up, and is SENT; a presentation's is composed of
the header and the entry block as it begins to leave, or its exchange ends with ENTRY_GONE; a line left idle applies its
pending settings. (That EXCHANGE_DONE stands ahead of CARD_STATE there is the model's choice, notes/assumptions/7, and so
is that CARD_FRAME_SENT with no frame leaving changes nothing, notes/assumptions/4.) -/
def Obligations.FramesLeaveInTheirTurn : Prop :=
  (∀ (s : State) (p : Pos) (f : TxFrame), (s.line.get p).txLeaving = some f → (s.line.get p).txWaiting = [] →
    exec (.cardFrameSent p) s = .next { s with line := s.line.modify p fun l =>
      { l with
        txLeaving := none
        settings := if l.rx = .hunting ∧ s.inFlight p = false then l.pending.getD l.settings else l.settings
        pending := if l.rx = .hunting ∧ s.inFlight p = false then none else l.pending } }) ∧
  (∀ (s : State) (p : Pos) (f g : TxFrame) (rest : List TxFrame), (s.line.get p).txLeaving = some f →
    (s.line.get p).txWaiting = g :: rest → g ≠ .opening →
    exec (.cardFrameSent p) s = .next { s with line := s.line.modify p fun l =>
      { l with txLeaving := some g, txWaiting := rest } }) ∧
  (∀ (s : State) (p : Pos) (f : TxFrame) (rest : List TxFrame) (x : Exchange),
    (s.line.get p).txLeaving = some f → (s.line.get p).txWaiting = .opening :: rest → s.xs.get p = some x →
    x.kind = .power →
    exec (.cardFrameSent p) s = .next { s with
      line := s.line.modify p fun l => { l with txLeaving := some .powerOn, txWaiting := rest }
      xs := s.xs.set p (some { x with sent := true }) }) ∧
  (∀ (s : State) (p : Pos) (f : TxFrame) (rest : List TxFrame) (x : Exchange) (command : List Byte),
    (s.line.get p).txLeaving = some f → (s.line.get p).txWaiting = .opening :: rest → s.xs.get p = some x →
    x.kind = .command → x.command = some command →
    exec (.cardFrameSent p) s = .next { s with
      line := s.line.modify p fun l => { l with txLeaving := some (.command command), txWaiting := rest }
      xs := s.xs.set p (some { x with sent := true, command := none }) }) ∧
  (∀ (s : State) (p : Pos) (f : TxFrame) (rest : List TxFrame) (x : Exchange) (h : List Byte) (e : Entry),
    (s.line.get p).txLeaving = some f → (s.line.get p).txWaiting = .opening :: rest → s.xs.get p = some x →
    x.kind = .present → x.header = some h → s.entry.get p = some e → e.takenByPresent →
    exec (.cardFrameSent p) s = .next { s with
      line := s.line.modify p fun l =>
        { l with txLeaving := some (.command (h ++ entryBlock e.buffer)), txWaiting := rest }
      xs := s.xs.set p (some { x with sent := true, header := none })
      entry := s.entry.set p (some { e with presented := true }) }) ∧
  (∀ (s : State) (p : Pos) (f : TxFrame) (x : Exchange), (s.line.get p).txLeaving = some f →
    (s.line.get p).txWaiting = [.opening] → s.xs.get p = some x → x.kind = .present → x.phase = .awaiting →
    (∀ e, s.entry.get p = some e → ¬ e.takenByPresent) → s.slotsFree 2 →
    ∃ t, exec (.cardFrameSent p) s = .next t ∧ s.cardFrame t p ∧ t.intake = s.intake ∧ t.link = s.link ∧
      t.entry = s.entriesAfterEnd p .present ∧ t.xs.get p = none ∧ (t.line.get p).state = .ready ∧ (t.line.get p).frames = [] ∧
      t.oq.queue = s.oq.queue ++ [.notice (.exchangeDone p x.tag .present .entryGone none)] ++
        cardNotice p .ready (s.line.get p).presence (s.line.get p).cause (s.line.get p).changes) ∧
  (∀ (s : State) (p : Pos), (s.line.get p).txLeaving = none → exec (.cardFrameSent p) s = .next s) ∧
  (∀ (s : State) (p : Pos), (s.line.get p).rx = .hunting → exec (.cardLineSyncByte p) s =
    .next { s with line := s.line.modify p fun l => { l with rx := .receiving [] } }) ∧
  (∀ (s : State) (p : Pos) (got : List Byte), (s.line.get p).rx = .receiving got →
    frameEnds (got ++ [0x96]) = false → exec (.cardLineSyncByte p) s =
      .next { s with line := s.line.modify p fun l => { l with rx := .receiving (got ++ [0x96]) } }) ∧
  ∀ digits : List Code, digits.length ≤ 14 → (∀ c ∈ digits, c.val ≤ 9) →
    (entryBlock digits).length = 8 ∧ (entryBlock digits)[0]? = some (BitVec.ofNat 8 (0x20 + digits.length)) ∧
    ∀ i : Nat, i < 14 → ∃ b, (entryBlock digits)[1 + i / 2]? = some b ∧
      (if i % 2 = 0 then b.toNat / 16 else b.toNat % 16) = ((digits[i]?).map Fin.val).getD 15

/-- STATE_FRAME outside NO_READER (R139, R146, R149, R150): the whole table, row by row, for an OPEN position; for a
CLOSED one no code is entered. An exchange in flight that the row ends has its EXCHANGE_DONE queued ahead of the
CARD_STATE; a report that leaves the state changes nothing but what every valid frame does. -/
def Obligations.StateFrameFollowsTheTable : Prop :=
  (∀ (s : State) (p : Pos) (st st' : CardState) (r : ReaderCondition) (codes : List Code) (ends : Bool),
    (st, r, st', codes, ends) ∈ reportRows → (s.line.get p).state = st → (s.line.get p).fresh →
    (st = .releasing → r ≠ .empty → s.inFlight p = false) → s.slotsFree 2 → s.intakeRoom 2 →
    ∃ t, exec (.stateFrame p r) s = .next t ∧ s.cardFrame t p ∧ t.link = s.link ∧
      (s.line.get p).heard (t.line.get p) ∧ (t.line.get p).state = st' ∧ (t.line.get p).changes = 0 ∧
      (t.line.get p).cause = (if st = .fault then none else (s.line.get p).cause) ∧
      t.intake = { s.intake with entries := s.intake.entries ++
        (if (s.pos.get p).state = .opened then codes.map fun c => ⟨p, c, .synthetic, false⟩ else []) } ∧
      (s.inFlight p = false ∨ ends = false → t.xs = s.xs ∧ t.entry = s.entry ∧
        (t.line.get p).frames = (s.line.get p).frames ∧
        t.oq.queue = s.oq.queue ++
          cardNotice p st' (s.line.get p).presence (t.line.get p).cause (s.line.get p).changes) ∧
      ∀ x, s.xs.get p = some x → x.phase = .awaiting → ends = true →
        t.xs.get p = none ∧ t.entry = s.entriesAfterEnd p x.kind ∧
        (t.line.get p).frames = (s.line.get p).framesWithoutOpening ∧
        t.oq.queue = s.oq.queue ++ [.notice (.exchangeDone p x.tag x.kind .cardGone none)] ++
          cardNotice p st' (s.line.get p).presence (t.line.get p).cause (s.line.get p).changes) ∧
  ∀ (s : State) (p : Pos) (st : CardState) (r : ReaderCondition) (release : Bool), (st, r, release) ∈ idleReports →
    (s.line.get p).state = st → (s.line.get p).fresh →
    (release = true → ∃ x, s.xs.get p = some x ∧ x.phase = .awaiting ∧ x.kind = .release) →
    ∃ t, exec (.stateFrame p r) s = .next t ∧ t = { s with line := t.line } ∧
      (∀ q, q ≠ p → t.line.get q = s.line.get q) ∧ (s.line.get p).heard (t.line.get p) ∧
      (t.line.get p).state = st ∧ (t.line.get p).cause = (s.line.get p).cause ∧
      (t.line.get p).changes = (s.line.get p).changes ∧ (t.line.get p).frames = (s.line.get p).frames

/-- FAULT_FRAME, DONE_FRAME and UNLISTED_FRAME_KIND (R139, R145, R147, R148, R162, R187): a fault sets the cause and
ends an exchange in flight; a DONE makes a card that is being released PRESENTED; a frame the line has no use for is
counted in late frames. (The order of EXCHANGE_DONE and CARD_STATE there is the model's reading,
notes/assumptions/7.) -/
def Obligations.FaultDoneAndLateFrames : Prop :=
  (∀ (s : State) (p : Pos) (c : FaultCause), (s.line.get p).state ≠ .noReader → (s.line.get p).state ≠ .fault →
    (s.line.get p).fresh → s.slotsFree 2 →
    ∃ t, exec (.faultFrame p c) s = .next t ∧ s.cardFrame t p ∧ t.link = s.link ∧ t.intake = s.intake ∧
      (s.line.get p).heard (t.line.get p) ∧ (t.line.get p).state = .fault ∧ (t.line.get p).cause = some c ∧
      (t.line.get p).faults = min 65535 ((s.line.get p).faults + 1) ∧
      (s.inFlight p = false → t.xs = s.xs ∧ t.entry = s.entry ∧ t.oq.queue = s.oq.queue ++
        cardNotice p .fault (s.line.get p).presence (some c) (s.line.get p).changes) ∧
      ∀ x, s.xs.get p = some x → x.phase = .awaiting → t.xs.get p = none ∧ t.entry = s.entriesAfterEnd p x.kind ∧
        (t.line.get p).frames = (s.line.get p).framesWithoutOpening ∧
        t.oq.queue = s.oq.queue ++ [.notice (.exchangeDone p x.tag x.kind .readerFault none)] ++
          cardNotice p .fault (s.line.get p).presence (some c) (s.line.get p).changes) ∧
  (∀ (s : State) (p : Pos) (c : FaultCause), (s.line.get p).state = .fault → (s.line.get p).fresh →
    ∃ t, exec (.faultFrame p c) s = .next t ∧ t = { s with line := t.line } ∧
      (∀ q, q ≠ p → t.line.get q = s.line.get q) ∧ (s.line.get p).heard (t.line.get p) ∧
      (t.line.get p).state = .fault ∧ (t.line.get p).cause = some c ∧
      (t.line.get p).faults = min 65535 ((s.line.get p).faults + 1)) ∧
  (∀ (s : State) (p : Pos), (s.line.get p).state = .releasing → (s.line.get p).fresh → s.slotsFree 2 →
    ∃ t, exec (.doneFrame p) s = .next t ∧ s.cardFrame t p ∧ t.link = s.link ∧ t.intake = s.intake ∧
      t.entry = s.entry ∧ (s.line.get p).heard (t.line.get p) ∧ (t.line.get p).state = .presented ∧
      (s.inFlight p = false → t.xs = s.xs ∧ t.oq.queue = s.oq.queue ++
        cardNotice p .presented (s.line.get p).presence (s.line.get p).cause (s.line.get p).changes) ∧
      ∀ x, s.xs.get p = some x → x.phase = .awaiting → x.kind = .release → t.xs.get p = none ∧
        t.oq.queue = s.oq.queue ++
          cardNotice p .presented (s.line.get p).presence (s.line.get p).cause (s.line.get p).changes ++
          [.notice (.exchangeDone p x.tag .release .done none)]) ∧
  ∀ (s : State) (p : Pos) (c : Instr), c.wellFormed = true → (s.line.get p).fresh →
    ((c = .doneFrame p ∧ (s.line.get p).state ≠ .releasing ∧ (s.line.get p).state ≠ .noReader) ∨
      ((∃ k payload, c = .unlistedFrameKind p k payload) ∧ (s.line.get p).state ≠ .noReader) →
      ∃ t, exec c s = .next t ∧ t = { s with line := t.line } ∧
        (∀ q, q ≠ p → t.line.get q = s.line.get q) ∧ (s.line.get p).heard (t.line.get p) ∧
        (t.line.get p).state = (s.line.get p).state ∧ (t.line.get p).cause = (s.line.get p).cause ∧
        (t.line.get p).lateFrames = min 65535 ((s.line.get p).lateFrames + 1)) ∧
    (((∃ k, c = .faultFrame p k) ∨ c = .doneFrame p ∨ (∃ payload, c = .answerFrame p payload) ∨
        (∃ payload, c = .responseFrame p payload) ∨ ∃ k payload, c = .unlistedFrameKind p k payload) →
      (s.line.get p).state = .noReader →
      ∃ t, exec c s = .next t ∧ t = { s with line := t.line } ∧
        (∀ q, q ≠ p → t.line.get q = s.line.get q) ∧ (t.line.get p).state = .noReader ∧
        (t.line.get p).misses = 0 ∧ (t.line.get p).checkFails = 0 ∧
        (t.line.get p).silenceTimer = (s.line.get p).silenceTimer ∧
        (t.line.get p).noReaderTimer = (s.line.get p).noReaderTimer ∧
        (t.line.get p).lateFrames = min 65535 ((s.line.get p).lateFrames + 1))

/-- FAILING_FRAME and an abandoned frame (R138, R139, R142 to R144, R165): outside an exchange the consecutive failures
are counted and the third loses the line; within one the first asks for a REPEAT and the second ends it with LINE_ERROR;
a frame being received as a line timer expires fails first, and the expiry's own effects follow, also when that failure
is the third or meets an exchange in flight: a HELLO outstanding is a miss all the same, and the third loses the line. (The order of EXCHANGE_DONE and CARD_STATE is the model's
reading, notes/assumptions/7; that such a line posts one CARD_STATE and sends no HELLO at the silence expiry,
notes/assumptions/9; that a frame's command brings its bytes, notes/assumptions/5.) -/
def Obligations.FailingFramesAreCounted : Prop :=
  (∀ (s : State) (p : Pos) (bytes : List Byte), (Instr.failingFrame p bytes).wellFormed = true →
    (s.line.get p).fresh → s.inFlight p = false →
    ((s.line.get p).checkFails < 2 ∨ (s.line.get p).state = .noReader) →
    ∃ t, exec (.failingFrame p bytes) s = .next t ∧ t = { s with line := t.line } ∧
      (∀ q, q ≠ p → t.line.get q = s.line.get q) ∧ (t.line.get p).state = (s.line.get p).state ∧
      (t.line.get p).rx = .hunting ∧ (t.line.get p).misses = (s.line.get p).misses ∧
      (t.line.get p).helloOut = (s.line.get p).helloOut ∧
      (t.line.get p).checkErrors = min 65535 ((s.line.get p).checkErrors + 1) ∧
      (t.line.get p).checkFails = min 3 ((s.line.get p).checkFails + 1) ∧
      (t.line.get p).silenceTimer = (if (s.line.get p).state = .noReader ∨ (s.line.get p).helloOut = true
        then (s.line.get p).silenceTimer else .running 500)) ∧
  (∀ (s : State) (p : Pos) (bytes : List Byte), (Instr.failingFrame p bytes).wellFormed = true →
    (s.line.get p).fresh → s.inFlight p = false → 2 ≤ (s.line.get p).checkFails →
    (s.line.get p).state ≠ .noReader → s.slotsFree 1 →
    ∃ t, exec (.failingFrame p bytes) s = .next t ∧ s.cardFrame t p ∧ t.link = s.link ∧ t.intake = s.intake ∧
      t.xs = s.xs ∧ t.entry = s.entry ∧ (s.line.get p).lostAs (t.line.get p) ∧
      (t.line.get p).frames = (s.line.get p).frames ∧
      t.oq.queue = s.oq.queue ++ cardNotice p .noReader .lost none (s.line.get p).changes) ∧
  (∀ (s : State) (p : Pos) (bytes : List Byte) (x : Exchange), (Instr.failingFrame p bytes).wellFormed = true →
    (s.line.get p).fresh → s.xs.get p = some x → x.phase = .awaiting → x.repeatUsed = false → (s.line.get p).flows →
    ∃ t, exec (.failingFrame p bytes) s = .next t ∧ s.cardFrame t p ∧ t.link = s.link ∧ t.intake = s.intake ∧
      t.oq = s.oq ∧ t.entry = s.entry ∧ t.xs = s.xs.set p (some { x with repeatUsed := true }) ∧
      (t.line.get p).frames = (s.line.get p).frames ++ [.askRepeat] ∧
      (t.line.get p).state = (s.line.get p).state ∧ (t.line.get p).checkFails = (s.line.get p).checkFails ∧
      (t.line.get p).checkErrors = min 65535 ((s.line.get p).checkErrors + 1)) ∧
  (∀ (s : State) (p : Pos) (bytes : List Byte) (x : Exchange), (Instr.failingFrame p bytes).wellFormed = true →
    (s.line.get p).fresh → s.xs.get p = some x → x.phase = .awaiting → x.repeatUsed = true → (s.line.get p).flows →
    s.slotsFree 2 →
    ∃ t, exec (.failingFrame p bytes) s = .next t ∧ s.cardFrame t p ∧ t.link = s.link ∧ t.intake = s.intake ∧
      t.xs.get p = none ∧ t.entry = s.entriesAfterEnd p x.kind ∧
      (x.kind ≠ .release → (t.line.get p).state = .seated ∧
        (t.line.get p).frames = (s.line.get p).framesWithoutOpening ++ [.powerOff] ∧
        t.oq.queue = s.oq.queue ++ cardNotice p .seated (s.line.get p).presence (s.line.get p).cause
          (s.line.get p).changes ++ [.notice (.exchangeDone p x.tag x.kind .lineError none)]) ∧
      (x.kind = .release → (t.line.get p).state = (s.line.get p).state ∧
        (t.line.get p).frames = (s.line.get p).framesWithoutOpening ∧
        t.oq.queue = s.oq.queue ++ [.notice (.exchangeDone p x.tag .release .lineError none)])) ∧
  (∀ (s : State) (p : Pos) (got : List Byte), (s.line.get p).rx = .receiving got → s.inFlight p = false →
    (s.line.get p).checkFails < 2 →
    (s.line.get p).state ≠ .noReader → (s.line.get p).flows →
    ((s.line.get p).silenceTimer = .running 0 → (s.line.get p).helloOut = false →
      ∃ t, exec (.lineSilenceExpiry p) s = .next t ∧ t = { s with line := t.line } ∧
        (∀ q, q ≠ p → t.line.get q = s.line.get q) ∧
        (t.line.get p).rx = .hunting ∧ (t.line.get p).checkFails = (s.line.get p).checkFails + 1 ∧
        (t.line.get p).checkErrors = min 65535 ((s.line.get p).checkErrors + 1) ∧
        (t.line.get p).helloOut = true ∧ (t.line.get p).helloTimer = .running 200 ∧
        (t.line.get p).silenceTimer = .stopped ∧ (t.line.get p).frames = (s.line.get p).frames ++ [.hello]) ∧
    ((s.line.get p).helloTimer = .running 0 → (s.line.get p).helloOut = true → (s.line.get p).misses < 2 →
      ∃ t, exec (.helloAnswerExpiry p) s = .next t ∧ t = { s with line := t.line } ∧
        (∀ q, q ≠ p → t.line.get q = s.line.get q) ∧
        (t.line.get p).rx = .hunting ∧ (t.line.get p).checkFails = (s.line.get p).checkFails + 1 ∧
        (t.line.get p).checkErrors = min 65535 ((s.line.get p).checkErrors + 1) ∧
        (t.line.get p).misses = (s.line.get p).misses + 1 ∧ (t.line.get p).helloOut = false ∧
        (t.line.get p).silenceTimer = .running 500) ∧
    ((s.line.get p).helloTimer = .running 0 → (s.line.get p).helloOut = true → 2 ≤ (s.line.get p).misses →
      s.slotsFree 1 →
      ∃ t, exec (.helloAnswerExpiry p) s = .next t ∧ s.cardFrame t p ∧ t.link = s.link ∧ t.intake = s.intake ∧
        t.xs = s.xs ∧ t.entry = s.entry ∧ (s.line.get p).lostAs (t.line.get p) ∧ (t.line.get p).rx = .hunting ∧
        (t.line.get p).misses = 3 ∧ (t.line.get p).helloOut = false ∧
        (t.line.get p).checkFails = (s.line.get p).checkFails + 1 ∧
        (t.line.get p).checkErrors = min 65535 ((s.line.get p).checkErrors + 1) ∧
        (t.line.get p).frames = (s.line.get p).frames ∧
        t.oq.queue = s.oq.queue ++ cardNotice p .noReader .lost none (s.line.get p).changes)) ∧
  (∀ (s : State) (p : Pos) (got : List Byte), (s.line.get p).rx = .receiving got → s.inFlight p = false →
    (s.line.get p).state = .noReader → (s.line.get p).noReaderTimer = .running 0 → (s.line.get p).flows →
    ∃ t, exec (.noReaderHelloExpiry p) s = .next t ∧ t = { s with line := t.line } ∧
      (∀ q, q ≠ p → t.line.get q = s.line.get q) ∧ (t.line.get p).state = .noReader ∧
      (t.line.get p).rx = .hunting ∧ (t.line.get p).checkFails = min 3 ((s.line.get p).checkFails + 1) ∧
      (t.line.get p).checkErrors = min 65535 ((s.line.get p).checkErrors + 1) ∧
      (t.line.get p).misses = (s.line.get p).misses ∧ (t.line.get p).helloOut = (s.line.get p).helloOut ∧
      (t.line.get p).silenceTimer = (s.line.get p).silenceTimer ∧ (t.line.get p).noReaderTimer = .running 2000 ∧
      (t.line.get p).frames = (s.line.get p).frames ++ [.hello]) ∧
  (∀ (s : State) (p : Pos) (got : List Byte) (x : Exchange), (s.line.get p).rx = .receiving got →
    s.xs.get p = some x → x.phase = .awaiting → x.repeatUsed = false → (s.line.get p).state ≠ .noReader →
    (s.line.get p).flows →
    ((s.line.get p).silenceTimer = .running 0 → (s.line.get p).helloOut = false →
      ∃ t, exec (.lineSilenceExpiry p) s = .next t ∧ s.abandonedOnce t p ∧ t.oq = s.oq ∧ t.entry = s.entry ∧
        t.xs = s.xs.set p (some { x with repeatUsed := true }) ∧ (t.line.get p).state = (s.line.get p).state ∧
        (t.line.get p).frames = (s.line.get p).frames ++ [.askRepeat] ∧
        (t.line.get p).misses = (s.line.get p).misses ∧ (t.line.get p).helloOut = false ∧
        (t.line.get p).silenceTimer = .running 500) ∧
    ((s.line.get p).helloTimer = .running 0 → (s.line.get p).helloOut = true → (s.line.get p).misses < 2 →
      ∃ t, exec (.helloAnswerExpiry p) s = .next t ∧ s.abandonedOnce t p ∧ t.oq = s.oq ∧ t.entry = s.entry ∧
        t.xs = s.xs.set p (some { x with repeatUsed := true }) ∧ (t.line.get p).state = (s.line.get p).state ∧
        (t.line.get p).frames = (s.line.get p).frames ++ [.askRepeat] ∧
        (t.line.get p).misses = (s.line.get p).misses + 1 ∧ (t.line.get p).helloOut = false ∧
        (t.line.get p).silenceTimer = .running 500) ∧
    ((s.line.get p).helloTimer = .running 0 → (s.line.get p).helloOut = true → 2 ≤ (s.line.get p).misses →
      s.slotsFree 2 →
      ∃ t, exec (.helloAnswerExpiry p) s = .next t ∧ s.abandonedOnce t p ∧ t.entry = s.entriesAfterEnd p x.kind ∧
        t.xs.get p = none ∧ (s.line.get p).lostAs (t.line.get p) ∧
        (t.line.get p).frames = (s.line.get p).framesWithoutOpening ++ [.askRepeat] ∧
        (t.line.get p).misses = 3 ∧ (t.line.get p).helloOut = false ∧
        t.oq.queue = s.oq.queue ++ [.notice (.exchangeDone p x.tag x.kind .lineError none)] ++
          cardNotice p .noReader .lost none (s.line.get p).changes)) ∧
  (∀ (s : State) (p : Pos) (got : List Byte) (x : Exchange), (s.line.get p).rx = .receiving got →
    s.xs.get p = some x → x.phase = .awaiting → x.repeatUsed = true → (s.line.get p).state ≠ .noReader →
    (s.line.get p).flows →
    let seats := x.kind ≠ .release
    let moved := if seats then CardState.seated else (s.line.get p).state
    let asked := (s.line.get p).framesWithoutOpening ++ (if seats then [.powerOff] else [])
    let ends := (if seats then cardNotice p .seated (s.line.get p).presence (s.line.get p).cause
        (s.line.get p).changes else []) ++ [.notice (.exchangeDone p x.tag x.kind .lineError none)]
    ((s.line.get p).silenceTimer = .running 0 → (s.line.get p).helloOut = false → s.slotsFree 2 →
      ∃ t, exec (.lineSilenceExpiry p) s = .next t ∧ s.abandonedOnce t p ∧ t.entry = s.entriesAfterEnd p x.kind ∧
        t.xs.get p = none ∧ (t.line.get p).state = moved ∧ (t.line.get p).frames = asked ++ [.hello] ∧
        (t.line.get p).misses = (s.line.get p).misses ∧ (t.line.get p).helloOut = true ∧
        (t.line.get p).helloTimer = .running 200 ∧ (t.line.get p).silenceTimer = .stopped ∧
        t.oq.queue = s.oq.queue ++ ends) ∧
    ((s.line.get p).helloTimer = .running 0 → (s.line.get p).helloOut = true → (s.line.get p).misses < 2 →
      s.slotsFree 2 →
      ∃ t, exec (.helloAnswerExpiry p) s = .next t ∧ s.abandonedOnce t p ∧ t.entry = s.entriesAfterEnd p x.kind ∧
        t.xs.get p = none ∧ (t.line.get p).state = moved ∧ (t.line.get p).frames = asked ∧
        (t.line.get p).misses = (s.line.get p).misses + 1 ∧ (t.line.get p).helloOut = false ∧
        (t.line.get p).silenceTimer = .running 500 ∧ t.oq.queue = s.oq.queue ++ ends) ∧
    ((s.line.get p).helloTimer = .running 0 → (s.line.get p).helloOut = true → 2 ≤ (s.line.get p).misses →
      s.slotsFree 3 →
      ∃ t, exec (.helloAnswerExpiry p) s = .next t ∧ s.abandonedOnce t p ∧ t.entry = s.entriesAfterEnd p x.kind ∧
        t.xs.get p = none ∧ CardLine.lostAs { s.line.get p with state := moved } (t.line.get p) ∧
        (t.line.get p).frames = asked ∧ (t.line.get p).misses = 3 ∧ (t.line.get p).helloOut = false ∧
        t.oq.queue = s.oq.queue ++ ends ++
          cardNotice p .noReader .lost none (if seats then 0 else (s.line.get p).changes))) ∧
  ∀ (s : State) (p : Pos) (got : List Byte), (s.line.get p).rx = .receiving got → s.inFlight p = false →
    2 ≤ (s.line.get p).checkFails → (s.line.get p).state ≠ .noReader → s.slotsFree 1 →
    ((s.line.get p).helloTimer = .running 0 → (s.line.get p).helloOut = true →
      ∃ t, exec (.helloAnswerExpiry p) s = .next t ∧ s.cardFrame t p ∧ t.link = s.link ∧ t.intake = s.intake ∧
        t.xs = s.xs ∧ t.entry = s.entry ∧ (s.line.get p).lostAs (t.line.get p) ∧ (t.line.get p).rx = .hunting ∧
        (t.line.get p).misses = min 3 ((s.line.get p).misses + 1) ∧ (t.line.get p).helloOut = false ∧
        (t.line.get p).checkErrors = min 65535 ((s.line.get p).checkErrors + 1) ∧
        (t.line.get p).frames = (s.line.get p).frames ∧
        t.oq.queue = s.oq.queue ++ cardNotice p .noReader .lost none (s.line.get p).changes) ∧
    ((s.line.get p).silenceTimer = .running 0 →
      ∃ t, exec (.lineSilenceExpiry p) s = .next t ∧ s.cardFrame t p ∧ t.link = s.link ∧ t.intake = s.intake ∧
        t.xs = s.xs ∧ t.entry = s.entry ∧ (s.line.get p).lostAs (t.line.get p) ∧ (t.line.get p).rx = .hunting ∧
        (t.line.get p).misses = (s.line.get p).misses ∧ (t.line.get p).helloOut = (s.line.get p).helloOut ∧
        (t.line.get p).checkErrors = min 65535 ((s.line.get p).checkErrors + 1) ∧
        (t.line.get p).frames = (s.line.get p).frames ∧
        t.oq.queue = s.oq.queue ++ cardNotice p .noReader .lost none (s.line.get p).changes)

/-- The line timers and the restoration of a line (R137, R142 to R145): HELLO after silence and its answer timer, the
miss, the loss at the third, the periodic HELLOs of NO_READER, and the STATE frame that ends NO_READER; a timer that is
not due changes nothing (notes/assumptions/4). (EXCHANGE_DONE ahead of CARD_STATE at a loss is the model's reading,
notes/assumptions/7.) -/
def Obligations.HeartbeatLosesAndRestoresTheLine : Prop :=
  (∀ (s : State) (p : Pos), (s.line.get p).silenceTimer = .running 0 → (s.line.get p).rx = .hunting →
    (s.line.get p).state ≠ .noReader → (s.line.get p).flows →
    (s.inFlight p = true → ∃ t, exec (.lineSilenceExpiry p) s = .next t ∧ t = { s with line := t.line } ∧
      (∀ q, q ≠ p → t.line.get q = s.line.get q) ∧
      t.line.get p = { s.line.get p with silenceTimer := .running 500 }) ∧
    (s.inFlight p = false →
      ∃ t, exec (.lineSilenceExpiry p) s = .next t ∧ t = { s with line := t.line } ∧
      (∀ q, q ≠ p → t.line.get q = s.line.get q) ∧ (t.line.get p).frames = (s.line.get p).frames ++ [.hello] ∧
      (t.line.get p).helloOut = true ∧ (t.line.get p).helloTimer = .running 200 ∧
      (t.line.get p).silenceTimer = .stopped ∧ (t.line.get p).state = (s.line.get p).state)) ∧
  (∀ (s : State) (p : Pos), (s.line.get p).helloTimer = .running 0 → (s.line.get p).helloOut = true →
    (s.line.get p).rx = .hunting → (s.line.get p).state ≠ .noReader → (s.line.get p).misses < 2 →
    ∃ t, exec (.helloAnswerExpiry p) s = .next t ∧ t = { s with line := t.line } ∧
      (∀ q, q ≠ p → t.line.get q = s.line.get q) ∧ (t.line.get p).misses = (s.line.get p).misses + 1 ∧
      (t.line.get p).helloOut = false ∧ (t.line.get p).helloTimer = .stopped ∧
      (t.line.get p).silenceTimer = .running 500 ∧ (t.line.get p).state = (s.line.get p).state) ∧
  (∀ (s : State) (p : Pos), (s.line.get p).helloTimer = .running 0 → (s.line.get p).helloOut = true →
    (s.line.get p).rx = .hunting → (s.line.get p).state ≠ .noReader → 2 ≤ (s.line.get p).misses →
    s.slotsFree 2 →
    ∃ t, exec (.helloAnswerExpiry p) s = .next t ∧ s.cardFrame t p ∧ t.link = s.link ∧ t.intake = s.intake ∧
      (s.line.get p).lostAs (t.line.get p) ∧ (t.line.get p).misses = 3 ∧ (t.line.get p).helloOut = false ∧
      (s.inFlight p = false → t.xs = s.xs ∧ t.entry = s.entry ∧
        t.oq.queue = s.oq.queue ++ cardNotice p .noReader .lost none (s.line.get p).changes) ∧
      ∀ x, s.xs.get p = some x → x.phase = .awaiting → t.xs.get p = none ∧ t.entry = s.entriesAfterEnd p x.kind ∧
        t.oq.queue = s.oq.queue ++ [.notice (.exchangeDone p x.tag x.kind .lineError none)] ++
          cardNotice p .noReader .lost none (s.line.get p).changes) ∧
  (∀ (s : State) (p : Pos), (s.line.get p).noReaderTimer = .running 0 → (s.line.get p).rx = .hunting →
    (s.line.get p).flows →
    ∃ t, exec (.noReaderHelloExpiry p) s = .next t ∧ t = { s with line := t.line } ∧
      (∀ q, q ≠ p → t.line.get q = s.line.get q) ∧ (t.line.get p).frames = (s.line.get p).frames ++ [.hello] ∧
      (t.line.get p).noReaderTimer = .running 2000 ∧ (t.line.get p).misses = (s.line.get p).misses ∧
      (t.line.get p).helloOut = (s.line.get p).helloOut ∧ (t.line.get p).state = (s.line.get p).state) ∧
  (∀ (s : State) (p : Pos) (r : ReaderCondition), (s.line.get p).state = .noReader → (s.line.get p).flows →
    (s.line.get p).fresh → s.slotsFree 1 → s.xs.get p = none →
    let st : CardState := match r with
      | .empty => .empty
      | .throat => .throat
      | .seated => .seated
    ∃ t, exec (.stateFrame p r) s = .next t ∧ s.cardFrame t p ∧ t.link = s.link ∧ t.intake = s.intake ∧
      t.xs = s.xs ∧ t.entry = s.entry ∧ (t.line.get p).state = st ∧ (t.line.get p).presence = .present ∧
      (t.line.get p).powerUnknown = false ∧ (t.line.get p).noReaderTimer = .stopped ∧
      (t.line.get p).silenceTimer = .running 500 ∧ (t.line.get p).misses = 0 ∧ (t.line.get p).checkFails = 0 ∧
      (t.line.get p).frames =
        (s.line.get p).frames ++ (if (s.line.get p).powerUnknown then [.powerOff] else []) ∧
      t.oq.queue = s.oq.queue ++ cardNotice p st .present (s.line.get p).cause (s.line.get p).changes) ∧
  ∀ (s : State) (p : Pos),
    ((s.line.get p).silenceTimer ≠ .running 0 → exec (.lineSilenceExpiry p) s = .next s) ∧
    ((s.line.get p).helloTimer ≠ .running 0 → exec (.helloAnswerExpiry p) s = .next s) ∧
    ((s.line.get p).noReaderTimer ≠ .running 0 → exec (.noReaderHelloExpiry p) s = .next s)

/-! ### Card exchanges (chapter 10) -/

/-- CARD_POWER, CARD_EXCHANGE and CARD_PRESENT (R155 to R160): the record, the frame, the card state and its
CARD_STATE, the clamped timeout and the reply. (The length byte ahead of the header is the model's reading of R186,
notes/assumptions/8.) -/
def Obligations.CardRequestsStartExchanges : Prop :=
  (∀ (s : State) (tag : Byte) (p : Pos), s.takesRequests → (s.pos.get p).state = .opened → s.xs.get p = none →
    (s.line.get p).state = .seated → (s.line.get p).flows → s.slotsFree 1 →
    let loaded := (s.line.get p).settings.timeout
    ∃ t, exec (.cardPower tag (u8 p.val)) s = .next t ∧
      exchangeStarts s t p .power .powering tag [] [] [] loaded ∧
      t.oq.queue = s.oq.queue ++
        cardNotice p .powering (s.line.get p).presence (s.line.get p).cause (s.line.get p).changes ++
        [.reply .cardPower tag (.ok (u8 0 ++ u16 loaded))]) ∧
  (∀ (s : State) (tag : Byte) (p : Pos) (command : List Byte) (timeout : Nat), s.takesRequests →
    (s.pos.get p).state = .opened → s.xs.get p = none → (s.line.get p).state = .ready → (s.line.get p).flows →
    s.slotsFree 1 → 1 ≤ command.length → command.length ≤ 240 → timeout < 65536 →
    let loaded := max 100 (min 30000 timeout)
    ∃ t, exec (.cardExchange tag (u8 p.val ++ command ++ u16 timeout)) s = .next t ∧
      exchangeStarts s t p .command .exchanging tag command [] [] loaded ∧
      t.oq.queue = s.oq.queue ++
        cardNotice p .exchanging (s.line.get p).presence (s.line.get p).cause (s.line.get p).changes ++
        [.reply .cardExchange tag (.stored (decide (timeout < 100 ∨ 30000 < timeout)) (u8 1 ++ u16 loaded))]) ∧
  ∀ (s : State) (tag : Byte) (p : Pos) (header : List Byte) (timeout : Nat) (e : Entry), s.takesRequests →
    (s.pos.get p).state = .opened → s.xs.get p = none → (s.line.get p).state = .ready → (s.line.get p).flows →
    s.slotsFree 1 → header.length = 4 → timeout < 65536 → s.entry.get p = some e → e.takenByPresent →
    let loaded := max 100 (min 30000 timeout)
    ∃ t, exec (.cardPresent tag (u8 p.val ++ byteString header ++ u16 timeout)) s = .next t ∧
      exchangeStarts s t p .present .exchanging tag [] header e.buffer loaded ∧
      t.oq.queue = s.oq.queue ++
        cardNotice p .exchanging (s.line.get p).presence (s.line.get p).cause (s.line.get p).changes ++
        [.reply .cardPresent tag (.stored (decide (timeout < 100 ∨ 30000 < timeout))
          (u8 2 ++ u16 loaded ++ u8 e.buffer.length))]

/-- The refusals of the card requests (R155, R159, R161), in the order of the checks. (The length byte ahead of the
header, and BAD_RECORD for a header of another length, are the model's reading of R186, notes/assumptions/8.) -/
def Obligations.CardRequestsAreRefusedInOrder : Prop :=
  ∀ (s : State) (tag : Byte) (p : Pos) (command header : List Byte) (timeout : Nat), s.takesRequests →
    1 ≤ command.length → command.length ≤ 240 → header.length = 4 → timeout < 65536 →
    let power : Request := ⟨.cardPower, tag, u8 p.val⟩
    let exchange : Request := ⟨.cardExchange, tag, u8 p.val ++ command ++ u16 timeout⟩
    let present : Request := ⟨.cardPresent, tag, u8 p.val ++ byteString header ++ u16 timeout⟩
    let release : Request := ⟨.cardRelease, tag, u8 p.val⟩
    (s.xs.get p ≠ none → ∀ r ∈ [power, exchange, present, release],
      exec r.command s = .next (s.refused r.kind tag .busy)) ∧
    (s.xs.get p = none → (s.pos.get p).state = .closed → ∀ r ∈ [power, exchange, present],
      exec r.command s = .next (s.refused r.kind tag .positionClosed)) ∧
    (s.xs.get p = none → (s.pos.get p).state = .opened →
      ((s.line.get p).state ≠ .seated → exec power.command s = .next (s.refused .cardPower tag .notReady)) ∧
      ((s.line.get p).state ≠ .ready → exec exchange.command s = .next (s.refused .cardExchange tag .notReady) ∧
        exec present.command s = .next (s.refused .cardPresent tag .notReady))) ∧
    (s.xs.get p = none → (s.line.get p).state ∉ [.throat, .seated, .ready, .fault] →
      exec release.command s = .next (s.refused .cardRelease tag .notReady)) ∧
    (s.xs.get p = none → (s.pos.get p).state = .opened → (s.line.get p).state = .ready →
      (s.entry.get p = none ∨ s.entryCollecting p = true →
        exec present.command s = .next (s.refused .cardPresent tag .noEntry)) ∧
      ∀ e, s.entry.get p = some e → e.state = .complete →
        ((e.secret = false ∨ e.buffer.length < 4 ∨ 12 < e.buffer.length) →
          exec present.command s = .next (s.refused .cardPresent tag .entryLength)) ∧
        (e.secret = true → 4 ≤ e.buffer.length → e.buffer.length ≤ 12 → (∃ c ∈ e.buffer, 9 < c.val) →
          exec present.command s = .next (s.refused .cardPresent tag .notDigits))) ∧
    (exec (.cardExchange tag (u8 p.val ++ u16 timeout)) s = .next (s.refused .cardExchange tag .badRecord) ∧
      ∀ h : List Byte, h.length ≠ 4 → h.length ≤ 246 →
        exec (.cardPresent tag (u8 p.val ++ byteString h ++ u16 timeout)) s =
          .next (s.refused .cardPresent tag .badRecord))

/-- CARD_RELEASE and CARD_ABORT (R161, R167, R168): the release in either position state, with POWER_OFF ahead of EJECT
for a powered card; the abort of each kind of exchange, which posts no EXCHANGE_DONE. (0xFF for the wipe field of an
exchange that is no presentation is the model's reading, notes/assumptions/8.) -/
def Obligations.ReleaseEjectsAndAbortEndsTheExchange : Prop :=
  (∀ (s : State) (tag : Byte) (p : Pos), s.takesRequests → s.xs.get p = none →
    (s.line.get p).state ∈ [.throat, .seated, .ready, .fault] → (s.line.get p).flows → s.slotsFree 1 →
    ∃ t, exec (.cardRelease tag (u8 p.val)) s = .next t ∧ s.cardFrame t p ∧ t.intake = s.intake ∧
      t.entry = s.entry ∧ t.link = { s.link with rx := .hunting, armed := false } ∧
      t.xs.get p = some
        { kind := .release, tag := tag, phase := .awaiting, sent := false, command := none, header := none,
          timer := .running 30000, repeatUsed := false } ∧
      (t.line.get p).state = .releasing ∧ (t.line.get p).cause = none ∧ (t.line.get p).changes = 0 ∧
      (t.line.get p).frames =
        (s.line.get p).frames ++ (if (s.line.get p).state = .ready then [.powerOff, .eject] else [.eject]) ∧
      t.oq.queue = s.oq.queue ++
        cardNotice p .releasing (s.line.get p).presence none (s.line.get p).changes ++
        [.reply .cardRelease tag (.ok (u8 3 ++ u16 30000))]) ∧
  (∀ (s : State) (tag : Byte) (p : Pos) (x : Exchange), s.takesRequests → s.xs.get p = some x →
    x.phase = .awaiting → (s.line.get p).flows → s.slotsFree 1 →
    ∃ t, exec (.cardAbort tag (u8 p.val)) s = .next t ∧ s.cardFrame t p ∧ t.intake = s.intake ∧
      t.link = { s.link with rx := .hunting, armed := false } ∧ t.xs.get p = none ∧
      t.entry = s.entriesAfterEnd p x.kind ∧
      (x.kind = .release → (t.line.get p).state = (s.line.get p).state ∧
        (t.line.get p).frames = (s.line.get p).frames ∧
        t.oq.queue = s.oq.queue ++ [.reply .cardAbort tag (.ok [3, 0, 0xFF])]) ∧
      (x.kind ≠ .release → (t.line.get p).state = .seated ∧
        (t.line.get p).frames = (s.line.get p).framesWithoutOpening ++ [.powerOff] ∧
        t.oq.queue = s.oq.queue ++
          cardNotice p .seated (s.line.get p).presence (s.line.get p).cause (s.line.get p).changes ++
          [.reply .cardAbort tag (.ok (u8 x.kind.index ++ yesNo true ++
            (if x.kind = .present then
              yesNo (match s.entry.get p with
                | none => false
                | some e => e.presented)
             else [0xFF])))])) ∧
  (∀ (s : State) (tag : Byte) (p : Pos), s.takesRequests → s.xs.get p = none →
    exec (.cardAbort tag (u8 p.val)) s = .next (s.refused .cardAbort tag .noExchange)) ∧
  ∀ (s : State) (tag : Byte) (p : Pos) (x : Exchange), s.takesRequests → s.xs.get p = some x →
    x.phase ≠ .awaiting → exec (.cardAbort tag (u8 p.val)) s = .next (s.refused .cardAbort tag .wrongState)

/-- The ends of an exchange by its frame and by its timer (R162, R163, R165 to R167), outside NO_READER: the awaited
frame ends it with its data, queued with a slot free and held without; a frame not awaited, ahead of its command, or with
no record or one in RESULT_HELD, is late; one of wrong length asks for a REPEAT, and with the REPEAT used ends the
exchange with LINE_ERROR. A due timer ends it with NO_RESPONSE, with POWER_OFF and the card SEATED but for a release; one
that is not due changes nothing (notes/assumptions/4). (CARD_STATE ahead of EXCHANGE_DONE there is the model's reading,
notes/assumptions/7, and so is that a wrong length ahead of the command is late, notes/assumptions/11.) -/
def Obligations.FramesAndTimeoutsEndExchanges : Prop :=
  (∀ (s : State) (p : Pos) (x : Exchange) (data : List Byte) (c : Instr) (awaits fits : Bool),
    s.xs.get p = some x → x.phase = .awaiting → (s.line.get p).state ≠ .noReader → c.wellFormed = true →
    (s.line.get p).fresh →
    (c = .answerFrame p data ∧ awaits = decide (x.kind = .power) ∧
        fits = decide (1 ≤ data.length ∧ data.length ≤ 32) ∨
      c = .responseFrame p data ∧ awaits = decide (x.kind = .command ∨ x.kind = .present) ∧
        fits = decide (2 ≤ data.length ∧ data.length ≤ 240)) →
    (awaits = true → x.sent = true → fits = true → s.slotsFree 2 →
      ∃ t, exec c s = .next t ∧ s.cardFrame t p ∧ t.link = s.link ∧ t.intake = s.intake ∧
        (s.line.get p).heard (t.line.get p) ∧ (t.line.get p).state = .ready ∧ t.xs.get p = none ∧
        t.entry = s.entriesAfterEnd p x.kind ∧
        t.oq.queue = s.oq.queue ++
          cardNotice p .ready (s.line.get p).presence (s.line.get p).cause (s.line.get p).changes ++
          [.notice (.exchangeDone p x.tag x.kind .done (some data))]) ∧
    (awaits = true → x.sent = true → fits = true → s.oq.freeSlots = 0 →
      ∃ t, exec c s = .next t ∧ s.cardFrame t p ∧ t.link = s.link ∧ t.intake = s.intake ∧
        (t.line.get p).state = .ready ∧ t.entry = s.entriesAfterEnd p x.kind ∧ t.oq.queue = s.oq.queue ∧
        t.xs.get p = some { x with
          phase := .held .done (some data), timer := .stopped, command := none, header := none } ∧
        t.oq.cards.get p = some ⟨.ready, (s.line.get p).presence, (s.line.get p).cause⟩ ∧
        (t.line.get p).changes = min 255 ((s.line.get p).changes + 1)) ∧
    (awaits = false ∨ x.sent = false →
      ∃ t, exec c s = .next t ∧ t = { s with line := t.line } ∧ (∀ q, q ≠ p → t.line.get q = s.line.get q) ∧
        (s.line.get p).heard (t.line.get p) ∧ (t.line.get p).state = (s.line.get p).state ∧
        (t.line.get p).lateFrames = min 65535 ((s.line.get p).lateFrames + 1)) ∧
    (awaits = true → x.sent = true → fits = false → x.repeatUsed = false → (s.line.get p).flows →
      ∃ t, exec c s = .next t ∧ s.cardFrame t p ∧ t.link = s.link ∧ t.intake = s.intake ∧ t.oq = s.oq ∧
        t.entry = s.entry ∧ t.xs = s.xs.set p (some { x with repeatUsed := true }) ∧
        (t.line.get p).frames = (s.line.get p).frames ++ [.askRepeat] ∧
        (t.line.get p).checkErrors = min 65535 ((s.line.get p).checkErrors + 1)) ∧
    (awaits = true → x.sent = true → fits = false → x.repeatUsed = true → (s.line.get p).flows → s.slotsFree 2 →
      ∃ t, exec c s = .next t ∧ s.cardFrame t p ∧ t.link = s.link ∧ t.intake = s.intake ∧ t.xs.get p = none ∧
        t.entry = s.entriesAfterEnd p x.kind ∧ (t.line.get p).state = .seated ∧
        (t.line.get p).frames = (s.line.get p).framesWithoutOpening ++ [.powerOff] ∧
        (t.line.get p).checkErrors = min 65535 ((s.line.get p).checkErrors + 1) ∧
        t.oq.queue = s.oq.queue ++ cardNotice p .seated (s.line.get p).presence (s.line.get p).cause
          (s.line.get p).changes ++ [.notice (.exchangeDone p x.tag x.kind .lineError none)])) ∧
  (∀ (s : State) (p : Pos) (data : List Byte) (c : Instr), (c = .answerFrame p data ∨ c = .responseFrame p data) →
    c.wellFormed = true → (s.line.get p).fresh → (s.line.get p).state ≠ .noReader →
    (∀ x, s.xs.get p = some x → x.phase ≠ .awaiting) →
    ∃ t, exec c s = .next t ∧ t = { s with line := t.line } ∧ (∀ q, q ≠ p → t.line.get q = s.line.get q) ∧
      (s.line.get p).heard (t.line.get p) ∧ (t.line.get p).state = (s.line.get p).state ∧
      (t.line.get p).lateFrames = min 65535 ((s.line.get p).lateFrames + 1)) ∧
  (∀ (s : State) (p : Pos) (x : Exchange), s.xs.get p = some x → x.phase = .awaiting → x.timer = .running 0 →
    (s.line.get p).flows → s.slotsFree 2 →
    ∃ t, exec (.exchangeTimerExpiry p) s = .next t ∧ s.cardFrame t p ∧ t.link = s.link ∧ t.intake = s.intake ∧
      t.xs.get p = none ∧ t.entry = s.entriesAfterEnd p x.kind ∧
      (x.kind = .release → (t.line.get p).state = (s.line.get p).state ∧
        t.oq.queue = s.oq.queue ++ [.notice (.exchangeDone p x.tag .release .noResponse none)]) ∧
      (x.kind ≠ .release → (t.line.get p).state = .seated ∧
        (t.line.get p).frames = (s.line.get p).framesWithoutOpening ++ [.powerOff] ∧
        t.oq.queue = s.oq.queue ++
          cardNotice p .seated (s.line.get p).presence (s.line.get p).cause (s.line.get p).changes ++
          [.notice (.exchangeDone p x.tag x.kind .noResponse none)])) ∧
  ∀ (s : State) (p : Pos), (∀ x, s.xs.get p = some x → x.phase ≠ .awaiting ∨ x.timer ≠ .running 0) →
    exec (.exchangeTimerExpiry p) s = .next s


/-! ### Part-level requests, resets and time (chapters 1 and 11), and the check (chapter 12) -/

/-- CARD_STATUS, IDENTIFY and COUNTER_STATUS (R92, R151, R183) return the values standing at their acceptance, in the
encoding of R186, and change nothing but armed, which COUNTER_STATUS reports as it stood. (The length byte ahead of the
name and the serial, and 0xFFFF for the timer of a held result, are the model's reading, notes/assumptions/8, and so is 1
for a timer that is due, notes/assumptions/2.) -/
def Obligations.StatusRequestsOfTheCardSideAndThePart : Prop :=
  (∀ (s : State) (tag : Byte) (p : Pos), s.takesRequests →
    let l := s.line.get p
    exec (.cardStatus tag (u8 p.val)) s = .next (s.received.replied .cardStatus tag (.ok
      (u8 l.state.index ++ u8 l.presence.index ++
        u8 (match l.cause with
          | none => 0
          | some .jam => 1
          | some .contact => 2
          | some .power => 3) ++
        yesNo l.powerUnknown ++ u32 l.settings.rate ++ u16 l.settings.timeout ++
        (match l.pending with
          | none => [0, 0, 0, 0, 0, 0, 0]
          | some ps => 1 :: (u32 ps.rate ++ u16 ps.timeout)) ++
        u8 l.misses ++ u8 l.checkFails ++ u16 l.checkErrors ++ u16 l.lateFrames ++ u16 l.faults ++ u8 l.changes ++
        (match s.xs.get p with
          | none => [0, 0, 0, 0, 0, 0, 0]
          | some x => 1 :: (u8 x.kind.index ++ [x.tag] ++
              u8 (if x.phase = .awaiting then 0 else 1) ++ yesNo x.repeatUsed ++ optU16 x.timer.remaining)))))) ∧
  (∀ (s : State) (tag : Byte), s.takesRequests →
    exec (.identify tag []) s = .next (s.received.replied .identify tag (.ok
      (([4, 0x43, 0x58, 0x31, 0x36, 3] : List Byte) ++
        u8 (match s.link.mode with
          | .uart => 0
          | .usb => 1) ++ u32 s.link.rate ++ u8 8 ++
        ((List.range 8).map fun i => Config.serial.extractLsb' (8 * (7 - i)) 8))))) ∧
  ∀ (s : State) (tag : Byte), s.takesRequests →
    let owed (k : Pos → OwedKey) : List Byte := u8 (allPositions.countP fun p => isOwed s (k p))
    exec (.counterStatus tag []) s = .next (s.received.replied .counterStatus tag (.ok
      (u8 s.intake.entries.length ++ u8 s.intake.reserved ++ u8 s.intake.pressure.index ++ u8 s.intake.flagCount ++
        (match s.attn.record with
          | none => u8 0xFF ++ u16 s.attn.number.toNat ++ u8 0 ++ u16 0
          | some a => u8 a.pos.val ++ u16 a.number.toNat ++
              [if a.masked then 0xFF else BitVec.ofNat 8 a.code.val] ++ u16 (s.timeCount - a.raiseTime).toNat) ++
        u8 s.oq.replies ++ u8 s.oq.notices ++ u8 s.oq.reservation ++ owed .result ++ owed .expired ++ owed .card ++
        owed .keypad ++ yesNo s.oq.pressure.isSome ++
        (match s.tables.openBank with
          | none => [0xFF]
          | some b => u8 b.val) ++
        (allFour.map fun b => s.tables.frozen.get b).flatMap yesNo ++ u16 s.link.errors ++ yesNo s.link.armed)))

/-- LINK_RATE, RESET_ARM and the refusals of COUNTER_RESET (R180, R181): the rate becomes pending; armed is set by an
accepted RESET_ARM and clear after any other accepted request. (That a RESET_ARM answered BAD_RECORD clears it too is the
model's reading, notes/assumptions/24.) -/
def Obligations.LinkRateAndArming : Prop :=
  (∀ (s : State) (tag : Byte) (rate : Nat), s.takesRequests → s.link.mode = .uart →
    rate ∈ [115200, 230400, 460800] → exec (.linkRate tag (u32 rate)) s =
      .next (({ s.received with link := { s.link with rx := .hunting, pendingRate := some rate } }).replied .linkRate
        tag (.ok []))) ∧
  (∀ (s : State) (tag : Byte) (rate : Nat), s.takesRequests → s.link.mode = .uart →
    rate ∉ [115200, 230400, 460800] → rate < 2 ^ 32 →
    exec (.linkRate tag (u32 rate)) s = .next (s.refused .linkRate tag .badValue)) ∧
  (∀ (s : State) (tag : Byte) (rate : Nat), s.takesRequests → s.link.mode = .usb →
    exec (.linkRate tag (u32 rate)) s = .next (s.refused .linkRate tag .wrongState)) ∧
  (∀ (s : State) (tag : Byte), s.takesRequests → exec (.resetArm tag []) s =
    .next { s.received.replied .resetArm tag (.ok []) with
      link := { s.link with rx := .hunting, armed := true } }) ∧
  (∀ (s t : State) (r : Request), s.takesRequests → r.command.wellFormed = true → exec r.command s = .next t →
    r.kind ≠ .resetArm →
    t.link.armed = false) ∧
  (∀ (s : State) (tag x : Byte) (rest : List Byte), s.takesRequests → rest.length ≤ 249 →
    exec (.counterReset tag (x :: rest)) s = .next (s.refused .counterReset tag .badRecord) ∧
    exec (.resetArm tag (x :: rest)) s = .next (s.refused .resetArm tag .badRecord)) ∧
  ∀ (s : State) (tag : Byte), s.takesRequests → s.link.armed = false →
    exec (.counterReset tag []) s = .next (s.refused .counterReset tag .notArmed)

/-- An armed COUNTER_RESET (R40, R54, R61, R92, R101, R122, R124, R152, R169, R176, R181), block by block: the replies
and a notice already leaving stay, the reply and STARTED follow; table contents, frozen marks, the attention number, the
time count and the link's mode and rates stay; polls in flight are disowned; powered cards are powered off. (That a
queued EXCHANGE_DONE goes with the other notices is the model's reading, notes/assumptions/21.) -/
def Obligations.CounterResetClearsTheCounterSide : Prop :=
  ∀ (s : State) (tag : Byte), s.takesRequests → s.link.armed = true → (∀ p, (s.line.get p).flows) →
    ∃ t, exec (.counterReset tag []) s = .next t ∧
      t.oq.queue = (match s.oq.queue with
          | [] => []
          | r :: rest => if s.oq.begun then r :: rest.filter OutRecord.isReply
              else (r :: rest).filter OutRecord.isReply) ++
        [.reply .counterReset tag (.ok []), .notice (.started .counterReset s.link.mode)] ∧
      t.oq.reservation = 0 ∧ anyOwed t = false ∧
      t.link = { s.link with rx := .hunting, armed := false, errors := 0 } ∧
      t.tables = { s.tables with openBank := none } ∧ t.timeCount = s.timeCount ∧ t.pending = s.pending ∧
      t.attn = ⟨none, .stopped, 2000, s.attn.number⟩ ∧
      t.intake.entries = [] ∧ t.intake.flagCount = 0 ∧ t.intake.pressure = .normal ∧
      (∀ p, t.pos.get p = ⟨.closed, 0, 0, 0, 0, 0, 0, 0, 0⟩ ∧ t.entry.get p = none ∧ t.xs.get p = none ∧
        t.pu.get p = ⟨none, none, .a, .notStarted, .stopped, List.replicate 32 0x20, 0, true, 0, .none⟩) ∧
      (∀ g, (s.bus.get g).poll = none → (t.bus.get g).roundCounter = 0 ∧ (t.bus.get g).round = .inProgress 3 ∧
        (t.bus.get g).roundTimer = .running 20 ∧ (t.bus.get g).held = 5 ∧
        (t.bus.get g).poll.map Poll.addr = some 3) ∧
      (∀ g q, (s.bus.get g).poll = some q → (t.bus.get g).roundCounter = 0 ∧ (t.bus.get g).round = .finished ∧
        (t.bus.get g).roundTimer = .stopped ∧ (t.bus.get g).windowTimer = (s.bus.get g).windowTimer ∧
        (t.bus.get g).poll = some { q with disowned := true, reserved := 0 }) ∧
      (∀ g, (t.bus.get g).settings = ⟨19200, 20, 6, 3⟩ ∧ (t.bus.get g).pending = none ∧
        (t.bus.get g).roundDue = false ∧ ∀ a, (t.bus.get g).addrs.get a = ⟨.unheard, none, 0, 8, 0, false⟩) ∧
      t.intake.reserved = heldPlaces t ∧
      ∀ p, (t.line.get p).state = (if (s.line.get p).state.powered then .seated else (s.line.get p).state) ∧
        (t.line.get p).frames = (s.line.get p).framesWithoutOpening ++
          (if (s.line.get p).state.powered then [.powerOff] else []) ∧
        (t.line.get p).presence = (s.line.get p).presence ∧ (t.line.get p).cause = (s.line.get p).cause ∧
        (t.line.get p).powerUnknown = (s.line.get p).powerUnknown ∧ (t.line.get p).misses = 0 ∧
        (t.line.get p).checkFails = 0 ∧ (t.line.get p).helloOut = false ∧ (t.line.get p).helloTimer = .stopped ∧
        (t.line.get p).silenceTimer =
          (if (s.line.get p).state = .noReader then (s.line.get p).silenceTimer else .running 500) ∧
        (t.line.get p).noReaderTimer = (s.line.get p).noReaderTimer ∧
        (t.line.get p).rx = (s.line.get p).rx ∧
        ((t.line.get p).pending.getD (t.line.get p).settings = ⟨38400, 1500⟩) ∧
        (t.line.get p).checkErrors = 0 ∧ (t.line.get p).lateFrames = 0 ∧ (t.line.get p).faults = 0 ∧
        (t.line.get p).changes = 0

/-- TICK (R5, R6): the time count rises by 1, wrapping, every running timer's count falls by 1 and nothing else changes;
a timer loaded with n ticks is due from the n-th tick on and not before, and a stopped one never. (That a due timer
waits for its expiry command is the model's choice, notes/assumptions/2.) -/
def Obligations.TickMovesEveryTimer : Prop :=
  (∀ s : State, ∃ t, exec .tick s = .next t ∧
    t = { s with timeCount := s.timeCount + 1, bus := t.bus, attn := t.attn, entry := t.entry, pu := t.pu,
                 line := t.line, xs := t.xs } ∧
    (∀ g, t.bus.get g = { s.bus.get g with
      roundTimer := (s.bus.get g).roundTimer.tick, windowTimer := (s.bus.get g).windowTimer.tick }) ∧
    t.attn = { s.attn with lapseTimer := s.attn.lapseTimer.tick } ∧
    ∀ p, t.entry.get p = (s.entry.get p).map (fun e => { e with
        interkeyTimer := e.interkeyTimer.tick, totalTimer := e.totalTimer.tick }) ∧
      t.pu.get p = { s.pu.get p with holdTimer := (s.pu.get p).holdTimer.tick } ∧
      t.line.get p = { s.line.get p with
        silenceTimer := (s.line.get p).silenceTimer.tick, helloTimer := (s.line.get p).helloTimer.tick,
        noReaderTimer := (s.line.get p).noReaderTimer.tick } ∧
      t.xs.get p = (s.xs.get p).map (fun x => { x with timer := x.timer.tick })) ∧
  (∀ n k : Nat, 1 ≤ n → ((Timer.tick^[k] (.running n)).due = true ↔ n ≤ k)) ∧
  ∀ k : Nat, (Timer.tick^[k] .stopped).due = false

/-- The check (R185): the sender's two sums, each below 255, sent S2 first; the receivers of a record, a keypad reply and
a card frame, which pass just the bytes whose check matches the sums over what was received, and never a check byte 0xFF;
the detection of every change of a single byte but one between 0x00 and 0xFF, and the blindness to that one. -/
def Obligations.CheckDetectsSingleByteChanges : Prop :=
  (checkSums [] = (0, 0)) ∧
  (∀ (l : List Byte) (b : Byte), checkSums (l ++ [b]) =
    (((checkSums l).1 + b.toNat) % 255, ((checkSums l).2 + ((checkSums l).1 + b.toNat) % 255) % 255)) ∧
  (∀ l : List Byte, ∃ c2 c1 : Byte, withCheck l = l ++ [c2, c1] ∧ c2.toNat = (checkSums l).2 ∧
    c1.toNat = (checkSums l).1 ∧ c2 ≠ 0xFF ∧ c1 ≠ 0xFF) ∧
  (∀ (kind tag c2 c1 : Byte) (payload : List Byte), payload.length ≤ 250 →
    let sums := checkSums (recordBody kind tag payload)
    goodRecord (recordBody kind tag payload ++ [c2, c1]) =
      if c2.toNat = sums.2 ∧ c1.toNat = sums.1 then some ⟨reqKindOf kind, tag, payload⟩ else none) ∧
  (∀ (kind c2 c1 : Byte) (payload : List Byte), payload.length ≤ 240 →
    let sums := checkSums (frameBody kind payload)
    goodFrame (frameBody kind payload ++ [c2, c1]) =
      if c2.toNat = sums.2 ∧ c1.toNat = sums.1 then some (kind, payload) else none) ∧
  (∀ (status c2 c1 : Byte) (codes : List Byte), status.toNat % 8 = codes.length → codes.length ≤ 4 →
    let sums := checkSums (status :: codes)
    ∃ r, readReply (status :: codes ++ [c2, c1]) = some r ∧
      r.checkOk = decide (c2.toNat = sums.2 ∧ c1.toNat = sums.1)) ∧
  (∀ (l : List Byte) (c2 c1 : Byte), c2 = 0xFF ∨ c1 = 0xFF → passesCheck l [c2, c1] = false) ∧
  (∀ (before after : List Byte) (x y : Byte), x ≠ y → ¬ (x = 0x00 ∧ y = 0xFF) → ¬ (x = 0xFF ∧ y = 0x00) →
    checkBytes (before ++ x :: after) ≠ checkBytes (before ++ y :: after)) ∧
  ∀ before after : List Byte, checkBytes (before ++ 0x00 :: after) = checkBytes (before ++ 0xFF :: after)

/-! ### What every step keeps -/

/-- Every step keeps the queue limits of R176 and the reservation of R72 and R178, from any state that meets them. -/
def Obligations.EveryStepKeepsTheQueueLimits : Prop :=
  ∀ s t : State, OutboundOk s → step s = .next t → OutboundOk t

/-- Every step keeps the intake FIFO within its 128 places, its reserved count the sum of the polls' places, and its
flags set only while no place is free (R27, R43, R44, R49), from any state that meets this. -/
def Obligations.EveryStepKeepsTheIntakeLimit : Prop :=
  ∀ s t : State, IntakeOk s → step s = .next t → IntakeOk t

/-- Every step keeps a CLOSED position without entry, prompt, flag, live intake entry or attention (R9, R12, R48, R51,
R103), and with that the relation between the open bank and the entries (R61, R64). -/
def Obligations.EveryStepKeepsClosedPositionsEmptyAndBanksApart : Prop :=
  (∀ s t : State, (∀ p, ClosedOk s p) → step s = .next t → ∀ p, ClosedOk t p) ∧
  ∀ s t : State, (∀ p, ClosedOk s p) → BanksOk s → step s = .next t → BanksOk t

/-- Every step keeps each entry within its limits (R103, R106, R108, R109) and each prompt unit's display, cursor, slots
and hold as R124, R125, R128 and R131 describe them. -/
def Obligations.EveryStepKeepsEntriesAndPromptsInBounds : Prop :=
  (∀ s t : State, (∀ p, EntryOk s p) → step s = .next t → ∀ p, EntryOk t p) ∧
  ∀ s t : State, (∀ p, (s.pu.get p).ok) → step s = .next t → ∀ p, (t.pu.get p).ok

/-- Every step keeps each card line and its exchange record in agreement (R137, R154, R156). -/
def Obligations.EveryStepKeepsCardAndExchangeInStep : Prop :=
  ∀ s t : State, (∀ p, CardOk s p) → step s = .next t → ∀ p, CardOk t p

/-- Every step keeps table memory in its canonical form, and no command but POWER_ON_RESET changes a frozen bank's
entries, descriptors or mark, or opens it (R61, R66). -/
def Obligations.EveryStepKeepsFrozenBanks : Prop :=
  (∀ s t : State, s.tables.wf = true → step s = .next t → t.tables.wf = true) ∧
  ∀ (s t : State) (b : Bank), s.tables.wf = true → s.tables.frozen.get b = true → s.tables.openBank ≠ some b →
    (∀ mode wcts rest, s.pending ≠ .powerOnReset mode wcts :: rest) → step s = .next t →
    keepsFrozen s t b ∧ t.tables.openBank ≠ some b
end

