-- ==== Sys2Proof/Laws/State.lean ====
section
/-! SUPPORT. One lemma per field per update of the state, true by rfl, so that no later proof unfolds a record
update. -/

namespace Sys2Proof.Machine

open Sys2Proof

variable (s : State) (p : Pos) (g : Group)

/-! ### onPos -/

@[simp] theorem State.onPos_pending (f : PosRecord → PosRecord) : (s.onPos p f).pending = s.pending := rfl
@[simp] theorem State.onPos_timeCount (f : PosRecord → PosRecord) : (s.onPos p f).timeCount = s.timeCount := rfl
@[simp] theorem State.onPos_link (f : PosRecord → PosRecord) : (s.onPos p f).link = s.link := rfl
@[simp] theorem State.onPos_oq (f : PosRecord → PosRecord) : (s.onPos p f).oq = s.oq := rfl
@[simp] theorem State.onPos_pos (f : PosRecord → PosRecord) : (s.onPos p f).pos = s.pos.modify p f := rfl
@[simp] theorem State.onPos_bus (f : PosRecord → PosRecord) : (s.onPos p f).bus = s.bus := rfl
@[simp] theorem State.onPos_intake (f : PosRecord → PosRecord) : (s.onPos p f).intake = s.intake := rfl
@[simp] theorem State.onPos_tables (f : PosRecord → PosRecord) : (s.onPos p f).tables = s.tables := rfl
@[simp] theorem State.onPos_attn (f : PosRecord → PosRecord) : (s.onPos p f).attn = s.attn := rfl
@[simp] theorem State.onPos_entry (f : PosRecord → PosRecord) : (s.onPos p f).entry = s.entry := rfl
@[simp] theorem State.onPos_pu (f : PosRecord → PosRecord) : (s.onPos p f).pu = s.pu := rfl
@[simp] theorem State.onPos_line (f : PosRecord → PosRecord) : (s.onPos p f).line = s.line := rfl
@[simp] theorem State.onPos_xs (f : PosRecord → PosRecord) : (s.onPos p f).xs = s.xs := rfl

/-! ### onBus -/

@[simp] theorem State.onBus_pending (f : Bus → Bus) : (s.onBus g f).pending = s.pending := rfl
@[simp] theorem State.onBus_timeCount (f : Bus → Bus) : (s.onBus g f).timeCount = s.timeCount := rfl
@[simp] theorem State.onBus_link (f : Bus → Bus) : (s.onBus g f).link = s.link := rfl
@[simp] theorem State.onBus_oq (f : Bus → Bus) : (s.onBus g f).oq = s.oq := rfl
@[simp] theorem State.onBus_pos (f : Bus → Bus) : (s.onBus g f).pos = s.pos := rfl
@[simp] theorem State.onBus_bus (f : Bus → Bus) : (s.onBus g f).bus = s.bus.modify g f := rfl
@[simp] theorem State.onBus_intake (f : Bus → Bus) : (s.onBus g f).intake = s.intake := rfl
@[simp] theorem State.onBus_tables (f : Bus → Bus) : (s.onBus g f).tables = s.tables := rfl
@[simp] theorem State.onBus_attn (f : Bus → Bus) : (s.onBus g f).attn = s.attn := rfl
@[simp] theorem State.onBus_entry (f : Bus → Bus) : (s.onBus g f).entry = s.entry := rfl
@[simp] theorem State.onBus_pu (f : Bus → Bus) : (s.onBus g f).pu = s.pu := rfl
@[simp] theorem State.onBus_line (f : Bus → Bus) : (s.onBus g f).line = s.line := rfl
@[simp] theorem State.onBus_xs (f : Bus → Bus) : (s.onBus g f).xs = s.xs := rfl

/-! ### putEntry -/

@[simp] theorem State.putEntry_pending (e : Option Entry) : (s.putEntry p e).pending = s.pending := rfl
@[simp] theorem State.putEntry_timeCount (e : Option Entry) : (s.putEntry p e).timeCount = s.timeCount := rfl
@[simp] theorem State.putEntry_link (e : Option Entry) : (s.putEntry p e).link = s.link := rfl
@[simp] theorem State.putEntry_oq (e : Option Entry) : (s.putEntry p e).oq = s.oq := rfl
@[simp] theorem State.putEntry_pos (e : Option Entry) : (s.putEntry p e).pos = s.pos := rfl
@[simp] theorem State.putEntry_bus (e : Option Entry) : (s.putEntry p e).bus = s.bus := rfl
@[simp] theorem State.putEntry_intake (e : Option Entry) : (s.putEntry p e).intake = s.intake := rfl
@[simp] theorem State.putEntry_tables (e : Option Entry) : (s.putEntry p e).tables = s.tables := rfl
@[simp] theorem State.putEntry_attn (e : Option Entry) : (s.putEntry p e).attn = s.attn := rfl
@[simp] theorem State.putEntry_entry (e : Option Entry) : (s.putEntry p e).entry = s.entry.set p e := rfl
@[simp] theorem State.putEntry_pu (e : Option Entry) : (s.putEntry p e).pu = s.pu := rfl
@[simp] theorem State.putEntry_line (e : Option Entry) : (s.putEntry p e).line = s.line := rfl
@[simp] theorem State.putEntry_xs (e : Option Entry) : (s.putEntry p e).xs = s.xs := rfl

/-! ### onPu -/

@[simp] theorem State.onPu_pending (f : PromptUnit → PromptUnit) : (s.onPu p f).pending = s.pending := rfl
@[simp] theorem State.onPu_timeCount (f : PromptUnit → PromptUnit) : (s.onPu p f).timeCount = s.timeCount := rfl
@[simp] theorem State.onPu_link (f : PromptUnit → PromptUnit) : (s.onPu p f).link = s.link := rfl
@[simp] theorem State.onPu_oq (f : PromptUnit → PromptUnit) : (s.onPu p f).oq = s.oq := rfl
@[simp] theorem State.onPu_pos (f : PromptUnit → PromptUnit) : (s.onPu p f).pos = s.pos := rfl
@[simp] theorem State.onPu_bus (f : PromptUnit → PromptUnit) : (s.onPu p f).bus = s.bus := rfl
@[simp] theorem State.onPu_intake (f : PromptUnit → PromptUnit) : (s.onPu p f).intake = s.intake := rfl
@[simp] theorem State.onPu_tables (f : PromptUnit → PromptUnit) : (s.onPu p f).tables = s.tables := rfl
@[simp] theorem State.onPu_attn (f : PromptUnit → PromptUnit) : (s.onPu p f).attn = s.attn := rfl
@[simp] theorem State.onPu_entry (f : PromptUnit → PromptUnit) : (s.onPu p f).entry = s.entry := rfl
@[simp] theorem State.onPu_pu (f : PromptUnit → PromptUnit) : (s.onPu p f).pu = s.pu.modify p f := rfl
@[simp] theorem State.onPu_line (f : PromptUnit → PromptUnit) : (s.onPu p f).line = s.line := rfl
@[simp] theorem State.onPu_xs (f : PromptUnit → PromptUnit) : (s.onPu p f).xs = s.xs := rfl

/-! ### onLine -/

@[simp] theorem State.onLine_pending (f : CardLine → CardLine) : (s.onLine p f).pending = s.pending := rfl
@[simp] theorem State.onLine_timeCount (f : CardLine → CardLine) : (s.onLine p f).timeCount = s.timeCount := rfl
@[simp] theorem State.onLine_link (f : CardLine → CardLine) : (s.onLine p f).link = s.link := rfl
@[simp] theorem State.onLine_oq (f : CardLine → CardLine) : (s.onLine p f).oq = s.oq := rfl
@[simp] theorem State.onLine_pos (f : CardLine → CardLine) : (s.onLine p f).pos = s.pos := rfl
@[simp] theorem State.onLine_bus (f : CardLine → CardLine) : (s.onLine p f).bus = s.bus := rfl
@[simp] theorem State.onLine_intake (f : CardLine → CardLine) : (s.onLine p f).intake = s.intake := rfl
@[simp] theorem State.onLine_tables (f : CardLine → CardLine) : (s.onLine p f).tables = s.tables := rfl
@[simp] theorem State.onLine_attn (f : CardLine → CardLine) : (s.onLine p f).attn = s.attn := rfl
@[simp] theorem State.onLine_entry (f : CardLine → CardLine) : (s.onLine p f).entry = s.entry := rfl
@[simp] theorem State.onLine_pu (f : CardLine → CardLine) : (s.onLine p f).pu = s.pu := rfl
@[simp] theorem State.onLine_line (f : CardLine → CardLine) : (s.onLine p f).line = s.line.modify p f := rfl
@[simp] theorem State.onLine_xs (f : CardLine → CardLine) : (s.onLine p f).xs = s.xs := rfl

/-! ### putXs -/

@[simp] theorem State.putXs_pending (x : Option Exchange) : (s.putXs p x).pending = s.pending := rfl
@[simp] theorem State.putXs_timeCount (x : Option Exchange) : (s.putXs p x).timeCount = s.timeCount := rfl
@[simp] theorem State.putXs_link (x : Option Exchange) : (s.putXs p x).link = s.link := rfl
@[simp] theorem State.putXs_oq (x : Option Exchange) : (s.putXs p x).oq = s.oq := rfl
@[simp] theorem State.putXs_pos (x : Option Exchange) : (s.putXs p x).pos = s.pos := rfl
@[simp] theorem State.putXs_bus (x : Option Exchange) : (s.putXs p x).bus = s.bus := rfl
@[simp] theorem State.putXs_intake (x : Option Exchange) : (s.putXs p x).intake = s.intake := rfl
@[simp] theorem State.putXs_tables (x : Option Exchange) : (s.putXs p x).tables = s.tables := rfl
@[simp] theorem State.putXs_attn (x : Option Exchange) : (s.putXs p x).attn = s.attn := rfl
@[simp] theorem State.putXs_entry (x : Option Exchange) : (s.putXs p x).entry = s.entry := rfl
@[simp] theorem State.putXs_pu (x : Option Exchange) : (s.putXs p x).pu = s.pu := rfl
@[simp] theorem State.putXs_line (x : Option Exchange) : (s.putXs p x).line = s.line := rfl
@[simp] theorem State.putXs_xs (x : Option Exchange) : (s.putXs p x).xs = s.xs.set p x := rfl

/-! ### onIntake -/

@[simp] theorem State.onIntake_pending (f : Intake → Intake) : (s.onIntake f).pending = s.pending := rfl
@[simp] theorem State.onIntake_timeCount (f : Intake → Intake) : (s.onIntake f).timeCount = s.timeCount := rfl
@[simp] theorem State.onIntake_link (f : Intake → Intake) : (s.onIntake f).link = s.link := rfl
@[simp] theorem State.onIntake_oq (f : Intake → Intake) : (s.onIntake f).oq = s.oq := rfl
@[simp] theorem State.onIntake_pos (f : Intake → Intake) : (s.onIntake f).pos = s.pos := rfl
@[simp] theorem State.onIntake_bus (f : Intake → Intake) : (s.onIntake f).bus = s.bus := rfl
@[simp] theorem State.onIntake_intake (f : Intake → Intake) : (s.onIntake f).intake = f s.intake := rfl
@[simp] theorem State.onIntake_tables (f : Intake → Intake) : (s.onIntake f).tables = s.tables := rfl
@[simp] theorem State.onIntake_attn (f : Intake → Intake) : (s.onIntake f).attn = s.attn := rfl
@[simp] theorem State.onIntake_entry (f : Intake → Intake) : (s.onIntake f).entry = s.entry := rfl
@[simp] theorem State.onIntake_pu (f : Intake → Intake) : (s.onIntake f).pu = s.pu := rfl
@[simp] theorem State.onIntake_line (f : Intake → Intake) : (s.onIntake f).line = s.line := rfl
@[simp] theorem State.onIntake_xs (f : Intake → Intake) : (s.onIntake f).xs = s.xs := rfl

/-! ### onOq -/

@[simp] theorem State.onOq_pending (f : OutQueue → OutQueue) : (s.onOq f).pending = s.pending := rfl
@[simp] theorem State.onOq_timeCount (f : OutQueue → OutQueue) : (s.onOq f).timeCount = s.timeCount := rfl
@[simp] theorem State.onOq_link (f : OutQueue → OutQueue) : (s.onOq f).link = s.link := rfl
@[simp] theorem State.onOq_oq (f : OutQueue → OutQueue) : (s.onOq f).oq = f s.oq := rfl
@[simp] theorem State.onOq_pos (f : OutQueue → OutQueue) : (s.onOq f).pos = s.pos := rfl
@[simp] theorem State.onOq_bus (f : OutQueue → OutQueue) : (s.onOq f).bus = s.bus := rfl
@[simp] theorem State.onOq_intake (f : OutQueue → OutQueue) : (s.onOq f).intake = s.intake := rfl
@[simp] theorem State.onOq_tables (f : OutQueue → OutQueue) : (s.onOq f).tables = s.tables := rfl
@[simp] theorem State.onOq_attn (f : OutQueue → OutQueue) : (s.onOq f).attn = s.attn := rfl
@[simp] theorem State.onOq_entry (f : OutQueue → OutQueue) : (s.onOq f).entry = s.entry := rfl
@[simp] theorem State.onOq_pu (f : OutQueue → OutQueue) : (s.onOq f).pu = s.pu := rfl
@[simp] theorem State.onOq_line (f : OutQueue → OutQueue) : (s.onOq f).line = s.line := rfl
@[simp] theorem State.onOq_xs (f : OutQueue → OutQueue) : (s.onOq f).xs = s.xs := rfl

/-! ### onLink -/

@[simp] theorem State.onLink_pending (f : Link → Link) : (s.onLink f).pending = s.pending := rfl
@[simp] theorem State.onLink_timeCount (f : Link → Link) : (s.onLink f).timeCount = s.timeCount := rfl
@[simp] theorem State.onLink_link (f : Link → Link) : (s.onLink f).link = f s.link := rfl
@[simp] theorem State.onLink_oq (f : Link → Link) : (s.onLink f).oq = s.oq := rfl
@[simp] theorem State.onLink_pos (f : Link → Link) : (s.onLink f).pos = s.pos := rfl
@[simp] theorem State.onLink_bus (f : Link → Link) : (s.onLink f).bus = s.bus := rfl
@[simp] theorem State.onLink_intake (f : Link → Link) : (s.onLink f).intake = s.intake := rfl
@[simp] theorem State.onLink_tables (f : Link → Link) : (s.onLink f).tables = s.tables := rfl
@[simp] theorem State.onLink_attn (f : Link → Link) : (s.onLink f).attn = s.attn := rfl
@[simp] theorem State.onLink_entry (f : Link → Link) : (s.onLink f).entry = s.entry := rfl
@[simp] theorem State.onLink_pu (f : Link → Link) : (s.onLink f).pu = s.pu := rfl
@[simp] theorem State.onLink_line (f : Link → Link) : (s.onLink f).line = s.line := rfl
@[simp] theorem State.onLink_xs (f : Link → Link) : (s.onLink f).xs = s.xs := rfl

/-! ### onAttn -/

@[simp] theorem State.onAttn_pending (f : AttentionSlot → AttentionSlot) : (s.onAttn f).pending = s.pending := rfl
@[simp] theorem State.onAttn_timeCount (f : AttentionSlot → AttentionSlot) : (s.onAttn f).timeCount = s.timeCount :=
    rfl
@[simp] theorem State.onAttn_link (f : AttentionSlot → AttentionSlot) : (s.onAttn f).link = s.link := rfl
@[simp] theorem State.onAttn_oq (f : AttentionSlot → AttentionSlot) : (s.onAttn f).oq = s.oq := rfl
@[simp] theorem State.onAttn_pos (f : AttentionSlot → AttentionSlot) : (s.onAttn f).pos = s.pos := rfl
@[simp] theorem State.onAttn_bus (f : AttentionSlot → AttentionSlot) : (s.onAttn f).bus = s.bus := rfl
@[simp] theorem State.onAttn_intake (f : AttentionSlot → AttentionSlot) : (s.onAttn f).intake = s.intake := rfl
@[simp] theorem State.onAttn_tables (f : AttentionSlot → AttentionSlot) : (s.onAttn f).tables = s.tables := rfl
@[simp] theorem State.onAttn_attn (f : AttentionSlot → AttentionSlot) : (s.onAttn f).attn = f s.attn := rfl
@[simp] theorem State.onAttn_entry (f : AttentionSlot → AttentionSlot) : (s.onAttn f).entry = s.entry := rfl
@[simp] theorem State.onAttn_pu (f : AttentionSlot → AttentionSlot) : (s.onAttn f).pu = s.pu := rfl
@[simp] theorem State.onAttn_line (f : AttentionSlot → AttentionSlot) : (s.onAttn f).line = s.line := rfl
@[simp] theorem State.onAttn_xs (f : AttentionSlot → AttentionSlot) : (s.onAttn f).xs = s.xs := rfl

end Sys2Proof.Machine
end

