-- ==== Sys2Proof/Laws/Word.lean ====
section
/-! SUPPORT. Laws of the words and of the two containers: reading what was written, and leaving the rest alone. -/

namespace Sys2Proof

theorem posAt_groupOf_addrOf (p : Pos) : posAt (groupOf p) (addrOf p) = p := by
  apply Fin.ext
  simp only [posAt, groupOf, addrOf]
  omega

@[simp] theorem groupOf_posAt (g : Group) (a : Addr) : groupOf (posAt g a) = g := by
  apply Fin.ext
  simp only [posAt, groupOf]
  omega

@[simp] theorem addrOf_posAt (g : Group) (a : Addr) : addrOf (posAt g a) = a := by
  apply Fin.ext
  simp only [posAt, addrOf]
  omega

theorem pos_eq_iff (p q : Pos) : p = q ↔ groupOf p = groupOf q ∧ addrOf p = addrOf q := by
  constructor
  · rintro rfl
    exact ⟨rfl, rfl⟩
  · rintro ⟨hg, ha⟩
    rw [← posAt_groupOf_addrOf p, ← posAt_groupOf_addrOf q, hg, ha]

theorem mem_allPositions (p : Pos) : p ∈ allPositions := by
  revert p
  decide

theorem mem_allFour (g : Fin 4) : g ∈ allFour := by
  revert g
  decide

theorem fin4_cases {P : Fin 4 → Prop} (h0 : P 0) (h1 : P 1) (h2 : P 2) (h3 : P 3) (i : Fin 4) : P i := by
  match i with
  | 0 => exact h0
  | 1 => exact h1
  | 2 => exact h2
  | 3 => exact h3

theorem Quad.ext_get {α : Type} {a b : Quad α} (h : ∀ i, a.get i = b.get i) : a = b := by
  cases a
  cases b
  have h0 := h 0
  have h1 := h 1
  have h2 := h 2
  have h3 := h 3
  simp only [Quad.get] at h0 h1 h2 h3
  simp [h0, h1, h2, h3]

@[simp] theorem Quad.get_set_same {α : Type} (q : Quad α) (i : Fin 4) (x : α) : (q.set i x).get i = x := by
  revert i
  exact fin4_cases rfl rfl rfl rfl

theorem Quad.get_set {α : Type} (q : Quad α) (i j : Fin 4) (x : α) :
    (q.set i x).get j = if j = i then x else q.get j := by
  revert i j
  exact fin4_cases (fin4_cases rfl rfl rfl rfl) (fin4_cases rfl rfl rfl rfl) (fin4_cases rfl rfl rfl rfl)
    (fin4_cases rfl rfl rfl rfl)

theorem Quad.get_set_ne {α : Type} (q : Quad α) {i j : Fin 4} (x : α) (h : j ≠ i) : (q.set i x).get j = q.get j := by
  rw [Quad.get_set, if_neg h]

@[simp] theorem Quad.get_all {α : Type} (x : α) (i : Fin 4) : (Quad.all x).get i = x := by
  revert i
  exact fin4_cases rfl rfl rfl rfl

@[simp] theorem Quad.get_map {α β : Type} (f : α → β) (q : Quad α) (i : Fin 4) :
    (q.map f).get i = f (q.get i) := by
  revert i
  exact fin4_cases rfl rfl rfl rfl

@[simp] theorem Quad.set_get_same {α : Type} (q : Quad α) (i : Fin 4) : q.set i (q.get i) = q := by
  apply Quad.ext_get
  intro j
  rw [Quad.get_set]
  split
  · next h => rw [h]
  · rfl

@[simp] theorem Quad.set_set_same {α : Type} (q : Quad α) (i : Fin 4) (x y : α) :
    (q.set i x).set i y = q.set i y := by
  apply Quad.ext_get
  intro j
  simp only [Quad.get_set]
  split <;> rfl

@[simp] theorem Quad.get_modify_same {α : Type} (q : Quad α) (i : Fin 4) (f : α → α) :
    (q.modify i f).get i = f (q.get i) := by
  simp [Quad.modify]

theorem Quad.get_modify {α : Type} (q : Quad α) (i j : Fin 4) (f : α → α) :
    (q.modify i f).get j = if j = i then f (q.get j) else q.get j := by
  rw [Quad.modify, Quad.get_set]
  split
  · next h => rw [h]
  · rfl

theorem Quad.get_modify_ne {α : Type} (q : Quad α) {i j : Fin 4} (f : α → α) (h : j ≠ i) :
    (q.modify i f).get j = q.get j := by
  rw [Quad.get_modify, if_neg h]

theorem PerPos.ext_get {α : Type} {a b : PerPos α} (h : ∀ p, a.get p = b.get p) : a = b := by
  cases a with
  | mk ga =>
    cases b with
    | mk gb =>
      have hg : ga = gb := by
        apply Quad.ext_get
        intro g
        apply Quad.ext_get
        intro c
        have hp := h (posAt g c)
        simpa [PerPos.get] using hp
      rw [hg]

theorem PerPos.get_set {α : Type} (t : PerPos α) (p q : Pos) (x : α) :
    (t.set p x).get q = if q = p then x else t.get q := by
  simp only [PerPos.get, PerPos.set]
  rw [Quad.get_set]
  by_cases hg : groupOf q = groupOf p
  · rw [if_pos hg, Quad.get_set]
    by_cases ha : addrOf q = addrOf p
    · rw [if_pos ha, if_pos ((pos_eq_iff q p).2 ⟨hg, ha⟩)]
    · rw [if_neg ha, if_neg (fun h => ha ((pos_eq_iff q p).1 h).2), hg]
  · rw [if_neg hg, if_neg (fun h => hg ((pos_eq_iff q p).1 h).1)]

@[simp] theorem PerPos.get_set_same {α : Type} (t : PerPos α) (p : Pos) (x : α) : (t.set p x).get p = x := by
  rw [PerPos.get_set, if_pos rfl]

theorem PerPos.get_set_ne {α : Type} (t : PerPos α) {p q : Pos} (x : α) (h : q ≠ p) :
    (t.set p x).get q = t.get q := by
  rw [PerPos.get_set, if_neg h]

@[simp] theorem PerPos.get_modify_same {α : Type} (t : PerPos α) (p : Pos) (f : α → α) :
    (t.modify p f).get p = f (t.get p) := by
  simp [PerPos.modify]

theorem PerPos.get_modify {α : Type} (t : PerPos α) (p q : Pos) (f : α → α) :
    (t.modify p f).get q = if q = p then f (t.get q) else t.get q := by
  rw [PerPos.modify, PerPos.get_set]
  split
  · next h => rw [h]
  · rfl

theorem PerPos.get_modify_ne {α : Type} (t : PerPos α) {p q : Pos} (f : α → α) (h : q ≠ p) :
    (t.modify p f).get q = t.get q := by
  rw [PerPos.get_modify, if_neg h]

@[simp] theorem PerPos.get_all {α : Type} (x : α) (p : Pos) : (PerPos.all x).get p = x := by
  simp [PerPos.all, PerPos.get]

@[simp] theorem PerPos.get_map {α β : Type} (f : α → β) (t : PerPos α) (p : Pos) :
    (t.map f).get p = f (t.get p) := by
  simp [PerPos.map, PerPos.get]

@[simp] theorem PerPos.set_get_same {α : Type} (t : PerPos α) (p : Pos) : t.set p (t.get p) = t := by
  apply PerPos.ext_get
  intro q
  rw [PerPos.get_set]
  split
  · next h => rw [h]
  · rfl

@[simp] theorem PerPos.set_set_same {α : Type} (t : PerPos α) (p : Pos) (x y : α) :
    (t.set p x).set p y = t.set p y := by
  apply PerPos.ext_get
  intro q
  simp only [PerPos.get_set]
  split <;> rfl

@[simp] theorem PerPos.modify_modify_same {α : Type} (t : PerPos α) (p : Pos) (f g : α → α) :
    (t.modify p f).modify p g = t.modify p (fun x => g (f x)) := by
  simp [PerPos.modify]

end Sys2Proof
end

