-- ==== Sys2Proof/Laws/Outbound.lean ====
section
/-! SUPPORT. Laws of the outbound queue: what a record's entry, the service of owed notices and the engine's posts can
do, and what they leave. -/

namespace Sys2Proof.Machine

open Sys2Proof

variable (s : State) (p : Pos)

/-! ### Counting -/

theorem countP_append_one (f : OutRecord → Bool) (l : List OutRecord) (r : OutRecord) :
    (l ++ [r]).countP f = l.countP f + (if f r then 1 else 0) := by
  rw [List.countP_append, List.countP_singleton]

@[simp] theorem isReply_reply (k : ReqKind) (tag : Byte) (a : Answer) : (OutRecord.reply k tag a).isReply = true := rfl

@[simp] theorem isReply_notice (n : Notice) : (OutRecord.notice n).isReply = false := rfl

/-! ### A record joining -/

@[simp] theorem enqueue_oq (r : OutRecord) :
    (s.enqueue r).oq = { s.oq with queue := s.oq.queue ++ [r], begun := s.oq.begun || s.link.up } := rfl

@[simp] theorem enqueue_pending (r : OutRecord) : (s.enqueue r).pending = s.pending := rfl
@[simp] theorem enqueue_timeCount (r : OutRecord) : (s.enqueue r).timeCount = s.timeCount := rfl
@[simp] theorem enqueue_link (r : OutRecord) : (s.enqueue r).link = s.link := rfl
@[simp] theorem enqueue_pos (r : OutRecord) : (s.enqueue r).pos = s.pos := rfl
@[simp] theorem enqueue_bus (r : OutRecord) : (s.enqueue r).bus = s.bus := rfl
@[simp] theorem enqueue_intake (r : OutRecord) : (s.enqueue r).intake = s.intake := rfl
@[simp] theorem enqueue_tables (r : OutRecord) : (s.enqueue r).tables = s.tables := rfl
@[simp] theorem enqueue_attn (r : OutRecord) : (s.enqueue r).attn = s.attn := rfl
@[simp] theorem enqueue_entry (r : OutRecord) : (s.enqueue r).entry = s.entry := rfl
@[simp] theorem enqueue_pu (r : OutRecord) : (s.enqueue r).pu = s.pu := rfl
@[simp] theorem enqueue_line (r : OutRecord) : (s.enqueue r).line = s.line := rfl
@[simp] theorem enqueue_xs (r : OutRecord) : (s.enqueue r).xs = s.xs := rfl

/-! ### What the owed-notice service can do -/

/-- What one event of notice service leaves of a state: only the OQ, the change counts of the card lines and the
exchange records of served results may differ; the queue's replies and the reservation stay, and the notice limit
is kept. -/
structure Served (s t : State) : Prop where
  pending : t.pending = s.pending
  timeCount : t.timeCount = s.timeCount
  link : t.link = s.link
  pos : t.pos = s.pos
  bus : t.bus = s.bus
  intake : t.intake = s.intake
  tables : t.tables = s.tables
  attn : t.attn = s.attn
  entry : t.entry = s.entry
  pu : t.pu = s.pu
  line : ∀ p, ∃ n, t.line.get p = { s.line.get p with changes := n }
  xs : ∀ p, t.xs.get p = s.xs.get p ∨
    t.xs.get p = .none ∧ ∃ x o d, s.xs.get p = .some x ∧ x.phase = .held o d
  replies : t.oq.replies = s.oq.replies
  reservation : t.oq.reservation = s.oq.reservation
  limit : s.oq.notices + s.oq.reservation ≤ 64 → t.oq.notices + t.oq.reservation ≤ 64

theorem Served.refl (s : State) : Served s s :=
  ⟨rfl, rfl, rfl, rfl, rfl, rfl, rfl, rfl, rfl, rfl, fun p => ⟨(s.line.get p).changes, rfl⟩, fun _ => .inl rfl, rfl, rfl, id⟩

theorem Served.trans {s t u : State} (h : Served s t) (k : Served t u) : Served s u where
  pending := k.pending.trans h.pending
  timeCount := k.timeCount.trans h.timeCount
  link := k.link.trans h.link
  pos := k.pos.trans h.pos
  bus := k.bus.trans h.bus
  intake := k.intake.trans h.intake
  tables := k.tables.trans h.tables
  attn := k.attn.trans h.attn
  entry := k.entry.trans h.entry
  pu := k.pu.trans h.pu
  line := fun p => by
    obtain ⟨m, hm⟩ := h.line p
    obtain ⟨n, hn⟩ := k.line p
    exact ⟨n, by rw [hn, hm]⟩
  xs := fun p => by
    rcases k.xs p with hk | ⟨hk, x, o, d, hx, hp⟩
    · rw [hk]
      exact h.xs p
    · rcases h.xs p with hh | ⟨hh, _⟩
      · exact .inr ⟨hk, x, o, d, hh ▸ hx, hp⟩
      · rw [hh] at hx
        cases hx
  replies := k.replies.trans h.replies
  reservation := k.reservation.trans h.reservation
  limit := fun hs => k.limit (h.limit hs)

/-- The state after a flag is taken, before its notice joins the queue. -/
structure Taken (s t : State) : Prop where
  pending : t.pending = s.pending
  timeCount : t.timeCount = s.timeCount
  link : t.link = s.link
  pos : t.pos = s.pos
  bus : t.bus = s.bus
  intake : t.intake = s.intake
  tables : t.tables = s.tables
  attn : t.attn = s.attn
  entry : t.entry = s.entry
  pu : t.pu = s.pu
  line : ∀ p, ∃ n, t.line.get p = { s.line.get p with changes := n }
  xs : ∀ p, t.xs.get p = s.xs.get p ∨
    t.xs.get p = .none ∧ ∃ x o d, s.xs.get p = .some x ∧ x.phase = .held o d
  queue : t.oq.queue = s.oq.queue
  begun : t.oq.begun = s.oq.begun
  reservation : t.oq.reservation = s.oq.reservation

theorem takeOwed_taken (k : OwedKey) (s : State) (n : Notice) (t : State) (h : takeOwed k s = .some (n, t)) :
    Taken s t := by
  have same : ∀ q : Pos, ∃ m, s.line.get q = { s.line.get q with changes := m } := fun q => ⟨_, rfl⟩
  cases k with
  | result p =>
    simp only [takeOwed] at h
    split at h
    · cases h
    · next x hx =>
      split at h
      · cases h
      · next o d hp =>
        cases h
        refine ⟨rfl, rfl, rfl, rfl, rfl, rfl, rfl, rfl, rfl, rfl, same, fun q => ?_, rfl, rfl, rfl⟩
        by_cases hq : q = p
        · subst hq
          exact .inr ⟨by simp, x, o, d, hx, hp⟩
        · exact .inl (by simp [PerPos.get_set_ne _ _ hq])
  | expired p =>
    simp only [takeOwed] at h
    split at h
    · cases h
    · cases h
      exact ⟨rfl, rfl, rfl, rfl, rfl, rfl, rfl, rfl, rfl, rfl, same, fun _ => .inl rfl, rfl, rfl, rfl⟩
  | card p =>
    simp only [takeOwed] at h
    split at h
    · cases h
    · cases h
      refine ⟨rfl, rfl, rfl, rfl, rfl, rfl, rfl, rfl, rfl, rfl, fun q => ?_, fun _ => .inl rfl, rfl, rfl, rfl⟩
      by_cases hq : q = p
      · subst hq
        exact ⟨0, by simp⟩
      · exact ⟨(s.line.get q).changes, by simp [PerPos.get_modify_ne _ _ hq]⟩
  | keypad p =>
    simp only [takeOwed] at h
    split at h
    · cases h
    · cases h
      exact ⟨rfl, rfl, rfl, rfl, rfl, rfl, rfl, rfl, rfl, rfl, same, fun _ => .inl rfl, rfl, rfl, rfl⟩
  | pressure =>
    simp only [takeOwed] at h
    split at h
    · cases h
    · cases h
      exact ⟨rfl, rfl, rfl, rfl, rfl, rfl, rfl, rfl, rfl, rfl, same, fun _ => .inl rfl, rfl, rfl, rfl⟩

theorem serveOne_served (s : State) (k : OwedKey) : Served s (serveOne s k) := by
  simp only [serveOne]
  split
  · exact Served.refl s
  · next n t ht =>
    have h := takeOwed_taken k s n t ht
    split
    · next hf =>
      refine ⟨h.pending, h.timeCount, h.link, h.pos, h.bus, h.intake, h.tables, h.attn, h.entry, h.pu, h.line, h.xs,
        ?_, h.reservation, fun _ => ?_⟩
      · simp [OutQueue.replies, h.queue]
      · simp only [OutQueue.freeSlots, Config.noticeLimit, OutQueue.notices] at hf
        simp only [OutQueue.notices, enqueue_oq, countP_append_one, h.queue, h.reservation, isReply_notice]
        simp only [Bool.not_false, if_true]
        omega
    · exact Served.refl s

theorem foldl_serveOne_served (l : List OwedKey) (s : State) : Served s (l.foldl serveOne s) := by
  induction l generalizing s with
  | nil => exact Served.refl s
  | cons k rest ih => exact (serveOne_served s k).trans (ih _)

/-- Everything the owed-notice service can do (R177). -/
theorem serveOwed_served (s : State) : Served s (serveOwed s) := foldl_serveOne_served _ s

/-- With no flag set there is nothing to serve. -/
theorem serveOwed_of_none_owed (s : State) (h : anyOwed s = false) : serveOwed s = s := by
  have hk : ∀ k ∈ OwedKey.inOrder, takeOwed k s = .none := by
    intro k hk
    simp only [anyOwed, List.any_eq_false] at h
    have := h k hk
    simpa [isOwed] using this
  have : ∀ l : List OwedKey, (∀ k ∈ l, takeOwed k s = .none) → l.foldl serveOne s = s := by
    intro l
    induction l with
    | nil => intro _; rfl
    | cons k rest ih =>
      intro hl
      rw [List.foldl_cons, serveOne, hl k (by simp)]
      exact ih (fun j hj => hl j (by simp [hj]))
  exact this _ hk

/-- With no slot free nothing is served. -/
theorem serveOwed_of_full (s : State) (h : s.oq.freeSlots = 0) : serveOwed s = s := by
  have : ∀ l : List OwedKey, l.foldl serveOne s = s := by
    intro l
    induction l with
    | nil => rfl
    | cons k rest ih =>
      have hk : serveOne s k = s := by
        simp only [serveOne]
        split
        · rfl
        · rw [if_neg (by omega)]
      rw [List.foldl_cons, hk, ih]
  exact this _

theorem mem_inOrder (k : OwedKey) : k ∈ OwedKey.inOrder := by
  cases k with
  | result p => simp [OwedKey.inOrder, mem_allPositions]
  | expired p => simp [OwedKey.inOrder, mem_allPositions]
  | card p => simp [OwedKey.inOrder, mem_allPositions]
  | keypad p => simp [OwedKey.inOrder, mem_allPositions]
  | pressure => simp [OwedKey.inOrder]

theorem foldl_serveOne_of_none (l : List OwedKey) (s : State) (h : ∀ k, takeOwed k s = .none) :
    l.foldl serveOne s = s := by
  induction l with
  | nil => rfl
  | cons k rest ih => rw [List.foldl_cons, serveOne, h k]; exact ih

/-- With one flag set and a slot free, that flag's notice is queued and nothing else happens. -/
theorem serveOwed_single (s t : State) (k : OwedKey) (n : Notice) (hk : takeOwed k s = .some (n, t))
    (hs : ∀ j, j ≠ k → takeOwed j s = .none) (ht : ∀ j, takeOwed j (t.enqueue (.notice n)) = .none)
    (hf : 0 < s.oq.freeSlots) : serveOwed s = t.enqueue (.notice n) := by
  have : ∀ l : List OwedKey, k ∈ l → l.foldl serveOne s = t.enqueue (.notice n) := by
    intro l
    induction l with
    | nil => intro h; cases h
    | cons j rest ih =>
      intro hm
      by_cases hj : j = k
      · subst hj
        rw [List.foldl_cons, serveOne, hk]
        simp only [hf, if_true]
        exact foldl_serveOne_of_none rest _ ht
      · rw [List.foldl_cons, serveOne, hs j hj]
        exact ih ((List.mem_cons.1 hm).resolve_left (fun h => hj h.symm))
  exact this _ (mem_inOrder k)

theorem takeOwed_of_anyOwed (s : State) (h : anyOwed s = false) (k : OwedKey) : takeOwed k s = .none := by
  simp only [anyOwed, List.any_eq_false] at h
  have := h k (mem_inOrder k)
  simpa [isOwed] using this

end Sys2Proof.Machine
end

