-- ==== Sys2Proof/Laws/Posts.lean ====
section
/-! SUPPORT. Laws of the posts: what an owed notice's post does when a slot is free and nothing else is owed, and the
frames of the posts and of synthetic admission. -/

namespace Sys2Proof.Machine

open Sys2Proof

theorem served_post (s : State) (f : OutQueue → OutQueue) (hq : (f s.oq).queue = s.oq.queue)
    (hr : (f s.oq).reservation = s.oq.reservation) : Served s (serveOwed (s.onOq f)) := by
  have h := serveOwed_served (s.onOq f)
  exact ⟨h.pending, h.timeCount, h.link, h.pos, h.bus, h.intake, h.tables, h.attn, h.entry, h.pu, h.line, h.xs,
    h.replies.trans (by simp [OutQueue.replies, hq]), h.reservation.trans (by simp [hr]),
    fun hl => h.limit (by simpa [OutQueue.notices, hq, hr] using hl)⟩

/-- Everything the post of a CARD_STATE can do (R150). -/
theorem postCardState_served (p : Pos) (s : State) : Served s (postCardState p s) := served_post s _ rfl rfl

/-- Everything the post of a KEYPAD_STATE can do (R39). -/
theorem postKeypadState_served (p : Pos) (pr : Presence) (s : State) : Served s (postKeypadState p pr s) :=
  served_post s _ rfl rfl

/-- Everything the post of an expiry can do (R116). -/
theorem postExpired_served (p : Pos) (n : Nat) (sec : Bool) (m : Mode) (s : State) :
    Served s (postExpired p n sec m s) := served_post s _ rfl rfl

/-! ### The post of a CARD_STATE with a slot free -/

theorem takeOwed_result_none (s : State) (p : Pos) :
    takeOwed (.result p) s = .none ↔ ∀ x o d, s.xs.get p = .some x → x.phase ≠ .held o d := by
  simp only [takeOwed]
  split
  · next e => simp [e]
  · next x e =>
    split
    · next ea =>
      simp only [e, Option.some.injEq, true_iff]
      rintro y o d rfl hy
      rw [ea] at hy
      cases hy
    · next o d ea =>
      simp only [e, Option.some.injEq]
      constructor
      · intro h
        cases h
      · intro h
        exact absurd ea (h x o d rfl)

theorem takeOwed_expired_none (s : State) (p : Pos) : takeOwed (.expired p) s = .none ↔ s.oq.expired.get p = .none := by
  simp only [takeOwed]
  split <;> simp_all

theorem takeOwed_card_none (s : State) (p : Pos) : takeOwed (.card p) s = .none ↔ s.oq.cards.get p = .none := by
  simp only [takeOwed]
  split <;> simp_all

theorem takeOwed_keypad_none (s : State) (p : Pos) : takeOwed (.keypad p) s = .none ↔ s.oq.keypads.get p = .none := by
  simp only [takeOwed]
  split <;> simp_all

theorem takeOwed_pressure_none (s : State) : takeOwed .pressure s = .none ↔ s.oq.pressure = .none := by
  simp only [takeOwed]
  split <;> simp_all

/-- No flag is set exactly when no result is held and no owed content stands. -/
theorem anyOwed_false_iff (s : State) :
    anyOwed s = false ↔ (∀ p x o d, s.xs.get p = .some x → x.phase ≠ .held o d) ∧
      (∀ p, s.oq.expired.get p = .none) ∧ (∀ p, s.oq.cards.get p = .none) ∧ (∀ p, s.oq.keypads.get p = .none) ∧
      s.oq.pressure = .none := by
  constructor
  · intro h
    exact ⟨fun p => (takeOwed_result_none s p).1 (takeOwed_of_anyOwed s h _),
      fun p => (takeOwed_expired_none s p).1 (takeOwed_of_anyOwed s h _),
      fun p => (takeOwed_card_none s p).1 (takeOwed_of_anyOwed s h _),
      fun p => (takeOwed_keypad_none s p).1 (takeOwed_of_anyOwed s h _),
      (takeOwed_pressure_none s).1 (takeOwed_of_anyOwed s h _)⟩
  · rintro ⟨hx, he, hc, hk, hp⟩
    simp only [anyOwed, List.any_eq_false]
    intro k _
    cases k with
    | result p => simp [isOwed, (takeOwed_result_none s p).2 (hx p)]
    | expired p => simp [isOwed, (takeOwed_expired_none s p).2 (he p)]
    | card p => simp [isOwed, (takeOwed_card_none s p).2 (hc p)]
    | keypad p => simp [isOwed, (takeOwed_keypad_none s p).2 (hk p)]
    | pressure => simp [isOwed, (takeOwed_pressure_none s).2 hp]

/-- A state with the same exchange records and the same owed contents owes nothing either. -/
theorem anyOwed_false_congr (s t : State) (hx : t.xs = s.xs) (he : t.oq.expired = s.oq.expired)
    (hc : t.oq.cards = s.oq.cards) (hk : t.oq.keypads = s.oq.keypads) (hp : t.oq.pressure = s.oq.pressure)
    (h : anyOwed s = false) : anyOwed t = false := by
  rw [anyOwed_false_iff] at h ⊢
  rw [hx, he, hc, hk, hp]
  exact h

theorem PerPos.set_set_none {α : Type} (t : PerPos (Option α)) (p : Pos) (x : Option α) (h : t.get p = .none) :
    (t.set p x).set p .none = t := by
  rw [PerPos.set_set_same, ← h, PerPos.set_get_same]

/-- The CARD_STATE of a change of card state goes straight to the queue when nothing is owed and a slot is free
(R150, R177). -/
theorem postCardState_free (p : Pos) (s : State) (h : anyOwed s = false) (hf : 0 < s.oq.freeSlots) :
    postCardState p s =
      (s.onLine p fun l => { l with changes := 0 }).enqueue
        (.notice (.cardState p (s.line.get p).state (s.line.get p).presence (s.line.get p).cause
          (s.line.get p).changes)) := by
  obtain ⟨hx, he, hc, hk, hp⟩ := (anyOwed_false_iff s).1 h
  set o : OwedCard := ⟨(s.line.get p).state, (s.line.get p).presence, (s.line.get p).cause⟩ with ho
  set u : State := s.onOq fun q => { q with cards := q.cards.set p (.some o) } with hu
  have ht : takeOwed (.card p) u = .some (.cardState p o.state o.presence o.cause (u.line.get p).changes,
      s.onLine p fun l => { l with changes := 0 }) := by
    have hg : u.oq.cards.get p = .some o := by simp [hu]
    simp only [takeOwed, hg]
    congr 2
    simp only [hu, State.onOq, State.onLine, PerPos.set_set_none _ _ _ (hc p)]
  have hs : postCardState p s = serveOwed u := rfl
  rw [hs, serveOwed_single u _ (.card p) _ ht]
  · rfl
  · intro j hj
    cases j with
    | result q => exact (takeOwed_result_none u q).2 (hx q)
    | expired q => exact (takeOwed_expired_none u q).2 (he q)
    | card q =>
      have hq : q ≠ p := fun e => hj (by rw [e])
      exact (takeOwed_card_none u q).2 (by simp [hu, PerPos.get_set_ne _ _ hq, hc q])
    | keypad q => exact (takeOwed_keypad_none u q).2 (hk q)
    | pressure => exact (takeOwed_pressure_none u).2 hp
  · exact takeOwed_of_anyOwed _ (anyOwed_false_congr s _ rfl rfl rfl rfl rfl h)
  · simpa [hu, OutQueue.freeSlots, OutQueue.notices] using hf

end Sys2Proof.Machine
end

