-- ==== Sys2Proof/Laws/Intake.lean ====
section
/-! SUPPORT. Laws of the intake FIFO: what synthetic admission, flag service, release, a batch and the judgement of
pressure can do. -/

namespace Sys2Proof.Machine

open Sys2Proof

/-! ### Admission -/

/-- Everything synthetic admission can do (R48): only the IF changes, and of it the list or one flag. -/
theorem admit_cases (p : Pos) (k : Synth) (s : State) :
    (admitSynth p k s = s ∧ ((s.pos.get p).state = .closed ∨ (s.intake.flags.get p).get k = true)) ∨
    (admitSynth p k s = s.onIntake (fun f => f.enter p k.code .synthetic) ∧ (s.pos.get p).state = .opened ∧
      (s.intake.flags.get p).get k = false ∧ 1 ≤ s.intake.free) ∨
    (admitSynth p k s = s.onIntake (fun f => f.putFlag p k true) ∧ (s.pos.get p).state = .opened ∧
      (s.intake.flags.get p).get k = false ∧ s.intake.free = 0) := by
  simp only [admitSynth]
  split
  · next h => exact .inl ⟨rfl, .inl h⟩
  · next h =>
    by_cases hf : (s.intake.flags.get p).get k = true
    · rw [if_pos hf]
      exact .inl ⟨rfl, .inr hf⟩
    · have hff : (s.intake.flags.get p).get k = false := by simpa using hf
      rw [if_neg hf]
      by_cases hr : 1 ≤ s.intake.free
      · rw [if_pos hr]
        exact .inr (.inl ⟨rfl, h, hff, hr⟩)
      · rw [if_neg hr]
        exact .inr (.inr ⟨rfl, h, hff, by omega⟩)

/-- Admission changes nothing but the IF. -/
theorem admit_eq_onIntake (p : Pos) (k : Synth) (s : State) : ∃ f, admitSynth p k s = s.onIntake f := by
  rcases admit_cases p k s with ⟨h, _⟩ | ⟨h, _⟩ | ⟨h, _⟩
  · exact ⟨id, h⟩
  · exact ⟨_, h⟩
  · exact ⟨_, h⟩

theorem foldl_admit_eq_onIntake (p : Pos) (l : List Synth) (s : State) :
    ∃ f, l.foldl (fun t k => admitSynth p k t) s = s.onIntake f := by
  induction l generalizing s with
  | nil => exact ⟨id, rfl⟩
  | cons k rest ih =>
    obtain ⟨f, hf⟩ := admit_eq_onIntake p k s
    obtain ⟨g, hg⟩ := ih (s.onIntake f)
    exact ⟨fun x => g (f x), by rw [List.foldl_cons, hf, hg]; rfl⟩

/-- Admission to a CLOSED position does nothing (R10, R48). -/
theorem admit_of_closed (p : Pos) (k : Synth) (s : State) (h : (s.pos.get p).state = .closed) : admitSynth p k s = s := by
  simp [admitSynth, h]

/-- Admission with the flag clear and a place free enters the code (R48). -/
theorem admit_of_free (p : Pos) (k : Synth) (s : State) (h : (s.pos.get p).state = .opened)
    (hf : (s.intake.flags.get p).get k = false) (hr : 1 ≤ s.intake.free) :
    admitSynth p k s = s.onIntake fun f => f.enter p k.code .synthetic := by
  simp [admitSynth, h, hf, hr]

/-! ### Flags -/

theorem PendingFlags.get_put (f : PendingFlags) (j k : Synth) (v : Bool) :
    (f.put k v).get j = if j = k then v else f.get j := by
  cases k <;> cases j <;> rfl

theorem PendingFlags.count_clear : PendingFlags.clear.count = 0 := rfl

theorem PendingFlags.eq_clear_iff (f : PendingFlags) : f = PendingFlags.clear ↔ ∀ k, f.get k = false := by
  constructor
  · rintro rfl k
    cases k <;> rfl
  · intro h
    cases f
    have h0 := h .interkeyLapse
    have h1 := h .cardArrived
    have h2 := h .cardSeated
    have h3 := h .cardGone
    have h4 := h .keypadLost
    have h5 := h .keypadBack
    have h6 := h .promptEnded
    have h7 := h .keypadAlarm
    simp only [PendingFlags.get] at h0 h1 h2 h3 h4 h5 h6 h7
    simp [PendingFlags.clear, h0, h1, h2, h3, h4, h5, h6, h7]

theorem PendingFlags.count_eq_zero_iff (f : PendingFlags) : f.count = 0 ↔ ∀ k, f.get k = false := by
  simp only [PendingFlags.count, List.countP_eq_zero]
  constructor
  · intro h k
    have := h k (by cases k <;> decide)
    simpa using this
  · intro h k _
    simp [h k]

/-- No flag is counted exactly when every flag is clear (R26, R49). -/
theorem Intake.flagCount_eq_zero_iff (f : Intake) : f.flagCount = 0 ↔ ∀ p k, (f.flags.get p).get k = false := by
  simp only [Intake.flagCount, List.sum_eq_zero_iff, List.mem_map]
  constructor
  · intro h p
    exact (PendingFlags.count_eq_zero_iff _).1 (h _ ⟨p, mem_allPositions p, rfl⟩)
  · rintro h n ⟨p, _, rfl⟩
    exact (PendingFlags.count_eq_zero_iff _).2 (h p)

/-! ### Service -/

/-- What a service of flags does to an IF (R49): it never changes the reserved count or the pressure, it only adds
entries, sets no flag, and keeps within the places. -/
structure FlagsServed (f g : Intake) : Prop where
  reserved : g.reserved = f.reserved
  pressure : g.pressure = f.pressure
  entries : ∃ l : List IntakeEntry, g.entries = f.entries ++ l ∧
    ∀ e ∈ l, e.origin = .synthetic ∧ e.void = false ∧ ∃ k, e.code = Synth.code k ∧ (f.flags.get e.pos).get k = true
  flags : ∀ p k, (g.flags.get p).get k = true → (f.flags.get p).get k = true
  within : f.occupied + f.reserved ≤ 128 → g.occupied + g.reserved ≤ 128

theorem FlagsServed.refl (f : Intake) : FlagsServed f f :=
  ⟨rfl, rfl, ⟨[], by simp, by simp⟩, fun _ _ h => h, id⟩

theorem FlagsServed.trans {f g h : Intake} (a : FlagsServed f g) (b : FlagsServed g h) : FlagsServed f h where
  reserved := b.reserved.trans a.reserved
  pressure := b.pressure.trans a.pressure
  entries := by
    obtain ⟨l, hl, hm⟩ := a.entries
    obtain ⟨m, hm', hn⟩ := b.entries
    refine ⟨l ++ m, by rw [hm', hl, List.append_assoc], fun e he => ?_⟩
    rcases List.mem_append.1 he with he | he
    · exact hm e he
    · obtain ⟨ho, hv, k, hk, hf⟩ := hn e he
      exact ⟨ho, hv, k, hk, a.flags e.pos k hf⟩
  flags := fun p k hk => a.flags p k (b.flags p k hk)
  within := fun hf => b.within (a.within hf)

theorem Intake.serveIfFree_served (f : Intake) (x : Pos × Synth) : FlagsServed f (f.serveIfFree x) := by
  simp only [Intake.serveIfFree]
  split
  · next h =>
    refine ⟨rfl, rfl, ⟨[⟨x.1, x.2.code, .synthetic, false⟩], rfl, ?_⟩, ?_, ?_⟩
    · intro e he
      rw [List.mem_singleton] at he
      subst he
      exact ⟨rfl, rfl, x.2, rfl, h.1⟩
    · intro p k hk
      simp only [Intake.serveFlag, Intake.putFlag, Intake.enter, PerPos.get_modify] at hk
      split at hk
      · rw [PendingFlags.get_put] at hk
        split at hk
        · cases hk
        · exact hk
      · exact hk
    · intro _
      have hf := h.2
      simp only [Intake.free, Config.fifoPlaces, Intake.occupied] at hf
      simp only [Intake.serveFlag, Intake.putFlag, Intake.enter, Intake.occupied, List.length_append, List.length_singleton]
      omega
  · exact FlagsServed.refl f

theorem foldl_serveIfFree_served (l : List (Pos × Synth)) (f : Intake) : FlagsServed f (l.foldl Intake.serveIfFree f) := by
  induction l generalizing f with
  | nil => exact FlagsServed.refl f
  | cons x rest ih => exact (Intake.serveIfFree_served f x).trans (ih _)

/-- Everything the ordinary service of the flags can do (R49). -/
theorem Intake.serveFlags_served (f : Intake) : FlagsServed f f.serveFlags := foldl_serveIfFree_served _ f

/-- With no flag set there is nothing to serve. -/
theorem Intake.serveFlags_of_clear (f : Intake) (h : f.flagCount = 0) : f.serveFlags = f := by
  have hc := (Intake.flagCount_eq_zero_iff f).1 h
  have : ∀ l : List (Pos × Synth), l.foldl Intake.serveIfFree f = f := by
    intro l
    induction l with
    | nil => rfl
    | cons x rest ih =>
      have hx : f.serveIfFree x = f := by simp [Intake.serveIfFree, hc x.1 x.2]
      rw [List.foldl_cons, hx, ih]
  exact this _

/-- The service of a position's own flags ahead of its batch, with none set (R47). -/
theorem Intake.serveOwn_of_clear (f : Intake) (p : Pos) (h : f.flags.get p = PendingFlags.clear) (l : List Synth)
    (n : Nat) : f.serveOwn p l n = f := by
  have hc := (PendingFlags.eq_clear_iff _).1 h
  induction l generalizing n with
  | nil => cases n <;> rfl
  | cons k rest ih =>
    cases n with
    | zero => rfl
    | succ n => simp [Intake.serveOwn, hc k, ih]

/-- The end of a reservation with no code entered and no flag waiting (R45). -/
theorem Intake.release_of_clear (f : Intake) (n : Nat) (h : f.flagCount = 0) :
    f.release n = { f with reserved := f.reserved - n } := by
  rw [Intake.release, Intake.serveFlags_of_clear]
  exact h

/-- A batch with no flag waiting: its codes stand at the tail in order, and the whole reservation is spent or
released (R46). -/
theorem Intake.enterBatch_of_clear (f : Intake) (p : Pos) (codes : List Code) (n : Nat) (h : f.flagCount = 0) :
    f.enterBatch p codes n =
      { f with
        reserved := f.reserved - n
        entries := f.entries ++ codes.map fun c => ⟨p, c, .keypad, false⟩ } := by
  have hp : f.flags.get p = PendingFlags.clear :=
    (PendingFlags.eq_clear_iff _).2 ((Intake.flagCount_eq_zero_iff f).1 h p)
  have ho := Intake.serveOwn_of_clear { f with reserved := f.reserved - n } p hp Synth.inOrder (n - codes.length)
  rw [Intake.enterBatch, ho]
  simp only []
  rw [Intake.serveFlags_of_clear]
  exact h

/-! ### Pressure -/

/-- Everything the judgement of pressure can do (R52, R53). -/
theorem judgePressure_cases (before s : State) :
    judgePressure before s = s ∨
    ∃ x, x ≠ s.intake.pressure ∧ Served (s.onIntake fun f => { f with pressure := x }) (judgePressure before s) := by
  simp only [judgePressure]
  split
  · exact .inl rfl
  · split
    · exact .inl rfl
    · next h =>
      exact .inr ⟨_, h, served_post (s.onIntake fun f => { f with pressure := _ }) _ rfl rfl⟩

/-- Pressure stays where the test of R52 leaves it. -/
theorem judgePressure_of_same (before s : State)
    (h : nextPressure s.intake.pressure (s.intake.occupied + s.intake.reserved) = s.intake.pressure) :
    judgePressure before s = s := by
  simp [judgePressure, h]

end Sys2Proof.Machine
end

