-- ==== Sys2Proof/Laws/Operands.lean ====
section
/-! SUPPORT. Laws of the formats: a field written and read again, and the check's shape. -/

namespace Sys2Proof.Machine

open Sys2Proof

/-- A number below the limit survives its byte. -/
theorem below_byte {n : Nat} (hn : n ≤ 256) (i : Fin n) : below n (BitVec.ofNat 8 i.val) = .some i := by
  have hi : i.val % 2 ^ 8 = i.val := Nat.mod_eq_of_lt (by have := i.isLt; omega)
  have hlt : (BitVec.ofNat 8 i.val).toNat < n := by
    rw [BitVec.toNat_ofNat, hi]
    exact i.isLt
  rw [below, dif_pos hlt]
  congr 1
  apply Fin.ext
  simpa using hi

@[simp] theorem below_pos (p : Pos) : below 16 (BitVec.ofNat 8 p.val) = .some p := below_byte (by decide) p

@[simp] theorem below_four (g : Fin 4) : below 4 (BitVec.ofNat 8 g.val) = .some g := below_byte (by decide) g

@[simp] theorem below_mode (m : Mode) : below 8 (BitVec.ofNat 8 m.val) = .some m := below_byte (by decide) m

/-- A byte at or above the limit is no such number. -/
theorem below_none {n : Nat} {b : Byte} (h : n ≤ b.toNat) : below n b = .none := by
  rw [below, dif_neg (by omega)]

/-- A 1-byte number survives its byte. -/
theorem toNat_byte {n : Nat} (h : n < 256) : (BitVec.ofNat 8 n).toNat = n := by
  rw [BitVec.toNat_ofNat]
  omega

/-- A 2-byte number survives its two bytes. -/
theorem be16_bytes {n : Nat} (h : n < 65536) : be16 (BitVec.ofNat 8 (n / 256)) (BitVec.ofNat 8 n) = n := by
  simp only [be16, BitVec.toNat_ofNat]
  omega

/-- A 4-byte number survives its four bytes. -/
theorem be32_bytes {n : Nat} (h : n < 4294967296) :
    be32 (BitVec.ofNat 8 (n / 16777216)) (BitVec.ofNat 8 (n / 65536)) (BitVec.ofNat 8 (n / 256)) (BitVec.ofNat 8 n) = n := by
  simp only [be32, be16, BitVec.toNat_ofNat]
  omega

/-- The sums stay below 255 (R185). -/
theorem checkStep_lt (sums : Nat × Nat) (b : Byte) : (checkStep sums b).1 < 255 ∧ (checkStep sums b).2 < 255 := by
  constructor
  · exact Nat.mod_lt _ (by decide)
  · exact Nat.mod_lt _ (by decide)

theorem foldl_checkStep_lt (l : List Byte) (sums : Nat × Nat) (h : sums.1 < 255 ∧ sums.2 < 255) :
    (l.foldl checkStep sums).1 < 255 ∧ (l.foldl checkStep sums).2 < 255 := by
  induction l generalizing sums with
  | nil => exact h
  | cons b rest ih => exact ih _ (checkStep_lt sums b)

theorem checkSums_lt (l : List Byte) : (checkSums l).1 < 255 ∧ (checkSums l).2 < 255 :=
  foldl_checkStep_lt l (0, 0) ⟨by decide, by decide⟩

@[simp] theorem checkBytes_length (l : List Byte) : (checkBytes l).length = 2 := rfl

/-- The first sum is the plain sum of the bytes modulo 255. -/
theorem foldl_checkStep_fst (l : List Byte) (sums : Nat × Nat) (h : sums.1 < 255) :
    (l.foldl checkStep sums).1 = (sums.1 + (l.map BitVec.toNat).sum) % 255 := by
  induction l generalizing sums with
  | nil => simp [Nat.mod_eq_of_lt h]
  | cons b rest ih =>
    rw [List.foldl_cons, ih _ (checkStep_lt sums b).1]
    simp only [checkStep, List.map_cons, List.sum_cons]
    omega

theorem checkSums_fst (l : List Byte) : (checkSums l).1 = (l.map BitVec.toNat).sum % 255 := by
  rw [checkSums, foldl_checkStep_fst l (0, 0) (by decide)]
  simp

end Sys2Proof.Machine
end

