-- ==== Sys2Proof/Laws/CardLines.lean ====
section
/-! SUPPORT. Laws of the card lines and exchanges: the work of one line leaves every other line, position and block as it
was, but for the notices it posts and the owed notices those events serve. -/

namespace Sys2Proof.Machine

open Sys2Proof

/-- An entry after line work: as it was, wiped, or marked presented (R121, R160, R167). -/
def EntryAfter (e f : Option Entry) : Prop :=
  f = e ∨ f = .none ∨ f = e.map fun x => { x with presented := true }

/-- Everything that work on the line of position `p` can change: that line, that position's exchange record and entry,
the OQ, and, by the notices served, the change counts of other lines and the records of served results. -/
structure LineWork (p : Pos) (s t : State) : Prop where
  pending : t.pending = s.pending
  timeCount : t.timeCount = s.timeCount
  link : t.link = s.link
  pos : t.pos = s.pos
  bus : t.bus = s.bus
  intake : t.intake = s.intake
  tables : t.tables = s.tables
  attn : t.attn = s.attn
  pu : t.pu = s.pu
  entry : ∀ q, q ≠ p → t.entry.get q = s.entry.get q
  line : ∀ q, q ≠ p → ∃ n, t.line.get q = { s.line.get q with changes := n }
  xs : ∀ q, q ≠ p → t.xs.get q = s.xs.get q ∨
    t.xs.get q = .none ∧ ∃ x o d, s.xs.get q = .some x ∧ x.phase = .held o d
  replies : t.oq.replies = s.oq.replies
  reservation : t.oq.reservation = s.oq.reservation
  limit : s.oq.notices + s.oq.reservation ≤ 64 → t.oq.notices + t.oq.reservation ≤ 64

variable {p : Pos} {s t u : State}

theorem LineWork.refl (p : Pos) (s : State) : LineWork p s s :=
  ⟨rfl, rfl, rfl, rfl, rfl, rfl, rfl, rfl, rfl, fun _ _ => rfl, fun q _ => ⟨(s.line.get q).changes, rfl⟩,
    fun _ _ => .inl rfl, rfl, rfl, id⟩

theorem LineWork.trans (h : LineWork p s t) (k : LineWork p t u) : LineWork p s u where
  pending := k.pending.trans h.pending
  timeCount := k.timeCount.trans h.timeCount
  link := k.link.trans h.link
  pos := k.pos.trans h.pos
  bus := k.bus.trans h.bus
  intake := k.intake.trans h.intake
  tables := k.tables.trans h.tables
  attn := k.attn.trans h.attn
  pu := k.pu.trans h.pu
  entry := fun q hq => (k.entry q hq).trans (h.entry q hq)
  line := fun q hq => by
    obtain ⟨m, hm⟩ := h.line q hq
    obtain ⟨n, hn⟩ := k.line q hq
    exact ⟨n, by rw [hn, hm]⟩
  xs := fun q hq => by
    rcases k.xs q hq with hk | ⟨hk, x, o, d, hx, hp⟩
    · rw [hk]
      exact h.xs q hq
    · rcases h.xs q hq with hh | ⟨hh, _⟩
      · exact .inr ⟨hk, x, o, d, hh ▸ hx, hp⟩
      · rw [hh] at hx
        cases hx
  replies := k.replies.trans h.replies
  reservation := k.reservation.trans h.reservation
  limit := fun hs => k.limit (h.limit hs)

theorem Served.lineWork (p : Pos) (h : Served s t) : LineWork p s t :=
  ⟨h.pending, h.timeCount, h.link, h.pos, h.bus, h.intake, h.tables, h.attn, h.pu, fun q _ => by rw [h.entry],
    fun q _ => h.line q, fun q _ => h.xs q, h.replies, h.reservation, h.limit⟩

theorem onLine_lineWork (p : Pos) (f : CardLine → CardLine) (s : State) : LineWork p s (s.onLine p f) :=
  ⟨rfl, rfl, rfl, rfl, rfl, rfl, rfl, rfl, rfl, fun _ _ => rfl,
    fun q hq => ⟨(s.line.get q).changes, by simp [PerPos.get_modify_ne _ _ hq]⟩, fun _ _ => .inl rfl, rfl, rfl, id⟩

theorem putXs_lineWork (p : Pos) (x : Option Exchange) (s : State) : LineWork p s (s.putXs p x) :=
  ⟨rfl, rfl, rfl, rfl, rfl, rfl, rfl, rfl, rfl, fun _ _ => rfl, fun q _ => ⟨(s.line.get q).changes, rfl⟩,
    fun q hq => .inl (by simp [PerPos.get_set_ne _ _ hq]), rfl, rfl, id⟩

theorem putEntry_lineWork (p : Pos) (e : Option Entry) (s : State) : LineWork p s (s.putEntry p e) :=
  ⟨rfl, rfl, rfl, rfl, rfl, rfl, rfl, rfl, rfl, fun q hq => by simp [PerPos.get_set_ne _ _ hq],
    fun q _ => ⟨(s.line.get q).changes, rfl⟩, fun _ _ => .inl rfl, rfl, rfl, id⟩

/-- A move of the card state with its CARD_STATE (R150). -/
theorem moveCard_lineWork (p : Pos) (st : CardState) (s : State) : LineWork p s (moveCard p st s) :=
  (onLine_lineWork p _ s).trans ((postCardState_served p _).lineWork p)

theorem wipePresented_lineWork (p : Pos) (s : State) : LineWork p s (wipePresented p s) := by
  simp only [wipePresented]
  split
  · exact LineWork.refl p s
  · split
    · exact putEntry_lineWork p _ s
    · exact LineWork.refl p s

/-- Everything the end of an exchange can do (R166). -/
theorem endExchange_lineWork (p : Pos) (o : ExchangeOutcome) (d : Option (List Byte)) (s : State) :
    LineWork p s (endExchange p o d s) := by
  simp only [endExchange]
  split
  · exact LineWork.refl p s
  · split
    · exact LineWork.refl p s
    · next x _ _ _ =>
      have held : LineWork p s ((s.onLine p CardLine.dropOpening).putXs p
          (.some { x with timer := .stopped, phase := .held o d, command := .none, header := .none })) :=
        (onLine_lineWork p _ s).trans (putXs_lineWork p _ _)
      have done : ∀ v, LineWork p s v → LineWork p s ((serveOwed v).onLine p CardLine.loadSilence) := fun v hv =>
        hv.trans (((serveOwed_served v).lineWork p).trans (onLine_lineWork p _ _))
      split
      · exact done _ (held.trans (wipePresented_lineWork p _))
      all_goals exact done _ held

theorem openFrame_lineWork (p : Pos) (x : Exchange) (s : State) (g : TxFrame) (t : State)
    (h : openFrame p x s = .some (g, t)) : LineWork p s t := by
  simp only [openFrame] at h
  split at h
  · cases h
    exact putXs_lineWork p _ s
  · cases h
    exact putXs_lineWork p _ s
  · split at h
    · cases h
    · cases h
      exact (putXs_lineWork p _ s).trans (putEntry_lineWork p _ _)
  · cases h

theorem beginNext_lineWork (p : Pos) (l : List TxFrame) (s : State) : LineWork p s (beginNext p l s) := by
  induction l generalizing s with
  | nil => exact onLine_lineWork p _ s
  | cons f rest ih =>
    cases f with
    | opening =>
      simp only [beginNext]
      split
      · exact ih s
      · split
        · next hx => exact (openFrame_lineWork p _ s _ _ hx).trans (onLine_lineWork p _ _)
        · exact ((onLine_lineWork p _ s).trans ((endExchange_lineWork p _ _ _).trans (moveCard_lineWork p _ _))).trans (ih _)
    | hello | powerOn | powerOff | command _ | eject | askRepeat => exact onLine_lineWork p _ s

/-- Everything the transmit list's going on can do (R137, R156, R160). -/
theorem pump_lineWork (p : Pos) (s : State) : LineWork p s (pump p s) := by
  simp only [pump]
  split
  · exact LineWork.refl p s
  · exact beginNext_lineWork p _ s

/-- Everything that asking for a frame can do. -/
theorem ask_lineWork (p : Pos) (f : TxFrame) (s : State) : LineWork p s (ask p f s) :=
  (onLine_lineWork p _ s).trans (pump_lineWork p _)

theorem settleLine_lineWork (p : Pos) (s : State) : LineWork p s (settleLine p s) := onLine_lineWork p _ s

/-- Everything the loss of a line can do (R144). -/
theorem loseLine_lineWork (p : Pos) (s : State) : LineWork p s (loseLine p s) :=
  (onLine_lineWork p _ s).trans ((endExchange_lineWork p _ _ _).trans ((onLine_lineWork p _ _).trans
    ((postCardState_served p _).lineWork p)))

theorem failDuring_lineWork (p : Pos) (x : Exchange) (s : State) : LineWork p s (failDuring p x s) := by
  simp only [failDuring]
  split
  · exact (putXs_lineWork p _ s).trans (ask_lineWork p _ _)
  · split
    · exact endExchange_lineWork p _ _ s
    all_goals exact (onLine_lineWork p _ s).trans ((ask_lineWork p _ _).trans ((moveCard_lineWork p _ _).trans
        (endExchange_lineWork p _ _ _)))

theorem failOutside_lineWork (p : Pos) (s : State) : LineWork p s (failOutside p s) := by
  simp only [failOutside]
  split
  · exact (onLine_lineWork p _ s).trans (loseLine_lineWork p _)
  · exact onLine_lineWork p _ s

/-- Everything a failing frame can do (R139, R165). -/
theorem failFrame_lineWork (p : Pos) (s : State) : LineWork p s (failFrame p s) := by
  simp only [failFrame]
  split
  · exact (onLine_lineWork p _ s).trans (failOutside_lineWork p _)
  · split
    · exact (onLine_lineWork p _ s).trans (failDuring_lineWork p _ _)
    · exact (onLine_lineWork p _ s).trans (failOutside_lineWork p _)

theorem abandon_lineWork (p : Pos) (s : State) : LineWork p s (abandon p s) := by
  simp only [abandon]
  split
  · exact LineWork.refl p s
  · exact failFrame_lineWork p s

theorem missHello_lineWork (p : Pos) (s : State) : LineWork p s (missHello p s) := by
  simp only [missHello]
  split
  · exact (onLine_lineWork p _ s).trans (loseLine_lineWork p _)
  · exact (onLine_lineWork p _ s).trans (onLine_lineWork p _ _)

/-- Everything the restoration of a line can do (R145). -/
theorem restoreLine_lineWork (p : Pos) (r : ReaderCondition) (s : State) : LineWork p s (restoreLine p r s) := by
  simp only [restoreLine]
  split
  · exact (onLine_lineWork p _ s).trans ((ask_lineWork p _ _).trans ((postCardState_served p _).lineWork p))
  · exact (onLine_lineWork p _ s).trans ((postCardState_served p _).lineWork p)

theorem takeAnswer_lineWork (p : Pos) (awaits : ExchangeKind → Bool) (fits : Bool) (payload : List Byte) (s : State) :
    LineWork p s (takeAnswer p awaits fits payload s) := by
  simp only [takeAnswer]
  split
  · exact onLine_lineWork p _ s
  · split
    · exact onLine_lineWork p _ s
    · split
      · exact onLine_lineWork p _ s
      · split
        · exact (moveCard_lineWork p _ s).trans (endExchange_lineWork p _ _ _)
        · exact (onLine_lineWork p _ s).trans (failDuring_lineWork p _ _)

/-- Everything a valid ANSWER or RESPONSE can do (R162). -/
theorem answerArrives_lineWork (p : Pos) (awaits : ExchangeKind → Bool) (fits : Bool) (payload : List Byte)
    (s : State) : LineWork p s (answerArrives p awaits fits payload s) := by
  simp only [answerArrives]
  split
  · exact (onLine_lineWork p _ s).trans ((onLine_lineWork p _ _).trans (settleLine_lineWork p _))
  · exact (onLine_lineWork p _ s).trans ((takeAnswer_lineWork p _ _ _ _).trans (settleLine_lineWork p _))

theorem foldl_ask_lineWork (p : Pos) (frames : List TxFrame) (s : State) :
    LineWork p s (frames.foldl (fun t f => ask p f t) s) := by
  induction frames generalizing s with
  | nil => exact LineWork.refl p s
  | cons f rest ih => exact (ask_lineWork p f s).trans (ih _)

/-- Everything the acceptance of a card request can do (R155). -/
theorem startExchange_lineWork (p : Pos) (x : Exchange) (st : CardState) (frames : List TxFrame) (s : State) :
    LineWork p s (startExchange p x st frames s) :=
  (putXs_lineWork p _ s).trans ((moveCard_lineWork p _ _).trans (foldl_ask_lineWork p frames _))

theorem powerDown_lineWork (p : Pos) (k : ExchangeKind) (s : State) : LineWork p s (powerDown p k s) := by
  cases k with
  | release => exact LineWork.refl p s
  | power | command | present =>
    exact (onLine_lineWork p _ s).trans ((ask_lineWork p _ _).trans (moveCard_lineWork p _ _))

/-- Everything an abort can do (R168). -/
theorem abortExchange_lineWork (p : Pos) (x : Exchange) (s : State) : LineWork p s (abortExchange p x s) := by
  have hg : LineWork p s ((powerDown p x.kind s).putXs p .none) := (powerDown_lineWork p _ s).trans (putXs_lineWork p _ _)
  have hf : ∀ v, LineWork p s v → LineWork p s (settleLine p (v.onLine p CardLine.loadSilence)) := fun v hv =>
    hv.trans ((onLine_lineWork p _ _).trans (settleLine_lineWork p _))
  simp only [abortExchange]
  split
  · exact hf _ (hg.trans (wipePresented_lineWork p _))
  all_goals exact hf _ hg

/-- Everything a valid STATE frame outside NO_READER can do (R146): line work, then the codes admitted. -/
theorem reportCard_work (p : Pos) (r : ReaderCondition) (s : State) :
    ∃ v f, LineWork p s v ∧ reportCard p r s = v.onIntake f := by
  simp only [reportCard]
  split
  · exact ⟨s, id, LineWork.refl p s, rfl⟩
  · next e he =>
    obtain ⟨f, hf⟩ := foldl_admit_eq_onIntake p e.codes
      (postCardState p (if e.ends = true then
        endExchange p .cardGone .none (s.onLine p fun l =>
          { l.move e.state with cause := if l.state = .fault then .none else l.cause })
        else s.onLine p fun l => { l.move e.state with cause := if l.state = .fault then .none else l.cause }))
    refine ⟨_, f, ?_, hf⟩
    split
    · exact (onLine_lineWork p _ s).trans ((endExchange_lineWork p _ _ _).trans ((postCardState_served p _).lineWork p))
    · exact (onLine_lineWork p _ s).trans ((postCardState_served p _).lineWork p)

/-! ### The valid frames -/

theorem onIntake_id (s : State) : s.onIntake id = s := rfl

theorem settleLine_onIntake (p : Pos) (f : Intake → Intake) (s : State) :
    settleLine p (s.onIntake f) = (settleLine p s).onIntake f := rfl

/-- Everything a valid STATE frame can do (R145, R146): line work, then the codes admitted and pressure judged. -/
theorem takeState_work (p : Pos) (r : ReaderCondition) (s : State) :
    ∃ v f, LineWork p s v ∧ takeState p r s = judgePressure s (v.onIntake f) := by
  have h : LineWork p s (s.onLine p CardLine.validFrame) := onLine_lineWork p _ s
  simp only [takeState]
  split
  · exact ⟨settleLine p (restoreLine p r (s.onLine p CardLine.validFrame)), id,
      h.trans ((restoreLine_lineWork p r _).trans (settleLine_lineWork p _)), by rw [onIntake_id]⟩
  · obtain ⟨v, f, hv, he⟩ := reportCard_work p r (s.onLine p CardLine.validFrame)
    exact ⟨settleLine p v, f, h.trans (hv.trans (settleLine_lineWork p v)), by rw [he, settleLine_onIntake]⟩

/-- Everything a valid FAULT frame can do (R147). -/
theorem takeFault_lineWork (p : Pos) (c : FaultCause) (s : State) : LineWork p s (takeFault p c s) := by
  have h : LineWork p s (s.onLine p CardLine.validFrame) := onLine_lineWork p _ s
  simp only [takeFault]
  refine LineWork.trans ?_ (settleLine_lineWork p _)
  split
  · exact h.trans (onLine_lineWork p _ _)
  · exact h.trans (onLine_lineWork p _ _)
  all_goals exact h.trans ((onLine_lineWork p _ _).trans ((endExchange_lineWork p _ _ _).trans
    ((postCardState_served p _).lineWork p)))

/-- Everything a valid DONE frame can do (R148). -/
theorem takeDone_lineWork (p : Pos) (s : State) : LineWork p s (takeDone p s) := by
  have h : LineWork p s (s.onLine p CardLine.validFrame) := onLine_lineWork p _ s
  simp only [takeDone]
  refine LineWork.trans ?_ (settleLine_lineWork p _)
  split
  · split
    · exact h.trans ((moveCard_lineWork p _ _).trans (endExchange_lineWork p _ _ _))
    · exact h.trans (moveCard_lineWork p _ _)
  · exact h.trans (onLine_lineWork p _ _)

theorem takeUnlisted_lineWork (p : Pos) (s : State) : LineWork p s (takeUnlisted p s) :=
  (onLine_lineWork p _ s).trans (settleLine_lineWork p _)

/-! ### The receiver (R138, R185) -/

@[simp] theorem setRx_line (p : Pos) (rx : FrameRx) (s : State) :
    (setRx p rx s).line = s.line.modify p fun l => { l with rx := rx } := rfl

@[simp] theorem setRx_setRx (p : Pos) (rx rx' : FrameRx) (s : State) : setRx p rx' (setRx p rx s) = setRx p rx' s := by
  simp [setRx, State.onLine]

/-- The receiver set to the state it has. -/
theorem setRx_same {p : Pos} {rx : FrameRx} {s : State} (h : (s.line.get p).rx = rx) : setRx p rx s = s := by
  subst h
  exact congrArg (fun l => { s with line := l }) (PerPos.set_get_same s.line p)

/-- A frame of at most 240 payload bytes passes, and reads as it was sent (R138, R185). -/
theorem goodFrame_bytes (kind : Byte) (payload : List Byte) (hp : payload.length ≤ 240) :
    goodFrame (frameBytes kind payload) = .some (kind, payload) := by
  have hn : payload.length % 256 = payload.length := Nat.mod_eq_of_lt (by omega)
  have he : frameBytes kind payload =
      kind :: BitVec.ofNat 8 payload.length :: (payload ++ checkBytes (frameBody kind payload)) := rfl
  rw [he]
  simp [goodFrame, hn, hp, Config.framePayload, passesCheck, checkBytes_length]

/-- Bytes that end a frame still end it with more behind them. -/
theorem frameEnds_append (l m : List Byte) (h : frameEnds l = true) : frameEnds (l ++ m) = true := by
  match l with
  | [] | [_] => simp [frameEnds] at h
  | _ :: len :: rest =>
    simp only [frameEnds, decide_eq_true_eq, List.cons_append, List.length_append] at h ⊢
    omega

/-- Bytes that do not end the frame are taken (R138). -/
theorem foldl_lineByte_taken {got : List Byte} (l : List Byte) (hrx : (s.line.get p).rx = .receiving got)
    (hn : frameEnds (got ++ l) = false) : l.foldl (lineByte p) s = setRx p (.receiving (got ++ l)) s := by
  induction l generalizing s got with
  | nil => simpa using (setRx_same hrx).symm
  | cons b rest ih =>
    have hb : frameEnds (got ++ [b]) = false := by
      by_contra hc
      have := frameEnds_append (got ++ [b]) rest (by simpa using hc)
      simp [hn] at this
    have hs : lineByte p s b = setRx p (.receiving (got ++ [b])) s := by simp [lineByte, hrx, hb]
    rw [List.foldl_cons, hs, ih (got := got ++ [b]) (by simp) (by simpa using hn)]
    simp

/-- The byte that ends the frame has it judged (R138). -/
theorem foldl_lineByte_ended {l : List Byte} (hrx : (s.line.get p).rx = .receiving [])
    (he : frameEnds l = true) (hn : frameEnds l.dropLast = false) :
    l.foldl (lineByte p) s = judgeFrame p l (setRx p .hunting s) := by
  have hl : l ≠ [] := by rintro rfl; simp [frameEnds] at he
  obtain ⟨init, b, rfl⟩ : ∃ init b, l = init ++ [b] := ⟨l.dropLast, l.getLast hl, (List.dropLast_append_getLast hl).symm⟩
  rw [List.dropLast_concat] at hn
  rw [List.foldl_append, foldl_lineByte_taken init hrx (by simpa using hn)]
  simp [lineByte, he]

/-- The bytes of a whole frame that arrive at a fresh receiver have it judged (R138). -/
theorem frameArrives_of_fresh {bytes : List Byte} (h : (s.line.get p).fresh)
    (he : frameEnds bytes = true) (hn : frameEnds bytes.dropLast = false) :
    frameArrives p bytes s = judgeFrame p bytes (setRx p .hunting s) := by
  rcases h with h | h
  · have hs : lineByte p s cardSync = setRx p (.receiving []) s := by simp [lineByte, h]
    simp only [frameArrives, h, reduceCtorEq, if_false, List.foldl_cons, hs]
    rw [foldl_lineByte_ended (by simp) he hn]
    simp
  · simp only [frameArrives, h, if_true]
    exact foldl_lineByte_ended h he hn

/-- A frame of at most 240 payload bytes that arrives at a fresh receiver is handled by its kind (R138, R139). -/
theorem frameArrives_good {kind : Byte} {payload : List Byte} (h : (s.line.get p).fresh) (hp : payload.length ≤ 240) :
    frameArrives p (frameBytes kind payload) s = takeFrame p kind payload (setRx p .hunting s) := by
  have hn : payload.length % 256 = payload.length := Nat.mod_eq_of_lt (by omega)
  have heq : frameBytes kind payload = kind :: BitVec.ofNat 8 payload.length ::
      (payload ++ checkBytes (frameBody kind payload)) := rfl
  have hd : (frameBytes kind payload).dropLast = kind :: BitVec.ofNat 8 payload.length ::
      (payload ++ u8 (checkSums (frameBody kind payload)).2) := by
    rw [heq]
    simp [List.dropLast_cons_of_ne_nil, checkBytes, u8]
  have he : frameEnds (frameBytes kind payload) = true := by
    rw [heq]
    simp [frameEnds, hn, checkBytes_length]
  have hl : frameEnds (frameBytes kind payload).dropLast = false := by
    rw [hd]
    simp [frameEnds, hn, hp, Config.framePayload, u8]
  rw [frameArrives_of_fresh h he hl]
  simp [judgeFrame, goodFrame_bytes kind payload hp]

/-- A well-formed FAILING_FRAME that arrives at a fresh receiver fails (R138, R139). -/
theorem frameArrives_failing {bytes : List Byte} (h : (s.line.get p).fresh)
    (hw : (Instr.failingFrame p bytes).wellFormed = true) :
    frameArrives p bytes s = settleLine p (failFrame p (setRx p .hunting s)) := by
  simp only [Instr.wellFormed, wholeFrame, Bool.and_eq_true, Bool.not_eq_true', Option.isNone_iff_eq_none] at hw
  rw [frameArrives_of_fresh h hw.1.1 hw.1.2]
  simp [judgeFrame, hw.2]

end Sys2Proof.Machine
end

