-- ==== Sys2Proof/Laws/Tables.lean ====
section
/-! SUPPORT. Laws of table memory: its canonical form is kept by every write, a read gives what was written, every other
address reads as before, and equal memories are equal lists. -/

namespace Sys2Proof.Machine

open Sys2Proof

section Sparse

variable {α : Type} [DecidableEq α] (init : Nat → α)

theorem sparseWf_cons (size low k : Nat) (v : α) (rest : List (Nat × α)) :
    sparseWf init size low ((k, v) :: rest) = true ↔
      low ≤ k ∧ k < size ∧ v ≠ init k ∧ sparseWf init size (k + 1) rest = true := by
  simp only [sparseWf, Bool.and_eq_true, decide_eq_true_eq]
  tauto

theorem sparseWf_mono (size : Nat) {low low' : Nat} (h : low' ≤ low) (l : List (Nat × α))
    (hw : sparseWf init size low l = true) : sparseWf init size low' l = true := by
  cases l with
  | nil => rfl
  | cons kv rest =>
    obtain ⟨k, v⟩ := kv
    rw [sparseWf_cons] at hw ⊢
    exact ⟨by omega, hw.2⟩

/-- Below every listed address a memory reads as its initial contents. -/
theorem sparseRead_below (size : Nat) {low : Nat} (l : List (Nat × α)) (hw : sparseWf init size low l = true) {a : Nat}
    (ha : a < low) : sparseRead init l a = init a := by
  cases l with
  | nil => rfl
  | cons kv rest =>
    obtain ⟨k, v⟩ := kv
    rw [sparseWf_cons] at hw
    rw [sparseRead, if_neg (by omega), if_pos (by omega)]

/-- Every write keeps the canonical form. -/
theorem sparseWrite_wf (size : Nat) {low a : Nat} (x : α) (l : List (Nat × α)) (hl : low ≤ a) (ha : a < size)
    (hw : sparseWf init size low l = true) : sparseWf init size low (sparseWrite init a x l) = true := by
  induction l generalizing low with
  | nil =>
    rw [sparseWrite]
    split
    · rfl
    · next hx => exact (sparseWf_cons init size low a x []).2 ⟨hl, ha, hx, rfl⟩
  | cons kv rest ih =>
    obtain ⟨k, v⟩ := kv
    have hc := (sparseWf_cons init size low k v rest).1 hw
    rw [sparseWrite]
    split
    · next hk =>
      subst hk
      split
      · exact sparseWf_mono init size (by omega) rest hc.2.2.2
      · next hx => exact (sparseWf_cons init size low _ x rest).2 ⟨hl, ha, hx, hc.2.2.2⟩
    · split
      · split
        · exact hw
        · next hx =>
          exact (sparseWf_cons init size low a x _).2 ⟨hl, ha, hx,
            (sparseWf_cons init size (a + 1) k v rest).2 ⟨by omega, hc.2⟩⟩
      · exact (sparseWf_cons init size low k v _).2 ⟨hc.1, hc.2.1, hc.2.2.1, ih (by omega) hc.2.2.2⟩

/-- A read of the address written gives what was written. -/
theorem sparseRead_write_same (a : Nat) (x : α) (l : List (Nat × α)) (size : Nat) {low : Nat}
    (hw : sparseWf init size low l = true) : sparseRead init (sparseWrite init a x l) a = x := by
  induction l generalizing low with
  | nil =>
    rw [sparseWrite]
    split
    · next hx => rw [sparseRead, hx]
    · rw [sparseRead, if_pos rfl]
  | cons kv rest ih =>
    obtain ⟨k, v⟩ := kv
    have hc := (sparseWf_cons init size low k v rest).1 hw
    rw [sparseWrite]
    split
    · next hk =>
      subst hk
      split
      · next hx => rw [sparseRead_below init size rest hc.2.2.2 (by omega), hx]
      · rw [sparseRead, if_pos rfl]
    · next hk =>
      split
      · next hlt =>
        split
        · next hx => rw [sparseRead, if_neg hk, if_pos hlt, hx]
        · rw [sparseRead, if_pos rfl]
      · next hlt => rw [sparseRead, if_neg hk, if_neg hlt, ih hc.2.2.2]

/-- A write leaves every other address reading as before. -/
theorem sparseRead_write_ne {a b : Nat} (hab : b ≠ a) (x : α) (l : List (Nat × α)) (size : Nat) {low : Nat}
    (hw : sparseWf init size low l = true) :
    sparseRead init (sparseWrite init a x l) b = sparseRead init l b := by
  induction l generalizing low with
  | nil =>
    rw [sparseWrite]
    split
    · rfl
    · simp only [sparseRead, if_neg hab]
      split <;> rfl
  | cons kv rest ih =>
    obtain ⟨k, v⟩ := kv
    have hc := (sparseWf_cons init size low k v rest).1 hw
    rw [sparseWrite]
    split
    · next hk =>
      subst hk
      split
      · rw [sparseRead, if_neg hab]
        split
        · next hlt => exact sparseRead_below init size rest hc.2.2.2 (by omega)
        · rfl
      · rw [sparseRead, sparseRead, if_neg hab, if_neg hab]
    · next hk =>
      split
      · next hlt =>
        split
        · rfl
        · rw [sparseRead, if_neg hab]
          split
          · next hb => rw [sparseRead, if_neg (by omega), if_pos (by omega)]
          · rfl
      · rw [sparseRead, sparseRead, ih hc.2.2.2]

/-- Equal memories are equal lists. -/
theorem sparse_ext (size : Nat) {low : Nat} (l m : List (Nat × α)) (hl : sparseWf init size low l = true)
    (hm : sparseWf init size low m = true) (h : ∀ a, sparseRead init l a = sparseRead init m a) : l = m := by
  induction l generalizing low m with
  | nil =>
    cases m with
    | nil => rfl
    | cons kv rest =>
      obtain ⟨k, v⟩ := kv
      have hc := (sparseWf_cons init size low k v rest).1 hm
      have := h k
      rw [sparseRead, sparseRead, if_pos rfl] at this
      exact absurd this.symm hc.2.2.1
  | cons kv rest ih =>
    obtain ⟨k, v⟩ := kv
    have hc := (sparseWf_cons init size low k v rest).1 hl
    cases m with
    | nil =>
      have := h k
      rw [sparseRead, sparseRead, if_pos rfl] at this
      exact absurd this hc.2.2.1
    | cons kv' rest' =>
      obtain ⟨k', v'⟩ := kv'
      have hc' := (sparseWf_cons init size low k' v' rest').1 hm
      have hk : k = k' := by
        rcases Nat.lt_trichotomy k k' with hlt | heq | hgt
        · have := h k
          rw [sparseRead, sparseRead, if_pos rfl, if_neg (by omega), if_pos hlt] at this
          exact absurd this hc.2.2.1
        · exact heq
        · have := h k'
          rw [sparseRead, sparseRead, if_pos rfl, if_neg (by omega), if_pos hgt] at this
          exact absurd this.symm hc'.2.2.1
      subst hk
      have hv : v = v' := by
        have := h k
        rwa [sparseRead, sparseRead, if_pos rfl, if_pos rfl] at this
      subst hv
      have hr : rest = rest' := by
        refine ih rest' hc.2.2.2 hc'.2.2.2 fun a => ?_
        by_cases ha : a ≤ k
        · rw [sparseRead_below init size rest hc.2.2.2 (by omega), sparseRead_below init size rest' hc'.2.2.2 (by omega)]
        · have := h a
          rw [sparseRead, sparseRead, if_neg (by omega), if_neg (by omega), if_neg (by omega), if_neg (by omega)] at this
          exact this
      rw [hr]

end Sparse

/-! ### Table memory -/

theorem Tables.wf_iff (t : Tables) :
    t.wf = true ↔ sparseWf initialEntry 2048 0 t.entries = true ∧ sparseWf initialDescriptor 32 0 t.descriptors = true := by
  simp [Tables.wf]

@[simp] theorem Tables.initial_wf : Tables.initial.wf = true := rfl

theorem entryAddr_lt (b : Bank) (m : Mode) {c : Nat} (h : c < 64) : entryAddr b m c < 2048 := by
  simp only [entryAddr]
  omega

theorem descAddr_lt (b : Bank) (m : Mode) : descAddr b m < 32 := by
  simp only [descAddr]
  omega

/-- Distinct bank, mode row and code are distinct addresses. -/
theorem entryAddr_inj {b b' : Bank} {m m' : Mode} {c c' : Nat} (h : c < 64) (h' : c' < 64)
    (e : entryAddr b m c = entryAddr b' m' c') : b = b' ∧ m = m' ∧ c = c' := by
  simp only [entryAddr] at e
  exact ⟨Fin.ext (by omega), Fin.ext (by omega), by omega⟩

theorem descAddr_inj {b b' : Bank} {m m' : Mode} (e : descAddr b m = descAddr b' m') : b = b' ∧ m = m' := by
  simp only [descAddr] at e
  exact ⟨Fin.ext (by omega), Fin.ext (by omega)⟩

theorem Tables.writeEntry_wf (t : Tables) (b : Bank) (m : Mode) {c : Nat} (d : Disposition) (h : c < 64)
    (hw : t.wf = true) : (t.writeEntry b m c d).wf = true := by
  rw [Tables.wf_iff] at hw ⊢
  exact ⟨sparseWrite_wf initialEntry 2048 d t.entries (Nat.zero_le _) (entryAddr_lt b m h) hw.1, hw.2⟩

theorem Tables.writeDescriptor_wf (t : Tables) (b : Bank) (m : Mode) (d : Descriptor) (hw : t.wf = true) :
    (t.writeDescriptor b m d).wf = true := by
  rw [Tables.wf_iff] at hw ⊢
  exact ⟨hw.1, sparseWrite_wf initialDescriptor 32 d t.descriptors (Nat.zero_le _) (descAddr_lt b m) hw.2⟩

theorem Tables.readEntry_writeEntry (t : Tables) (b b' : Bank) (m m' : Mode) {c : Nat} (c' : Code) (d : Disposition)
    (h : c < 64) (hw : t.wf = true) :
    (t.writeEntry b m c d).readEntry b' m' c' = if b' = b ∧ m' = m ∧ c'.val = c then d else t.readEntry b' m' c' := by
  have hwf := ((Tables.wf_iff t).1 hw).1
  simp only [Tables.readEntry, Tables.writeEntry]
  split
  · next e =>
    obtain ⟨rfl, rfl, rfl⟩ := e
    exact sparseRead_write_same initialEntry _ d t.entries 2048 hwf
  · next e =>
    apply sparseRead_write_ne initialEntry _ d t.entries 2048 hwf
    intro ha
    exact e (entryAddr_inj c'.isLt h ha)

theorem Tables.readDescriptor_writeDescriptor (t : Tables) (b b' : Bank) (m m' : Mode) (d : Descriptor)
    (hw : t.wf = true) :
    (t.writeDescriptor b m d).readDescriptor b' m' = if b' = b ∧ m' = m then d else t.readDescriptor b' m' := by
  have hwf := ((Tables.wf_iff t).1 hw).2
  simp only [Tables.readDescriptor, Tables.writeDescriptor]
  split
  · next e =>
    obtain ⟨rfl, rfl⟩ := e
    exact sparseRead_write_same initialDescriptor _ d t.descriptors 32 hwf
  · next e =>
    apply sparseRead_write_ne initialDescriptor _ d t.descriptors 32 hwf
    intro ha
    exact e (descAddr_inj ha)

@[simp] theorem Tables.readDescriptor_writeEntry (t : Tables) (b b' : Bank) (m m' : Mode) (c : Nat) (d : Disposition) :
    (t.writeEntry b m c d).readDescriptor b' m' = t.readDescriptor b' m' := rfl

@[simp] theorem Tables.readEntry_writeDescriptor (t : Tables) (b b' : Bank) (m m' : Mode) (c : Code) (d : Descriptor) :
    (t.writeDescriptor b m d).readEntry b' m' c = t.readEntry b' m' c := rfl

/-- What a run of writes leaves of table memory (R68): the form is kept, the descriptors, the pointer and the marks stand, and other rows
read as before. -/
theorem Tables.writeRun_frame (t : Tables) (b : Bank) (m : Mode) (c : Nat) (ds : List Disposition)
    (h : c + ds.length ≤ 64) (hw : t.wf = true) :
    (t.writeRun b m c ds).wf = true ∧ (t.writeRun b m c ds).descriptors = t.descriptors ∧
      (t.writeRun b m c ds).openBank = t.openBank ∧ (t.writeRun b m c ds).frozen = t.frozen := by
  induction ds generalizing t c with
  | nil => exact ⟨hw, rfl, rfl, rfl⟩
  | cons d rest ih =>
    rw [List.length_cons] at h
    have := ih (t.writeEntry b m c d) (c + 1) (by omega) (t.writeEntry_wf b m d (by omega) hw)
    exact this

/-- A run of writes read back (R68): the codes of the run read the run's entries, every other entry as before. -/
theorem Tables.readEntry_writeRun (t : Tables) (b b' : Bank) (m m' : Mode) (c : Nat) (ds : List Disposition) (c' : Code)
    (h : c + ds.length ≤ 64) (hw : t.wf = true) :
    (t.writeRun b m c ds).readEntry b' m' c' =
      if b' = b ∧ m' = m ∧ c ≤ c'.val then (ds[c'.val - c]?).getD (t.readEntry b' m' c') else t.readEntry b' m' c' := by
  induction ds generalizing t c with
  | nil => simp [Tables.writeRun]
  | cons d rest ih =>
    rw [List.length_cons] at h
    rw [Tables.writeRun, ih (t.writeEntry b m c d) (c + 1) (by omega) (t.writeEntry_wf b m d (by omega) hw),
      Tables.readEntry_writeEntry t b b' m m' c' d (by omega) hw]
    by_cases hbm : b' = b ∧ m' = m
    · obtain ⟨rfl, rfl⟩ := hbm
      by_cases hlt : c'.val < c
      · simp [show ¬ c + 1 ≤ c'.val by omega, show ¬ c'.val = c by omega, show ¬ c ≤ c'.val by omega]
      · by_cases heq : c'.val = c
        · simp [heq]
        · have e1 : c'.val - c = (c'.val - (c + 1)) + 1 := by omega
          simp [show c + 1 ≤ c'.val by omega, heq, show c ≤ c'.val by omega, e1]
    · rw [if_neg (fun h => hbm ⟨h.1, h.2.1⟩), if_neg (fun h => hbm ⟨h.1, h.2.1⟩), if_neg (fun h => hbm ⟨h.1, h.2.1⟩)]

end Sys2Proof.Machine
end

