-- ==== Sys2Proof/Laws/Engine.lean ====
section
/-! SUPPORT. Laws of the engine: the application of a disposition reaches one position's record, entry and prompt unit and
nothing else, and keeps the position's state and bank. -/

namespace Sys2Proof.Machine

open Sys2Proof

/-- Everything the application of a disposition at position `p` can change (R80). -/
structure Application (p : Pos) (s t : State) : Prop where
  pending : t.pending = s.pending
  timeCount : t.timeCount = s.timeCount
  link : t.link = s.link
  oq : t.oq = s.oq
  bus : t.bus = s.bus
  intake : t.intake = s.intake
  tables : t.tables = s.tables
  attn : t.attn = s.attn
  line : t.line = s.line
  xs : t.xs = s.xs
  pos : ∀ q, q ≠ p → t.pos.get q = s.pos.get q
  entry : ∀ q, q ≠ p → t.entry.get q = s.entry.get q
  pu : ∀ q, q ≠ p → t.pu.get q = s.pu.get q
  state : (t.pos.get p).state = (s.pos.get p).state
  bank : (t.pos.get p).bank = (s.pos.get p).bank
  polled : (t.pos.get p).keysEntered = (s.pos.get p).keysEntered ∧ (t.pos.get p).duplicates = (s.pos.get p).duplicates ∧
    (t.pos.get p).misses = (s.pos.get p).misses ∧ (t.pos.get p).checkErrors = (s.pos.get p).checkErrors

theorem Application.refl (p : Pos) (s : State) : Application p s s :=
  ⟨rfl, rfl, rfl, rfl, rfl, rfl, rfl, rfl, rfl, rfl, fun _ _ => rfl, fun _ _ => rfl, fun _ _ => rfl, rfl, rfl, rfl, rfl,
    rfl, rfl⟩

theorem Application.trans {p : Pos} {s t u : State} (h : Application p s t) (k : Application p t u) :
    Application p s u :=
  ⟨k.pending.trans h.pending, k.timeCount.trans h.timeCount, k.link.trans h.link, k.oq.trans h.oq, k.bus.trans h.bus,
    k.intake.trans h.intake, k.tables.trans h.tables, k.attn.trans h.attn, k.line.trans h.line, k.xs.trans h.xs,
    fun q hq => (k.pos q hq).trans (h.pos q hq), fun q hq => (k.entry q hq).trans (h.entry q hq),
    fun q hq => (k.pu q hq).trans (h.pu q hq), k.state.trans h.state, k.bank.trans h.bank,
    k.polled.1.trans h.polled.1, k.polled.2.1.trans h.polled.2.1, k.polled.2.2.1.trans h.polled.2.2.1,
    k.polled.2.2.2.trans h.polled.2.2.2⟩

theorem putEntry_application (p : Pos) (e : Option Entry) (s : State) : Application p s (s.putEntry p e) :=
  ⟨rfl, rfl, rfl, rfl, rfl, rfl, rfl, rfl, rfl, rfl, fun _ _ => rfl, fun q hq => by simp [PerPos.get_set_ne _ _ hq],
    fun _ _ => rfl, rfl, rfl, rfl, rfl, rfl, rfl⟩

theorem onPu_application (p : Pos) (f : PromptUnit → PromptUnit) (s : State) : Application p s (s.onPu p f) :=
  ⟨rfl, rfl, rfl, rfl, rfl, rfl, rfl, rfl, rfl, rfl, fun _ _ => rfl, fun _ _ => rfl,
    fun q hq => by simp [PerPos.get_modify_ne _ _ hq], rfl, rfl, rfl, rfl, rfl, rfl⟩

theorem onPos_application (p : Pos) (f : PosRecord → PosRecord) (s : State)
    (hf : ∀ r, (f r).state = r.state ∧ (f r).bank = r.bank ∧ (f r).keysEntered = r.keysEntered ∧
      (f r).duplicates = r.duplicates ∧ (f r).misses = r.misses ∧ (f r).checkErrors = r.checkErrors) :
    Application p s (s.onPos p f) := by
  have h := hf (s.pos.get p)
  refine ⟨rfl, rfl, rfl, rfl, rfl, rfl, rfl, rfl, rfl, rfl, fun q hq => by simp [PerPos.get_modify_ne _ _ hq],
    fun _ _ => rfl, fun _ _ => rfl, ?_, ?_, ?_, ?_, ?_, ?_⟩
  all_goals simp [h]

/-- Everything the action step can do (R81). -/
theorem entryAction_application (p : Pos) (c : Code) (sec : Bool) (a : Action) (s : State) :
    Application p s (entryAction p c sec a s).1 := by
  cases a with
  | discard => exact Application.refl p s
  | forward => exact Application.refl p s
  | hold =>
    simp only [entryAction]
    split
    · split
      · exact putEntry_application p _ s
      · exact Application.refl p s
    · exact Application.refl p s
  | eraseLast =>
    simp only [entryAction]
    split
    · split
      · exact putEntry_application p _ s
      · exact Application.refl p s
    · exact Application.refl p s
  | clearEntry =>
    simp only [entryAction]
    split
    · split
      · exact (putEntry_application p _ s).trans (onPu_application p _ _)
      · exact Application.refl p s
    · exact Application.refl p s
  | complete =>
    simp only [entryAction]
    split
    · split
      · exact putEntry_application p _ s
      · exact Application.refl p s
    · exact Application.refl p s
  | cancel =>
    simp only [entryAction]
    split
    · exact putEntry_application p _ s
    · exact Application.refl p s

theorem PosRecord.tally_keeps (t : Tally) (r : PosRecord) :
    (r.tally t).state = r.state ∧ (r.tally t).bank = r.bank ∧ (r.tally t).keysEntered = r.keysEntered ∧
      (r.tally t).duplicates = r.duplicates ∧ (r.tally t).misses = r.misses ∧
      (r.tally t).checkErrors = r.checkErrors := by
  cases t <;> exact ⟨rfl, rfl, rfl, rfl, rfl, rfl⟩

/-- Everything the application of a disposition can do (R80). -/
theorem applyDisposition_application (p : Pos) (c : Code) (d : Disposition) (s : State) :
    Application p s (applyDisposition p c d s).1 :=
  (entryAction_application p c _ _ s).trans ((onPos_application p _ _ (PosRecord.tally_keeps _)).trans
    ((onPu_application p _ _).trans (onPos_application p _ _ fun _ => ⟨rfl, rfl, rfl, rfl, rfl, rfl⟩)))

/-- The mode an application leaves (R87). -/
theorem applyDisposition_mode (p : Pos) (c : Code) (d : Disposition) (s : State) :
    ((applyDisposition p c d s).1.pos.get p).mode =
      (entryAction p c (s.descriptor p).secret (clampAction (s.secretContext p) c d.action) s).2.newMode.getD d.nextMode := by
  simp [applyDisposition]

/-- The entry an application leaves is the one the action step left (R80, R81). -/
theorem applyDisposition_entry (p : Pos) (c : Code) (d : Disposition) (s : State) :
    (applyDisposition p c d s).1.entry =
      (entryAction p c (s.descriptor p).secret (clampAction (s.secretContext p) c d.action) s).1.entry := rfl

/-- The release of a reservation is notice service on a reservation of 0 (R178). -/
theorem releaseReservation_served (s : State) :
    Served (s.onOq fun q => { q with reservation := 0 }) (releaseReservation s) := serveOwed_served _

@[simp] theorem postReserved_oq (n : Notice) (s : State) :
    (postReserved n s).oq = { s.oq with
      reservation := s.oq.reservation - 1
      queue := s.oq.queue ++ [.notice n]
      begun := s.oq.begun || s.link.up } := rfl

/-- With nothing owed, an application without a notice gives the whole reservation back. -/
theorem releaseReservation_of_none_owed (s : State) (h : anyOwed s = false) :
    releaseReservation s = s.onOq fun q => { q with reservation := 0 } := by
  rw [releaseReservation, serveOwed_of_none_owed]
  exact anyOwed_false_congr s _ rfl rfl rfl rfl rfl h

/-- The clamp never forwards a digit of secret context (R78). -/
theorem clampAction_ne_forward (c : Code) (a : Action) (h : isDigit c = true) : clampAction true c a ≠ .forward := by
  simp only [clampAction, h, true_and]
  split
  · simp
  · assumption

end Sys2Proof.Machine
end

