-- ==== Sys2Proof/Laws/KeypadBuses.lean ====
section
/-! SUPPORT. Laws of the keypad buses: what the visits of a round can change and leave, and a whole reply at the receiver. -/

namespace Sys2Proof.Machine

open Sys2Proof

/-- What the visits of a bus leave of an address: everything but its quiet and thinning counters (R22, R24, R25). -/
def AddrKept (d e : AddrState) : Prop :=
  e.presence = d.presence ∧ e.lastSeq = d.lastSeq ∧ e.misses = d.misses ∧ e.alarm = d.alarm

/-- Everything that visits of bus `g` can change: that bus, the beeps its polls take, and the places they reserve. -/
structure Visited (g : Group) (s t : State) : Prop where
  pending : t.pending = s.pending
  timeCount : t.timeCount = s.timeCount
  link : t.link = s.link
  oq : t.oq = s.oq
  pos : t.pos = s.pos
  tables : t.tables = s.tables
  attn : t.attn = s.attn
  entry : t.entry = s.entry
  line : t.line = s.line
  xs : t.xs = s.xs
  bus : ∀ h, h ≠ g → t.bus.get h = s.bus.get h
  addrs : ∀ a, AddrKept ((s.bus.get g).addrs.get a) ((t.bus.get g).addrs.get a)
  pu : ∀ q, ∃ b, t.pu.get q = { s.pu.get q with beep := b }
  entries : t.intake.entries = s.intake.entries
  flags : t.intake.flags = s.intake.flags
  pressure : t.intake.pressure = s.intake.pressure

variable {g : Group} {s t u : State}

theorem Visited.refl (g : Group) (s : State) : Visited g s s :=
  ⟨rfl, rfl, rfl, rfl, rfl, rfl, rfl, rfl, rfl, rfl, fun _ _ => rfl, fun _ => ⟨rfl, rfl, rfl, rfl⟩,
    fun q => ⟨(s.pu.get q).beep, rfl⟩, rfl, rfl, rfl⟩

theorem Visited.trans (h : Visited g s t) (k : Visited g t u) : Visited g s u where
  pending := k.pending.trans h.pending
  timeCount := k.timeCount.trans h.timeCount
  link := k.link.trans h.link
  oq := k.oq.trans h.oq
  pos := k.pos.trans h.pos
  tables := k.tables.trans h.tables
  attn := k.attn.trans h.attn
  entry := k.entry.trans h.entry
  line := k.line.trans h.line
  xs := k.xs.trans h.xs
  bus := fun i hi => (k.bus i hi).trans (h.bus i hi)
  addrs := fun a => by
    obtain ⟨h1, h2, h3, h4⟩ := h.addrs a
    obtain ⟨k1, k2, k3, k4⟩ := k.addrs a
    exact ⟨k1.trans h1, k2.trans h2, k3.trans h3, k4.trans h4⟩
  pu := fun q => by
    obtain ⟨b, hb⟩ := h.pu q
    obtain ⟨c, hc⟩ := k.pu q
    exact ⟨c, by rw [hc, hb]⟩
  entries := k.entries.trans h.entries
  flags := k.flags.trans h.flags
  pressure := k.pressure.trans h.pressure

/-- An update of the bus that keeps what `AddrKept` names of each address. -/
theorem onBus_visited (g : Group) (f : Bus → Bus) (s : State)
    (h : ∀ b a, AddrKept (b.addrs.get a) ((f b).addrs.get a)) : Visited g s (s.onBus g f) :=
  ⟨rfl, rfl, rfl, rfl, rfl, rfl, rfl, rfl, rfl, rfl, fun i hi => by simp [Quad.get_modify_ne _ _ hi],
    fun a => by simpa using h _ a, fun q => ⟨(s.pu.get q).beep, rfl⟩, rfl, rfl, rfl⟩

theorem onAddr_visited (g : Group) (a : Addr) (f : AddrState → AddrState) (s : State) (h : ∀ d, AddrKept d (f d)) :
    Visited g s (s.onAddr g a f) := by
  apply onBus_visited
  intro b i
  by_cases e : i = a
  · subst e; simpa using h _
  · simp only [Quad.get_modify_ne _ _ e]; exact ⟨rfl, rfl, rfl, rfl⟩

theorem onPu_beep_visited (g : Group) (p : Pos) (s : State) :
    Visited g s (s.onPu p fun u => { u with beep := .none }) :=
  ⟨rfl, rfl, rfl, rfl, rfl, rfl, rfl, rfl, rfl, rfl, fun _ _ => rfl, fun _ => ⟨rfl, rfl, rfl, rfl⟩, fun q => by
    by_cases e : q = p
    · subst e; exact ⟨.none, by simp⟩
    · exact ⟨(s.pu.get q).beep, by simp [PerPos.get_modify_ne _ _ e]⟩, rfl, rfl, rfl⟩

theorem onIntake_reserve_visited (g : Group) (n : Nat) (s : State) :
    Visited g s (s.onIntake fun f => { f with reserved := f.reserved + n }) :=
  ⟨rfl, rfl, rfl, rfl, rfl, rfl, rfl, rfl, rfl, rfl, fun _ _ => rfl, fun _ => ⟨rfl, rfl, rfl, rfl⟩,
    fun q => ⟨(s.pu.get q).beep, rfl⟩, rfl, rfl, rfl⟩

theorem sendPoll_visited (g : Group) (a : Addr) (s : State) : Visited g s (sendPoll g a s) :=
  (((onAddr_visited g a (fun d => { d with thinning := 0 }) s fun _ => ⟨rfl, rfl, rfl, rfl⟩).trans
    (onBus_visited g (fun b => { b with poll := .some (newPoll g a s) }) _ fun _ _ => ⟨rfl, rfl, rfl, rfl⟩)).trans
      (onPu_beep_visited g (posAt g a) _)).trans (onIntake_reserve_visited g Config.pollPlaces _)

/-- Everything a visit can do. -/
theorem visit_visited (g : Group) (a : Addr) (s : State) : Visited g s (visit g a s) := by
  have h := onAddr_visited g a (fun d => { d with quiet := holdAt 8 d.quiet }) s fun _ => ⟨rfl, rfl, rfl, rfl⟩
  unfold visit
  dsimp only
  split
  · exact h
  · exact h.trans (onAddr_visited g a _ _ fun _ => ⟨rfl, rfl, rfl, rfl⟩)
  · split
    · exact h.trans (sendPoll_visited g a _)
    · exact h

/-- Everything the rest of a round can do. -/
theorem runVisits_visited (g : Group) (n : Nat) (s : State) : Visited g s (runVisits g n s) := by
  induction n generalizing s with
  | zero => exact onBus_visited g _ s fun _ _ => ⟨rfl, rfl, rfl, rfl⟩
  | succ n ih =>
    have h := (onBus_visited g (fun b => { b with round := .inProgress n }) s fun _ _ => ⟨rfl, rfl, rfl, rfl⟩).trans
      (visit_visited g ⟨n % 4, Nat.mod_lt n (by decide)⟩ _)
    unfold runVisits
    dsimp only
    split
    · exact h
    · exact h.trans (ih _)

theorem Bus.startRound_addrs (first : Bool) (b : Bus) : (b.startRound first).addrs = b.addrs := by
  simp only [Bus.startRound]; split <;> rfl

/-- Everything that going on with a round, and starting the one that is due, can do. -/
theorem continueRound_visited (g : Group) (n : Nat) (s : State) : Visited g s (continueRound g n s) := by
  have h := runVisits_visited g n s
  simp only [continueRound]
  split
  · exact (h.trans (onBus_visited g _ _ fun b a => by
      rw [Bus.startRound_addrs]; exact ⟨rfl, rfl, rfl, rfl⟩)).trans (runVisits_visited g 4 _)
  · exact h

theorem firstRound_visited (g : Group) (s : State) : Visited g s (firstRound g s) := by
  unfold firstRound
  exact (onBus_visited g (Bus.startRound true) s fun b a => by
    rw [Bus.startRound_addrs]; exact ⟨rfl, rfl, rfl, rfl⟩).trans (continueRound_visited g 4 _)

/-- Everything that moving on after a poll can do. -/
theorem nextVisit_visited (g : Group) (s : State) : Visited g s (nextVisit g s) := by
  unfold nextVisit
  split
  · exact continueRound_visited g _ s
  · exact Visited.refl g s

/-- Everything that the end of a disowned poll can do (R40). -/
theorem endDisowned_visited (g : Group) (s : State) : Visited g s (endDisowned g s) := by
  unfold endDisowned
  exact (onBus_visited g (fun b => { b.endPoll with roundTimer := .running b.settings.period }) s
    fun _ _ => ⟨rfl, rfl, rfl, rfl⟩).trans (firstRound_visited g _)

/-! ### The receiver -/

/-- A complete reply has a key count of 0 to 4, that many codes and two check bytes behind its status byte (R29). -/
theorem readReply_shape {status : Byte} {rest : List Byte} {r : Reply} (h : readReply (status :: rest) = .some r) :
    status.toNat % 8 ≤ 4 ∧ rest.length = status.toNat % 8 + 2 := by
  simp only [readReply] at h
  split at h
  · assumption
  · cases h

/-- No shorter beginning of a complete reply is complete, and none is overlong (R29). -/
theorem reply_prefix {got rest : List Byte} {byte : Byte} {r : Reply}
    (h : readReply (got ++ byte :: rest) = .some r) (hr : rest ≠ []) :
    readReply (got ++ [byte]) = .none ∧ replyPhase (got ++ [byte]) = .receiving (got ++ [byte]) := by
  have hl : 0 < rest.length := List.length_pos_of_ne_nil hr
  cases got with
  | nil =>
    obtain ⟨h1, h2⟩ := readReply_shape h
    exact ⟨by simp [readReply], by simp [replyPhase]; omega⟩
  | cons status got =>
    obtain ⟨h1, h2⟩ := readReply_shape (rest := got ++ byte :: rest) h
    simp only [List.length_append, List.length_cons] at h2
    refine ⟨?_, by simp [replyPhase]; omega⟩
    simp only [List.cons_append, readReply]
    rw [if_neg (by simp; omega)]

/-- A poll's bus while its reply is being received, these bytes behind the sync byte, the window just reloaded. -/
def receivingAt (g : Group) (q : Poll) (got : List Byte) (s : State) : State :=
  s.onBus g (Bus.loadWindow { q with phase := .receiving got })

theorem receivingAt_poll (g : Group) (q : Poll) (got : List Byte) (s : State) :
    ((receivingAt g q got s).bus.get g).poll = .some { q with phase := .receiving got } := by
  simp [receivingAt, Bus.loadWindow]

/-- A second load of the window leaves nothing of the first. -/
theorem receivingAt_loadWindow (g : Group) (q x : Poll) (got : List Byte) (s : State) :
    (receivingAt g q got s).onBus g (Bus.loadWindow x) = s.onBus g (Bus.loadWindow x) := by
  simp only [receivingAt, State.onBus, Quad.modify, Quad.get_set_same, Quad.set_set_same]
  rfl

/-- The rest of a reply's bytes have it judged as the last arrives. -/
theorem foldl_replyByte {g : Group} {r : Reply} (q : Poll) (rest : List Byte) :
    ∀ (got : List Byte) (s : State), rest ≠ [] → readReply (got ++ rest) = .some r →
      ∃ got', rest.foldl (replyByte g) (receivingAt g q got s) =
        judgePressure (receivingAt g q (got ++ rest) s)
          (replyEnds g { q with phase := .receiving got' } r (receivingAt g q (got ++ rest) s)) := by
  induction rest with
  | nil => intro _ _ h; exact absurd rfl h
  | cons byte rest ih =>
    intro got s _ h
    cases rest with
    | nil =>
      have hp : replyPhase (got ++ [byte]) = .receiving (got ++ [byte]) := by
        cases got with
        | nil => have := (readReply_shape h).2; simp at this
        | cons status got => have := (readReply_shape h).1; simp [replyPhase]; omega
      refine ⟨got, ?_⟩
      simp only [List.foldl_cons, List.foldl_nil, replyByte, receivingAt_poll, h, hp, receivingAt_loadWindow]
      rfl
    | cons b2 rest =>
      obtain ⟨h1, h2⟩ := reply_prefix h (by simp)
      obtain ⟨got', hg⟩ := ih (got ++ [byte]) s (by simp) (by simpa using h)
      refine ⟨got', ?_⟩
      rw [List.foldl_cons]
      have e : replyByte g (receivingAt g q got s) byte = receivingAt g q (got ++ [byte]) s := by
        simp only [replyByte, receivingAt_poll, h1, h2, receivingAt_loadWindow]
        rfl
      rw [e, hg]
      simp

/-- A complete reply to a poll whose reply has not begun, or whose sync byte has just come, is judged (R29, R30): all
that KEYPAD_REPLY then does. -/
theorem execKeypadReply_complete {g : Group} {s : State} {q : Poll} {bytes : List Byte} {r : Reply}
    (hq : (s.bus.get g).poll = .some q) (hp : q.phase = .awaiting ∨ q.phase = .receiving [])
    (h : readReply bytes = .some r) :
    ∃ got', execKeypadReply g bytes s = .next (judgePressure (receivingAt g q bytes s)
      (replyEnds g { q with phase := .receiving got' } r (receivingAt g q bytes s))) := by
  have hne : bytes ≠ [] := by rintro rfl; cases h
  rcases hp with hp | hp
  · obtain ⟨got', hg⟩ := foldl_replyByte (g := g) (r := r) q bytes [] s hne h
    refine ⟨got', ?_⟩
    have e : replyByte g s keypadSync = receivingAt g q [] s := by simp [replyByte, hq, hp, receivingAt]
    simp only [execKeypadReply, replyArrives, hq, Option.map_some, hp]
    rw [if_neg (by simp), List.foldl_cons, e, hg]
    rfl
  · cases bytes with
    | nil => exact absurd rfl hne
    | cons byte rest =>
      obtain ⟨got', hg⟩ := foldl_replyByte (g := g) (r := r) q (byte :: rest) [] s hne h
      refine ⟨got', ?_⟩
      have e : replyByte g s byte = replyByte g (receivingAt g q [] s) byte := by
        have n : readReply [byte] = .none := by simp [readReply]
        simp only [replyByte, hq, hp, receivingAt_poll, List.nil_append, n, receivingAt_loadWindow]
      simp only [execKeypadReply, replyArrives, hq, Option.map_some, hp]
      rw [if_pos trivial, List.foldl_cons, e, ← List.foldl_cons, hg]
      rfl

end Sys2Proof.Machine
end

