-- ==== Sys2Proof/Laws/Link.lean ====
section
/-! SUPPORT. What a request's command does, said once: its record's bytes are received and judged (R172, R173, R185), it
is accepted, held WAITING or lost (R174, R175), and an acceptance is the block's own effect with the reply behind it (R174, R181). -/

namespace Sys2Proof.Machine

open Sys2Proof

/-- A request's command receives the request. -/
theorem exec_command (r : Request) (s : State) : exec r.command s = .next (receive r s) := by
  obtain ⟨k, tag, payload⟩ := r
  cases k <;> rfl

/-- The receiver hunting again, as the acceptance finds it. -/
theorem received_eq (s : State) : s.onLink (fun l => { l with rx := .hunting }) = s.received := rfl

/-! ### The receiver (R172, R173, R185) -/

theorem passesCheck_checkBytes (body : List Byte) : passesCheck body (checkBytes body) = true := by simp [passesCheck]

/-- The kind byte of a well-formed request names its kind (section 12.2). -/
theorem reqKindOf_byte (r : Request) (h : r.command.wellFormed = true) : reqKindOf r.kind.byte = r.kind := by
  obtain ⟨k, tag, payload⟩ := r
  cases k with
  | unknown b =>
    have hb : isRequestKind b = false := by
      simp only [Request.command, Instr.wellFormed, Bool.and_eq_true] at h
      cases hb : isRequestKind b with
      | false => rfl
      | true => simp [hb] at h
    have all : ∀ b : Byte, isRequestKind b = false → reqKindOf b = .unknown b := by decide +kernel
    exact all b hb
  | _ => rfl

/-- A well-formed request has a payload the record can carry (R172). -/
theorem payload_le (r : Request) (h : r.command.wellFormed = true) : r.payload.length ≤ 250 := by
  have of : ∀ l : List Byte, recordPayloadOk l = true → l.length ≤ 250 := fun l hl => of_decide_eq_true hl
  obtain ⟨k, tag, payload⟩ := r
  cases k with
  | unknown b =>
    simp only [Request.command, Instr.wellFormed, Bool.and_eq_true] at h
    exact of _ h.2
  | _ => exact of _ h

/-- The bytes of a record, one by one. -/
theorem Request.bytes_eq (r : Request) :
    r.bytes = r.kind.byte :: r.tag :: BitVec.ofNat 8 r.payload.length ::
      (r.payload ++ checkBytes (recordBody r.kind.byte r.tag r.payload)) := rfl

/-- A well-formed request's record passes, and reads as the request (R172, R185). -/
theorem goodRecord_bytes (r : Request) (h : r.command.wellFormed = true) : goodRecord r.bytes = .some r := by
  have hp := payload_le r h
  have hn : r.payload.length % 256 = r.payload.length := Nat.mod_eq_of_lt (by omega)
  rw [Request.bytes_eq]
  simp [goodRecord, hn, hp, Config.recordPayload, passesCheck_checkBytes, reqKindOf_byte r h, checkBytes_length]

/-- Bytes that end a record still end it with more behind them. -/
theorem recordEnds_append (l m : List Byte) (h : recordEnds l = true) : recordEnds (l ++ m) = true := by
  match l with
  | [] | [_] | [_, _] => simp [recordEnds] at h
  | _ :: _ :: len :: rest =>
    simp only [recordEnds, decide_eq_true_eq, List.cons_append, List.length_append] at h ⊢
    omega

/-- Bytes that do not end the record are taken (R172). -/
theorem foldl_linkByte_taken {s : State} {got : List Byte} (l : List Byte) (hrx : s.link.rx = .receiving got)
    (hn : recordEnds (got ++ l) = false) :
    l.foldl linkByte s = s.onLink fun k => { k with rx := .receiving (got ++ l) } := by
  induction l generalizing s got with
  | nil =>
    simp only [List.foldl_nil, List.append_nil, ← hrx]
    rfl
  | cons b rest ih =>
    have hb : recordEnds (got ++ [b]) = false := by
      by_contra hc
      have := recordEnds_append (got ++ [b]) rest (by simpa using hc)
      simp [hn] at this
    have hs : linkByte s b = s.onLink fun k => { k with rx := .receiving (got ++ [b]) } := by
      simp [linkByte, hrx, hb]
    rw [List.foldl_cons, hs, ih (got := got ++ [b]) rfl (by simpa using hn)]
    simp [State.onLink]

/-- The byte that ends the record has it judged (R172). -/
theorem foldl_linkByte_ended {s : State} {l : List Byte} (hrx : s.link.rx = .receiving [])
    (he : recordEnds l = true) (hn : recordEnds l.dropLast = false) :
    l.foldl linkByte s = judgeRecord (goodRecord l) s.received := by
  have hl : l ≠ [] := by rintro rfl; simp [recordEnds] at he
  obtain ⟨init, b, rfl⟩ : ∃ init b, l = init ++ [b] := ⟨l.dropLast, l.getLast hl, (List.dropLast_append_getLast hl).symm⟩
  rw [List.dropLast_concat] at hn
  rw [List.foldl_append, foldl_linkByte_taken init hrx (by simpa using hn)]
  simp [linkByte, he, State.onLink, State.received]

/-- A transfer carries its bytes whole (R173). -/
theorem usbTransfer_packets (filling l : List Byte) (h : filling.length < 64) :
    usbTransfer (usbPackets filling l) = .some (filling ++ l) := by
  induction l generalizing filling with
  | nil => simp [usbPackets, usbTransfer, Config.usbPacket, h]
  | cons b rest ih =>
    by_cases hf : filling.length + 1 = Config.usbPacket
    · have hl : ¬ (filling ++ [b]).length < Config.usbPacket := by simp [hf]
      rw [usbPackets, if_pos hf, usbTransfer, if_neg hl, ih [] (by decide)]
      simp
    · rw [usbPackets, if_neg hf, ih (filling ++ [b]) (by simp only [Config.usbPacket] at hf; simp; omega)]
      simp

/-- The bytes of a whole record that arrive at a fresh receiver have it judged (R172, R173). -/
theorem recordArrives_of_fresh {s : State} {bytes : List Byte} (h : s.link.rx = .hunting ∨ s.link.rx = .receiving [])
    (hw : s.link.mode = .uart → recordEnds bytes = true ∧ recordEnds bytes.dropLast = false) :
    recordArrives bytes s = judgeRecord (goodRecord bytes) s.received := by
  cases hm : s.link.mode with
  | uart =>
    obtain ⟨he, hn⟩ := hw hm
    rcases h with h | h
    · have hs : linkByte s linkSync = s.onLink fun k => { k with rx := .receiving [] } := by simp [linkByte, h]
      simp only [recordArrives, hm, h, reduceCtorEq, if_false, List.foldl_cons, hs]
      rw [foldl_linkByte_ended rfl he hn]
      rfl
    · simp only [recordArrives, hm, h, if_true]
      exact foldl_linkByte_ended h he hn
  | usb =>
    have ht : linkTransfer (usbPackets [] bytes) s = judgeRecord (goodRecord bytes) s.received := by
      rcases h with h | h <;>
        simp [linkTransfer, h, usbTransfer_packets [] bytes (by decide), received_eq]
    simpa [recordArrives, hm] using ht

/-- Nothing that arrives is taken while a record is WAITING (R175, notes/assumptions/5). -/
theorem recordArrives_of_waiting {s : State} {w : Request} (bytes : List Byte) (h : s.link.rx = .waiting w) :
    recordArrives bytes s = s := by
  have hb : ∀ l : List Byte, l.foldl linkByte s = s := by
    intro l
    induction l with
    | nil => rfl
    | cons b rest ih => rw [List.foldl_cons, show linkByte s b = s by simp [linkByte, h], ih]
  cases hm : s.link.mode with
  | uart => simp only [recordArrives, hm, hb]
  | usb => simp [recordArrives, hm, linkTransfer, h]

/-- A request's bytes are a whole record. -/
theorem Request.bytes_whole (r : Request) (h : r.command.wellFormed = true) :
    recordEnds r.bytes = true ∧ recordEnds r.bytes.dropLast = false := by
  have hp := payload_le r h
  have hn : r.payload.length % 256 = r.payload.length := Nat.mod_eq_of_lt (by omega)
  have hd : r.bytes.dropLast = r.kind.byte :: r.tag :: BitVec.ofNat 8 r.payload.length ::
      (r.payload ++ u8 (checkSums (recordBody r.kind.byte r.tag r.payload)).2) := by
    rw [Request.bytes_eq]
    simp [List.dropLast_cons_of_ne_nil, checkBytes, u8]
  constructor
  · rw [Request.bytes_eq]
    simp [recordEnds, hn, checkBytes_length]
  · rw [hd]
    simp [recordEnds, hn, hp, Config.recordPayload, u8]

/-- A request whose record arrives at a fresh receiver is judged good (R174, R175). -/
theorem receive_of_fresh {s : State} (h : s.link.rx = .hunting ∨ s.link.rx = .receiving []) (r : Request)
    (hr : r.command.wellFormed = true) : receive r s = judgeRecord (.some r) s.received := by
  rw [receive, recordArrives_of_fresh h fun _ => r.bytes_whole hr, goodRecord_bytes r hr]

/-- A request that can be taken is accepted. -/
theorem receive_of_takes {s : State} (h : s.takesRequests) (r : Request) (hr : r.command.wellFormed = true) :
    receive r s = accept r s.received := by
  rw [receive_of_fresh h.1 r hr]
  exact if_neg (Nat.not_le.mpr h.2)

/-- A request that can be taken, as a command. -/
theorem exec_of_takes {s : State} (h : s.takesRequests) (r : Request) (hr : r.command.wellFormed = true) :
    exec r.command s = .next (accept r s.received) := by rw [exec_command, receive_of_takes h r hr]

/-- The reply queued behind the effects of a request that leaves armed clear and posts no STARTED. -/
theorem accept_replied (r : Request) (s : State)
    (h : (r.kind ≠ .resetArm ∧ r.kind ≠ .counterReset) ∨ (carryOut r s).2.status ≠ .ok) :
    accept r s = (carryOut r s).1.replied r.kind r.tag (carryOut r s).2 := by
  have ha : armedAfter r.kind (carryOut r s).2 = false := by
    rcases h with h | h <;> simp [armedAfter, h]
  have hs : ∀ u, startedAfter r.kind (carryOut r s).2 u = u := by
    intro u; rcases h with h | h <;> simp [startedAfter, h]
  simp [accept, ha, hs, State.replied, State.enqueue, State.onOq, State.onLink]

/-- A request that is carried out with an answer `a` and leaves the state `t`. -/
theorem exec_of_carryOut {s t : State} {a : Answer} (h : s.takesRequests) (r : Request)
    (hr : r.command.wellFormed = true) (hc : carryOut r s.received = (t, a)) (hk : (r.kind ≠ .resetArm ∧ r.kind ≠ .counterReset) ∨ a.status ≠ .ok) :
    exec r.command s = .next (t.replied r.kind r.tag a) := by
  rw [exec_of_takes h r hr, accept_replied, hc]
  simpa [hc] using hk

end Sys2Proof.Machine
end

