-- ==== Sys2Proof/Tests/Slice0.lean ====
section
/-! SUPPORT. The tests of the model: the checks of WellFormed, one step of each command against values taken from the
rules by hand, and for each statement with hypotheses a state and operands that meet them, clause by clause. -/

namespace Sys2Proof.Tests

set_option Elab.async false

open Sys2Proof Sys2Proof.Machine

/-! ### Small states -/

/-- The part with every block at its reset values, the link up, nothing queued and no poll or HELLO begun. -/
def calm : State := { State.powerOnValues .uart true with oq := OutQueue.empty }

/-- Position 0 OPEN with bank 0 and mode 0. -/
def opened : State := calm.onPos 0 fun r => { r with state := .opened }

/-- Position 0 OPEN, with its card line's reader PRESENT and its card in the given state. -/
def card (st : CardState) : State :=
  opened.onLine 0 fun l =>
    { l with state := st, presence := .present, noReaderTimer := .stopped, silenceTimer := .running 500 }

/-- An exchange record of position 0. -/
def record (kind : ExchangeKind) (sent : Bool) : Exchange :=
  { kind := kind, tag := 7, phase := .awaiting, sent := sent, command := .none, header := .none,
    timer := .running 1000, repeatUsed := false }

/-- An exchange in flight at position 0, its opening frame SENT. -/
def flying (kind : ExchangeKind) : State := (card kind.inFlightState).putXs 0 (.some (record kind true))

/-- An entry that is collecting plain codes, with lengths 2 to 4. -/
def entryOf (buffer : List Code) : Entry :=
  { state := .collecting, secret := false, buffer := buffer, minLength := 2, maxLength := 4, policy := .stop,
    fullMode := .none, endMode := .some 5, interkeyTimeout := .some 20, totalTimeout := 60,
    interkeyTimer := .running 2000, totalTimer := .running 6000, fullReached := false, startTime := 0,
    presented := false }

/-- Position 0 OPEN with a collecting entry. -/
def typing (buffer : List Code) : State := opened.putEntry 0 (.some (entryOf buffer))

/-- Position 0 OPEN with a complete secret entry of the digits 4 9 0 2 7 1, of chapter 10's worked presentation. -/
def pin : Entry :=
  { entryOf [4, 9, 0, 2, 7, 1] with state := .complete, secret := true, maxLength := 12, interkeyTimer := .stopped }

/-- A poll of address 3 in flight. -/
def poll (phase : PollPhase) : Poll := { Poll.firstPoll with phase := phase }

/-- Bus 0 with a poll of address 3 in flight under 5 reserved places, position 3 OPEN. -/
def polling (phase : PollPhase) : State :=
  ((opened.onPos 3 fun r => { r with state := .opened }).onBus 0 fun b =>
    { b with poll := .some (poll phase), round := .inProgress 3, windowTimer := .running 6 }).onIntake
      fun f => { f with reserved := 5 }

/-- Position 0's display shows a prompt with a 4 cell echo field, and its hold is running out. -/
def prompted : State :=
  opened.onPu 0 fun u => { u with
    slotA := .some ⟨[0x50, 0x49, 0x4E], 3, .some ⟨1, 0, 4⟩⟩, phase := .running, holdTimer := .running 0 }

/-- Code 5 of position 0 at the head of the IF, with a disposition of bank 0 written for it. -/
def keyed (d : Disposition) : State :=
  let s := opened.onIntake fun f => { f with entries := [⟨0, 5, .keypad, false⟩] }
  { s with tables := s.tables.writeEntry 0 0 5 d }

/-- FORWARD with no echo and no beep to mode 3. -/
def forward : Disposition := ⟨3, .forward, .none, .none, false, false⟩

/-- An attention outstanding at position 0 on code 5, its lapse timer run out, 1 slot of the reservation kept. -/
def attending (d : Disposition) : State :=
  { opened with
    attn := { opened.attn with
      record := .some ⟨9, 0, 5, false, .keypad, 0, d, 0⟩, lapseTimer := .running 0, number := 9 }
    oq := { opened.oq with reservation := 1 } }

/-- So many notices queued. -/
def noticed (n : Nat) (s : State) : State :=
  s.onOq fun q => { q with queue := List.replicate n (.notice (.keypadState 3 .online)), begun := true }

/-- So many replies queued, each of an IDENTIFY. -/
def answered (n : Nat) (s : State) : State :=
  s.onOq fun q => { q with queue := List.replicate n (.reply .identify 7 (.ok [])), begun := true }

/-- Whether the command completes in a state that meets a test. -/
def completes (c : Instr) (s : State) (test : State → Bool) : Bool :=
  match exec c s with
  | .next t => test t
  | .fault _ => false
  | .refused _ => false

/-- The last reply of the queue. -/
def lastReply (s : State) : Option Answer :=
  s.oq.queue.getLast?.bind fun r => match r with
    | .reply _ _ a => .some a
    | .notice _ => .none

/-! ### Well-formedness: an ill-formed command for each check -/

/-- A record's payload of 251 bytes is too long, for any request (R172, R173). -/
theorem test_payload_too_long : (Instr.prompt 1 (List.replicate 251 0)).wellFormed = false := by decide +kernel

/-- A record of a request's own kind is no UNKNOWN_REQUEST (R174). -/
theorem test_request_kind_is_known : (Instr.unknownRequest 0x23 1 []).wellFormed = false := by decide +kernel

/-- An UNKNOWN_REQUEST with too long a payload (R172). -/
theorem test_unknown_too_long : (Instr.unknownRequest 0x24 1 (List.replicate 251 0)).wellFormed = false := by
  decide +kernel

/-- A keypad reply with a key count of 5 (R29), with too few bytes, and with none. -/
theorem test_reply_shape :
    (Instr.keypadReply 0 [5, 1, 2, 3, 4, 5, 0, 0]).wellFormed = false ∧
      (Instr.keypadReply 0 [1, 2, 0]).wellFormed = false ∧ (Instr.keypadReply 0 []).wellFormed = false := by
  decide +kernel

/-- Card frames with 241 bytes of payload (section 12.5). -/
theorem test_frame_too_long :
    (Instr.answerFrame 0 (List.replicate 241 0)).wellFormed = false ∧
      (Instr.responseFrame 0 (List.replicate 241 0)).wellFormed = false ∧
      (Instr.unlistedFrameKind 0 0x20 (List.replicate 241 0)).wellFormed = false := by decide +kernel

/-- A STATE frame that fits its kind is no unlisted frame (R187). -/
theorem test_listed_frame : (Instr.unlistedFrameKind 0 0x11 [2]).wellFormed = false := by decide +kernel

/-- The record of IDENTIFY with tag 1: its check is 0x68 0x23 by hand (R185), so these bytes are no discarded record. -/
theorem test_good_record_is_not_discarded :
    (Instr.recordDiscard [0x22, 1, 0, 0x68, 0x23]).wellFormed = false := by decide +kernel

/-- A DONE frame: its check is 0x26 0x13 by hand (R185), so these bytes are no failing frame; nor are those of one that
has not ended, or that has ended before its last byte (R138). -/
theorem test_good_frame_does_not_fail :
    (Instr.failingFrame 0 [0x13, 0, 0x26, 0x13]).wellFormed = false ∧
      (Instr.failingFrame 0 [0x13, 0, 0x26]).wellFormed = false ∧
      (Instr.failingFrame 0 [0x13, 0, 0, 0, 0]).wellFormed = false := by decide +kernel

/-! ### The formats of chapter 12 -/

/-- The check of the worked poll of section 12.1: 0x12 0x04 0x07 gives 0x45 0x1D. -/
theorem test_check_of_three_bytes : checkBytes [0x12, 0x04, 0x07] = [0x45, 0x1D] := by decide +kernel

/-- The check of 0xFE 0xFE: S2 is 252 and S1 is 253. -/
theorem test_check_wraps : checkBytes [0xFE, 0xFE] = [0xFC, 0xFD] := by decide +kernel

/-- The digit entry of the PIN row: bytes 0x94 and 0x09 (section 12.6). -/
theorem test_digit_entry_bytes :
    writeDisposition ⟨4, .hold, .mask, .short, false, true⟩ = [0x94, 0x09] ∧
      readDisposition 0x94 0x09 = .some ⟨4, .hold, .mask, .short, false, true⟩ := by decide +kernel

/-- The entry block of the worked presentation of chapter 10. -/
theorem test_entry_block :
    entryBlock [4, 9, 0, 2, 7, 1] = [0x26, 0x49, 0x02, 0x71, 0xFF, 0xFF, 0xFF, 0xFF] := by decide +kernel

/-- No row of the table gives bits, so no word spells a command. -/
theorem test_no_word_is_a_command : decodeTableWord 8 0x01 = .none := rfl

/-- A power-on reset with the reset state's strap and WCTS level gives the reset state. -/
theorem test_powerOn_is_reset : powerOn .uart false = State.reset := by decide +kernel

/-! ### One step of each command -/

/-- POWER_ON_RESET strapped for USB leaves the link down and one STARTED queued (R171, R182). -/
theorem test_powerOnReset : completes (.powerOnReset .usb true) (answered 8 calm) (fun t =>
    t.link.up == false && t.oq.queue == [.notice (.started .powerOn .usb)]) = true := by decide +kernel

/-- LINK_UP begins the transfer of the head record (R176). -/
theorem test_linkUp : completes .linkUp State.reset (fun t => t.link.up && t.oq.begun) = true := by decide +kernel

/-- A transfer begun on UART runs to its end after LINK_DOWN; one on USB is cut (R176). -/
theorem test_linkDown : completes .linkDown (noticed 1 calm) (fun t => !t.link.up && t.oq.begun) = true ∧
    completes .linkDown (noticed 1 (State.powerOnValues .usb true)) (fun t => !t.oq.begun) = true := by decide +kernel

/-- An IDENTIFY whose check is wrong, and a length field of 251 at the length byte, count one link error (R172), which
saturates at 65535 (R4). -/
theorem test_recordDiscard : completes (.recordDiscard [0x22, 1, 0, 0x68, 0x24]) calm (fun t =>
      t.link.errors == 1 && t.oq.queue == []) = true ∧
    completes (.recordDiscard [0x22, 1, 251]) (calm.onLink fun l => { l with errors := 65535 })
      (fun t => t.link.errors == 65535 && t.link.rx == .hunting) = true := by decide +kernel

/-- The same IDENTIFY with its check right is accepted, on UART and on USB; on USB a transfer one byte longer than its
length field gives is discarded (R173, R185). -/
theorem test_receiver_judges_the_check :
    completes (.recordDiscard [0x22, 1, 0, 0x68, 0x23]) calm (fun t => t.oq.replies == 1) = true ∧
    completes (.recordDiscard [0x22, 1, 0, 0x68, 0x23]) { State.powerOnValues .usb true with oq := OutQueue.empty }
      (fun t => t.oq.replies == 1) = true ∧
    completes (.recordDiscard [0x22, 1, 0, 0x68, 0x23, 0]) { State.powerOnValues .usb true with oq := OutQueue.empty }
      (fun t => t.oq.replies == 0 && t.link.errors == 1) = true := by decide +kernel

/-- A record of 128 bytes goes as two full packets and a zero-length one (R173). -/
theorem test_usbPackets : (usbPackets [] (List.replicate 128 7)).map List.length = [64, 64, 0] := by decide +kernel

/-- Kind 0x40 with tag 9 is answered UNKNOWN_REQUEST in a reply of kind 0x80 (R174, section 12.2). -/
theorem test_unknownRequest : completes (.unknownRequest 0x40 9 []) calm (fun t =>
    t.oq.queue.map OutRecord.body == [[0x80, 9, 3, 1, 0, 0x40]]) = true := by decide +kernel

/-- The head record leaves and the next begins (R176). -/
theorem test_recordSent : completes .recordSent (noticed 2 calm) (fun t =>
    t.oq.queue.length == 1 && t.oq.begun) = true := by decide +kernel

/-- OPEN_POSITION 3 with bank 1 and mode 5 (R9). -/
theorem test_openPosition : completes (.openPosition 1 [3, 1, 5]) calm (fun t =>
    t.pos.get 3 == ⟨.opened, 1, 5, 0, 0, 0, 0, 0, 0⟩) = true := by decide +kernel

/-- CLOSE_POSITION with a card READY powers it off and says so (R11, R13). -/
theorem test_closePosition : completes (.closePosition 1 [0]) (card .ready) (fun t =>
    (t.line.get 0).frames == [.powerOff] && lastReply t == .some (.ok [0, 0, 0, 1])) = true := by decide +kernel

/-- RESET_POSITION ends an exchange and clears the counters (R14). -/
theorem test_resetPosition : completes (.resetPosition 1 [0]) ((flying .power).onPos 0 fun r => { r with misses := 4 })
    (fun t => t.xs.get 0 == .none && (t.pos.get 0).misses == 0 && (t.line.get 0).state == .seated) = true := by
  decide +kernel

/-- SET_MODE 7 (R15). -/
theorem test_setMode : completes (.setMode 1 [0, 7]) opened (fun t => (t.pos.get 0).mode == 7) = true := by
  decide +kernel

/-- POSITION_STATUS of position 15 after reset: every field 0, NO_READER and UNHEARD among them (R16). -/
theorem test_positionStatus : completes (.positionStatus 1 [15]) calm (fun t =>
    lastReply t == .some (.ok (List.replicate 20 0))) = true := by decide +kernel

/-- BUS_SET with a round period of 300 stores 250 and sets adjusted (R19). -/
theorem test_busSet : completes (.busSet 1 [2, 0, 0, 0x25, 0x80, 1, 44, 0, 6, 3]) calm (fun t =>
    (t.bus.get 2).pending == .some ⟨9600, 250, 6, 3⟩ && (lastReply t).map Answer.adjusted == .some true) = true := by
  decide +kernel

/-- BUS_STATUS begins with the settings in force, 19200, 20, 6 and 3 after reset (R17, R41). -/
theorem test_busStatus : completes (.busStatus 1 [0]) calm (fun t =>
    (lastReply t).map (fun a => a.fields.take 9) == .some [0, 0, 0x4B, 0, 0, 20, 0, 6, 3]) = true := by decide +kernel

/-- BANK_OPEN answers with the bank that was open: none, 0xFF (R63, R186). -/
theorem test_bankOpen : completes (.bankOpen 1 [2]) calm (fun t =>
    t.tables.openBank == .some 2 && lastReply t == .some (.ok [0xFF])) = true := by decide +kernel

/-- BANK_CLOSE answers with the bank that was open (R65). -/
theorem test_bankClose : completes (.bankClose 1 []) { calm with tables := { calm.tables with openBank := .some 2 } }
    (fun t => t.tables.openBank == .none && lastReply t == .some (.ok [2])) = true := by decide +kernel

/-- BANK_FREEZE of the open bank closes and freezes it (R66). -/
theorem test_bankFreeze : completes (.bankFreeze 1 [2]) { calm with tables := { calm.tables with openBank := .some 2 } }
    (fun t => t.tables.openBank == .none && t.tables.frozen.get 2 && lastReply t == .some (.ok [1, 0])) = true := by
  decide +kernel

/-- TABLE_WRITE of the PIN row's digit entry at code 63, the row's end (R67). -/
theorem test_tableWrite : completes (.tableWrite 1 [1, 4, 63, 1, 0x94, 0x09])
    { calm with tables := { calm.tables with openBank := .some 1 } } (fun t =>
    t.tables.readEntry 1 4 63 == ⟨4, .hold, .mask, .short, false, true⟩ &&
      t.tables.readEntry 1 4 62 == ⟨4, .discard, .none, .none, false, false⟩) = true := by decide +kernel

/-- MODE_SET with a mask that is no printable character stores '*' and sets adjusted (R69). -/
theorem test_modeSet : completes (.modeSet 1 [1, 4, 1, 0x7F])
    { calm with tables := { calm.tables with openBank := .some 1 } } (fun t =>
    t.tables.readDescriptor 1 4 == ⟨true, 0x2A⟩ && lastReply t == .some (.stored true [1, 0x2A])) = true := by
  decide +kernel

/-- TABLE_READ of an initial entry in mode row 4: DISCARD that stays in its row (R62, R70). -/
theorem test_tableRead : completes (.tableRead 1 [0, 4, 63, 1]) calm (fun t =>
    lastReply t == .some (.ok [0, 0, 0, 0x2A, 1, 4, 0])) = true := by decide +kernel

/-- ATTENTION_SET 10 stores 50 (R95). -/
theorem test_attentionSet : completes (.attentionSet 1 [0, 10]) calm (fun t => t.attn.window == 50) = true := by
  decide +kernel

/-- ATTEND without an attention (R96), and with action 2, which discards and ends it. -/
theorem test_attend : completes (.attend 1 [0, 9, 0]) calm (fun t =>
      lastReply t == .some (.no .noAttention [0, 0, 0])) = true ∧
    completes (.attend 1 [0, 9, 2]) (attending forward) (fun t =>
      t.attn.record == .none && t.oq.reservation == 0 && (t.pos.get 0).mode == 0) = true := by decide +kernel

/-- COLLECT with lengths 20 to 20 stores 16 and 16 and loads the total timer in ticks (R105, R106). -/
theorem test_collect : completes (.collect 1 [0, 2, 20, 20, 0, 0xFF, 0xFF, 0xFF, 0xFF, 0, 60]) opened (fun t =>
    (t.entry.get 0).map (fun e => (e.minLength, e.maxLength, e.totalTimer)) == .some (16, 16, .running 6000) &&
      (t.pos.get 0).mode == 2) = true := by decide +kernel

/-- COLLECT_STATUS of a collecting entry of 2 codes in mode 0 (R117). -/
theorem test_collectStatus : completes (.collectStatus 1 [0]) (typing [4, 9]) (fun t =>
    (lastReply t).map (fun a => a.fields.take 4) == .some [1, 0, 2, 0]) = true := by decide +kernel

/-- COLLECT_STOP of a plain entry returns its codes (R118). -/
theorem test_collectStop : completes (.collectStop 1 [0]) (typing [4, 9]) (fun t =>
    t.entry.get 0 == .none && lastReply t == .some (.ok [2, 0, 4, 9])) = true := by decide +kernel

/-- ENTRY_READ never reads a secret entry (R119). -/
theorem test_entryRead : completes (.entryRead 1 [0]) (opened.putEntry 0 (.some pin)) (fun t =>
    lastReply t == .some (.no .entrySecret [])) = true := by decide +kernel

/-- ENTRY_WIPE removes an entry in either state (R120). -/
theorem test_entryWipe : completes (.entryWipe 1 [0]) (opened.putEntry 0 (.some pin)) (fun t =>
    t.entry.get 0 == .none && lastReply t == .some (.ok [2])) = true := by decide +kernel

/-- PROMPT REPLACE "PIN" with a hold of 601 stores 600 and shows the text at once (R125 to R129). -/
theorem test_prompt : completes (.prompt 1 [0, 0, 3, 0x50, 0x49, 0x4E, 2, 89, 0, 0, 0, 0]) opened (fun t =>
    (t.pu.get 0).content.take 4 == [0x50, 0x49, 0x4E, 0x20] &&
      (t.pu.get 0).current == .some ⟨[0x50, 0x49, 0x4E], 600, .none⟩ && (t.pu.get 0).dirty) = true := by decide +kernel

/-- PROMPT_CLEAR counts the prompts removed (R134). -/
theorem test_promptClear : completes (.promptClear 1 [0]) prompted (fun t =>
    (t.pu.get 0).slotA == .none && lastReply t == .some (.ok [1])) = true := by decide +kernel

/-- BEEP answers with the beep it replaces (R135). -/
theorem test_beep : completes (.beep 1 [0, 2]) (opened.onPu 0 fun u => { u with beep := .short }) (fun t =>
    (t.pu.get 0).beep == .long && lastReply t == .some (.ok [1])) = true := by decide +kernel

/-- CARD_LINE_SET with a timeout of 100 stores 200, in force at once on an idle line (R140, R141). -/
theorem test_cardLineSet : completes (.cardLineSet 1 [3, 0, 0, 0x25, 0x80, 0, 100]) calm (fun t =>
    (t.line.get 12).settings == ⟨9600, 200⟩ && (t.line.get 11).settings == ⟨38400, 1500⟩) = true := by decide +kernel

/-- CARD_STATUS begins with card state, reader presence and cause (R151). -/
theorem test_cardStatus : completes (.cardStatus 1 [0]) (card .ready) (fun t =>
    (lastReply t).map (fun a => a.fields.take 3) == .some [5, 1, 0]) = true := by decide +kernel

/-- CARD_POWER of a seated card: POWER_ON leaves and the card is POWERING (R156, R157). -/
theorem test_cardPower : completes (.cardPower 1 [0]) (card .seated) (fun t =>
    (t.line.get 0).txLeaving == .some .powerOn && (t.line.get 0).state == .powering &&
      lastReply t == .some (.ok [0, 5, 0xDC])) = true := by decide +kernel

/-- CARD_EXCHANGE on an idle line: its COMMAND leaves at once (R156, R158). -/
theorem test_cardExchange : completes (.cardExchange 1 [0, 0x0B, 0x0C, 3, 0xE8]) (card .ready) (fun t =>
    (t.line.get 0).txLeaving == .some (.command [0x0B, 0x0C]) && (t.line.get 0).state == .exchanging) = true := by
  decide +kernel

/-- CARD_PRESENT on an idle line: the header and the entry block leave at once (R160, chapter 10's sequence). -/
theorem test_cardPresent : completes (.cardPresent 1 [0, 4, 1, 2, 3, 4, 3, 0xE8]) ((card .ready).putEntry 0 (.some pin))
    (fun t => (t.line.get 0).txLeaving ==
      .some (.command [1, 2, 3, 4, 0x26, 0x49, 0x02, 0x71, 0xFF, 0xFF, 0xFF, 0xFF])) = true := by decide +kernel

/-- CARD_RELEASE of a READY card: POWER_OFF ahead of EJECT (R161). -/
theorem test_cardRelease : completes (.cardRelease 1 [0]) (card .ready) (fun t =>
    (t.line.get 0).frames == [.powerOff, .eject] && (t.line.get 0).state == .releasing) = true := by decide +kernel

/-- CARD_ABORT of a power exchange: POWER_OFF, and the card is SEATED (R168). -/
theorem test_cardAbort : completes (.cardAbort 1 [0]) (flying .power) (fun t =>
    t.xs.get 0 == .none && (t.line.get 0).state == .seated && lastReply t == .some (.ok [0, 1, 0xFF])) = true := by
  decide +kernel

/-- LINK_RATE 460800 is pending until its reply has left (R180). -/
theorem test_linkRate : completes (.linkRate 1 [0, 7, 8, 0]) calm (fun t =>
    t.link.rate == 115200 && t.link.pendingRate == .some 460800) = true := by decide +kernel

/-- RESET_ARM sets armed (R181). -/
theorem test_resetArm : completes (.resetArm 1 []) calm (fun t => t.link.armed) = true := by decide +kernel

/-- COUNTER_RESET without RESET_ARM is NOT_ARMED; armed, its reply and STARTED are queued (R181). -/
theorem test_counterReset : completes (.counterReset 1 []) opened (fun t =>
      (t.pos.get 0).state == .opened && lastReply t == .some (.no .notArmed [])) = true ∧
    completes (.counterReset 1 []) (opened.onLink fun l => { l with armed := true }) (fun t =>
      (t.pos.get 0).state == .closed &&
        t.oq.queue == [.reply .counterReset 1 (.ok []), .notice (.started .counterReset .uart)]) = true := by
  decide +kernel

/-- IDENTIFY begins with the part name, the revision and the mode (R183). -/
theorem test_identify : completes (.identify 1 []) calm (fun t =>
    (lastReply t).map (fun a => a.fields.take 7) == .some [4, 0x43, 0x58, 0x31, 0x36, 3, 0]) = true := by decide +kernel

/-- COUNTER_STATUS with one entry in the IF (R183). -/
theorem test_counterStatus : completes (.counterStatus 1 []) (keyed forward) (fun t =>
    (lastReply t).map (fun a => a.fields.take 4) == .some [1, 0, 0, 0]) = true := by decide +kernel

/-- ROUND_TIMER_EXPIRY while the round is in progress sets round due (R21). -/
theorem test_roundTimerExpiry : completes (.roundTimerExpiry 0)
    ((polling .sending).onBus 0 fun b => { b with roundTimer := .running 0 }) (fun t =>
    (t.bus.get 0).roundDue && (t.bus.get 0).roundTimer == .running 20) = true := by decide +kernel

/-- The response window is loaded as the poll's last byte leaves (R29). -/
theorem test_pollLastByteLeaves : completes (.pollLastByteLeaves 0) (polling .sending) (fun t =>
    (t.bus.get 0).windowTimer == .running 6 && (t.bus.get 0).poll == .some (poll .awaiting)) = true := by decide +kernel

/-- A reply of address 3 with keys 1 and 2 in a new sequence: they enter the IF, with KEYPAD_BACK behind (R33, R39). -/
theorem test_keypadReply : completes (.keypadReply 0 ([0xE2, 1, 2] ++ checkBytes [0xE2, 1, 2])) (polling .awaiting)
    (fun t => t.intake.entries ==
        [⟨3, 1, .keypad, false⟩, ⟨3, 2, .keypad, false⟩, ⟨3, 0x3D, .synthetic, false⟩] &&
      (t.pos.get 3).keysEntered == 2) = true := by decide +kernel

/-- The expiry of the response window is a miss (R31). -/
theorem test_responseWindowExpiry : completes (.responseWindowExpiry 0)
    ((polling .awaiting).onBus 0 fun b => { b with windowTimer := .running 0 }) (fun t =>
    (t.pos.get 3).misses == 1 && ((t.bus.get 0).addrs.get 3).misses == 1) = true := by decide +kernel

/-- A withdrawn code with FORWARD posts KEY with the mode after (R82, R87), and one with attention set raises it and
halts the engine (R93). -/
theorem test_withdrawal : completes .withdrawal (keyed forward) (fun t =>
      t.oq.queue == [.notice (.app (.key 0 5 3))] && (t.pos.get 0).mode == 3 && t.oq.reservation == 0) = true ∧
    completes .withdrawal (keyed { forward with attention := true }) (fun t =>
      t.halted && t.attn.lapseTimer == .running 2000 && t.oq.reservation == 1) = true := by decide +kernel

/-- A lapsed attention posts ATTENTION_LAPSED with the application's KEY inside it (R99). -/
theorem test_lapseTimerExpiry : completes .lapseTimerExpiry (attending forward) (fun t =>
    t.oq.queue == [.notice (.attentionLapsed 9 0 5 .forward false 3 (.some (.key 0 5 3)))] && !t.halted) = true := by
  decide +kernel

/-- The inter-key expiry enters INTERKEY_LAPSE (R115). -/
theorem test_interkeyExpiry : completes (.interkeyExpiry 0)
    (opened.putEntry 0 (.some { entryOf [1] with interkeyTimer := .running 0 })) (fun t =>
    t.intake.entries == [⟨0, 0x38, .synthetic, false⟩]) = true := by decide +kernel

/-- The total timer's expiry ends the entry, writes its end mode and posts ENTRY_ENDED (R116). -/
theorem test_totalTimerExpiry : completes (.totalTimerExpiry 0)
    (opened.putEntry 0 (.some { entryOf [1] with totalTimer := .running 0 })) (fun t =>
    t.entry.get 0 == .none && (t.pos.get 0).mode == 5 &&
      t.oq.queue == [.notice (.entryExpired 0 1 false 5 1)]) = true := by decide +kernel

/-- With no prompt queued the hold's expiry ends the prompt and enters PROMPT_ENDED (R131). -/
theorem test_promptHoldExpiry : completes (.promptHoldExpiry 0) prompted (fun t =>
    (t.pu.get 0).phase == .ended && t.intake.entries == [⟨0, 0x3E, .synthetic, false⟩]) = true := by decide +kernel

/-- A card found seated where none was enters CARD_ARRIVED and CARD_SEATED (R146, R149). -/
theorem test_stateFrame : completes (.stateFrame 0 .seated) (card .empty) (fun t =>
    (t.line.get 0).state == .seated && t.intake.entries.map (fun e => e.code) == [0x39, 0x3A]) = true := by
  decide +kernel

/-- A FAULT frame sets the cause and the state FAULT (R147). -/
theorem test_faultFrame : completes (.faultFrame 0 .jam) (card .empty) (fun t =>
    (t.line.get 0).state == .fault && (t.line.get 0).cause == .some .jam && (t.line.get 0).faults == 1) = true := by
  decide +kernel

/-- DONE while RELEASING makes the card PRESENTED; elsewhere it is a late frame (R148). -/
theorem test_doneFrame : completes (.doneFrame 0) (flying .release) (fun t =>
      (t.line.get 0).state == .presented && t.xs.get 0 == .none) = true ∧
    completes (.doneFrame 0) (card .seated) (fun t => (t.line.get 0).lateFrames == 1) = true := by decide +kernel

/-- The awaited ANSWER makes the card READY and ends the exchange with its data (R162). -/
theorem test_answerFrame : completes (.answerFrame 0 [0x3B]) (flying .power) (fun t =>
    (t.line.get 0).state == .ready && t.xs.get 0 == .none &&
      t.oq.queue.getLast? == .some (.notice (.exchangeDone 0 7 .power .done (.some [0x3B])))) = true := by
  decide +kernel

/-- The awaited RESPONSE (R162); one of 1 byte asks for a REPEAT (R165, R187). -/
theorem test_responseFrame : completes (.responseFrame 0 [0x90, 0]) (flying .command) (fun t =>
      (t.line.get 0).state == .ready && t.xs.get 0 == .none) = true ∧
    completes (.responseFrame 0 [0x90]) (flying .command) (fun t =>
      (t.line.get 0).frames == [.askRepeat] && (t.line.get 0).checkErrors == 1) = true := by decide +kernel

/-- A frame of another kind is late (R139, R187). -/
theorem test_unlistedFrameKind : completes (.unlistedFrameKind 0 0x20 []) (card .seated) (fun t =>
    (t.line.get 0).lateFrames == 1) = true := by decide +kernel

/-- The third failing frame in a row loses the line (R139, R144). -/
theorem test_failingFrame : completes (.failingFrame 0 [0x13, 0, 0x26, 0x14]) ((card .ready).onLine 0 fun l => { l with checkFails := 2 })
    (fun t => (t.line.get 0).state == .noReader && (t.line.get 0).presence == .lost &&
      (t.line.get 0).powerUnknown) = true := by decide +kernel

/-- The frame waiting next begins to leave (R138). -/
theorem test_cardFrameSent : completes (.cardFrameSent 0)
    ((card .releasing).onLine 0 fun l => { l with txLeaving := .some .powerOff, txWaiting := [.eject] }) (fun t =>
    (t.line.get 0).txLeaving == .some .eject && (t.line.get 0).txWaiting == []) = true := by decide +kernel

/-- Silence outside an exchange asks for HELLO (R142). -/
theorem test_lineSilenceExpiry : completes (.lineSilenceExpiry 0)
    ((card .seated).onLine 0 fun l => { l with silenceTimer := .running 0 }) (fun t =>
    (t.line.get 0).txLeaving == .some .hello && (t.line.get 0).helloTimer == .running 200) = true := by decide +kernel

/-- A HELLO without answer is a miss (R143), also when a frame abandoned at the expiry is the third failure and loses the
line (R138, R153). -/
theorem test_helloAnswerExpiry : completes (.helloAnswerExpiry 0)
    ((card .seated).onLine 0 fun l => { l with helloOut := true, helloTimer := .running 0 }) (fun t =>
    (t.line.get 0).misses == 1 && (t.line.get 0).silenceTimer == .running 500) = true ∧
    completes (.helloAnswerExpiry 0) ((card .seated).onLine 0 fun l =>
      { l with helloOut := true, helloTimer := .running 0, checkFails := 2, rx := .receiving [0x11] }) (fun t =>
    (t.line.get 0).misses == 1 && (t.line.get 0).state == .noReader && !(t.line.get 0).helloOut) = true := by
  decide +kernel

/-- A line in NO_READER asks for HELLO every 2000 ticks (R145). -/
theorem test_noReaderHelloExpiry : completes (.noReaderHelloExpiry 0)
    (calm.onLine 0 fun l => { l with noReaderTimer := .running 0 }) (fun t =>
    (t.line.get 0).txLeaving == .some .hello && (t.line.get 0).noReaderTimer == .running 2000) = true := by
  decide +kernel

/-- An exchange without response ends with NO_RESPONSE and POWER_OFF (R163). -/
theorem test_exchangeTimerExpiry : completes (.exchangeTimerExpiry 0)
    ((flying .command).putXs 0 (.some { record .command true with timer := .running 0 })) (fun t =>
    (t.line.get 0).state == .seated && (t.line.get 0).frames == [.powerOff] &&
      t.oq.queue.getLast? == .some (.notice (.exchangeDone 0 7 .command .noResponse .none))) = true := by decide +kernel

/-- The time count wraps and a running timer falls by 1 (R5, R6). -/
theorem test_tick : completes .tick { opened with timeCount := 0xFFFFFFFF } (fun t =>
    t.timeCount == 0 && (t.bus.get 0).roundTimer == .running 19) = true := by decide +kernel

/-- The sync byte of a reply reloads the response window (R29). -/
theorem test_keypadReplyByte : completes (.keypadReplyByte 0 0x69)
    ((polling .awaiting).onBus 0 fun b => { b with windowTimer := .running 1 }) (fun t =>
    (t.bus.get 0).windowTimer == .running 6 && (t.bus.get 0).poll == .some (poll (.receiving []))) = true := by decide +kernel

/-- The last check byte of a reply with key 5 has it judged on the bytes received (R29); its check is 0xC8 0xE6 by hand
(R185), and with another last byte the reply is a miss and a check error (R30). -/
theorem test_reply_byte_by_byte :
    completes (.keypadReplyByte 0 0xE6) (polling (.receiving [0xE1, 5, 0xC8]))
      (fun t => t.intake.entries.head? == .some ⟨3, 5, .keypad, false⟩) = true ∧
    completes (.keypadReplyByte 0 0xE7) (polling (.receiving [0xE1, 5, 0xC8]))
      (fun t => t.intake.entries == [] && (t.pos.get 3).checkErrors == 1) = true := by decide +kernel

/-- An applied display starts the hold of the current prompt, 3 units, and one of hold 0 is SHOWN (R36, R130). -/
theorem test_applied_display_starts_the_hold :
    let s (hold : Nat) := (polling .awaiting).onPu 3 fun u => { u with slotA := .some ⟨[0x41], hold, .none⟩ };
    let reply : Instr := .keypadReply 0 ([0xD0] ++ checkBytes [0xD0]);
    completes reply (s 3) (fun t => (t.pu.get 3).phase == .running && (t.pu.get 3).holdTimer == .running 300) = true ∧
      completes reply (s 0) (fun t => (t.pu.get 3).phase == .shown && (t.pu.get 3).holdTimer == .stopped) = true := by
  decide +kernel

/-- The receiver of a card line takes a sync byte (R138), and the frame behind it is received as without it. -/
theorem test_cardLineSyncByte :
    completes (.cardLineSyncByte 0) calm (fun t => (t.line.get 0).rx == .receiving []) = true ∧
    completes (.stateFrame 0 .seated) ((card .empty).onLine 0 fun l => { l with rx := .receiving [] }) (fun t =>
      (t.line.get 0).state == .seated && (t.line.get 0).rx == .hunting) = true := by decide +kernel

/-- The receiver of the link takes a sync byte (R172), and the record behind it is received as without it. -/
theorem test_linkSyncByte :
    completes .linkSyncByte calm (fun t => t.link.rx == .receiving []) = true ∧
    completes (.identify 1 []) (calm.onLink fun l => { l with rx := .receiving [] }) (fun t => t.oq.replies == 1) = true := by
  decide +kernel

/-! ### For each statement with hypotheses: a state and operands that meet them, clause by clause -/

/-- A request record. -/
def identifyRequest : Request := ⟨.identify, 7, []⟩

/-- Eight replies queued and one record WAITING. -/
def stalled : State := (answered 8 calm).onLink fun l => { l with rx := .waiting identifyRequest }

/-- The part strapped for USB. -/
def usb : State := { State.powerOnValues .usb true with oq := OutQueue.empty }

/-- So many entries of position 3 in the IF, and so many places reserved. -/
def filled (n reserved : Nat) (s : State) : State :=
  s.onIntake fun f => { f with entries := List.replicate n ⟨3, 1, .keypad, false⟩, reserved := reserved }

/-- Bank 1 open. -/
def writing : State := { opened with tables := { opened.tables with openBank := .some 1 } }

/-- The reply of LINK_RATE at the head with 230400 pending. -/
def rated : State :=
  (calm.onLink fun l => { l with pendingRate := .some 230400 }).onOq fun q =>
    { q with queue := [.reply .linkRate 7 (.ok [])], begun := true }

/-- 64 notices queued and, owed, the keypad state of position 0 and FIFO_PRESSURE. -/
def owing : State :=
  (noticed 64 calm).onOq fun q =>
    { q with keypads := q.keypads.set 0 (.some .online), pressure := .some ⟨.high, 64, 0⟩ }

/-- Bus 0 with its round finished and its round timer run out, position 3 OPEN and ONLINE. -/
def roundOver : State :=
  (opened.onPos 3 fun r => { r with state := .opened }).onBus 0 fun b =>
    { b with round := .finished, roundTimer := .running 0,
             addrs := b.addrs.set 3 ⟨.online, .some true, 0, 7, 3, false⟩ }

/-- The pressure of the IF made HIGH. -/
def pressed (s : State) : State := s.onIntake fun f => { f with pressure := .high }

/-- A receiver that hunts has no record WAITING. -/
theorem hunting_ne_waiting (r : Request) : RxState.hunting ≠ .waiting r := fun h => RxState.noConfusion h

/-- StepRunsTheFrontCommand, its second clause: an empty queue. -/
theorem witness_StepRunsTheFrontCommand : calm.pending = [] := rfl

/-- LinkEventsMoveOnlyTheLink, in the order of its clauses; an over-long record ends at its length byte. -/
theorem witness_LinkEventsMoveOnlyTheLink :
    calm.link.mode = .uart ∧
    (usb.link.mode = .usb ∧ ∀ r, usb.link.rx ≠ .waiting r) ∧
    ((stalled.onLink fun l => { l with mode := .usb }).link.mode = .usb ∧
      (stalled.onLink fun l => { l with mode := .usb }).link.rx = .waiting identifyRequest) ∧
    (calm.link.mode = .uart ∧ calm.link.rx = .hunting) ∧
    ((calm.onLink fun l => { l with rx := .receiving [0x22, 1, 0, 0x68] }).link.rx = .receiving [0x22, 1, 0, 0x68] ∧
      recordEnds ([0x22, 1, 0] ++ [0xC5]) = false) ∧
    (usb.link.mode = .usb ∨ ∃ r, usb.link.rx = .waiting r) ∧
    ((Instr.recordDiscard [0x22, 1, 251]).wellFormed = true ∧ recordEnds [0x22, 1, 251] = true ∧
      recordEnds [0x22, 1] = false ∧ (Instr.recordDiscard [0x22, 1, 0, 0x68, 0x23, 0]).wellFormed = true) ∧
    stalled.link.rx = .waiting identifyRequest :=
  ⟨rfl, ⟨rfl, hunting_ne_waiting⟩, ⟨rfl, rfl⟩, ⟨rfl, rfl⟩, ⟨rfl, by decide +kernel⟩, .inl rfl, by decide +kernel, rfl⟩

/-- RecordSentLeavesTheQueue. -/
theorem witness_RecordSentLeavesTheQueue :
    ((noticed 1 calm).oq.begun = true ∧ (noticed 1 calm).oq.queue = .notice (.keypadState 3 .online) :: [] ∧
      anyOwed (noticed 1 calm) = false) ∧
    ((answered 1 calm).oq.begun = true ∧ (answered 1 calm).oq.queue = .reply .identify 7 (.ok []) :: [] ∧
      (∀ r, (answered 1 calm).link.rx ≠ .waiting r) ∧
      (ReqKind.identify ≠ .linkRate ∨ (Answer.ok []).status ≠ .ok ∨ (answered 1 calm).link.pendingRate = .none)) ∧
    (rated.oq.begun = true ∧ rated.oq.queue = .reply .linkRate 7 (.ok []) :: [] ∧
      (∀ r, rated.link.rx ≠ .waiting r) ∧ (Answer.ok []).status = .ok ∧ rated.link.pendingRate = .some 230400) ∧
    calm.oq.begun = false :=
  ⟨by decide +kernel, ⟨rfl, rfl, hunting_ne_waiting, by decide⟩, ⟨rfl, rfl, hunting_ne_waiting, rfl, rfl⟩, rfl⟩

/-- FreedSlotServesTheFirstOwedFlag: a full queue, with the flags of keypad 0 and of pressure set. -/
theorem witness_FreedSlotServesTheFirstOwedFlag :
    ∃ t m u before after, owing.oq.begun = true ∧
      owing.oq.queue = .notice (.keypadState 3 .online) :: List.replicate 63 (.notice (.keypadState 3 .online)) ∧
      owing.oq.notices + owing.oq.reservation ≤ 64 ∧ OwedKey.inOrder = before ++ .keypad 0 :: after ∧
      (∀ j ∈ before, isOwed owing j = false) ∧ takeOwed (.keypad 0) owing = .some (m, u) ∧
      exec .recordSent owing = .next t :=
  ⟨_, .keypadState 0 .online, _, OwedKey.inOrder.take 48, OwedKey.inOrder.drop 49, rfl, rfl, by decide +kernel,
    by decide +kernel, by decide +kernel, rfl, rfl⟩

/-- FullReplyQueueHoldsOneRecord: the last clause with a LINK_RATE reply at the head. -/
theorem witness_FullReplyQueueHoldsOneRecord :
    (((answered 8 calm).link.rx = .hunting ∨ (answered 8 calm).link.rx = .receiving []) ∧
      identifyRequest.command.wellFormed = true ∧ 8 ≤ (answered 8 calm).oq.replies) ∧
    stalled.link.rx = .waiting identifyRequest ∧
    (stalled.oq.begun = true ∧
      stalled.oq.queue = .reply .identify 7 (.ok []) :: List.replicate 7 (.reply .identify 7 (.ok [])) ∧
      stalled.link.rx = .waiting identifyRequest ∧ stalled.oq.replies ≤ 8 ∧
      (ReqKind.identify ≠ .linkRate ∨ (Answer.ok []).status ≠ .ok)) ∧
    (let s := rated.onLink fun l => { l with rx := .waiting identifyRequest };
      s.oq.begun = true ∧ s.oq.queue = .reply .linkRate 7 (.ok []) :: [] ∧ (Answer.ok []).status = .ok ∧
        s.link.rx = .waiting identifyRequest ∧ s.oq.replies ≤ 8 ∧ s.link.pendingRate = .some 230400) := by
  decide +kernel

/-- UnusableRecordsAreAnswered: position 16 and group 4, a record of 250 bytes. -/
theorem witness_UnusableRecordsAreAnswered :
    ((answered 7 calm).takesRequests ∧ (Instr.unknownRequest 0x24 7 (List.replicate 250 0)).wellFormed = true) ∧
    (calm.takesRequests ∧ ReqKind.namesPosition .openPosition = true ∧ 15 < (16 : Byte).toNat ∧
      (Request.command ⟨.openPosition, 7, [16, 0, 0]⟩).wellFormed = true) ∧
    (calm.takesRequests ∧ ReqKind.namesGroup .busStatus = true ∧ 3 < (4 : Byte).toNat ∧
      (Request.command ⟨.busStatus, 7, [4]⟩).wellFormed = true) ∧
    ((Request.command ⟨.identify, 7, [0]⟩).wellFormed = true ∧ ReqKind.fixedLength .identify = .some 0 ∧
      (Request.command ⟨.collect, 7, List.replicate 10 0⟩).wellFormed = true ∧ ReqKind.fixedLength .collect = .some 11) ∧
    ((Request.command ⟨.attend, 7, [0, 0, 0, 0]⟩).wellFormed = true ∧
      (Request.command ⟨.tableWrite, 7, [0, 0, 0]⟩).wellFormed = true ∧
      (Request.command ⟨.cardExchange, 7, List.replicate 244 0⟩).wellFormed = true ∧
      (Request.command ⟨.cardExchange, 7, [0, 0, 0]⟩).wellFormed = true ∧
      (Request.command ⟨.prompt, 7, [0, 0, 1, 0x41, 0, 0, 0, 0, 0]⟩).wellFormed = true ∧
      ([0x41, 0, 0, 0, 0, 0] : List Byte).length ≠ (1 : Byte).toNat + 6) := by decide +kernel

/-- RequestsGetOneReplyAndRefusalsChangeNothing: an IDENTIFY, and an OPEN_POSITION with no fields. -/
theorem witness_RequestsGetOneReplyAndRefusalsChangeNothing :
    (calm.takesRequests ∧ identifyRequest.command.wellFormed = true ∧
      ∃ t, exec identifyRequest.command calm = .next t) ∧
    (calm.takesRequests ∧ (Request.command ⟨.openPosition, 7, []⟩).wellFormed = true ∧
      completes (Request.command ⟨.openPosition, 7, []⟩) calm
        (fun t => t.oq.queue == [] ++ [.reply .openPosition 7 (.no .badRecord [])]) = true ∧
      (Answer.no .badRecord []).status ≠ .ok) :=
  ⟨⟨by decide +kernel, by decide +kernel, _, rfl⟩, by decide +kernel⟩

/-- OpenPositionAndSetModeWriteTheRecord: bank 4, mode 8. -/
theorem witness_OpenPositionAndSetModeWriteTheRecord :
    (calm.takesRequests ∧ (calm.pos.get 15).state = .closed) ∧
    (3 < (4 : Byte).toNat ∨ 7 < (0 : Byte).toNat) ∧ (3 < (0 : Byte).toNat ∨ 7 < (8 : Byte).toNat) ∧
    (opened.takesRequests ∧ (opened.pos.get 0).state = .opened) := by decide +kernel

/-- ClosePositionEndsThePositionsWork. -/
theorem witness_ClosePositionEndsThePositionsWork :
    ((card .ready).takesRequests ∧ ((card .ready).pos.get 0).state = .opened ∧ (card .ready).xs.get 0 = .none ∧
      ((card .ready).line.get 0).flows ∧ anyOwed (card .ready) = false ∧ (noticed 63 (card .ready)).slotAfterVoid 0 ∧
      ¬ (noticed 64 (card .ready)).slotAfterVoid 0) ∧
    (calm.takesRequests ∧ (calm.pos.get 0).state = .closed) ∧
    ((flying .power).takesRequests ∧ ((flying .power).pos.get 0).state = .opened ∧
      (flying .power).xs.get 0 ≠ .none) := by decide +kernel

/-- ResetPositionEndsEverything: a record AWAITING, and one in RESULT_HELD. -/
theorem witness_ResetPositionEndsEverything :
    ((flying .present).takesRequests ∧ ((flying .present).line.get 0).flows ∧ anyOwed (flying .present) = false) ∧
    (let s := noticed 64 ((card .seated).putXs 0 (.some { record .power true with phase := .held .noResponse .none }));
      s.takesRequests ∧ (s.line.get 0).flows ∧ isOwed s (.result 0) = true ∧
        ∀ k, k ≠ .result 0 → isOwed s k = false) := by
  refine ⟨by decide +kernel, by decide +kernel, by decide +kernel, by decide +kernel, fun k => ?_⟩
  have h : ∀ k ∈ OwedKey.inOrder, k ≠ .result 0 →
      isOwed (noticed 64 ((card .seated).putXs 0 (.some { record .power true with phase := .held .noResponse .none }))) k =
        false := by decide +kernel
  exact h k (mem_inOrder k)

/-- StatusRequestsOfTheCounterSide: with an entry and without. -/
theorem witness_StatusRequestsOfTheCounterSide :
    ((typing []).takesRequests ∧ (typing []).entry.get 0 = .some (entryOf [])) ∧
    (calm.takesRequests ∧ calm.entry.get 0 = .none) := by decide +kernel

/-- SettingsAreClampedAndStored: the ends of the ranges, a quiet line, one with an exchange, one of another group. -/
theorem witness_SettingsAreClampedAndStored :
    (calm.takesRequests ∧ 57600 ∈ [9600, 19200, 38400, 57600] ∧ 65535 < 65536 ∧ 255 < 256) ∧
    (9601 ∉ [9600, 19200, 38400, 57600] ∧ 9601 < 2 ^ 32) ∧
    (115200 ∈ [9600, 19200, 38400, 57600, 115200]) ∧
    (groupOf 3 = 0 ∧ ((flying .power).line.get 3).quiet ∧ (flying .power).inFlight 3 = false) ∧
    (groupOf 0 = 0 ∧ ¬ (((flying .power).line.get 0).quiet ∧ (flying .power).inFlight 0 = false)) ∧ groupOf 4 ≠ 0 ∧
    (0 ∉ [9600, 19200, 38400, 57600, 115200] ∧ 0 < 2 ^ 32) := by decide +kernel

/-- Bus 0 polling address 0 as the last of its round, with round due set and the response window run out. -/
def lastVisit : State :=
  (polling .awaiting).onBus 0 fun b =>
    { b with poll := .some { poll .awaiting with addr := 0 }, round := .inProgress 0, roundDue := true,
             windowTimer := .running 0, addrs := b.addrs.set 3 ⟨.online, .some true, 0, 7, 3, false⟩ }

/-- RoundTimerExpiryStartsTheNextRound: the third case has just the 5 places that a poll wants. -/
theorem witness_RoundTimerExpiryStartsTheNextRound :
    ((((polling .sending).onBus 0 fun b => { b with roundTimer := .running 0 }).bus.get 0).roundTimer = .running 0 ∧
      (((polling .sending).onBus 0 fun b => { b with roundTimer := .running 0 }).bus.get 0).round = .inProgress 3) ∧
    (((pressed roundOver).bus.get 0).roundTimer = .running 0 ∧ ((pressed roundOver).bus.get 0).round = .finished ∧
      ((pressed roundOver).bus.get 0).roundDue = false ∧ ((pressed roundOver).bus.get 0).poll = .none ∧
      (pressed roundOver).intake.pressure = .high ∧
      ∀ a, (pressed roundOver).collecting (posAt 0 a) = false) ∧
    (let s := pressed (filled 123 0 (roundOver.putEntry 3 (.some (entryOf []))));
      (s.bus.get 0).roundTimer = .running 0 ∧ (s.bus.get 0).round = .finished ∧ s.collecting (posAt 0 3) = true ∧
      ((s.bus.get 0).addrs.get 3).presence = .online ∧ 5 + s.intake.flagCount ≤ s.intake.free ∧ s.intake.free = 5) ∧
    (let s := filled 117 5 (lastVisit.putEntry 3 (.some (entryOf [])));
      (s.bus.get 0).poll = .some { poll .awaiting with addr := 0 } ∧ (s.bus.get 0).round = .inProgress 0 ∧
        (s.bus.get 0).roundDue = true ∧ s.intake.flagCount = 0 ∧ (s.bus.get 0).windowTimer = .running 0 ∧
        (readReply [0, 0, 0]).isSome = true ∧ s.collecting (posAt 0 3) = true ∧
        ((s.bus.get 0).addrs.get 3).presence = .online ∧ 5 ≤ s.intake.reserved ∧ 6 ≤ s.intake.free) ∧
    ((pressed lastVisit).intake.pressure = .high ∧ ∀ a, (pressed lastVisit).collecting (posAt 0 a) = false) ∧
    (let s := pressed (filled 117 5 ((((polling .awaiting).onBus 0 fun b => { b with
        windowTimer := .running 0, addrs := b.addrs.set 2 ⟨.online, .none, 0, 0, 0, false⟩ }).onPos 2
          fun r => { r with state := .opened }).putEntry 2 (.some (entryOf []))));
      (s.bus.get 0).poll = .some (poll .awaiting) ∧ (poll .awaiting).addr.val = (2 : Addr).val + 1 ∧
        (s.bus.get 0).round = .inProgress ((2 : Addr).val + 1) ∧ s.intake.flagCount = 0 ∧
        (s.bus.get 0).windowTimer = .running 0 ∧ s.collecting (posAt 0 2) = true ∧
        ((s.bus.get 0).addrs.get 2).presence = .online ∧ 5 ≤ s.intake.reserved ∧ 6 ≤ s.intake.free) ∧
    ((pressed (polling .awaiting)).intake.pressure = .high ∧ ((pressed (polling .awaiting)).bus.get 0).roundDue = false ∧
      ∀ a, (pressed (polling .awaiting)).collecting (posAt 0 a) = false) ∧
    (calm.bus.get 0).roundTimer ≠ .running 0 := by decide +kernel

/-- VisitFollowsThePollingTable: each row, and both sides of the admission test. -/
theorem witness_VisitFollowsThePollingTable :
    ((pressed calm).intake.pressure = .high ∧ (pressed calm).collecting 0 = false) ∧
    (¬ (calm.intake.pressure = .high ∧ calm.collecting 0 = false) ∧ (calm.pos.get 0).state = .closed ∧
      ((calm.onBus 0 fun b => { b with roundCounter := 15 }).bus.get 0).roundCounter.toNat % 16 ≠ 0) ∧
    (let s := roundOver.onBus 0 fun b => { b with addrs := b.addrs.set 3 ⟨.online, .some true, 0, 7, 2, false⟩ };
      s.intake.pressure ≠ .high ∧ (s.pos.get 3).state ≠ .closed ∧ ((s.bus.get 0).addrs.get 3).presence = .online ∧
      s.collecting 3 = false ∧ 7 ≤ ((s.bus.get 0).addrs.get 3).quiet ∧
      ((s.bus.get 0).addrs.get 3).thinning < (s.bus.get 0).settings.thinning) ∧
    (roundOver.intake.pressure ≠ .high ∧ (roundOver.pos.get 3).state ≠ .closed ∧
      (roundOver.bus.get 0).settings.thinning ≤ ((roundOver.bus.get 0).addrs.get 3).thinning ∧
      (filled 124 0 roundOver).intake.free < 5 + (filled 124 0 roundOver).intake.flagCount ∧
      5 + (filled 123 0 roundOver).intake.flagCount ≤ (filled 123 0 roundOver).intake.free) ∧
    ((calm.pos.get 0).state = .closed ∧ (calm.bus.get 0).roundCounter.toNat % 16 = 0) := by decide +kernel

/-- PollAndReplyBytesLoadTheWindow: each phase of a poll, and the key counts 4 and 5. -/
theorem witness_PollAndReplyBytesLoadTheWindow :
    (((polling .sending).bus.get 0).poll = .some (poll .sending) ∧ (poll .sending).phase = .sending) ∧
    (calm.bus.get 0).poll = .none ∧
    (((polling .awaiting).bus.get 0).poll = .some (poll .awaiting) ∧ (poll .awaiting).phase = .awaiting) ∧
    (0x68 : Byte) ≠ 0x69 ∧
    (((polling (.receiving [])).bus.get 0).poll = .some (poll (.receiving [])) ∧
      (0xE4 : Byte).toNat % 8 ≤ 4 ∧ ¬ (0xE5 : Byte).toNat % 8 ≤ 4) ∧
    (((polling (.receiving [0xE4, 1, 2, 3, 4])).bus.get 0).poll = .some (poll (.receiving [0xE4, 1, 2, 3, 4])) ∧
      ([1, 2, 3, 4] : List Byte).length < (0xE4 : Byte).toNat % 8 + 1 ∧
      ([1, 2, 3, 4, 0] : List Byte).length = (0xE4 : Byte).toNat % 8 + 1) ∧
    (((polling .overlong).bus.get 0).poll = .some (poll .overlong) ∧ (poll .overlong).phase = .overlong) := by
  decide +kernel

/-- A round in progress below the address, with no round due, leaves the address behind. -/
theorem leavesBehind_of {s : State} {g : Group} {a : Addr} {n : Nat} (h : (s.bus.get g).round = .inProgress n)
    (hn : n ≤ a.val) (hd : (s.bus.get g).roundDue = false) : s.leavesBehind g a := by
  intro m hm
  rw [h] at hm
  cases hm
  exact ⟨hn, hd⟩

/-- AcceptedBatchEntersTheIntake: 4 codes, the highest among them, with the IF full behind the reservation. -/
theorem witness_AcceptedBatchEntersTheIntake :
    let s := filled 122 5 (polling .awaiting);
    let codes : List Code := [1, 2, 0x0E, 0x37];
    ((s.bus.get 0).poll = .some (poll .awaiting) ∧ (poll .awaiting).answerable ∧ (poll .awaiting).disowned = false ∧
      (poll .awaiting).reserved = 5 ∧ 5 ≤ s.intake.reserved ∧ 1 ≤ codes.length ∧ codes.length ≤ 4 ∧
      (∀ c ∈ codes, c.val ≤ 0x37) ∧ (s.pos.get (posAt 0 (poll .awaiting).addr)).state = .opened ∧
      ((s.bus.get 0).addrs.get (poll .awaiting).addr).lastSeq ≠ .some true ∧ s.intake.flagCount = 0 ∧
      s.intake.occupied + s.intake.reserved + codes.length ≤ 131 ∧ s.slotsFree 1) ∧ s.leavesBehind 0 3 := by
  intro s codes
  have inProgress : (s.bus.get 0).round = .inProgress 3 ∧ (s.bus.get 0).roundDue = false := by decide +kernel
  exact ⟨by decide +kernel, leavesBehind_of inProgress.1 (Nat.le_refl 3) inProgress.2⟩

/-- Bus 0 at its third miss, the response window run out. -/
def thirdMiss : State :=
  (filled 123 5 (polling .awaiting)).onBus 0 fun b =>
    { b with windowTimer := .running 0, addrs := b.addrs.set 3 ⟨.online, .some true, 2, 0, 0, false⟩ }

/-- MissedPollsTakeTheKeypadOffline: the window's expiry, and a reply whose check fails. -/
theorem witness_MissedPollsTakeTheKeypadOffline :
    ((thirdMiss.bus.get 0).poll = .some (poll .awaiting) ∧ (poll .awaiting).disowned = false ∧
      (poll .awaiting).reserved = 5 ∧ 5 ≤ thirdMiss.intake.reserved ∧
      thirdMiss.intake.occupied + thirdMiss.intake.reserved ≤ 128 ∧ thirdMiss.intake.flagCount = 0 ∧
      (thirdMiss.bus.get 0).windowTimer = .running 0 ∧ thirdMiss.slotsFree 1) ∧
    ((poll .awaiting).answerable ∧ ∃ r, readReply [0xC0, 0, 0] = .some r ∧ r.valid 3 = false ∧ true = !r.checkOk) ∧
    thirdMiss.leavesBehind 0 3 ∧
    (let s := (polling .awaiting).onBus 0 fun b => { b with windowTimer := .running 0 };
      (s.bus.get 0).poll = .some (poll .awaiting) ∧ (s.bus.get 0).round = .inProgress ((2 : Addr).val + 1) ∧
        ((s.bus.get 0).addrs.get 3).misses < 2) :=
  ⟨by decide +kernel, ⟨by decide, _, rfl, by decide +kernel, by decide +kernel⟩,
    leavesBehind_of (n := 3) (by decide +kernel) (by decide +kernel) (by decide +kernel), by decide +kernel⟩

/-- A poll that a counter reset has disowned. -/
def disowned : State :=
  opened.onBus 0 fun b =>
    { b with poll := .some { poll .awaiting with disowned := true, reserved := 0 }, round := .finished,
             roundTimer := .stopped, windowTimer := .running 0 }

/-- RepliesThatEnterNothing: a resend, an UNHEARD keypad that reports no key, a CLOSED position, a disowned poll. -/
theorem witness_RepliesThatEnterNothing :
    ((thirdMiss.bus.get 0).poll = .some (poll .awaiting) ∧ (poll .awaiting).answerable ∧
      (poll .awaiting).disowned = false ∧ ((thirdMiss.bus.get 0).addrs.get 3).presence = .online ∧
      ((thirdMiss.bus.get 0).addrs.get 3).lastSeq = .some true ∧ thirdMiss.intake.flagCount = 0) ∧
    (let s := filled 123 5 (polling .awaiting);
      (s.bus.get 0).poll = .some (poll .awaiting) ∧ (poll .awaiting).reserved = 5 ∧ 5 ≤ s.intake.reserved ∧
        s.intake.flagCount = 0 ∧ s.intake.occupied + s.intake.reserved ≤ 131 ∧
        (s.pos.get (posAt 0 3)).state = .opened ∧ ((s.bus.get 0).addrs.get 3).presence = .unheard ∧
        ((s.bus.get 0).addrs.get 3).alarm = false ∧ s.slotsFree 1) ∧
    (thirdMiss.intake.occupied + thirdMiss.intake.reserved ≤ 131 ∧
      ((thirdMiss.bus.get 0).addrs.get 3).lastSeq = .some true) ∧
    (let s := (polling .awaiting).onPos 3 fun r => { r with state := .closed };
      (s.bus.get 0).poll = .some (poll .awaiting) ∧ (s.pos.get (posAt 0 3)).state = .closed ∧
      ((s.bus.get 0).addrs.get 3).lastSeq ≠ .some false ∧ s.intake.flagCount = 0) ∧
    ((disowned.bus.get 0).poll = .some { poll .awaiting with disowned := true, reserved := 0 } ∧
      (disowned.bus.get 0).roundDue = false ∧ (disowned.bus.get 0).windowTimer = .running 0 ∧
      disowned.intake.pressure = .normal ∧ (disowned.bus.get 0).roundCounter = 0 ∧
      ((disowned.bus.get 0).addrs.get 3).presence ≠ .online ∧
      5 + (filled 123 0 disowned).intake.flagCount ≤ (filled 123 0 disowned).intake.free ∧
      (readReply [0xC0, 0, 0]).isSome = true) := by decide +kernel

/-- IntakeAdmitsCodesAndJudgesPressure: 127 and 128 places committed, and counts that change and do not. -/
theorem witness_IntakeAdmitsCodesAndJudgesPressure :
    (calm.pos.get 0).state = .closed ∧
    ((opened.pos.get 0).state = .opened ∧ ((filled 127 0 opened).intake.flags.get 0).get .cardGone = false ∧
      (filled 127 0 opened).intake.occupied + (filled 127 0 opened).intake.reserved < 128) ∧
    128 ≤ (filled 123 5 opened).intake.occupied + (filled 123 5 opened).intake.reserved ∧
    ((opened.onIntake fun f => f.putFlag 0 .cardGone true).intake.flags.get 0).get .cardGone = true ∧
    ((filled 64 0 opened).intake.occupied ≠ opened.intake.occupied ∧ (filled 64 0 opened).slotsFree 1) ∧
    (opened.intake.occupied = calm.intake.occupied ∧ opened.intake.reserved = calm.intake.reserved) ∧
    (let s := (filled 128 0 opened).onIntake fun f => (f.putFlag 0 .cardGone true).putFlag 3 .keypadLost true;
      s.intake.entries = ⟨3, 1, .keypad, false⟩ :: List.replicate 127 ⟨3, 1, .keypad, false⟩ ∧ s.halted = false ∧
        anyOwed s = false ∧ 2 ≤ s.oq.freeSlots ∧ s.intake.flagsSet = [(0, .cardGone), (3, .keypadLost)] ∧
        completes .withdrawal s (fun t => t.intake.flagsSet == [(3, .keypadLost)]) = true) ∧
    (let s := (filled 123 5 thirdMiss).onIntake fun f => f.putFlag 3 .interkeyLapse true;
      (s.bus.get 0).poll = .some (poll .awaiting) ∧ (poll .awaiting).answerable ∧ (s.pos.get 3).state = .opened ∧
        ((s.bus.get 0).addrs.get 3).presence = .online ∧ ((s.bus.get 0).addrs.get 3).lastSeq ≠ .some false ∧
        ([1, 2, 3, 4] : List Code).length ≤ 4) ∧
    (let s := (filled 123 5 (polling .awaiting)).onBus 0 fun b => { b with windowTimer := .running 0 };
      (s.bus.get 0).windowTimer = .running 0 ∧ ((s.bus.get 0).addrs.get 3).misses < 2) := by
  decide +kernel

/-- A pending INTERKEY_LAPSE of position 3 stands ahead of the batch's codes, another position's flag behind them, as
places allow (R47, R49). -/
theorem test_flags_ahead_of_a_batch :
    (((filled 126 2 opened).intake.putFlag 3 .interkeyLapse true).putFlag 0 .cardGone true |>.enterBatch 3 [5] 2).entries.drop
      126 = [⟨3, 0x38, .synthetic, false⟩, ⟨3, 5, .keypad, false⟩] := by decide +kernel

/-- BankOpenAndFreezeMoveTheOpenBank: bank 1 free, bank 2 frozen, bank 0 in use by position 0. -/
theorem witness_BankOpenAndFreezeMoveTheOpenBank :
    ((typing []).takesRequests ∧ (typing []).tables.frozen.get 1 = false ∧
      ∀ p, ((typing []).pos.get p).state = .opened → ((typing []).pos.get p).bank = 1 →
        (typing []).entry.get p = .none) ∧
    (let s := { calm with tables := { calm.tables with frozen := calm.tables.frozen.set 2 true } };
      s.takesRequests ∧ s.tables.frozen.get 2 = true) ∧
    ((typing []).tables.frozen.get 0 = false ∧ ((typing []).pos.get 0).state = .opened ∧
      ((typing []).pos.get 0).bank = 0 ∧ (typing []).entry.get 0 ≠ .none ∧ ∀ q : Pos, ¬ q.val < (0 : Pos).val) ∧
    3 < (4 : Byte).toNat := by decide +kernel

/-- BankCloseClosesTheOpenBank. -/
theorem witness_BankCloseClosesTheOpenBank : writing.takesRequests := by decide +kernel

/-- TableWriteReplacesTheRun: a run of a whole row, one past the end, and each invalid form. -/
theorem witness_TableWriteReplacesTheRun :
    (writing.takesRequests ∧ writing.tables.wf = true ∧ writing.tables.openBank = .some 1 ∧
      1 ≤ (List.replicate 64 forward).length ∧ 0 + (List.replicate 64 forward).length ≤ 64) ∧
    ((0 : Byte) = 0 ∧ (List.replicate 246 (0 : Byte)).length ≤ 246 ∧ 64 < (65 : Byte).toNat ∧ ([0x94] : List Byte).length ≠ 2 * (1 : Byte).toNat) ∧
    (1 ≤ (64 : Byte).toNat ∧ (64 : Byte).toNat ≤ 64 ∧ ([0x94, 9] : List Byte).length = 2 * (1 : Byte).toNat) ∧
    writing.tables.openBank ≠ .some 0 ∧ 64 < (64 : Byte).toNat + (1 : Byte).toNat ∧
    ((0x38 : Byte).toNat / 8 % 8 = 7 ∧ (0x03 : Byte).toNat % 4 = 3 ∧ (0x10 : Byte).toNat / 16 ≠ 0 ∧
      ([forward] : List Disposition).length + 1 + ([] : List Byte).length / 2 ≤ 64) := by decide +kernel

/-- ModeSetWritesAndTableReadReturns: the last code of a row. -/
theorem witness_ModeSetWritesAndTableReadReturns :
    (writing.takesRequests ∧ writing.tables.wf = true ∧ writing.tables.openBank = .some 1) ∧
    writing.tables.openBank ≠ .some 0 ∧ 1 < (2 : Byte).toNat ∧
    (([63] : List Code) ≠ [] ∧ ∀ (i : Nat) (c : Code), ([63] : List Code)[i]? = some c → c.val = 63 + i) ∧
    64 < (63 : Byte).toNat + (2 : Byte).toNat := by
  refine ⟨by decide +kernel, by decide +kernel, by decide, ⟨by decide, fun i c h => ?_⟩, by decide⟩
  match i with
  | 0 => simp at h; simp [← h]
  | n + 1 => simp at h

/-- DispositionFormRoundTrips. -/
theorem witness_DispositionFormRoundTrips :
    readDisposition 0x94 0x09 = .some ⟨4, .hold, .mask, .short, false, true⟩ := by decide

/-- WithdrawalAppliesTheLookup: a void entry, one that is looked up, FORWARD, and an empty IF. -/
theorem witness_WithdrawalAppliesTheLookup :
    (let s := opened.onIntake fun f => { f with entries := [⟨0, 5, .keypad, true⟩] };
      s.intake.entries = ⟨0, 5, .keypad, true⟩ :: [] ∧ s.attn.record = .none ∧ s.slotsFree 2 ∧
        s.oq.reservation = 0 ∧ s.intake.flagCount = 0 ∧ s.intake.pressure = .normal ∧
        s.intake.occupied + s.intake.reserved ≤ 64) ∧
    (let s := noticed 62 (keyed forward);
      s.intake.entries = ⟨0, 5, .keypad, false⟩ :: [] ∧ s.attn.record = .none ∧ s.slotsFree 2 ∧
        s.oq.reservation = 0 ∧ s.intake.flagCount = 0 ∧ s.intake.pressure = .normal ∧
        s.intake.occupied + s.intake.reserved ≤ 64 ∧ (s.pos.get 0).state = .opened ∧ (5 : Code) ≠ 0x3F ∧
        s.tables.readEntry (s.pos.get 0).bank (s.pos.get 0).mode 5 = forward ∧ s.secretContext 0 = false) ∧
    calm.intake.entries = [] ∧ (attending forward).attn.record ≠ .none ∧ anyOwed owing = true ∧
    (noticed 63 (keyed forward)).oq.freeSlots < 2 := by decide +kernel

/-- ActionsWorkOnTheEntry: an entry one short of its last place, at it, full, below and at its min length, and none. -/
theorem witness_ActionsWorkOnTheEntry :
    ((typing [1]).entry.get 0 = .some (entryOf [1]) ∧ (entryOf [1]).state = .collecting ∧
      (entryOf [1]).buffer.length + 1 < (entryOf [1]).maxLength) ∧
    ((entryOf [1, 2, 3]).buffer.length + 1 = (entryOf [1, 2, 3]).maxLength ∧
      (entryOf [1, 2, 3]).fullReached = false ∧ (entryOf [1, 2, 3]).policy ≠ .complete ∧
      { entryOf [1, 2, 3] with policy := .complete }.policy = .complete) ∧
    ((entryOf [1, 2, 3, 4]).buffer.length = (entryOf [1, 2, 3, 4]).maxLength ∧
      (entryOf [1, 2, 3, 4]).policy = .stop ∧ { entryOf [1, 2, 3, 4] with policy := .roll }.policy = .roll) ∧
    opened.entryCollecting 0 = false ∧
    ((entryOf [1, 2]).minLength ≤ (entryOf [1, 2]).buffer.length ∧
      (entryOf [1]).buffer.length < (entryOf [1]).minLength) ∧
    opened.entry.get 0 = .none := by decide +kernel

/-- WithdrawalRaisesAttention: by the entry's disposition, and by the code 0x3F. -/
theorem witness_WithdrawalRaisesAttention :
    (let s := noticed 62 (keyed { forward with attention := true });
      s.intake.entries = ⟨0, 5, .keypad, false⟩ :: [] ∧ s.attn.record = .none ∧ s.slotsFree 2 ∧
        s.oq.reservation = 0 ∧ s.intake.flagCount = 0 ∧ s.intake.pressure = .normal ∧
        s.intake.occupied + s.intake.reserved ≤ 64 ∧ (s.pos.get 0).state = .opened ∧
        (s.tables.readEntry (s.pos.get 0).bank (s.pos.get 0).mode 5).attention = true) ∧
    (let s := opened.onIntake fun f => { f with entries := [⟨0, 0x3F, .synthetic, false⟩] };
      s.intake.entries = ⟨0, 0x3F, .synthetic, false⟩ :: [] ∧ s.slotsFree 2) := by decide +kernel

/-- LapseAppliesTheHeldDisposition. -/
theorem witness_LapseAppliesTheHeldDisposition :
    ((attending forward).attn.record = .some ⟨9, 0, 5, false, .keypad, 0, forward, 0⟩ ∧
      (attending forward).attn.lapseTimer = .running 0 ∧ (attending forward).oq.reservation = 1 ∧
      anyOwed (attending forward) = false) ∧
    calm.attn.record = .none := by decide +kernel

/-- AttendResolvesTheAttention: each action, a wrong number, each invalid form, and the ends of the window's range. -/
theorem witness_AttendResolvesTheAttention :
    ((attending forward).takesRequests ∧
      (attending forward).attn.record = .some ⟨9, 0, 5, false, .keypad, 0, forward, 0⟩ ∧
      (attending forward).oq.reservation = 1 ∧ anyOwed (attending forward) = false ∧
      (([0] : List Byte) = [0] ∧ ([1, 0x0B, 0] : List Byte) = 1 :: writeDisposition forward ∧
        ([2] : List Byte) = [2])) ∧
    (calm.takesRequests ∧ calm.attn.record = .none ∧ ∃ x y, ([1, 0x38, 0] : List Byte) = [1, x, y]) ∧
    (9 : BitVec 16) ≠ 10 ∧ 2 < (3 : Byte).toNat ∧
    ((0x38 : Byte).toNat / 8 % 8 = 7 ∧ (3 : Byte).toNat % 4 = 3 ∧ (0x10 : Byte).toNat / 16 ≠ 0) ∧ 65535 < 65536 :=
  ⟨by decide +kernel, ⟨by decide +kernel, by decide +kernel, _, _, rfl⟩, by decide +kernel, by decide +kernel,
    by decide +kernel, by decide +kernel⟩

/-- A waiting command that is no request's and no RECORD_DISCARD brings no whole record. -/
theorem bringsOneRecord_withdrawal (s : State) : { s with pending := [.withdrawal] }.bringsOneRecord := by
  intro _
  constructor
  · intro r rest h
    obtain ⟨k, tag, payload⟩ := r
    cases k <;> exact absurd (List.cons.inj h).1 (by simp [Request.command])
  · intro bytes rest h
    exact absurd (List.cons.inj h).1 (by simp)

/-- SecretDigitsStayOutOfNotices: the digit 9 in the context of a secret entry, and the withdrawal of a completing code
whose step queues the notice of a secret entry without its codes. -/
theorem witness_SecretDigitsStayOutOfNotices :
    ((9 : Code).val ≤ 9 ∧ (opened.putEntry 0 (.some pin)).secretContext 0 = true) ∧
    (let s := (keyed { forward with action := .complete }).putEntry 0 (.some { entryOf [1, 2] with secret := true });
      { s with pending := [.withdrawal] }.bringsOneRecord ∧
      completes .withdrawal s
        (fun t => t.oq.queue == [.notice (.app (.entryComplete 0 2 true .none))]) = true ∧
      ∃ t, step { s with pending := [.withdrawal] } = .next t) :=
  ⟨by decide +kernel, bringsOneRecord_withdrawal _, by decide +kernel, _, rfl⟩

/-- CollectBeginsAnEntry: lengths and timeouts at the ends of their fields, and each refusal. -/
theorem witness_CollectBeginsAnEntry :
    (opened.takesRequests ∧ 255 < 256 ∧ 65534 < 65535 ∧ (opened.pos.get 0).state = .opened ∧
      opened.tables.openBank ≠ .some (opened.pos.get 0).bank ∧ opened.entryCollecting 0 = false) ∧
    ((0xFE : Byte) ≠ 0xFF ∧ 7 < (8 : Byte).toNat ∧ 2 < (3 : Byte).toNat) ∧
    (calm.pos.get 0).state = .closed ∧
    (let s := { opened with tables := { opened.tables with openBank := .some 0 } };
      s.takesRequests ∧ (s.pos.get 0).state = .opened ∧ s.tables.openBank = .some (s.pos.get 0).bank) ∧
    ((typing []).takesRequests ∧ ((typing []).pos.get 0).state = .opened ∧
      (typing []).tables.openBank ≠ .some ((typing []).pos.get 0).bank ∧ (typing []).entryCollecting 0 = true) := by
  decide +kernel

/-- CollectStopEntryReadAndEntryWipe. -/
theorem witness_CollectStopEntryReadAndEntryWipe :
    ((typing [4]).takesRequests ∧ (typing [4]).entry.get 0 = .some (entryOf [4]) ∧
      (entryOf [4]).state = .collecting ∧ (typing [4]).entryCollecting 0 = true) ∧
    (calm.takesRequests ∧ calm.entryCollecting 0 = false ∧ calm.entry.get 0 = .none) ∧
    ((opened.putEntry 0 (.some pin)).takesRequests ∧ (opened.putEntry 0 (.some pin)).entry.get 0 = .some pin ∧
      pin.state = .complete ∧ pin.secret = true) ∧
    ((opened.putEntry 0 (.some { pin with secret := false })).entry.get 0 = .some { pin with secret := false } ∧
      { pin with secret := false }.state = .complete) := by decide +kernel

/-- Position 0 with both its entry timers run out. -/
def timeUp : State :=
  opened.putEntry 0 (.some { entryOf [1] with interkeyTimer := .running 0, totalTimer := .running 0 })

/-- EntryTimersExpire: room in the IF and none, a slot free and none, and no entry. -/
theorem witness_EntryTimersExpire :
    (timeUp.entry.get 0 = .some { entryOf [1] with interkeyTimer := .running 0, totalTimer := .running 0 } ∧
      (timeUp.pos.get 0).state = .opened ∧ (filled 57 5 timeUp).intakeRoom 1) ∧
    (filled 123 5 timeUp).intake.free = 0 ∧
    ((timeUp.onIntake fun f => f.putFlag 0 .interkeyLapse true).intake.flags.get 0).interkeyLapse = true ∧
    (noticed 63 timeUp).slotsFree 1 ∧ (noticed 64 timeUp).oq.freeSlots = 0 ∧ calm.entry.get 0 = .none ∧
    (entryOf [1]).interkeyTimer ≠ .running 0 ∧ (entryOf [1]).totalTimer ≠ .running 0 := by
  decide +kernel

/-- Two prompts, the current one's hold run out. -/
def queued : State := prompted.onPu 0 fun u => { u with slotB := .some ⟨[], 0, .none⟩ }

/-- PromptTakesItsPlace: forms 1 and 2, each state of the slots, and field ends that are good and not. -/
theorem witness_PromptTakesItsPlace :
    (opened.takesRequests ∧ 255 < 256 ∧ 65535 < 65536 ∧ (List.replicate 241 (0x41 : Byte)).length ≤ 241 ∧ 1 < 2 ∧
      ((1 ≤ 1 ∧ 15 ≤ 15 ∧ 1 ≤ 255) ∧ ¬ (2 ≤ 1) ∧ ¬ (16 ≤ 15) ∧ ¬ (1 ≤ 0))) ∧
    (calm.takesRequests ∧ (calm.pos.get 0).state = .closed) ∧ (opened.pos.get 0).state = .opened ∧
    ((opened.pu.get 0).other = .none ∧ (opened.pu.get 0).current = .none) ∧
    ((prompted.pu.get 0).other = .none ∧ (prompted.pu.get 0).current ≠ .none ∧ (prompted.pu.get 0).phase ≠ .ended) ∧
    (queued.takesRequests ∧ (queued.pos.get 0).state = .opened ∧ (queued.pu.get 0).other ≠ .none ∧
      (queued.pu.get 0).current ≠ .none ∧ (queued.pu.get 0).phase ≠ .ended) := by decide +kernel

/-- PromptClearEmptiesTheSlots. -/
theorem witness_PromptClearEmptiesTheSlots :
    (queued.takesRequests ∧ (queued.pos.get 0).state = .opened) ∧
    (calm.takesRequests ∧ (calm.pos.get 0).state = .closed) := by decide +kernel

/-- BeepAndHoldExpiryMoveThePrompt. -/
theorem witness_BeepAndHoldExpiryMoveThePrompt :
    (opened.takesRequests ∧ Beep.short ≠ .none) ∧ 2 < (3 : Byte).toNat ∧
    ((queued.pu.get 0).holdTimer = .running 0 ∧ (queued.pu.get 0).other = .some ⟨[], 0, .none⟩) ∧
    ((prompted.pu.get 0).holdTimer = .running 0 ∧ (prompted.pu.get 0).other = .none ∧
      (prompted.pos.get 0).state = .opened ∧ (filled 57 5 prompted).intakeRoom 1) ∧
    (filled 123 5 prompted).intake.free = 0 ∧ (opened.pu.get 0).holdTimer ≠ .running 0 := by decide +kernel

/-- EchoWritesTheField: the last free cell, a full field that ends the display, two free cells, and no field. -/
theorem witness_EchoWritesTheField :
    let u := prompted.pu.get 0;
    (u.current = .some ⟨[0x50, 0x49, 0x4E], 3, .some ⟨1, 0, 4⟩⟩ ∧ { u with cursor := 3 }.cursor < 4 ∧
      (9 : Code).val ≤ 9 ∧ 9 < (10 : Code).val ∧ (10 : Code) ≠ 0x0E) ∧
    ({ u with cursor := 4 }.cursor = 4 ∧ 1 ≤ 4 ∧ 16 * 1 + 0 + 4 ≤ u.content.length) ∧
    ({ u with cursor := 4 }.cursor + 0 = 4 ∧ { u with cursor := 3 }.cursor + 1 = 4) ∧
    { u with cursor := 2 }.cursor + 2 ≤ 4 ∧ (u.cursor = 0 ∧ 0 < { u with cursor := 1 }.cursor) ∧
    (opened.pu.get 0).current = .none := by decide +kernel

/-- A presentation whose opening frame waits behind a HELLO. -/
def waitingPresent : State :=
  ((card .exchanging).onLine 0 fun l => { l with txLeaving := .some .hello, txWaiting := [.opening] }).putXs 0
    (.some { record .present false with header := .some [1, 2, 3, 4] })

/-- FramesLeaveInTheirTurn. -/
theorem witness_FramesLeaveInTheirTurn :
    (let s := (card .releasing).onLine 0 fun l => { l with txLeaving := .some .eject };
      (s.line.get 0).txLeaving = .some .eject ∧ (s.line.get 0).txWaiting = []) ∧
    (let s := (card .releasing).onLine 0 fun l => { l with txLeaving := .some .powerOff, txWaiting := [.eject] };
      (s.line.get 0).txLeaving = .some .powerOff ∧ (s.line.get 0).txWaiting = .eject :: [] ∧
        TxFrame.eject ≠ .opening) ∧
    ((waitingPresent.line.get 0).txLeaving = .some .hello ∧ (waitingPresent.line.get 0).txWaiting = .opening :: [] ∧
      waitingPresent.xs.get 0 = .some { record .present false with header := .some [1, 2, 3, 4] } ∧
      (waitingPresent.putEntry 0 (.some pin)).entry.get 0 = .some pin ∧ pin.takenByPresent) ∧
    (waitingPresent.entry.get 0 = .none ∧ waitingPresent.slotsFree 2 ∧
      ¬ { pin with buffer := [1, 2, 3] }.takenByPresent) ∧
    ((waitingPresent.putXs 0 (.some (record .power false))).xs.get 0 = .some (record .power false) ∧
      (waitingPresent.putXs 0 (.some { record .command false with command := .some [1] })).xs.get 0 =
        .some { record .command false with command := .some [1] }) ∧
    (calm.line.get 0).txLeaving = .none ∧ (calm.line.get 0).rx = .hunting ∧
    (((calm.onLine 0 fun l => { l with rx := .receiving [0x14, 1] }).line.get 0).rx = .receiving [0x14, 1] ∧
      frameEnds ([0x14, 1] ++ [0x96]) = false) ∧
    ((List.replicate 14 (9 : Code)).length ≤ 14 ∧ ∀ c ∈ List.replicate 14 (9 : Code), c.val ≤ 9) := by decide +kernel

/-- StateFrameFollowsTheTable: a row that ends an exchange, one that enters two codes, and a release in flight. -/
theorem witness_StateFrameFollowsTheTable :
    (let s := filled 56 5 (noticed 62 (flying .power));
      (CardState.powering, ReaderCondition.empty, CardState.empty, [(0x3B : Code)], true) ∈ reportRows ∧
        (s.line.get 0).state = .powering ∧ (s.line.get 0).fresh ∧ s.slotsFree 2 ∧ s.intakeRoom 2) ∧
    (CardState.empty, ReaderCondition.seated, CardState.seated, [(0x39 : Code), 0x3A], false) ∈ reportRows ∧
    (((card .releasing).line.get 0).state = .releasing ∧ (card .releasing).inFlight 0 = false) ∧
    ((CardState.releasing, ReaderCondition.throat, true) ∈ idleReports ∧
      ((flying .release).line.get 0).state = .releasing ∧
      (flying .release).xs.get 0 = .some (record .release true) ∧ (record .release true).phase = .awaiting) := by
  decide +kernel

/-- FaultDoneAndLateFrames. -/
theorem witness_FaultDoneAndLateFrames :
    (((flying .command).line.get 0).state ≠ .noReader ∧ ((flying .command).line.get 0).state ≠ .fault ∧
      ((flying .command).line.get 0).fresh ∧
      (noticed 62 (flying .command)).slotsFree 2 ∧ (flying .command).xs.get 0 = .some (record .command true)) ∧
    (((card .fault).line.get 0).state = .fault ∧ ((card .fault).line.get 0).fresh) ∧
    (((flying .release).line.get 0).state = .releasing ∧ ((flying .release).line.get 0).fresh ∧
      (flying .release).slotsFree 2 ∧
      (flying .release).xs.get 0 = .some (record .release true)) ∧
    (((card .seated).line.get 0).state ≠ .releasing ∧ ((card .seated).line.get 0).state ≠ .noReader ∧
      ((card .seated).line.get 0).fresh ∧ (Instr.doneFrame 0).wellFormed = true ∧
      (Instr.unlistedFrameKind 0 0x11 [3]).wellFormed = true) ∧
    (calm.line.get 0).state = .noReader := by decide +kernel

/-- A line of a READY card on its second failure and its second miss, its timers run out as a frame is received. -/
def ailing (receiving helloOut : Bool) (misses checkFails : Nat) : State :=
  (card .ready).onLine 0 fun l =>
    { l with rx := if receiving then .receiving [0x11] else .hunting, helloOut := helloOut, misses := misses, checkFails := checkFails,
             silenceTimer := if helloOut then .stopped else .running 0,
             helloTimer := if helloOut then .running 0 else .stopped }

/-- A line with an exchange in flight, its timers run out as a frame is received. -/
def garbled (kind : ExchangeKind) (repeatUsed helloOut : Bool) (misses : Nat) : State :=
  ((flying kind).putXs 0 (.some { record kind true with repeatUsed := repeatUsed })).onLine 0 fun l =>
    { l with rx := .receiving [0x11], helloOut := helloOut, misses := misses,
             silenceTimer := if helloOut then .stopped else .running 0,
             helloTimer := if helloOut then .running 0 else .stopped }

/-- What the clauses of FailingFramesAreCounted ask of a state with an exchange in flight. -/
def isGarbled (s : State) (x : Exchange) (helloOut : Bool) (misses slots : Nat) : Bool :=
  decide ((s.line.get 0).rx = .receiving [0x11] ∧ s.xs.get 0 = .some x ∧ x.phase = .awaiting ∧
    (s.line.get 0).state ≠ .noReader ∧ (s.line.get 0).flows ∧ (s.line.get 0).helloOut = helloOut ∧
    (s.line.get 0).misses = misses ∧ s.slotsFree slots ∧
    (s.line.get 0).silenceTimer = (if helloOut then .stopped else .running 0) ∧
    (s.line.get 0).helloTimer = (if helloOut then .running 0 else .stopped))

/-- FailingFramesAreCounted, its clauses with an exchange in flight: the first failure and the second, at the expiry of
the silence timer, at a miss below the third, and at the third miss. -/
theorem witness_FailingFramesDuringAnExchange :
    (isGarbled (noticed 64 (garbled .power false false 0)) (record .power true) false 0 0 ∧
      isGarbled (noticed 64 (garbled .command false true 1)) (record .command true) true 1 0 ∧
      isGarbled (noticed 62 (garbled .present false true 2)) (record .present true) true 2 2) ∧
    isGarbled (noticed 62 (garbled .power true false 0)) { record .power true with repeatUsed := true } false 0 2 ∧
    isGarbled (noticed 62 (garbled .release true true 1)) { record .release true with repeatUsed := true } true 1 2 ∧
    isGarbled (noticed 61 (garbled .command true true 2)) { record .command true with repeatUsed := true } true 2 3 := by
  decide +kernel

/-- The second failure ends the exchange at the silence timer's expiry, and the HELLO of R142 stands behind the POWER_OFF
of R165. -/
theorem test_silence_expiry_abandons_during_an_exchange :
    completes (.lineSilenceExpiry 0) (garbled .power true false 0) (fun t =>
      (t.line.get 0).frames == [.powerOff, .hello] && (t.line.get 0).state == .seated) = true := by decide +kernel

/-- FailingFramesAreCounted: a DONE with a wrong check, and a length field of 241. -/
theorem witness_FailingFramesAreCounted :
    ((Instr.failingFrame 0 [0x13, 0, 0x26, 0x14]).wellFormed = true ∧
      (Instr.failingFrame 0 [0x14, 241]).wellFormed = true) ∧
    ((ailing false false 0 1).inFlight 0 = false ∧ ((ailing false false 0 1).line.get 0).checkFails < 2 ∧
      ((ailing false false 0 1).line.get 0).fresh) ∧
    ((ailing false false 0 2).inFlight 0 = false ∧ 2 ≤ ((ailing false false 0 2).line.get 0).checkFails ∧
      ((ailing false false 0 2).line.get 0).fresh ∧
      ((ailing false false 0 2).line.get 0).state ≠ .noReader ∧ (noticed 63 (ailing false false 0 2)).slotsFree 1) ∧
    ((flying .power).xs.get 0 = .some (record .power true) ∧ (record .power true).phase = .awaiting ∧
      (record .power true).repeatUsed = false ∧ ((flying .power).line.get 0).fresh ∧
      ((flying .power).line.get 0).flows) ∧
    (let s := (flying .power).putXs 0 (.some { record .power true with repeatUsed := true });
      s.xs.get 0 = .some { record .power true with repeatUsed := true } ∧ (s.line.get 0).flows ∧ s.slotsFree 2) ∧
    (((ailing true false 0 1).line.get 0).rx = .receiving [0x11] ∧ ((ailing true false 0 1).line.get 0).flows ∧
      ((ailing true false 0 1).line.get 0).silenceTimer = .running 0 ∧
      ((ailing true false 0 1).line.get 0).helloOut = false) ∧
    (((ailing true true 1 1).line.get 0).helloTimer = .running 0 ∧
      ((ailing true true 1 1).line.get 0).helloOut = true ∧ ((ailing true true 1 1).line.get 0).misses < 2) ∧
    (((ailing true true 2 1).line.get 0).helloTimer = .running 0 ∧ ((ailing true true 2 1).line.get 0).checkFails < 2 ∧
      2 ≤ ((ailing true true 2 1).line.get 0).misses ∧ (ailing true true 2 1).inFlight 0 = false ∧
      (noticed 63 (ailing true true 2 1)).slotsFree 1) ∧
    (let s := calm.onLine 0 fun l => { l with noReaderTimer := .running 0, rx := .receiving [0x11], checkFails := 3 };
      (s.line.get 0).rx = .receiving [0x11] ∧ s.inFlight 0 = false ∧ (s.line.get 0).state = .noReader ∧
        (s.line.get 0).noReaderTimer = .running 0 ∧ (s.line.get 0).flows) ∧
    (((ailing true true 0 2).line.get 0).rx = .receiving [0x11] ∧ (ailing true true 0 2).inFlight 0 = false ∧
      2 ≤ ((ailing true true 0 2).line.get 0).checkFails ∧ ((ailing true true 0 2).line.get 0).state ≠ .noReader ∧
      (noticed 63 (ailing true true 0 2)).slotsFree 1 ∧
      ((ailing true true 0 2).line.get 0).helloTimer = .running 0 ∧
      ((ailing true true 0 2).line.get 0).helloOut = true ∧
      ((ailing true false 0 2).line.get 0).silenceTimer = .running 0) := by decide +kernel

/-- HeartbeatLosesAndRestoresTheLine. -/
theorem witness_HeartbeatLosesAndRestoresTheLine :
    (let s := (flying .power).onLine 0 fun l => { l with silenceTimer := .running 0 };
      (s.line.get 0).silenceTimer = .running 0 ∧ (s.line.get 0).rx = .hunting ∧
        (s.line.get 0).state ≠ .noReader ∧ (s.line.get 0).flows ∧ s.inFlight 0 = true) ∧
    (((ailing false false 0 0).line.get 0).silenceTimer = .running 0 ∧ (ailing false false 0 0).inFlight 0 = false) ∧
    (((ailing false true 1 0).line.get 0).helloTimer = .running 0 ∧
      ((ailing false true 1 0).line.get 0).helloOut = true ∧
      ((ailing false true 1 0).line.get 0).rx = .hunting ∧ ((ailing false true 1 0).line.get 0).misses < 2) ∧
    (2 ≤ ((ailing false true 2 0).line.get 0).misses ∧ (noticed 62 (ailing false true 2 0)).slotsFree 2 ∧
      (ailing false true 2 0).inFlight 0 = false) ∧
    (let s := (ailing false true 2 0).putXs 0 (.some (record .power true));
      s.xs.get 0 = .some (record .power true) ∧ (s.line.get 0).helloTimer = .running 0 ∧ s.slotsFree 2) ∧
    (let s := calm.onLine 0 fun l => { l with noReaderTimer := .running 0 };
      (s.line.get 0).noReaderTimer = .running 0 ∧ (s.line.get 0).rx = .hunting ∧ (s.line.get 0).flows) ∧
    ((calm.line.get 0).state = .noReader ∧ (calm.line.get 0).flows ∧ (calm.line.get 0).fresh ∧ calm.slotsFree 1 ∧
      calm.xs.get 0 = .none) ∧
    ((calm.line.get 0).silenceTimer ≠ .running 0 ∧ (calm.line.get 0).helloTimer ≠ .running 0 ∧
      (calm.line.get 0).noReaderTimer ≠ .running 0) := by decide +kernel

/-- CardRequestsStartExchanges: commands of 1 and of 240 bytes, timeouts at the ends of the field. -/
theorem witness_CardRequestsStartExchanges :
    (let s := noticed 63 (card .seated);
      s.takesRequests ∧ (s.pos.get 0).state = .opened ∧ s.xs.get 0 = .none ∧ (s.line.get 0).state = .seated ∧
        (s.line.get 0).flows ∧ s.slotsFree 1) ∧
    (let s := noticed 63 ((card .ready).putEntry 0 (.some pin));
      s.takesRequests ∧ (s.pos.get 0).state = .opened ∧ s.xs.get 0 = .none ∧ (s.line.get 0).state = .ready ∧
        (s.line.get 0).flows ∧ s.slotsFree 1 ∧ 1 ≤ ([0] : List Byte).length ∧
        (List.replicate 240 (0 : Byte)).length ≤ 240 ∧ 65535 < 65536 ∧ ([1, 2, 3, 4] : List Byte).length = 4 ∧
        s.entry.get 0 = .some pin ∧ pin.takenByPresent) := by decide +kernel

/-- CardRequestsAreRefusedInOrder: each refusal, with lengths just outside 4 to 12. -/
theorem witness_CardRequestsAreRefusedInOrder :
    ((flying .power).takesRequests ∧ (flying .power).xs.get 0 ≠ .none ∧ 1 ≤ ([0] : List Byte).length ∧
      ([1, 2, 3, 4] : List Byte).length = 4 ∧ 65535 < 65536) ∧
    (calm.takesRequests ∧ calm.xs.get 0 = .none ∧ (calm.pos.get 0).state = .closed) ∧
    ((card .throat).takesRequests ∧ (card .throat).xs.get 0 = .none ∧ ((card .throat).pos.get 0).state = .opened ∧
      ((card .throat).line.get 0).state ≠ .seated ∧ ((card .throat).line.get 0).state ≠ .ready) ∧
    ((card .presented).line.get 0).state ∉ [.throat, .seated, .ready, .fault] ∧
    ((card .ready).takesRequests ∧ (card .ready).xs.get 0 = .none ∧ ((card .ready).line.get 0).state = .ready ∧
      (card .ready).entry.get 0 = .none) ∧
    ({ pin with buffer := [1, 2, 3] }.buffer.length < 4 ∧ 12 < { pin with buffer := List.replicate 13 1 }.buffer.length ∧
      { pin with secret := false }.secret = false ∧
      ∃ c ∈ { pin with buffer := [1, 2, 3, 10] }.buffer, 9 < c.val) ∧
    (([1, 2, 3] : List Byte).length ≠ 4 ∧ (List.replicate 246 (0 : Byte)).length ≤ 246) := by decide +kernel

/-- ReleaseEjectsAndAbortEndsTheExchange. -/
theorem witness_ReleaseEjectsAndAbortEndsTheExchange :
    (let s := noticed 63 (card .ready);
      s.takesRequests ∧ s.xs.get 0 = .none ∧ (s.line.get 0).state ∈ [.throat, .seated, .ready, .fault] ∧
        (s.line.get 0).flows ∧ s.slotsFree 1) ∧
    (let s := noticed 63 (flying .present);
      s.takesRequests ∧ s.xs.get 0 = .some (record .present true) ∧ (record .present true).phase = .awaiting ∧
        (s.line.get 0).flows ∧ s.slotsFree 1) ∧
    (calm.takesRequests ∧ calm.xs.get 0 = .none) ∧
    ({ record .power true with phase := .held .done .none }.phase ≠ .awaiting ∧
      (opened.putXs 0 (.some { record .power true with phase := .held .done .none })).takesRequests) := by
  decide +kernel

/-- FramesAndTimeoutsEndExchanges: payload lengths at both ends of what fits, and just outside. -/
theorem witness_FramesAndTimeoutsEndExchanges :
    (let s := noticed 62 (flying .power);
      s.xs.get 0 = .some (record .power true) ∧ (record .power true).phase = .awaiting ∧
        (s.line.get 0).state ≠ .noReader ∧ (s.line.get 0).fresh ∧ s.slotsFree 2 ∧
        (noticed 64 s).oq.freeSlots = 0 ∧ (Instr.answerFrame 0 (List.replicate 32 0)).wellFormed = true ∧
        (Instr.responseFrame 0 (List.replicate 240 0)).wellFormed = true ∧
        true = decide ((record .power true).kind = .power) ∧
        true = decide (1 ≤ (List.replicate 32 (0 : Byte)).length ∧ (List.replicate 32 (0 : Byte)).length ≤ 32) ∧
        false = decide (1 ≤ ([] : List Byte).length ∧ ([] : List Byte).length ≤ 32)) ∧
    (let s := flying .present;
      s.xs.get 0 = .some (record .present true) ∧ (s.line.get 0).state ≠ .noReader ∧ (s.line.get 0).flows ∧
        true = decide ((record .present true).kind = .command ∨ (record .present true).kind = .present) ∧
        true = decide (2 ≤ (List.replicate 240 (0 : Byte)).length ∧ (List.replicate 240 (0 : Byte)).length ≤ 240) ∧
        false = decide (2 ≤ ([0] : List Byte).length ∧ ([0] : List Byte).length ≤ 240) ∧
        (record .present true).repeatUsed = false ∧ (record .present false).sent = false) ∧
    (let s := (flying .release).putXs 0 (.some { record .release true with timer := .running 0 });
      s.xs.get 0 = .some { record .release true with timer := .running 0 } ∧ (s.line.get 0).flows ∧ s.slotsFree 2) ∧
    (let s := (flying .command).putXs 0 (.some { record .command true with repeatUsed := true });
      s.xs.get 0 = .some { record .command true with repeatUsed := true } ∧ (s.line.get 0).flows ∧ s.slotsFree 2) ∧
    ({ record .power true with phase := .held .done .none }.phase ≠ .awaiting ∧
      ((card .ready).putXs 0 (.some { record .power true with phase := .held .done .none })).xs.get 0 =
        .some { record .power true with phase := .held .done .none }) ∧
    calm.xs.get 0 = .none := by decide +kernel

/-- StatusRequestsOfTheCardSideAndThePart. -/
theorem witness_StatusRequestsOfTheCardSideAndThePart : (answered 7 (card .ready)).takesRequests := by decide +kernel

/-- LinkRateAndArming. -/
theorem witness_LinkRateAndArming :
    (calm.takesRequests ∧ calm.link.mode = .uart ∧ 460800 ∈ [115200, 230400, 460800]) ∧
    (115201 ∉ [115200, 230400, 460800] ∧ 115201 < 2 ^ 32) ∧ (usb.takesRequests ∧ usb.link.mode = .usb) ∧
    (calm.takesRequests ∧ ReqKind.identify ≠ .resetArm ∧ identifyRequest.command.wellFormed = true ∧
      ∃ t, exec identifyRequest.command calm = .next t) ∧
    (List.replicate 249 (0 : Byte)).length ≤ 249 ∧ (calm.takesRequests ∧ calm.link.armed = false) :=
  ⟨by decide +kernel, by decide +kernel, by decide +kernel, ⟨by decide +kernel, by decide, by decide +kernel, _, rfl⟩,
    by decide +kernel, by decide +kernel⟩

/-- CounterResetClearsTheCounterSide: with a poll in flight on bus 0 and none on bus 1. -/
theorem witness_CounterResetClearsTheCounterSide :
    let s := (polling .awaiting).onLink fun l => { l with armed := true };
    s.takesRequests ∧ s.link.armed = true ∧ (∀ p, (s.line.get p).flows) ∧ (s.bus.get 1).poll = .none ∧
      (s.bus.get 0).poll = .some (poll .awaiting) := by decide +kernel

/-- TickMovesEveryTimer: the least timer. -/
theorem witness_TickMovesEveryTimer : 1 ≤ 1 := by decide

/-- CheckDetectsSingleByteChanges: the longest payloads, a status byte with its count, and 0x00 and 0xFE. -/
theorem witness_CheckDetectsSingleByteChanges :
    ((List.replicate 250 (0 : Byte)).length ≤ 250 ∧ (List.replicate 240 (0 : Byte)).length ≤ 240 ∧
      (0xC4 : Byte).toNat % 8 = ([1, 2, 3, 4] : List Byte).length) ∧
    (0x00 : Byte) ≠ 0xFE ∧ ¬ ((0x00 : Byte) = 0x00 ∧ (0xFE : Byte) = 0xFF) ∧
      ¬ ((0x00 : Byte) = 0xFF ∧ (0xFE : Byte) = 0x00) := by decide +kernel

/-- A state for the invariants: position 0 in a presentation with a typed entry, a prompt and a bank being written. -/
def busy : State :=
  let s := ((flying .present).putEntry 0 (.some pin)).onPu 0 fun u => { u with slotA := .some ⟨[0x41], 3, .none⟩ };
  { s with
    tables := { s.tables.writeEntry 1 0 5 forward with openBank := .some 1, frozen := s.tables.frozen.set 2 true }
    bus := s.bus.map fun b => { b with round := .finished }
    pending := [.tick] }

/-- EveryStepKeepsTheQueueLimits: a state that meets the limits, and its step. -/
theorem witness_EveryStepKeepsTheQueueLimits : OutboundOk busy ∧ ∃ t, step busy = .next t :=
  ⟨⟨by decide +kernel, by decide +kernel, by decide +kernel, fun r h => absurd h (hunting_ne_waiting r)⟩, _, rfl⟩

/-- EveryStepKeepsTheIntakeLimit. -/
theorem witness_EveryStepKeepsTheIntakeLimit : IntakeOk busy ∧ ∃ t, step busy = .next t :=
  ⟨⟨by decide +kernel, by decide +kernel,
    fun g q h => by
      have e : ∀ g, (busy.bus.get g).poll = .none := by decide +kernel
      simp [e g] at h,
    by decide +kernel⟩, _, rfl⟩

/-- EveryStepKeepsClosedPositionsEmptyAndBanksApart. -/
theorem witness_EveryStepKeepsClosedPositionsEmptyAndBanksApart :
    (∀ p, ClosedOk busy p) ∧ BanksOk busy ∧ ∃ t, step busy = .next t :=
  ⟨by unfold ClosedOk; decide +kernel,
    fun b h => by
      have e : busy.tables.openBank = .some 1 := by decide +kernel
      rw [e] at h
      obtain rfl := Option.some.inj h
      decide +kernel,
    _, rfl⟩

/-- EveryStepKeepsEntriesAndPromptsInBounds: at each position the entry, if any, is the one presented, and the
prompt units are the blank ones. -/
theorem witness_EveryStepKeepsEntriesAndPromptsInBounds :
    (∀ p, EntryOk busy p) ∧ (busy.entry.get 0).isSome = true ∧ (∀ p, (calm.pu.get p).ok) ∧
      (∃ t, step busy = .next t) ∧ ∃ t, step { calm with pending := [.tick] } = .next t := by
  refine ⟨fun p e h => ?_, by decide +kernel, fun p => ?_, ⟨_, rfl⟩, ⟨_, rfl⟩⟩
  · have key : ∀ p, busy.entry.get p = (if p = 0 then .some pin else .none) := by decide +kernel
    rw [key p] at h
    split at h
    · obtain rfl := Option.some.inj h
      unfold Entry.ok; decide +kernel
    · simp at h
  · have key : ∀ p, calm.pu.get p = PromptUnit.initial := by decide +kernel
    rw [key p]
    exact ⟨by decide +kernel, by decide +kernel, by simp [PromptUnit.initial], by simp [PromptUnit.initial],
      by decide +kernel, by decide +kernel, by decide +kernel⟩

/-- EveryStepKeepsCardAndExchangeInStep. -/
theorem witness_EveryStepKeepsCardAndExchangeInStep : (∀ p, CardOk busy p) ∧ ∃ t, step busy = .next t := by
  refine ⟨fun p => ⟨?_, fun x h _ => ?_, ?_, ?_, ?_, ?_⟩, _, rfl⟩
  · revert p; decide +kernel
  · have key : ∀ p, busy.xs.get p = (if p = 0 then .some (record .present true) else .none) := by decide +kernel
    rw [key p] at h
    split at h
    · obtain rfl := Option.some.inj h
      have e : (busy.line.get 0).state = .exchanging := by decide +kernel
      simp_all [record, ExchangeKind.inFlightState]
    · simp at h
  · revert p; decide +kernel
  · revert p; decide +kernel
  · revert p; decide +kernel
  · revert p; decide +kernel

/-- EveryStepKeepsFrozenBanks: bank 2 frozen, bank 1 open. -/
theorem witness_EveryStepKeepsFrozenBanks :
    busy.tables.wf = true ∧ busy.tables.frozen.get 2 = true ∧ busy.tables.openBank ≠ .some 2 ∧
      (∀ mode wcts rest, busy.pending ≠ .powerOnReset mode wcts :: rest) ∧ ∃ t, step busy = .next t :=
  ⟨by decide +kernel, by decide +kernel, by decide +kernel,
    fun _ _ _ h => Instr.noConfusion (List.cons.inj h).1, _, rfl⟩

end Sys2Proof.Tests
end

section
/-! SUPPORT. BANK_CLOSE in the table memory, and what a memory with no bank open means for COLLECT. -/

namespace Sys2Proof.Machine

open Sys2Proof

/-- The bytes of a bank number or none, case by case. -/
theorem bankField_eq (b : Option Bank) :
    bankField b = match b with
      | .none => [0xFF]
      | .some b => u8 b.val := by
  cases b <;> rfl

/-- The table memory after BANK_CLOSE (R65): the pointer names no bank, and the rest stands. -/
def Tables.closed (t : Tables) : Tables := { t with openBank := .none }

@[simp] theorem Tables.isOpen_closed (t : Tables) (b : Bank) : t.closed.isOpen b = false := rfl

@[simp] theorem Tables.readEntry_closed (t : Tables) (b : Bank) (m : Mode) (c : Code) :
    t.closed.readEntry b m c = t.readEntry b m c := rfl

@[simp] theorem Tables.readDescriptor_closed (t : Tables) (b : Bank) (m : Mode) :
    t.closed.readDescriptor b m = t.readDescriptor b m := rfl

/-- BANK_CLOSE with no payload closes the open bank and answers OK with it (R65). -/
theorem doBankClose_nil (s : State) :
    doBankClose [] s = ({ s with tables := s.tables.closed }, .ok (bankField s.tables.openBank)) := rfl

/-! ### The status of an answer -/

@[simp] theorem Answer.ok_status (fields : List Byte) : (Answer.ok fields).status = .ok := rfl
@[simp] theorem Answer.stored_status (adjusted : Bool) (fields : List Byte) :
    (Answer.stored adjusted fields).status = .ok := rfl
@[simp] theorem Answer.no_status (status : Status) (fields : List Byte) :
    (Answer.no status fields).status = status := rfl

/-- COLLECT answers BANK_WRITING only while the position's bank is open (R105). -/
theorem doCollect_status_ne_bankWriting (payload : List Byte) (s : State) (h : ∀ b, s.tables.isOpen b = false) :
    (doCollect payload s).2.status ≠ .bankWriting := by
  unfold doCollect
  split
  case h_2 => simp
  split
  case h_2 => simp
  next p _ _ _ =>
  split
  case h_2 => simp
  -- The record and its values are good: the checks of the position's state, in their order.
  by_cases hclosed : s.isOpen p = false
  · simp [hclosed]
  have hbank : s.tables.isOpen (s.pos.get p).bank = false := h _
  by_cases hcollecting : s.entryCollecting p = true
  · simp [hclosed, hbank, hcollecting]
  · simp [hclosed, hbank, hcollecting]

end Sys2Proof.Machine

open Sys2Proof Sys2Proof.Machine

/-- Settles O23: the acceptance of BANK_CLOSE is `doBankClose` with its reply behind it, and with no bank open COLLECT
passes its bank check. -/
theorem bankCloseClosesTheOpenBank : Obligations.BankCloseClosesTheOpenBank := by
  intro s tag hs
  have hexec := exec_of_carryOut hs ⟨.bankClose, tag, []⟩ rfl (doBankClose_nil s.received)
    (.inl ⟨ReqKind.noConfusion, ReqKind.noConfusion⟩)
  rw [bankField_eq] at hexec
  have hopen := Tables.isOpen_closed s.tables
  exact ⟨_, hexec, rfl, hopen, Tables.readEntry_closed s.tables, Tables.readDescriptor_closed s.tables,
    fun payload => doCollect_status_ne_bankWriting payload _ hopen⟩

end

section
/-! SUPPORT. PROMPT_CLEAR on one prompt unit, and a hold expiry that finds no timer due. -/

namespace Sys2Proof.Machine

open Sys2Proof

/-! ### The reply leaves the prompt units -/

@[simp] theorem State.replied_pu (s : State) (k : ReqKind) (tag : Byte) (a : Answer) :
    (s.replied k tag a).pu = s.pu := rfl

/-! ### Whether a position is OPEN -/

theorem isOpen_of_opened {s : State} {p : Pos} (h : (s.pos.get p).state = .opened) : s.isOpen p = true :=
  decide_eq_true h

theorem isOpen_of_closed {s : State} {p : Pos} (h : (s.pos.get p).state = .closed) : s.isOpen p = false := by
  simp [State.isOpen, h]

/-! ### The prompt unit -/

@[simp] theorem PromptUnit.clear_phase (u : PromptUnit) : u.clear.phase = .notStarted := rfl
@[simp] theorem PromptUnit.clear_holdTimer (u : PromptUnit) : u.clear.holdTimer = .stopped := rfl

/-- Each slot that is not empty counts one prompt (R134). -/
theorem PromptUnit.prompts_eq (u : PromptUnit) :
    u.prompts = (if u.slotA = .none then 0 else 1) + (if u.slotB = .none then 0 else 1) := by
  have count : ∀ o : Option Prompt, o.toList.length = if o = .none then 0 else 1 := by
    intro o; cases o <;> rfl
  rw [PromptUnit.prompts, count, count]

/-- PROMPT_CLEAR at an OPEN position clears the unit and answers with the prompts removed (R134). -/
theorem doPromptClear_opened {s : State} {p : Pos} (h : (s.pos.get p).state = .opened) :
    doPromptClear (u8 p.val) s = (s.onPu p PromptUnit.clear, .ok (u8 (s.pu.get p).prompts)) := by
  simp [doPromptClear, u8, isOpen_of_opened h]

/-- PROMPT_CLEAR at a CLOSED position changes nothing (R134). -/
theorem doPromptClear_closed {s : State} {p : Pos} (h : (s.pos.get p).state = .closed) :
    doPromptClear (u8 p.val) s = (s, .no .positionClosed []) := by
  simp [doPromptClear, u8, isOpen_of_closed h]

/-- A hold timer that is stopped does not expire (R6). -/
theorem exec_promptHoldExpiry_of_stopped {s : State} {p : Pos} (h : (s.pu.get p).holdTimer = .stopped) :
    exec (.promptHoldExpiry p) s = .next s := by
  have hexec : exec (.promptHoldExpiry p) s = execPromptHoldExpiry p s := rfl
  rw [hexec, execPromptHoldExpiry, h]
  rfl

/-- The accepted PROMPT_CLEAR of an OPEN position: the unit cleared, with the reply behind it (R134, R174). -/
theorem exec_promptClear_opened {s : State} {p : Pos} (tag : Byte) (hs : s.takesRequests)
    (h : (s.pos.get p).state = .opened) :
    exec (.promptClear tag (u8 p.val)) s =
      .next ((s.received.onPu p PromptUnit.clear).replied .promptClear tag (.ok (u8 (s.pu.get p).prompts))) :=
  exec_of_carryOut hs ⟨.promptClear, tag, u8 p.val⟩ rfl (doPromptClear_opened (s := s.received) h)
    (.inl ⟨ReqKind.noConfusion, ReqKind.noConfusion⟩)

/-- The PROMPT_CLEAR of a CLOSED position is refused (R134). -/
theorem exec_promptClear_closed {s : State} {p : Pos} (tag : Byte) (hs : s.takesRequests)
    (h : (s.pos.get p).state = .closed) :
    exec (.promptClear tag (u8 p.val)) s = .next (s.refused .promptClear tag .positionClosed) :=
  exec_of_carryOut hs ⟨.promptClear, tag, u8 p.val⟩ rfl (doPromptClear_closed (s := s.received) h)
    (.inl ⟨ReqKind.noConfusion, ReqKind.noConfusion⟩)

end Sys2Proof.Machine

open Sys2Proof Sys2Proof.Machine

/-- Settles O38: the acceptance clears the position's unit, and the clear leaves its hold timer stopped, so the expiry
finds none due; the phase is the one the cleared unit has. -/
theorem promptClearEmptiesTheSlots : Obligations.PromptClearEmptiesTheSlots := by
  refine ⟨fun s tag p hs hopen => ⟨_, exec_promptClear_opened tag hs hopen, ?_, ?_⟩,
    fun s tag p hs hclosed => exec_promptClear_closed tag hs hclosed⟩
  · rw [PromptUnit.prompts_eq]
    simp only [State.replied_pu, State.onPu_pu, PerPos.get_modify_same, PromptUnit.clear_phase]
    rfl
  · exact exec_promptHoldExpiry_of_stopped (by simp)

end

section
/-! SUPPORT. What a request's own block does, said once: each request is refused and changes nothing, or it has one of the
effects below (R174, R179). -/

namespace Sys2Proof.Machine

open Sys2Proof

/-- The requests that only read (R16, R41, R70, R117, R119, R151, R183). -/
def ReqKind.reads : ReqKind → Bool
  | .positionStatus | .busStatus | .tableRead | .collectStatus | .entryRead | .cardStatus | .identify
  | .counterStatus => true
  | _ => false

/-- The blocks after a RESET_POSITION (R14): the exchange removed, a close's work, the powered card powered off, the
counters 0. -/
def resetWork (p : Pos) (s : State) : State :=
  (if (s.line.get p).state.powered then powerOffCard p (closeWork p (removeExchange p s))
    else closeWork p (removeExchange p s)).onPos p fun r => { PosRecord.initial with bank := r.bank, mode := r.mode }

/-- The effect of an accepted request on the state in which it is carried out, with what its checks have found. -/
inductive Effect (s : State) : ReqKind → State → Prop
  | read {k : ReqKind} (hk : k.reads = true) : Effect s k s
  | openPosition (p : Pos) (b : Bank) (m : Mode) (hp : (s.pos.get p).state = .closed) :
      Effect s .openPosition (s.onPos p fun r => { r with state := .opened, bank := b, mode := m })
  | closePosition (p : Pos) (hp : (s.pos.get p).state = .opened) (hx : s.xs.get p = .none)
      (hl : (s.line.get p).state ≠ .ready) : Effect s .closePosition (closeWork p s)
  | closeReady (p : Pos) (hp : (s.pos.get p).state = .opened) (hx : s.xs.get p = .none)
      (hl : (s.line.get p).state = .ready) : Effect s .closePosition (powerOffCard p (closeWork p s))
  | resetPosition (p : Pos) : Effect s .resetPosition (resetWork p s)
  | setMode (p : Pos) (m : Mode) (hp : (s.pos.get p).state = .opened) :
      Effect s .setMode (s.onPos p fun r => { r with mode := m })
  | busSet (g : Group) (ps : BusSettings) : Effect s .busSet (s.onBus g fun b => { b with pending := .some ps })
  | bankOpen (b : Bank) (hf : s.tables.frozen.get b = false) (hu : bankUser b s = .none) :
      Effect s .bankOpen { s with tables := { s.tables with openBank := .some b } }
  | bankClose : Effect s .bankClose { s with tables := { s.tables with openBank := .none } }
  | bankFreeze (b : Bank) :
      Effect s .bankFreeze { s with tables := { s.tables with
        openBank := if s.tables.isOpen b then .none else s.tables.openBank
        frozen := s.tables.frozen.set b true } }
  | tableWrite (b : Bank) (m : Mode) (c : Nat) (ds : List Disposition) (hb : s.tables.openBank = .some b)
      (hc : c + ds.length ≤ 64) : Effect s .tableWrite { s with tables := s.tables.writeRun b m c ds }
  | modeSet (b : Bank) (m : Mode) (d : Descriptor) (hb : s.tables.openBank = .some b) :
      Effect s .modeSet { s with tables := s.tables.writeDescriptor b m d }
  | attentionSet (w : Nat) : Effect s .attentionSet (s.onAttn fun a => { a with window := w })
  | attend (a : Attention) (d : Disposition) (ha : s.attn.record = .some a) : Effect s .attend (resolve a d s).1
  | collect (p : Pos) (start : Mode) (secret : Bool) (mn mx : Nat) (policy : FullPolicy) (fm em : Option Mode)
      (ik : Option Nat) (total : Nat) (hp : (s.pos.get p).state = .opened)
      (hb : s.tables.openBank ≠ .some (s.pos.get p).bank) :
      Effect s .collect (((s.putEntry p (.some (newEntry secret mn mx policy fm em ik total s.timeCount))).onPos p
        fun r => { r with mode := start }).onPu p PromptUnit.resetEcho)
  | collectStop (p : Pos) : Effect s .collectStop (s.putEntry p .none)
  | entryWipe (p : Pos) : Effect s .entryWipe (s.putEntry p .none)
  | prompt (p : Pos) (text : List Byte) (hold : Nat) (field : Option EchoField) (form : PromptForm) (u : PromptUnit)
      (slot : Slot) (cur : Bool) (hp : (s.pos.get p).state = .opened) (hf : fieldOk field = true)
      (hu : (s.pu.get p).place form ⟨storedText text, min hold 600, field.map storedField⟩ = .some (u, slot, cur)) :
      Effect s .prompt (s.onPu p fun _ => u)
  | promptClear (p : Pos) : Effect s .promptClear (s.onPu p PromptUnit.clear)
  | beep (p : Pos) (b : Beep) : Effect s .beep (s.onPu p (PromptUnit.setBeep b))
  | cardLineSet (g : Group) (ps : LineSettings) :
      Effect s .cardLineSet ((allFour.map (posAt g)).foldl (setPending ps) s)
  | cardPower (p : Pos) (tag : Byte) (t : Nat) (hx : s.xs.get p = .none) (hl : (s.line.get p).state = .seated) :
      Effect s .cardPower (startExchange p (newExchange .power tag .none .none t) .powering [.opening] s)
  | cardExchange (p : Pos) (tag : Byte) (command : List Byte) (t : Nat) (hx : s.xs.get p = .none)
      (hl : (s.line.get p).state = .ready) :
      Effect s .cardExchange
        (startExchange p (newExchange .command tag (.some command) .none t) .exchanging [.opening] s)
  | cardPresent (p : Pos) (tag : Byte) (header : List Byte) (t : Nat) (hx : s.xs.get p = .none)
      (hl : (s.line.get p).state = .ready) :
      Effect s .cardPresent
        (startExchange p (newExchange .present tag .none (.some header) t) .exchanging [.opening] s)
  | cardRelease (p : Pos) (tag : Byte) (t : Nat) (hx : s.xs.get p = .none)
      (hl : (s.line.get p).state.releasable = true) :
      Effect s .cardRelease (startExchange p (newExchange .release tag .none .none t) .releasing
        (releaseFrames (s.line.get p).state) (s.onLine p fun l => { l with cause := .none }))
  | cardAbort (p : Pos) (x : Exchange) (hx : s.xs.get p = .some x) (ha : x.phase = .awaiting) :
      Effect s .cardAbort (abortExchange p x s)
  | linkRate (rate : Nat) : Effect s .linkRate (s.onLink fun l => { l with pendingRate := .some rate })
  | resetArm : Effect s .resetArm (s.onLink fun l => { l with armed := true })
  | counterReset : Effect s .counterReset (counterResetBlocks s)

/-- A request carried out: refused with no change, or answered OK with its effect (R179). -/
def Carried (s : State) (k : ReqKind) (c : State × Answer) : Prop :=
  (c.2.status ≠ .ok ∧ c.1 = s) ∨ (c.2.status = .ok ∧ Effect s k c.1)

variable {s t : State} {k : ReqKind}

theorem Carried.no {st : Status} {fields : List Byte} (h : st ≠ .ok) : Carried s k (s, .no st fields) := .inl ⟨h, rfl⟩

theorem Carried.ok {fields : List Byte} (h : Effect s k t) : Carried s k (t, .ok fields) := .inr ⟨rfl, h⟩

theorem Carried.stored {adjusted : Bool} {fields : List Byte} (h : Effect s k t) :
    Carried s k (t, .stored adjusted fields) := .inr ⟨rfl, h⟩

theorem Carried.resolved {a : Attention} {d : Disposition} (h : s.attn.record = .some a) :
    Carried s .attend (resolve a d s) := .inr ⟨rfl, .attend a d h⟩

/-! ### What the shared checks find -/

theorem isOpen_iff {p : Pos} : s.isOpen p = true ↔ (s.pos.get p).state = .opened := decide_eq_true_iff

theorem not_isOpen_iff {p : Pos} : ¬ s.isOpen p = true ↔ (s.pos.get p).state = .closed := by
  rw [isOpen_iff]
  cases (s.pos.get p).state <;> simp

theorem tables_isOpen_iff {tb : Tables} {b : Bank} : tb.isOpen b = true ↔ tb.openBank = .some b := decide_eq_true_iff

/-- A run that reads well has one entry for every two bytes (R67). -/
theorem readRun_length (i : Nat) (run : List Byte) (ds : List Disposition) (h : readRun i run = .good ds) :
    ds.length = run.length / 2 := by
  induction i, run using readRun.induct generalizing ds with
  | case1 i b0 b1 rest hn => simp [readRun, hn] at h
  | case2 i b0 b1 rest d hd ds' hr ih =>
    simp only [readRun, hd, hr, RunRead.good.injEq] at h
    subst h
    simp only [List.length_cons, ih ds' hr]
    omega
  | case3 i b0 b1 rest d hd j hr _ => simp [readRun, hd, hr] at h
  | case4 run i hrun =>
    match run, hrun, h with
    | [], _, h => simp only [readRun, RunRead.good.injEq] at h; subst h; rfl
    | [_], _, h => simp only [readRun, RunRead.good.injEq] at h; subst h; simp
    | b0 :: b1 :: rest, hrun, _ => exact absurd rfl (hrun b0 b1 rest)

/-- The card requests' checks pass only without an exchange, at an OPEN position, in the state they need (R155). -/
theorem cardRefusal_none {p : Pos} {needed : CardState} (h : cardRefusal p needed s = .none) :
    s.xs.get p = .none ∧ (s.pos.get p).state = .opened ∧ (s.line.get p).state = needed := by
  unfold cardRefusal at h
  split at h
  · cases h
  next hx =>
  split at h
  · cases h
  next ho =>
  split at h
  · cases h
  next hl => exact ⟨by simpa using hx, isOpen_iff.1 (by simpa using ho), by simpa using hl⟩

theorem cardRefusal_ne_ok {p : Pos} {needed : CardState} {st : Status} (h : cardRefusal p needed s = .some st) :
    st ≠ .ok := by
  unfold cardRefusal at h
  repeat' split at h
  all_goals cases h
  all_goals exact Status.noConfusion

theorem presentRefusal_ne_ok {e : Option Entry} {st : Status} (h : presentRefusal e = .some st) : st ≠ .ok := by
  unfold presentRefusal at h
  repeat' split at h
  all_goals cases h
  all_goals exact Status.noConfusion

/-! ### Each request -/

theorem doOpenPosition_carried (payload : List Byte) (s : State) :
    Carried s .openPosition (doOpenPosition payload s) := by
  unfold doOpenPosition
  repeat' split
  any_goals exact .no Status.noConfusion
  next ho => exact .ok (.openPosition _ _ _ (not_isOpen_iff.1 ho))

theorem doClosePosition_carried (payload : List Byte) (s : State) :
    Carried s .closePosition (doClosePosition payload s) := by
  unfold doClosePosition
  split
  case h_2 => exact .no Status.noConfusion
  split
  · exact .no Status.noConfusion
  next p _ =>
  by_cases ho : s.isOpen p = true
  case neg => simpa [ho] using .no Status.noConfusion
  by_cases hx : s.xs.get p = .none
  case neg => simpa [ho, Option.isSome_iff_ne_none, hx] using .no Status.noConfusion
  by_cases hl : (s.line.get p).state = .ready
  · simpa [ho, hx, hl] using .ok (.closeReady p (isOpen_iff.1 ho) hx hl)
  · simpa [ho, hx, hl] using .ok (.closePosition p (isOpen_iff.1 ho) hx hl)

theorem doResetPosition_carried (payload : List Byte) (s : State) :
    Carried s .resetPosition (doResetPosition payload s) := by
  unfold doResetPosition
  split
  case h_2 => exact .no Status.noConfusion
  split
  · exact .no Status.noConfusion
  next p _ => exact .ok (.resetPosition p)

theorem doSetMode_carried (payload : List Byte) (s : State) : Carried s .setMode (doSetMode payload s) := by
  unfold doSetMode
  repeat' split
  any_goals exact .no Status.noConfusion
  next p _ _ m _ ho => exact .ok (.setMode p m (isOpen_iff.1 (by simpa using ho)))

theorem doBusSet_carried (payload : List Byte) (s : State) : Carried s .busSet (doBusSet payload s) := by
  unfold doBusSet
  dsimp only
  repeat' split
  any_goals exact .no Status.noConfusion
  next g _ _ => exact .stored (.busSet g _)

theorem doBankOpen_carried (payload : List Byte) (s : State) : Carried s .bankOpen (doBankOpen payload s) := by
  unfold doBankOpen
  split
  case h_2 => exact .no Status.noConfusion
  split
  · exact .no Status.noConfusion
  split
  · exact .no Status.noConfusion
  next hf =>
  split
  · exact .no Status.noConfusion
  next hu => exact .ok (.bankOpen _ (by simpa using hf) hu)

theorem doBankClose_carried (payload : List Byte) (s : State) : Carried s .bankClose (doBankClose payload s) := by
  unfold doBankClose
  split
  · exact .ok .bankClose
  · exact .no Status.noConfusion

theorem doBankFreeze_carried (payload : List Byte) (s : State) : Carried s .bankFreeze (doBankFreeze payload s) := by
  unfold doBankFreeze
  split
  case h_2 => exact .no Status.noConfusion
  split
  · exact .no Status.noConfusion
  · exact .ok (.bankFreeze _)

theorem doTableWrite_carried (payload : List Byte) (s : State) : Carried s .tableWrite (doTableWrite payload s) := by
  unfold doTableWrite
  split
  case h_2 => exact .no Status.noConfusion
  split
  · exact .no Status.noConfusion
  next hlen =>
  split
  case h_2 => exact .no Status.noConfusion
  split
  · exact .no Status.noConfusion
  next hb =>
  split
  · exact .no Status.noConfusion
  next hc =>
  split
  · exact .no Status.noConfusion
  next ds hds =>
  have hn := readRun_length 0 _ ds hds
  exact .ok (.tableWrite _ _ _ ds (tables_isOpen_iff.1 (by simpa using hb)) (by omega))

theorem doModeSet_carried (payload : List Byte) (s : State) : Carried s .modeSet (doModeSet payload s) := by
  unfold doModeSet
  dsimp only
  repeat' split
  any_goals exact .no Status.noConfusion
  next hb _ => exact .stored (.modeSet _ _ _ (tables_isOpen_iff.1 (by simpa using hb)))

theorem doAttentionSet_carried (payload : List Byte) (s : State) :
    Carried s .attentionSet (doAttentionSet payload s) := by
  unfold doAttentionSet
  dsimp only
  split
  · exact .stored (.attentionSet _)
  · exact .no Status.noConfusion

theorem doAttend_carried (payload : List Byte) (s : State) : Carried s .attend (doAttend payload s) := by
  unfold doAttend
  split
  · exact .no Status.noConfusion
  split
  · exact .no Status.noConfusion
  · exact .no Status.noConfusion
  · exact .no Status.noConfusion
  · exact .no Status.noConfusion
  split
  · exact .no Status.noConfusion
  next a ha =>
  split
  · exact .no Status.noConfusion
  split
  · exact .resolved ha
  · exact .resolved ha
  · split
    · exact .no Status.noConfusion
    · exact .resolved ha
  · exact .no Status.noConfusion

theorem doCollect_carried (payload : List Byte) (s : State) : Carried s .collect (doCollect payload s) := by
  unfold doCollect
  dsimp only
  repeat' split
  any_goals exact .no Status.noConfusion
  next ho hb _ =>
  exact .stored (.collect _ _ _ _ _ _ _ _ _ _ (isOpen_iff.1 (by simpa using ho))
    (fun h => hb (tables_isOpen_iff.2 h)))

theorem doCollectStop_carried (payload : List Byte) (s : State) :
    Carried s .collectStop (doCollectStop payload s) := by
  unfold doCollectStop
  repeat' split
  any_goals exact .no Status.noConfusion
  exact .ok (.collectStop _)

theorem doEntryWipe_carried (payload : List Byte) (s : State) : Carried s .entryWipe (doEntryWipe payload s) := by
  unfold doEntryWipe
  repeat' split
  any_goals exact .no Status.noConfusion
  exact .ok (.entryWipe _)

theorem doPrompt_carried (payload : List Byte) (s : State) : Carried s .prompt (doPrompt payload s) := by
  unfold doPrompt
  dsimp only
  repeat' split
  any_goals exact .no Status.noConfusion
  next f p _ _ _ form _ hf ho _ u slot cur hu =>
  exact .stored (.prompt p f.text f.hold f.field form u slot cur (isOpen_iff.1 (by simpa using ho))
    (by simpa using hf) hu)

theorem doPromptClear_carried (payload : List Byte) (s : State) :
    Carried s .promptClear (doPromptClear payload s) := by
  unfold doPromptClear
  repeat' split
  any_goals exact .no Status.noConfusion
  exact .ok (.promptClear _)

theorem doBeep_carried (payload : List Byte) (s : State) : Carried s .beep (doBeep payload s) := by
  unfold doBeep
  repeat' split
  any_goals exact .no Status.noConfusion
  all_goals exact .ok (.beep _ _)

theorem doCardLineSet_carried (payload : List Byte) (s : State) :
    Carried s .cardLineSet (doCardLineSet payload s) := by
  unfold doCardLineSet
  split
  case h_2 => exact .no Status.noConfusion
  split
  · exact .no Status.noConfusion
  dsimp only
  split
  · exact .no Status.noConfusion
  · exact .stored (.cardLineSet _ _)

theorem doCardPower_carried (tag : Byte) (payload : List Byte) (s : State) :
    Carried s .cardPower (doCardPower tag payload s) := by
  unfold doCardPower
  dsimp only
  repeat' split
  any_goals exact .no Status.noConfusion
  · next st hst => exact .no (cardRefusal_ne_ok hst)
  · next p _ _ h => exact .ok (.cardPower p tag _ (cardRefusal_none h).1 (cardRefusal_none h).2.2)

theorem doCardExchange_carried (tag : Byte) (payload : List Byte) (s : State) :
    Carried s .cardExchange (doCardExchange tag payload s) := by
  unfold doCardExchange
  dsimp only
  repeat' split
  any_goals exact .no Status.noConfusion
  · next st hst => exact .no (cardRefusal_ne_ok hst)
  · next h => exact .stored (.cardExchange _ tag _ _ (cardRefusal_none h).1 (cardRefusal_none h).2.2)

theorem doCardPresent_carried (tag : Byte) (payload : List Byte) (s : State) :
    Carried s .cardPresent (doCardPresent tag payload s) := by
  unfold doCardPresent
  dsimp only
  repeat' split
  any_goals exact .no Status.noConfusion
  · next st hst => exact .no (cardRefusal_ne_ok hst)
  · next st hst => exact .no (presentRefusal_ne_ok hst)
  · next h _ _ => exact .stored (.cardPresent _ tag _ _ (cardRefusal_none h).1 (cardRefusal_none h).2.2)

theorem doCardRelease_carried (tag : Byte) (payload : List Byte) (s : State) :
    Carried s .cardRelease (doCardRelease tag payload s) := by
  unfold doCardRelease
  repeat' split
  any_goals exact .no Status.noConfusion
  next p _ hx hl => exact .ok (.cardRelease p tag _ (by simpa using hx) (by simpa using hl))

theorem doCardAbort_carried (payload : List Byte) (s : State) : Carried s .cardAbort (doCardAbort payload s) := by
  unfold doCardAbort
  split
  case h_2 => exact .no Status.noConfusion
  split
  · exact .no Status.noConfusion
  split
  · exact .no Status.noConfusion
  next x hx =>
  split
  · exact .no Status.noConfusion
  next ha => exact .ok (.cardAbort _ x hx ha)

theorem doLinkRate_carried (payload : List Byte) (s : State) : Carried s .linkRate (doLinkRate payload s) := by
  unfold doLinkRate
  dsimp only
  repeat' split
  any_goals exact .no Status.noConfusion
  exact .ok (.linkRate _)

theorem doResetArm_carried (payload : List Byte) (s : State) : Carried s .resetArm (doResetArm payload s) := by
  unfold doResetArm
  split
  · exact .ok .resetArm
  · exact .no Status.noConfusion

theorem doCounterReset_carried (payload : List Byte) (s : State) :
    Carried s .counterReset (doCounterReset payload s) := by
  unfold doCounterReset
  repeat' split
  any_goals exact .no Status.noConfusion
  exact .ok .counterReset

theorem doTableRead_carried (payload : List Byte) (s : State) : Carried s .tableRead (doTableRead payload s) := by
  unfold doTableRead
  dsimp only
  repeat' split
  any_goals exact .no Status.noConfusion
  exact .ok (.read rfl)

theorem doEntryRead_carried (payload : List Byte) (s : State) : Carried s .entryRead (doEntryRead payload s) := by
  unfold doEntryRead
  repeat' split
  any_goals exact .no Status.noConfusion
  exact .ok (.read rfl)

/-- The status requests of one position answer OK or BAD_RECORD. -/
theorem statusRequests_carried (payload : List Byte) (s : State) :
    Carried s .positionStatus (doPositionStatus payload s) ∧ Carried s .busStatus (doBusStatus payload s) ∧
      Carried s .collectStatus (doCollectStatus payload s) ∧ Carried s .cardStatus (doCardStatus payload s) ∧
      Carried s .identify (doIdentify payload s) ∧ Carried s .counterStatus (doCounterStatus payload s) := by
  refine ⟨?_, ?_, ?_, ?_, ?_, ?_⟩
  · unfold doPositionStatus
    repeat' split
    any_goals exact .no Status.noConfusion
    exact .ok (.read rfl)
  · unfold doBusStatus
    repeat' split
    any_goals exact .no Status.noConfusion
    exact .ok (.read rfl)
  · unfold doCollectStatus
    repeat' split
    any_goals exact .no Status.noConfusion
    exact .ok (.read rfl)
  · unfold doCardStatus
    repeat' split
    any_goals exact .no Status.noConfusion
    exact .ok (.read rfl)
  · unfold doIdentify
    split
    · exact .ok (.read rfl)
    · exact .no Status.noConfusion
  · unfold doCounterStatus
    split
    · exact .ok (.read rfl)
    · exact .no Status.noConfusion

/-- Everything the carrying out of a request can do (R174, R179). -/
theorem carryOut_carried (r : Request) (s : State) : Carried s r.kind (carryOut r s) := by
  obtain ⟨k, tag, payload⟩ := r
  obtain ⟨hps, hbs, hcs, hds, hid, hct⟩ := statusRequests_carried payload s
  cases k with
  | unknown k => exact .no Status.noConfusion
  | openPosition => exact doOpenPosition_carried payload s
  | closePosition => exact doClosePosition_carried payload s
  | resetPosition => exact doResetPosition_carried payload s
  | setMode => exact doSetMode_carried payload s
  | positionStatus => exact hps
  | busSet => exact doBusSet_carried payload s
  | busStatus => exact hbs
  | bankOpen => exact doBankOpen_carried payload s
  | bankClose => exact doBankClose_carried payload s
  | bankFreeze => exact doBankFreeze_carried payload s
  | tableWrite => exact doTableWrite_carried payload s
  | modeSet => exact doModeSet_carried payload s
  | tableRead => exact doTableRead_carried payload s
  | attentionSet => exact doAttentionSet_carried payload s
  | attend => exact doAttend_carried payload s
  | collect => exact doCollect_carried payload s
  | collectStatus => exact hcs
  | collectStop => exact doCollectStop_carried payload s
  | entryRead => exact doEntryRead_carried payload s
  | entryWipe => exact doEntryWipe_carried payload s
  | prompt => exact doPrompt_carried payload s
  | promptClear => exact doPromptClear_carried payload s
  | beep => exact doBeep_carried payload s
  | cardLineSet => exact doCardLineSet_carried payload s
  | cardStatus => exact hds
  | cardPower => exact doCardPower_carried tag payload s
  | cardExchange => exact doCardExchange_carried tag payload s
  | cardPresent => exact doCardPresent_carried tag payload s
  | cardRelease => exact doCardRelease_carried tag payload s
  | cardAbort => exact doCardAbort_carried payload s
  | linkRate => exact doLinkRate_carried payload s
  | resetArm => exact doResetArm_carried payload s
  | counterReset => exact doCounterReset_carried payload s
  | identify => exact hid
  | counterStatus => exact hct

end Sys2Proof.Machine
end

section
/-! SUPPORT. What a step can do, said once: a POWER_ON_RESET, or a chain of the events below. Every invariant is then kept
when each event keeps it. -/

namespace Sys2Proof.Machine

open Sys2Proof

/-- The events of one card line: what its frames and timers do. -/
inductive LineEvent (p : Pos) (s : State) : State → Prop
  | receive (rx : FrameRx) : LineEvent p s (setRx p rx s)
  | fail : LineEvent p s (settleLine p (failFrame p s))
  | state (r : ReaderCondition) : LineEvent p s (takeState p r s)
  | fault (c : FaultCause) : LineEvent p s (takeFault p c s)
  | done : LineEvent p s (takeDone p s)
  | answer (payload : List Byte) : LineEvent p s (takeAnswerFrame p payload s)
  | response (payload : List Byte) : LineEvent p s (takeResponseFrame p payload s)
  | unlisted : LineEvent p s (takeUnlisted p s)
  | sent : LineEvent p s (settleLine p (pump p (s.onLine p fun l => { l with txLeaving := .none })))
  | silence (t : State) (ht : t = abandon p (s.onLine p fun l => { l with silenceTimer := .stopped })) :
      LineEvent p s (settleLine p
        (if (t.line.get p).state = .noReader then t
        else if t.inFlight p then t.onLine p fun l => { l with silenceTimer := .running Config.lineSilence }
        else
          ask p .hello (t.onLine p fun l =>
            { l with silenceTimer := .stopped, helloOut := true, helloTimer := .running Config.helloAnswer })))
  | hello (t : State) (ht : t = abandon p (s.onLine p fun l => { l with helloTimer := .stopped })) :
      LineEvent p s (settleLine p (if (t.line.get p).helloOut then missHello p t else t))
  | noReader :
      LineEvent p s (settleLine p (ask p .hello (abandon p (s.onLine p fun l =>
        { l with noReaderTimer := .running Config.noReaderHello }))))
  | timeout (x : Exchange) (hx : s.xs.get p = .some x) (ha : x.phase = .awaiting) :
      LineEvent p s (settleLine p (endExchange p .noResponse .none (powerDown p x.kind s)))

/-- The events of the part but the power-on reset, each with the conditions under which it happens. -/
inductive Event (s : State) : State → Prop
  /-- A command is taken from the queue. -/
  | pending (l : List Instr) : Event s { s with pending := l }
  /-- The receiver or the link's own state moves, and no record comes to be WAITING. -/
  | link (l : Link) (hl : ∀ r, l.rx = .waiting r → s.link.rx = .waiting r) : Event s (s.onLink fun _ => l)
  /-- A record is held WAITING behind 8 replies (R175). -/
  | hold (r : Request) (hr : Config.replyLimit ≤ s.oq.replies) :
      Event s (s.onLink fun l => { l with rx := .waiting r })
  /-- The transfer of the head record begins or is cut off (R176). -/
  | transfer (b : Bool) : Event s (s.onOq fun q => { q with begun := b })
  /-- A request is accepted (R174). -/
  | accept (r : Request) (hr : s.oq.replies < Config.replyLimit) (hw : ∀ w, s.link.rx ≠ .waiting w) :
      Event s (accept r s)
  /-- A notice leaves (R176, R177). -/
  | noticeLeaves (n : Notice) (rest : List OutRecord) (b : Bool) (hq : s.oq.queue = .notice n :: rest) :
      Event s (serveOwed (s.onOq fun q => { q with queue := rest, begun := b }))
  /-- A reply leaves with no record WAITING (R176, R180). -/
  | replyLeaves (r : OutRecord) (rest : List OutRecord) (b : Bool) (l : Link) (hr : r.isReply = true)
      (hq : s.oq.queue = r :: rest) (hl : ∀ w, l.rx ≠ .waiting w) :
      Event s ((s.onOq fun q => { q with queue := rest, begun := b }).onLink fun _ => l)
  /-- A reply leaves and the WAITING record is accepted (R175). -/
  | replyLeavesWaiting (r : OutRecord) (rest : List OutRecord) (b : Bool) (l : Link) (w : Request)
      (hr : r.isReply = true) (hq : s.oq.queue = r :: rest) (hl : l.rx = .hunting) (hw : s.link.rx = .waiting w) :
      Event s (Machine.accept w ((s.onOq fun q => { q with queue := rest, begun := b }).onLink fun _ => l))
  /-- The next round starts (R21). -/
  | roundStarts (g : Group) (n : Nat) (hd : (s.bus.get g).roundTimer.due = true)
      (hr : (s.bus.get g).round = .finished) :
      Event s (judgePressure s (continueRound g 4
        ((s.onBus g fun b => { b with roundTimer := .running n }).onBus g (Bus.startRound false))))
  /-- Round due is set (R21). -/
  | roundDue (g : Group) (n : Nat) (hd : (s.bus.get g).roundTimer.due = true)
      (hr : (s.bus.get g).round ≠ .finished) :
      Event s ((s.onBus g fun b => { b with roundTimer := .running n }).onBus g fun b => { b with roundDue := true })
  /-- The response window is loaded (R29). -/
  | window (g : Group) (q : Poll) (phase : PollPhase) (hq : (s.bus.get g).poll = .some q) :
      Event s (s.onBus g (Bus.loadWindow { q with phase := phase }))
  /-- A poll ends by a complete reply (R30, R37, R40). -/
  | replyEnds (g : Group) (q : Poll) (phase : PollPhase) (r : Reply)
      (hq : (s.bus.get g).poll = .some { q with phase := phase }) (hr : r.codes.length ≤ 4) :
      Event s (judgePressure s (replyEnds g q r s))
  /-- A poll ends by its response window (R31, R40). -/
  | windowEnds (g : Group) (q : Poll) (hq : (s.bus.get g).poll = .some q) :
      Event s (judgePressure s (if q.disowned then endDisowned g s else nextVisit g (missPoll g q false s)))
  /-- An entry is withdrawn (R73). -/
  | withdraw (e : IntakeEntry) (rest : List IntakeEntry) (he : s.intake.entries = e :: rest)
      (hh : s.halted = false) (hg : grantable s = true) : Event s (judgePressure s (Machine.withdraw e rest s))
  /-- An attention lapses (R98, R99). -/
  | lapse (a : Attention) (ha : s.attn.record = .some a) :
      Event s (releaseReservation (postReserved
        (.attentionLapsed a.number a.pos (reportedAfter a (applyDisposition a.pos a.code a.held s).2.secretContext)
          (applyDisposition a.pos a.code a.held s).2.action (applyDisposition a.pos a.code a.held s).2.refused
          ((applyDisposition a.pos a.code a.held s).1.pos.get a.pos).mode
          (applyDisposition a.pos a.code a.held s).2.notice)
        (dropAttention (applyDisposition a.pos a.code a.held s).1)))
  /-- An inter-key timer expires (R115). -/
  | interkey (p : Pos) (e : Entry) (he : s.entry.get p = .some e) :
      Event s (judgePressure s
        (admitSynth p .interkeyLapse (s.putEntry p (.some { e with interkeyTimer := .stopped }))))
  /-- A total timer expires (R116). -/
  | total (p : Pos) (e : Entry) (mode : Mode) (he : s.entry.get p = .some e) :
      Event s (postExpired p e.buffer.length e.secret mode
        ((s.putEntry p .none).onPos p fun r => { r with mode := mode }))
  /-- A prompt's hold expires (R131). -/
  | holdExpires (p : Pos) (hd : (s.pu.get p).holdTimer.due = true) : Event s (judgePressure s (Machine.holdExpires p s))
  /-- An event of a card line. -/
  | line (p : Pos) (t : State) (h : LineEvent p s t) : Event s t
  /-- The time base ticks (R5, R6). -/
  | tick : Event s s.tick

/-- A chain of events. -/
abbrev Events : State → State → Prop := Relation.ReflTransGen Event

theorem Event.events {s t : State} (h : Event s t) : Events s t := .single h

theorem Events.refl (s : State) : Events s s := Relation.ReflTransGen.refl

theorem LineEvent.events {p : Pos} {s t : State} (h : LineEvent p s t) : Events s t := (Event.line p t h).events

/-- What every event of a chain keeps, the chain keeps. -/
theorem Events.keeps {P : State → Prop} (h : ∀ s t, Event s t → P s → P t) {s t : State} (e : Events s t) (hs : P s) :
    P t := by
  induction e with
  | refl => exact hs
  | tail _ hev ih => exact h _ _ hev ih

/-- Bytes taken one after another make a chain when each does. -/
theorem foldl_events {β : Type} (f : State → β → State) (h : ∀ s b, Events s (f s b)) (l : List β) (s : State) :
    Events s (l.foldl f s) := by
  induction l generalizing s with
  | nil => exact .refl s
  | cons b rest ih => exact (h s b).trans (ih _)

/-! ### The link -/

/-- A move of the link that holds no record. -/
theorem onLink_events (f : Link → Link) (s : State) (h : ∀ r, (f s.link).rx = .waiting r → s.link.rx = .waiting r) :
    Events s (s.onLink f) := (Event.link (f s.link) h).events

/-- A record that is judged with the receiver hunting (R172 to R175). -/
theorem judgeRecord_events (good : Option Request) (s : State) (h : ∀ w, s.link.rx ≠ .waiting w) :
    Events s (judgeRecord good s) := by
  unfold judgeRecord
  split
  · exact onLink_events _ s fun r hr => absurd hr (h r)
  · split
    · next r hr => exact (Event.hold r hr).events
    · next r hr => exact (Event.accept r (by omega) h).events

theorem hunting_events (s : State) : Events s (s.onLink fun l => { l with rx := .hunting }) :=
  onLink_events _ s fun _ hr => RxState.noConfusion hr

theorem receiving_events (s : State) (got : List Byte) :
    Events s (s.onLink fun l => { l with rx := .receiving got }) :=
  onLink_events _ s fun _ hr => RxState.noConfusion hr

theorem linkByte_events (s : State) (b : Byte) : Events s (linkByte s b) := by
  unfold linkByte
  split
  · exact .refl s
  · split
    · exact receiving_events s []
    · exact .refl s
  · split
    · exact (hunting_events s).trans (judgeRecord_events _ _ fun _ h => nomatch h)
    · exact receiving_events s _

theorem recordArrives_events (bytes : List Byte) (s : State) : Events s (recordArrives bytes s) := by
  unfold recordArrives
  split
  · exact foldl_events linkByte linkByte_events _ s
  · unfold linkTransfer
    split
    · exact .refl s
    all_goals exact (hunting_events s).trans (judgeRecord_events _ _ fun _ h => nomatch h)

/-- A request's command is a chain of events. -/
theorem receive_events (r : Request) (s : State) : Events s (receive r s) := recordArrives_events r.bytes s

theorem Link.switchRate_rx (l : Link) : l.switchRate.rx = l.rx := by
  unfold Link.switchRate
  split <;> rfl

theorem execRecordSent_events (s t : State) (h : execRecordSent s = .next t) : Events s t := by
  unfold execRecordSent at h
  split at h
  case h_2 => cases h; exact .refl s
  next r rest _ hq =>
  cases h
  cases r with
  | notice n => exact (Event.noticeLeaves n rest _ hq).events
  | reply k tag a =>
    -- The link with the rate that a LINK_RATE reply brings into force (R180).
    obtain ⟨l, hl, hrx⟩ : ∃ l, (if k = .linkRate ∧ a.status = .ok
        then (s.onOq fun q => { q with queue := rest, begun := s.link.up && decide (rest ≠ []) }).onLink Link.switchRate
        else s.onOq fun q => { q with queue := rest, begun := s.link.up && decide (rest ≠ []) }) =
        (s.onOq fun q => { q with queue := rest, begun := s.link.up && decide (rest ≠ []) }).onLink (fun _ => l) ∧
        l.rx = s.link.rx := by
      split
      · exact ⟨_, rfl, Link.switchRate_rx s.link⟩
      · exact ⟨_, rfl, rfl⟩
    simp only [departed, hl, acceptWaiting]
    split
    · next w hw =>
      exact (Event.replyLeavesWaiting _ rest _ { l with rx := .hunting } w rfl hq rfl (hrx ▸ hw)).events
    · next hw => exact (Event.replyLeaves _ rest _ l rfl hq fun w e => nomatch hw.symm.trans e).events
    · next hw => exact (Event.replyLeaves _ rest _ l rfl hq fun w e => nomatch hw.symm.trans e).events

/-! ### The keypad buses -/

/-- A complete reply has at most 4 codes (R29). -/
theorem readReply_codes {bytes : List Byte} {r : Reply} (h : readReply bytes = .some r) : r.codes.length ≤ 4 := by
  cases bytes with
  | nil => cases h
  | cons status rest =>
    simp only [readReply] at h
    split at h
    · next hn =>
      cases h
      exact (List.length_take_le _ _).trans hn.1
    · cases h

theorem replyByte_events (g : Group) (s : State) (byte : Byte) : Events s (replyByte g s byte) := by
  unfold replyByte
  split
  · exact .refl s
  next q hq =>
  split
  · exact .refl s
  · split
    · exact (Event.window g q _ hq).events
    · exact .refl s
  · next got _ =>
    have hw := (Event.window g q (replyPhase (got ++ [byte])) hq).events
    dsimp only
    split
    · exact hw
    · next r hr =>
      exact hw.tail (.replyEnds g q (replyPhase (got ++ [byte])) r (by simp [Bus.loadWindow]) (readReply_codes hr))
  · exact (Event.window g q q.phase hq).events

theorem execRoundTimerExpiry_events (g : Group) (s t : State) (h : execRoundTimerExpiry g s = .next t) :
    Events s t := by
  unfold execRoundTimerExpiry at h
  split at h
  case isFalse => cases h; exact .refl s
  next hd =>
  have hr : ((s.onBus g fun b => { b with roundTimer := .running b.settings.period }).bus.get g).round =
      (s.bus.get g).round := by simp
  have hb : (s.onBus g fun b => { b with roundTimer := .running b.settings.period }) =
      s.onBus g fun b => { b with roundTimer := .running (s.bus.get g).settings.period } := rfl
  dsimp only at h
  rw [hr] at h
  split at h
  · next hf => cases h; exact (Event.roundStarts g _ hd hf).events
  · next hf => cases h; exact (Event.roundDue g _ hd (by rw [hf]; exact Round.noConfusion)).events

theorem execPollLastByteLeaves_events (g : Group) (s t : State) (h : execPollLastByteLeaves g s = .next t) :
    Events s t := by
  unfold execPollLastByteLeaves at h
  split at h
  · cases h; exact .refl s
  next q hq =>
  split at h
  · cases h; exact (Event.window g q .awaiting hq).events
  all_goals cases h; exact .refl s

theorem execResponseWindowExpiry_events (g : Group) (s t : State) (h : execResponseWindowExpiry g s = .next t) :
    Events s t := by
  unfold execResponseWindowExpiry at h
  split at h
  · cases h; exact .refl s
  next q hq =>
  split at h
  · rw [← Host.Outcome.next.inj h]; exact (Event.windowEnds g q hq).events
  · cases h; exact .refl s

/-! ### The engine and the timers of entries and prompts -/

theorem execWithdrawal_events (s t : State) (h : execWithdrawal s = .next t) : Events s t := by
  unfold execWithdrawal at h
  split at h
  · cases h; exact .refl s
  next e rest he =>
  split at h
  · next hg => cases h; exact (Event.withdraw e rest he hg.1 hg.2).events
  · cases h; exact .refl s

theorem execLapseTimerExpiry_events (s t : State) (h : execLapseTimerExpiry s = .next t) : Events s t := by
  unfold execLapseTimerExpiry at h
  split at h
  · cases h; exact .refl s
  next a ha =>
  split at h
  · rw [← Host.Outcome.next.inj h]; exact (Event.lapse a ha).events
  · cases h; exact .refl s

theorem execInterkeyExpiry_events (p : Pos) (s t : State) (h : execInterkeyExpiry p s = .next t) : Events s t := by
  unfold execInterkeyExpiry at h
  split at h
  · cases h; exact .refl s
  next e he =>
  split at h
  · cases h; exact (Event.interkey p e he).events
  · cases h; exact .refl s

theorem execTotalTimerExpiry_events (p : Pos) (s t : State) (h : execTotalTimerExpiry p s = .next t) :
    Events s t := by
  unfold execTotalTimerExpiry at h
  split at h
  · cases h; exact .refl s
  next e he =>
  split at h
  · rw [← Host.Outcome.next.inj h]; exact (Event.total p e _ he).events
  · cases h; exact .refl s

theorem execPromptHoldExpiry_events (p : Pos) (s t : State) (h : execPromptHoldExpiry p s = .next t) :
    Events s t := by
  unfold execPromptHoldExpiry at h
  split at h
  · next hd => cases h; exact (Event.holdExpires p hd).events
  · cases h; exact .refl s

/-! ### The card lines -/

theorem takeFrame_event (p : Pos) (kind : Byte) (payload : List Byte) (s : State) :
    LineEvent p s (takeFrame p kind payload s) := by
  unfold takeFrame
  split
  · split
    · exact .state _
    · exact .unlisted
  · split
    · exact .fault _
    · exact .unlisted
  · exact .done
  · exact .answer _
  · exact .response _
  · exact .unlisted

theorem judgeFrame_event (p : Pos) (bytes : List Byte) (s : State) : LineEvent p s (judgeFrame p bytes s) := by
  unfold judgeFrame
  split
  · exact .fail
  · exact takeFrame_event p _ _ s

theorem lineByte_events (p : Pos) (s : State) (b : Byte) : Events s (lineByte p s b) := by
  unfold lineByte
  split
  · split
    · exact (LineEvent.receive _).events
    · exact .refl s
  · split
    · exact (LineEvent.receive _).events.trans (judgeFrame_event p _ _).events
    · exact (LineEvent.receive _).events

theorem frameArrives_events (p : Pos) (bytes : List Byte) (s : State) : Events s (frameArrives p bytes s) :=
  foldl_events (lineByte p) (lineByte_events p) _ s

theorem execCardFrameSent_events (p : Pos) (s t : State) (h : execCardFrameSent p s = .next t) : Events s t := by
  unfold execCardFrameSent at h
  split at h
  · cases h; exact .refl s
  · cases h; exact LineEvent.sent.events

theorem execLineSilenceExpiry_events (p : Pos) (s t : State) (h : execLineSilenceExpiry p s = .next t) :
    Events s t := by
  unfold execLineSilenceExpiry at h
  split at h
  · cases h; exact (LineEvent.silence _ rfl).events
  · cases h; exact .refl s

theorem execHelloAnswerExpiry_events (p : Pos) (s t : State) (h : execHelloAnswerExpiry p s = .next t) :
    Events s t := by
  unfold execHelloAnswerExpiry at h
  split at h
  · cases h; exact (LineEvent.hello _ rfl).events
  · cases h; exact .refl s

theorem execNoReaderHelloExpiry_events (p : Pos) (s t : State) (h : execNoReaderHelloExpiry p s = .next t) :
    Events s t := by
  unfold execNoReaderHelloExpiry at h
  split at h
  · cases h; exact LineEvent.noReader.events
  · cases h; exact .refl s

theorem execExchangeTimerExpiry_events (p : Pos) (s t : State) (h : execExchangeTimerExpiry p s = .next t) :
    Events s t := by
  unfold execExchangeTimerExpiry at h
  split at h
  · cases h; exact .refl s
  next x hx =>
  split at h
  · next ha => cases h; exact (LineEvent.timeout x hx ha.1).events
  · cases h; exact .refl s

/-! ### Every command -/

theorem execLinkDown_events (s t : State) (h : execLinkDown s = .next t) : Events s t := by
  unfold execLinkDown at h
  split at h
  · cases h
    exact onLink_events _ s fun r hr => hr
  · cases h
    refine (onLink_events _ s fun r hr => ?_).tail (.transfer false)
    cases hrx : s.link.rx <;> simp_all

/-- A command that is no POWER_ON_RESET is a chain of events. -/
theorem exec_events (c : Instr) (s t : State) (hc : ∀ mode wcts, c ≠ .powerOnReset mode wcts)
    (h : exec c s = .next t) : Events s t := by
  have of : ∀ u, Events s u → Host.Outcome.next u = (.next t : Host.Outcome State Fault Refusal) → Events s t := by
    rintro u hu ⟨⟩
    exact hu
  cases c with
  | powerOnReset mode wcts => exact absurd rfl (hc mode wcts)
  | linkUp => exact of _ ((onLink_events (fun l => { l with up := true }) s fun r hr => hr).tail (.transfer _)) h
  | linkDown => exact execLinkDown_events s t h
  | recordDiscard bytes => exact of _ (recordArrives_events _ s) h
  | recordSent => exact execRecordSent_events s t h
  | linkSyncByte =>
    simp only [exec, execLinkSyncByte] at h
    split at h
    · exact of _ (linkByte_events s _) h
    · exact of _ (.refl s) h
  | roundTimerExpiry g => exact execRoundTimerExpiry_events g s t h
  | pollLastByteLeaves g => exact execPollLastByteLeaves_events g s t h
  | keypadReply g reply => exact of _ (foldl_events (replyByte g) (replyByte_events g) _ s) h
  | keypadReplyByte g byte => exact of _ (replyByte_events g s byte) h
  | responseWindowExpiry g => exact execResponseWindowExpiry_events g s t h
  | withdrawal => exact execWithdrawal_events s t h
  | lapseTimerExpiry => exact execLapseTimerExpiry_events s t h
  | interkeyExpiry p => exact execInterkeyExpiry_events p s t h
  | totalTimerExpiry p => exact execTotalTimerExpiry_events p s t h
  | promptHoldExpiry p => exact execPromptHoldExpiry_events p s t h
  | cardFrameSent p => exact execCardFrameSent_events p s t h
  | lineSilenceExpiry p => exact execLineSilenceExpiry_events p s t h
  | helloAnswerExpiry p => exact execHelloAnswerExpiry_events p s t h
  | noReaderHelloExpiry p => exact execNoReaderHelloExpiry_events p s t h
  | exchangeTimerExpiry p => exact execExchangeTimerExpiry_events p s t h
  | cardLineSyncByte p => exact of _ (lineByte_events p s _) h
  | tick => exact of _ Event.tick.events h
  | stateFrame p _ | faultFrame p _ | doneFrame p | answerFrame p _ | responseFrame p _ | unlistedFrameKind p _ _
  | failingFrame p _ => exact of _ (frameArrives_events p _ s) h
  | unknownRequest kind tag payload => exact of _ (receive_events ⟨.unknown kind, tag, payload⟩ s) h
  | _ => exact of _ (receive_events _ s) h

/-- Everything a step can do: nothing, a power-on reset, or a chain of events. -/
theorem step_cases {s t : State} (h : step s = .next t) :
    (∃ mode wcts rest, s.pending = .powerOnReset mode wcts :: rest ∧ t = { powerOn mode wcts with pending := rest }) ∨
      Events s t := by
  unfold step at h
  split at h
  · cases h; exact .inr (.refl s)
  next c rest hp =>
  by_cases hc : ∃ mode wcts, c = .powerOnReset mode wcts
  · obtain ⟨mode, wcts, rfl⟩ := hc
    cases h
    exact .inl ⟨mode, wcts, rest, hp, rfl⟩
  · exact .inr ((Event.pending rest).events.trans
      (exec_events c _ t (fun mode wcts e => hc ⟨mode, wcts, e⟩) h))

/-- A predicate that the power-on reset gives and every event keeps is kept by every step. -/
theorem step_keeps {P : State → Prop} (hon : ∀ mode wcts l, P { powerOn mode wcts with pending := l })
    (hev : ∀ s t, Event s t → P s → P t) {s t : State} (h : step s = .next t) (hs : P s) : P t := by
  rcases step_cases h with ⟨mode, wcts, rest, _, rfl⟩ | he
  · exact hon mode wcts rest
  · exact he.keeps hev hs

end Sys2Proof.Machine
end

section
/-! SUPPORT. Frames of the operations that the events share, as `simp` lemmas, and what they queue: notices that carry no
code, behind the records already queued. -/

namespace Sys2Proof.Machine

open Sys2Proof

section Frames

variable (s u : State) (p : Pos) (k : Synth) (pr : Presence) (n : Nat) (b : Bool) (m : Mode)

/-! ### The service of owed notices and the posts -/

@[simp] theorem serveOwed_pending : (serveOwed s).pending = s.pending := (serveOwed_served s).pending
@[simp] theorem serveOwed_timeCount : (serveOwed s).timeCount = s.timeCount := (serveOwed_served s).timeCount
@[simp] theorem serveOwed_link : (serveOwed s).link = s.link := (serveOwed_served s).link
@[simp] theorem serveOwed_pos : (serveOwed s).pos = s.pos := (serveOwed_served s).pos
@[simp] theorem serveOwed_bus : (serveOwed s).bus = s.bus := (serveOwed_served s).bus
@[simp] theorem serveOwed_intake : (serveOwed s).intake = s.intake := (serveOwed_served s).intake
@[simp] theorem serveOwed_tables : (serveOwed s).tables = s.tables := (serveOwed_served s).tables
@[simp] theorem serveOwed_attn : (serveOwed s).attn = s.attn := (serveOwed_served s).attn
@[simp] theorem serveOwed_entry : (serveOwed s).entry = s.entry := (serveOwed_served s).entry
@[simp] theorem serveOwed_pu : (serveOwed s).pu = s.pu := (serveOwed_served s).pu

@[simp] theorem postCardState_pending : (postCardState p s).pending = s.pending := (postCardState_served p s).pending
@[simp] theorem postCardState_timeCount : (postCardState p s).timeCount = s.timeCount :=
  (postCardState_served p s).timeCount
@[simp] theorem postCardState_link : (postCardState p s).link = s.link := (postCardState_served p s).link
@[simp] theorem postCardState_pos : (postCardState p s).pos = s.pos := (postCardState_served p s).pos
@[simp] theorem postCardState_bus : (postCardState p s).bus = s.bus := (postCardState_served p s).bus
@[simp] theorem postCardState_intake : (postCardState p s).intake = s.intake := (postCardState_served p s).intake
@[simp] theorem postCardState_tables : (postCardState p s).tables = s.tables := (postCardState_served p s).tables
@[simp] theorem postCardState_attn : (postCardState p s).attn = s.attn := (postCardState_served p s).attn
@[simp] theorem postCardState_entry : (postCardState p s).entry = s.entry := (postCardState_served p s).entry
@[simp] theorem postCardState_pu : (postCardState p s).pu = s.pu := (postCardState_served p s).pu

@[simp] theorem postKeypadState_pending : (postKeypadState p pr s).pending = s.pending :=
  (postKeypadState_served p pr s).pending
@[simp] theorem postKeypadState_timeCount : (postKeypadState p pr s).timeCount = s.timeCount :=
  (postKeypadState_served p pr s).timeCount
@[simp] theorem postKeypadState_link : (postKeypadState p pr s).link = s.link := (postKeypadState_served p pr s).link
@[simp] theorem postKeypadState_pos : (postKeypadState p pr s).pos = s.pos := (postKeypadState_served p pr s).pos
@[simp] theorem postKeypadState_bus : (postKeypadState p pr s).bus = s.bus := (postKeypadState_served p pr s).bus
@[simp] theorem postKeypadState_intake : (postKeypadState p pr s).intake = s.intake :=
  (postKeypadState_served p pr s).intake
@[simp] theorem postKeypadState_tables : (postKeypadState p pr s).tables = s.tables :=
  (postKeypadState_served p pr s).tables
@[simp] theorem postKeypadState_attn : (postKeypadState p pr s).attn = s.attn := (postKeypadState_served p pr s).attn
@[simp] theorem postKeypadState_entry : (postKeypadState p pr s).entry = s.entry :=
  (postKeypadState_served p pr s).entry
@[simp] theorem postKeypadState_pu : (postKeypadState p pr s).pu = s.pu := (postKeypadState_served p pr s).pu

@[simp] theorem postExpired_pending : (postExpired p n b m s).pending = s.pending :=
  (postExpired_served p n b m s).pending
@[simp] theorem postExpired_timeCount : (postExpired p n b m s).timeCount = s.timeCount :=
  (postExpired_served p n b m s).timeCount
@[simp] theorem postExpired_link : (postExpired p n b m s).link = s.link := (postExpired_served p n b m s).link
@[simp] theorem postExpired_pos : (postExpired p n b m s).pos = s.pos := (postExpired_served p n b m s).pos
@[simp] theorem postExpired_bus : (postExpired p n b m s).bus = s.bus := (postExpired_served p n b m s).bus
@[simp] theorem postExpired_intake : (postExpired p n b m s).intake = s.intake := (postExpired_served p n b m s).intake
@[simp] theorem postExpired_tables : (postExpired p n b m s).tables = s.tables := (postExpired_served p n b m s).tables
@[simp] theorem postExpired_attn : (postExpired p n b m s).attn = s.attn := (postExpired_served p n b m s).attn
@[simp] theorem postExpired_entry : (postExpired p n b m s).entry = s.entry := (postExpired_served p n b m s).entry
@[simp] theorem postExpired_pu : (postExpired p n b m s).pu = s.pu := (postExpired_served p n b m s).pu

@[simp] theorem releaseReservation_pending : (releaseReservation s).pending = s.pending :=
  (releaseReservation_served s).pending
@[simp] theorem releaseReservation_timeCount : (releaseReservation s).timeCount = s.timeCount :=
  (releaseReservation_served s).timeCount
@[simp] theorem releaseReservation_link : (releaseReservation s).link = s.link := (releaseReservation_served s).link
@[simp] theorem releaseReservation_pos : (releaseReservation s).pos = s.pos := (releaseReservation_served s).pos
@[simp] theorem releaseReservation_bus : (releaseReservation s).bus = s.bus := (releaseReservation_served s).bus
@[simp] theorem releaseReservation_intake : (releaseReservation s).intake = s.intake :=
  (releaseReservation_served s).intake
@[simp] theorem releaseReservation_tables : (releaseReservation s).tables = s.tables :=
  (releaseReservation_served s).tables
@[simp] theorem releaseReservation_attn : (releaseReservation s).attn = s.attn := (releaseReservation_served s).attn
@[simp] theorem releaseReservation_entry : (releaseReservation s).entry = s.entry := (releaseReservation_served s).entry
@[simp] theorem releaseReservation_pu : (releaseReservation s).pu = s.pu := (releaseReservation_served s).pu

/-! ### Admission and the judgement of pressure -/

@[simp] theorem admitSynth_pending : (admitSynth p k s).pending = s.pending := by
  obtain ⟨f, hf⟩ := admit_eq_onIntake p k s; rw [hf]; rfl
@[simp] theorem admitSynth_timeCount : (admitSynth p k s).timeCount = s.timeCount := by
  obtain ⟨f, hf⟩ := admit_eq_onIntake p k s; rw [hf]; rfl
@[simp] theorem admitSynth_link : (admitSynth p k s).link = s.link := by
  obtain ⟨f, hf⟩ := admit_eq_onIntake p k s; rw [hf]; rfl
@[simp] theorem admitSynth_oq : (admitSynth p k s).oq = s.oq := by
  obtain ⟨f, hf⟩ := admit_eq_onIntake p k s; rw [hf]; rfl
@[simp] theorem admitSynth_pos : (admitSynth p k s).pos = s.pos := by
  obtain ⟨f, hf⟩ := admit_eq_onIntake p k s; rw [hf]; rfl
@[simp] theorem admitSynth_bus : (admitSynth p k s).bus = s.bus := by
  obtain ⟨f, hf⟩ := admit_eq_onIntake p k s; rw [hf]; rfl
@[simp] theorem admitSynth_tables : (admitSynth p k s).tables = s.tables := by
  obtain ⟨f, hf⟩ := admit_eq_onIntake p k s; rw [hf]; rfl
@[simp] theorem admitSynth_attn : (admitSynth p k s).attn = s.attn := by
  obtain ⟨f, hf⟩ := admit_eq_onIntake p k s; rw [hf]; rfl
@[simp] theorem admitSynth_entry : (admitSynth p k s).entry = s.entry := by
  obtain ⟨f, hf⟩ := admit_eq_onIntake p k s; rw [hf]; rfl
@[simp] theorem admitSynth_pu : (admitSynth p k s).pu = s.pu := by
  obtain ⟨f, hf⟩ := admit_eq_onIntake p k s; rw [hf]; rfl
@[simp] theorem admitSynth_line : (admitSynth p k s).line = s.line := by
  obtain ⟨f, hf⟩ := admit_eq_onIntake p k s; rw [hf]; rfl
@[simp] theorem admitSynth_xs : (admitSynth p k s).xs = s.xs := by
  obtain ⟨f, hf⟩ := admit_eq_onIntake p k s; rw [hf]; rfl

/-- Everything the judgement of pressure can do, changed or not (R52, R53). -/
theorem judgePressure_served (u s : State) :
    ∃ x, Served (s.onIntake fun f => { f with pressure := x }) (judgePressure u s) := by
  rcases judgePressure_cases u s with h | ⟨x, _, h⟩
  · exact ⟨s.intake.pressure, by rw [h]; exact Served.refl s⟩
  · exact ⟨x, h⟩

@[simp] theorem judgePressure_pending : (judgePressure u s).pending = s.pending := by
  obtain ⟨_, h⟩ := judgePressure_served u s; exact h.pending
@[simp] theorem judgePressure_timeCount : (judgePressure u s).timeCount = s.timeCount := by
  obtain ⟨_, h⟩ := judgePressure_served u s; exact h.timeCount
@[simp] theorem judgePressure_link : (judgePressure u s).link = s.link := by
  obtain ⟨_, h⟩ := judgePressure_served u s; exact h.link
@[simp] theorem judgePressure_pos : (judgePressure u s).pos = s.pos := by
  obtain ⟨_, h⟩ := judgePressure_served u s; exact h.pos
@[simp] theorem judgePressure_bus : (judgePressure u s).bus = s.bus := by
  obtain ⟨_, h⟩ := judgePressure_served u s; exact h.bus
@[simp] theorem judgePressure_tables : (judgePressure u s).tables = s.tables := by
  obtain ⟨_, h⟩ := judgePressure_served u s; exact h.tables
@[simp] theorem judgePressure_attn : (judgePressure u s).attn = s.attn := by
  obtain ⟨_, h⟩ := judgePressure_served u s; exact h.attn
@[simp] theorem judgePressure_entry : (judgePressure u s).entry = s.entry := by
  obtain ⟨_, h⟩ := judgePressure_served u s; exact h.entry
@[simp] theorem judgePressure_pu : (judgePressure u s).pu = s.pu := by
  obtain ⟨_, h⟩ := judgePressure_served u s; exact h.pu
@[simp] theorem judgePressure_entries : (judgePressure u s).intake.entries = s.intake.entries := by
  obtain ⟨_, h⟩ := judgePressure_served u s; rw [h.intake]; rfl
@[simp] theorem judgePressure_reserved : (judgePressure u s).intake.reserved = s.intake.reserved := by
  obtain ⟨_, h⟩ := judgePressure_served u s; rw [h.intake]; rfl
@[simp] theorem judgePressure_flags : (judgePressure u s).intake.flags = s.intake.flags := by
  obtain ⟨_, h⟩ := judgePressure_served u s; rw [h.intake]; rfl

end Frames

/-! ### What is queued -/

/-- A notice that carries no code of a position: all but those of the engine. -/
def Notice.codeless : Notice → Bool
  | .app _ | .attention _ _ _ _ _ _ _ | .attentionLapsed _ _ _ _ _ _ _ => false
  | .entryExpired _ _ _ _ _ | .keypadState _ _ | .fifoPressure _ _ _ | .cardState _ _ _ _ _ | .exchangeDone _ _ _ _ _
  | .started _ _ => true

/-- From `s` to `t` only notices that carry no code have joined the queue, behind the records already queued. -/
def Queued (s t : State) : Prop :=
  ∃ ns : List Notice, t.oq.queue = s.oq.queue ++ ns.map .notice ∧ ∀ n ∈ ns, n.codeless = true

theorem Queued.of_eq {s t : State} (h : t.oq.queue = s.oq.queue) : Queued s t := ⟨[], by simp [h], by simp⟩

theorem Queued.refl (s : State) : Queued s s := .of_eq rfl

theorem Queued.trans {s t u : State} (h : Queued s t) (k : Queued t u) : Queued s u := by
  obtain ⟨ns, hn, hc⟩ := h
  obtain ⟨ms, hm, hd⟩ := k
  refine ⟨ns ++ ms, by simp [hn, hm], fun n hmem => ?_⟩
  rcases List.mem_append.1 hmem with h | h
  · exact hc n h
  · exact hd n h

/-- The replies queued are the same records. -/
theorem Queued.replies {s t : State} (h : Queued s t) :
    t.oq.queue.filter OutRecord.isReply = s.oq.queue.filter OutRecord.isReply := by
  obtain ⟨ns, hn, _⟩ := h
  have hf : (ns.map OutRecord.notice).filter OutRecord.isReply = [] := by simp [List.filter_eq_nil_iff]
  rw [hn, List.filter_append, hf, List.append_nil]

/-- Two states with the same queues. -/
theorem Queued.congr {s t s' t' : State} (h : Queued s t) (hs : s'.oq.queue = s.oq.queue)
    (ht : t'.oq.queue = t.oq.queue) : Queued s' t' := by
  obtain ⟨ns, hn, hc⟩ := h
  exact ⟨ns, by rw [hs, ht, hn], hc⟩

/-- An owed notice carries no code. -/
theorem takeOwed_codeless {k : OwedKey} {s t : State} {n : Notice} (h : takeOwed k s = .some (n, t)) :
    n.codeless = true := by
  cases k <;> simp only [takeOwed] at h
  case result p =>
    split at h
    · cases h
    · split at h
      · cases h
      · cases h; rfl
  all_goals
    split at h
    · cases h
    · cases h; rfl

theorem serveOne_queued (s : State) (k : OwedKey) : Queued s (serveOne s k) := by
  simp only [serveOne]
  split
  · exact .refl s
  next n t ht =>
  split
  · exact ⟨[n], by simp [(takeOwed_taken k s n t ht).queue], by simpa using takeOwed_codeless ht⟩
  · exact .refl s

theorem serveOwed_queued (s : State) : Queued s (serveOwed s) := by
  have all : ∀ (l : List OwedKey) (u : State), Queued u (l.foldl serveOne u) := by
    intro l
    induction l with
    | nil => exact Queued.refl
    | cons k rest ih => exact fun u => (serveOne_queued u k).trans (ih _)
  exact all _ s

/-- A post queues owed notices. -/
theorem post_queued (s : State) (f : OutQueue → OutQueue) (hf : (f s.oq).queue = s.oq.queue) :
    Queued s (serveOwed (s.onOq f)) := (serveOwed_queued (s.onOq f)).congr hf.symm rfl

theorem postCardState_queued (p : Pos) (s : State) : Queued s (postCardState p s) := post_queued s _ rfl

theorem postKeypadState_queued (p : Pos) (pr : Presence) (s : State) : Queued s (postKeypadState p pr s) :=
  post_queued s _ rfl

theorem postExpired_queued (p : Pos) (n : Nat) (b : Bool) (m : Mode) (s : State) :
    Queued s (postExpired p n b m s) := post_queued s _ rfl

theorem releaseReservation_queued (s : State) : Queued s (releaseReservation s) := post_queued s _ rfl

theorem judgePressure_queued (u s : State) : Queued s (judgePressure u s) := by
  have post : ∀ x o, Queued s (serveOwed ((s.onIntake fun f => { f with pressure := x }).onOq fun q =>
      { q with pressure := o })) := fun x o => post_queued (s.onIntake fun f => { f with pressure := x }) _ rfl
  simp only [judgePressure]
  split
  · exact .refl s
  · split
    · exact .refl s
    · exact post _ _

/-! ### The steps of a card line -/

/-- The single steps of which all work on the line of position `p` is made. -/
inductive LineStep (p : Pos) (s : State) : State → Prop
  | line (f : CardLine → CardLine) : LineStep p s (s.onLine p f)
  | xs (x : Option Exchange) : LineStep p s (s.putXs p x)
  | wipe : LineStep p s (s.putEntry p .none)
  | present : LineStep p s (s.putEntry p ((s.entry.get p).map fun e => { e with presented := true }))
  | serve : LineStep p s (serveOwed s)
  | post : LineStep p s (postCardState p s)

/-- A chain of steps of one card line. -/
abbrev LineSteps (p : Pos) : State → State → Prop := Relation.ReflTransGen (LineStep p)

variable {p : Pos} {s t u : State}

theorem LineSteps.refl (p : Pos) (s : State) : LineSteps p s s := Relation.ReflTransGen.refl

theorem LineStep.steps (h : LineStep p s t) : LineSteps p s t := .single h

theorem onLine_steps (f : CardLine → CardLine) (h : LineSteps p s t) : LineSteps p s (t.onLine p f) := h.tail (.line f)

theorem putXs_steps (x : Option Exchange) (h : LineSteps p s t) : LineSteps p s (t.putXs p x) := h.tail (.xs x)

theorem postCardState_steps (h : LineSteps p s t) : LineSteps p s (postCardState p t) := h.tail .post

theorem moveCard_steps (st : CardState) (h : LineSteps p s t) : LineSteps p s (moveCard p st t) :=
  postCardState_steps (onLine_steps _ h)

theorem settleLine_steps (h : LineSteps p s t) : LineSteps p s (settleLine p t) := onLine_steps _ h

theorem wipePresented_steps (h : LineSteps p s t) : LineSteps p s (wipePresented p t) := by
  simp only [wipePresented]
  split
  · exact h
  · split
    · exact h.tail .wipe
    · exact h

theorem endExchange_steps (o : ExchangeOutcome) (d : Option (List Byte)) (h : LineSteps p s t) :
    LineSteps p s (endExchange p o d t) := by
  simp only [endExchange]
  split
  · exact h
  · split
    · exact h
    · have held := fun x => putXs_steps (p := p) (.some x) (onLine_steps CardLine.dropOpening h)
      split
      · exact onLine_steps _ ((wipePresented_steps (held _)).tail .serve)
      all_goals exact onLine_steps _ ((held _).tail .serve)

theorem openFrame_steps {x : Exchange} {g : TxFrame} (h : openFrame p x s = .some (g, t)) : LineSteps p s t := by
  simp only [openFrame] at h
  split at h
  · cases h; exact putXs_steps _ (.refl p s)
  · cases h; exact putXs_steps _ (.refl p s)
  · split at h
    · cases h
    · cases h; exact (putXs_steps _ (.refl p s)).tail .present
  · cases h

theorem beginNext_steps (l : List TxFrame) (h : LineSteps p s t) : LineSteps p s (beginNext p l t) := by
  induction l generalizing t with
  | nil => exact onLine_steps _ h
  | cons f rest ih =>
    cases f with
    | opening =>
      simp only [beginNext]
      split
      · exact ih h
      · split
        · next hx => exact onLine_steps _ (h.trans (openFrame_steps hx))
        · exact ih (moveCard_steps _ (endExchange_steps _ _ (onLine_steps _ h)))
    | hello | powerOn | powerOff | command _ | eject | askRepeat => exact onLine_steps _ h

theorem pump_steps (h : LineSteps p s t) : LineSteps p s (pump p t) := by
  simp only [pump]
  split
  · exact h
  · exact beginNext_steps _ h

theorem ask_steps (f : TxFrame) (h : LineSteps p s t) : LineSteps p s (ask p f t) := pump_steps (onLine_steps _ h)

theorem loseLine_steps (h : LineSteps p s t) : LineSteps p s (loseLine p t) :=
  postCardState_steps (onLine_steps _ (endExchange_steps _ _ (onLine_steps _ h)))

theorem failDuring_steps (x : Exchange) (h : LineSteps p s t) : LineSteps p s (failDuring p x t) := by
  simp only [failDuring]
  split
  · exact ask_steps _ (putXs_steps _ h)
  · split
    · exact endExchange_steps _ _ h
    all_goals exact endExchange_steps _ _ (moveCard_steps _ (ask_steps _ (onLine_steps _ h)))

theorem failOutside_steps (h : LineSteps p s t) : LineSteps p s (failOutside p t) := by
  simp only [failOutside]
  split
  · exact loseLine_steps (onLine_steps _ h)
  · exact onLine_steps _ h

theorem failFrame_steps (h : LineSteps p s t) : LineSteps p s (failFrame p t) := by
  simp only [failFrame]
  split
  · exact failOutside_steps (onLine_steps _ h)
  · split
    · exact failDuring_steps _ (onLine_steps _ h)
    · exact failOutside_steps (onLine_steps _ h)

theorem abandon_steps (h : LineSteps p s t) : LineSteps p s (abandon p t) := by
  simp only [abandon]
  split
  · exact h
  · exact failFrame_steps h

theorem missHello_steps (h : LineSteps p s t) : LineSteps p s (missHello p t) := by
  simp only [missHello]
  split
  · exact loseLine_steps (onLine_steps _ h)
  · exact onLine_steps _ (onLine_steps _ h)

theorem restoreLine_steps (r : ReaderCondition) (h : LineSteps p s t) : LineSteps p s (restoreLine p r t) := by
  simp only [restoreLine]
  split
  · exact postCardState_steps (ask_steps _ (onLine_steps _ h))
  · exact postCardState_steps (onLine_steps _ h)

theorem takeAnswer_steps (awaits : ExchangeKind → Bool) (fits : Bool) (payload : List Byte) (h : LineSteps p s t) :
    LineSteps p s (takeAnswer p awaits fits payload t) := by
  simp only [takeAnswer]
  split
  · exact onLine_steps _ h
  · split
    · exact onLine_steps _ h
    · split
      · exact onLine_steps _ h
      · split
        · exact endExchange_steps _ _ (moveCard_steps _ h)
        · exact failDuring_steps _ (onLine_steps _ h)

theorem answerArrives_steps (awaits : ExchangeKind → Bool) (fits : Bool) (payload : List Byte)
    (h : LineSteps p s t) : LineSteps p s (answerArrives p awaits fits payload t) := by
  simp only [answerArrives]
  refine settleLine_steps ?_
  split
  · exact onLine_steps _ (onLine_steps _ h)
  · exact takeAnswer_steps _ _ _ (onLine_steps _ h)

theorem takeFault_steps (c : FaultCause) (h : LineSteps p s t) : LineSteps p s (takeFault p c t) := by
  simp only [takeFault]
  refine settleLine_steps ?_
  split
  · exact onLine_steps _ (onLine_steps _ h)
  · exact onLine_steps _ (onLine_steps _ h)
  all_goals exact postCardState_steps (endExchange_steps _ _ (onLine_steps _ (onLine_steps _ h)))

theorem takeDone_steps (h : LineSteps p s t) : LineSteps p s (takeDone p t) := by
  simp only [takeDone]
  refine settleLine_steps ?_
  split
  · split
    · exact endExchange_steps _ _ (moveCard_steps _ (onLine_steps _ h))
    · exact moveCard_steps _ (onLine_steps _ h)
  · exact onLine_steps _ (onLine_steps _ h)

theorem foldl_ask_steps (frames : List TxFrame) (h : LineSteps p s t) :
    LineSteps p s (frames.foldl (fun v f => ask p f v) t) := by
  induction frames generalizing t with
  | nil => exact h
  | cons f rest ih => exact ih (ask_steps f h)

theorem startExchange_steps (x : Exchange) (st : CardState) (frames : List TxFrame) (h : LineSteps p s t) :
    LineSteps p s (startExchange p x st frames t) := foldl_ask_steps frames (moveCard_steps _ (putXs_steps _ h))

theorem powerDown_steps (k : ExchangeKind) (h : LineSteps p s t) : LineSteps p s (powerDown p k t) := by
  cases k with
  | release => exact h
  | power | command | present => exact moveCard_steps _ (ask_steps _ (onLine_steps _ h))

theorem abortExchange_steps (x : Exchange) (h : LineSteps p s t) : LineSteps p s (abortExchange p x t) := by
  have hg := putXs_steps .none (powerDown_steps x.kind h)
  simp only [abortExchange]
  refine settleLine_steps (onLine_steps _ ?_)
  split
  · exact wipePresented_steps hg
  all_goals exact hg

theorem powerOffCard_steps (h : LineSteps p s t) : LineSteps p s (powerOffCard p t) := moveCard_steps _ (ask_steps _ h)

/-- A valid STATE frame outside NO_READER: steps of the line, then codes admitted (R146). -/
theorem reportCard_steps (r : ReaderCondition) (h : LineSteps p s t) :
    ∃ v, ∃ l : List Synth, LineSteps p s v ∧ reportCard p r t = l.foldl (fun w k => admitSynth p k w) v := by
  simp only [reportCard]
  split
  · exact ⟨t, [], h, rfl⟩
  · next e _ =>
    refine ⟨_, e.codes, ?_, rfl⟩
    split
    · exact postCardState_steps (endExchange_steps _ _ (onLine_steps _ h))
    · exact postCardState_steps (onLine_steps _ h)

/-- Admission with the flag set already does nothing (R48). -/
theorem admit_of_flagged (p : Pos) (k : Synth) (s : State) (hf : (s.intake.flags.get p).get k = true) :
    admitSynth p k s = s := by
  simp only [admitSynth]
  split
  · rfl
  · rw [if_pos hf]

/-- Admission with the flag clear and no place free sets the flag (R48). -/
theorem admit_of_full (p : Pos) (k : Synth) (s : State) (h : (s.pos.get p).state = .opened)
    (hf : (s.intake.flags.get p).get k = false) (hr : s.intake.free = 0) :
    admitSynth p k s = s.onIntake fun f => f.putFlag p k true := by
  simp [admitSynth, h, hf, hr]

theorem admitSynth_onLine (p q : Pos) (k : Synth) (f : CardLine → CardLine) (s : State) :
    admitSynth p k (s.onLine q f) = (admitSynth p k s).onLine q f := by
  rcases admit_cases p k s with ⟨h, hc | hf⟩ | ⟨h, ho, hf, hr⟩ | ⟨h, ho, hf, hr⟩
  · rw [h]; exact admit_of_closed p k (s.onLine q f) hc
  · rw [h]; exact admit_of_flagged p k (s.onLine q f) hf
  · rw [h]; exact admit_of_free p k (s.onLine q f) ho hf hr
  · rw [h]; exact admit_of_full p k (s.onLine q f) ho hf hr

theorem settleLine_admit (p : Pos) (k : Synth) (s : State) :
    settleLine p (admitSynth p k s) = admitSynth p k (settleLine p s) := by
  rw [settleLine, settleLine, admitSynth_onLine]
  simp only [State.inFlight, admitSynth_xs]

theorem settleLine_foldl_admit (p : Pos) (l : List Synth) (s : State) :
    settleLine p (l.foldl (fun w k => admitSynth p k w) s) =
      l.foldl (fun w k => admitSynth p k w) (settleLine p s) := by
  induction l generalizing s with
  | nil => rfl
  | cons k rest ih => rw [List.foldl_cons, List.foldl_cons, ih, settleLine_admit]

/-- A valid STATE frame: steps of the line, then codes admitted and pressure judged (R145, R146). -/
theorem takeState_steps (p : Pos) (r : ReaderCondition) (s : State) :
    ∃ v, ∃ l : List Synth, LineSteps p s v ∧ takeState p r s = judgePressure s (l.foldl (fun w k => admitSynth p k w) v) := by
  have h : LineSteps p s (s.onLine p CardLine.validFrame) := onLine_steps _ (.refl p s)
  simp only [takeState]
  split
  · exact ⟨_, [], settleLine_steps (restoreLine_steps r h), rfl⟩
  · obtain ⟨v, l, hv, he⟩ := reportCard_steps r h
    exact ⟨_, l, settleLine_steps hv, by rw [he, settleLine_foldl_admit]⟩

/-! ### What the steps of a line leave -/

theorem LineStep.lineWork (h : LineStep p s t) : LineWork p s t := by
  cases h with
  | line f => exact onLine_lineWork p f s
  | xs x => exact putXs_lineWork p x s
  | wipe | present => exact putEntry_lineWork p _ s
  | serve => exact (serveOwed_served s).lineWork p
  | post => exact (postCardState_served p s).lineWork p

theorem LineSteps.lineWork (h : LineSteps p s t) : LineWork p s t := by
  induction h with
  | refl => exact LineWork.refl p s
  | tail _ h ih => exact ih.trans h.lineWork

theorem LineSteps.queued (h : LineSteps p s t) : Queued s t := by
  induction h with
  | refl => exact .refl s
  | tail _ h ih =>
    refine ih.trans ?_
    cases h with
    | serve => exact serveOwed_queued _
    | post => exact postCardState_queued p _
    | line | xs | wipe | present => exact .of_eq rfl

/-- The entry of the line's position, after work on the line: as it was, wiped, or marked presented (R121, R160). -/
theorem LineSteps.entry (h : LineSteps p s t) : EntryAfter (s.entry.get p) (t.entry.get p) := by
  induction h with
  | refl => exact .inl rfl
  | tail _ h ih =>
    cases h with
    | line | xs => exact ih
    | serve | post => simpa using ih
    | wipe => exact .inr (.inl (by simp))
    | present =>
      rcases ih with ih | ih | ih
      · exact .inr (.inr (by simp [ih]))
      · exact .inr (.inl (by simp [ih]))
      · exact .inr (.inr (by rw [State.putEntry_entry, PerPos.get_set_same, ih, Option.map_map]; rfl))

end Sys2Proof.Machine
end

section
/-! SUPPORT. The acceptance of a request in its frame, the resets' loops, and what every event does to the replies queued and
to table memory. -/

namespace Sys2Proof.Machine

open Sys2Proof

/-! ### The acceptance -/

@[simp] theorem accept_pending (r : Request) (s : State) : (accept r s).pending = (carryOut r s).1.pending := by
  unfold accept startedAfter; dsimp only; split <;> rfl
@[simp] theorem accept_timeCount (r : Request) (s : State) : (accept r s).timeCount = (carryOut r s).1.timeCount := by
  unfold accept startedAfter; dsimp only; split <;> rfl
@[simp] theorem accept_pos (r : Request) (s : State) : (accept r s).pos = (carryOut r s).1.pos := by
  unfold accept startedAfter; dsimp only; split <;> rfl
@[simp] theorem accept_bus (r : Request) (s : State) : (accept r s).bus = (carryOut r s).1.bus := by
  unfold accept startedAfter; dsimp only; split <;> rfl
@[simp] theorem accept_intake (r : Request) (s : State) : (accept r s).intake = (carryOut r s).1.intake := by
  unfold accept startedAfter; dsimp only; split <;> rfl
@[simp] theorem accept_tables (r : Request) (s : State) : (accept r s).tables = (carryOut r s).1.tables := by
  unfold accept startedAfter; dsimp only; split <;> rfl
@[simp] theorem accept_attn (r : Request) (s : State) : (accept r s).attn = (carryOut r s).1.attn := by
  unfold accept startedAfter; dsimp only; split <;> rfl
@[simp] theorem accept_entry (r : Request) (s : State) : (accept r s).entry = (carryOut r s).1.entry := by
  unfold accept startedAfter; dsimp only; split <;> rfl
@[simp] theorem accept_pu (r : Request) (s : State) : (accept r s).pu = (carryOut r s).1.pu := by
  unfold accept startedAfter; dsimp only; split <;> rfl
@[simp] theorem accept_line (r : Request) (s : State) : (accept r s).line = (carryOut r s).1.line := by
  unfold accept startedAfter; dsimp only; split <;> rfl
@[simp] theorem accept_xs (r : Request) (s : State) : (accept r s).xs = (carryOut r s).1.xs := by
  unfold accept startedAfter; dsimp only; split <;> rfl

theorem accept_link (r : Request) (s : State) :
    (accept r s).link = { (carryOut r s).1.link with armed := armedAfter r.kind (carryOut r s).2 } := by
  unfold accept startedAfter; dsimp only; split <;> rfl

/-- The records behind the reply: the STARTED of a COUNTER_RESET carried out (R181). -/
def startedRecords (k : ReqKind) (a : Answer) (mode : LinkMode) : List OutRecord :=
  if k = .counterReset ∧ a.status = .ok then [.notice (.started .counterReset mode)] else []

theorem accept_queue (r : Request) (s : State) :
    (accept r s).oq.queue = (carryOut r s).1.oq.queue ++ .reply r.kind r.tag (carryOut r s).2 ::
      startedRecords r.kind (carryOut r s).2 (carryOut r s).1.link.mode := by
  unfold accept startedAfter startedRecords; dsimp only; split <;> simp

theorem accept_reservation (r : Request) (s : State) :
    (accept r s).oq.reservation = (carryOut r s).1.oq.reservation := by
  unfold accept startedAfter; dsimp only; split <;> rfl

/-! ### Loops -/

/-- A loop whose every round is in a reflexive and transitive relation is in it. -/
theorem foldl_chain {α β : Type} {R : α → α → Prop} (hr : ∀ a, R a a) (ht : ∀ a b c, R a b → R b c → R a c)
    (f : α → β → α) (h : ∀ a b, R a (f a b)) (l : List β) (a : α) : R a (l.foldl f a) := by
  induction l generalizing a with
  | nil => exact hr a
  | cons b rest ih => exact ht _ _ _ (h a b) (ih _)

/-- What a loop's every round keeps, the loop keeps. -/
theorem foldl_keeps {α β : Type} {P : α → Prop} (f : α → β → α) (h : ∀ a b, P a → P (f a b)) (l : List β) (a : α)
    (ha : P a) : P (l.foldl f a) :=
  foldl_chain (R := fun a b => P a → P b) (fun _ => id) (fun _ _ _ h k => k ∘ h) f h l a ha

theorem helloAtReset_steps (s : State) (p : Pos) : LineSteps p s (helloAtReset s p) := ask_steps _ (.refl p s)

theorem lineAtReset_steps (u s : State) (p : Pos) : LineSteps p s (lineAtReset u s p) := by
  refine settleLine_steps ?_
  split
  · exact ask_steps _ (.refl p s)
  · exact .refl p s

theorem startAtReset_visited (s : State) (g : Group) : Visited g s (startAtReset s g) := by
  unfold startAtReset
  split
  · exact Visited.refl g s
  · exact firstRound_visited g s

/-- What the loops of a power-on reset keep. -/
theorem powerOn_keeps {P : State → Prop} (hl : ∀ p s t, LineSteps p s t → P s → P t)
    (hb : ∀ g s t, Visited g s t → P s → P t) (mode : LinkMode) (wcts : Bool)
    (h : P (State.powerOnValues mode wcts)) : P (powerOn mode wcts) :=
  foldl_keeps startAtReset (fun s g => hb g s _ (startAtReset_visited s g)) _ _
    (foldl_keeps helloAtReset (fun s p => hl p s _ (helloAtReset_steps s p)) _ _ h)

/-- What the loops of a counter reset keep. -/
theorem counterReset_keeps {P : State → Prop} (hl : ∀ p s t, LineSteps p s t → P s → P t)
    (hb : ∀ g s t, Visited g s t → P s → P t) (s : State) (h : P s.counterResetValues) : P (counterResetBlocks s) :=
  foldl_keeps startAtReset (fun s g => hb g s _ (startAtReset_visited s g)) _ _
    (foldl_keeps (lineAtReset s) (fun u p => hl p u _ (lineAtReset_steps s u p)) _ _ h)

/-! ### Closes and resets of a position -/

theorem voidAttention_cases (p : Pos) (s : State) :
    (ownsAttention p s = false ∧ voidAttention p s = s) ∨
      (ownsAttention p s = true ∧ voidAttention p s = releaseReservation (dropAttention s)) := by
  simp only [ownsAttention, voidAttention]
  split
  · exact .inl ⟨rfl, rfl⟩
  · split
    · next h => exact .inr ⟨decide_eq_true h, rfl⟩
    · next h => exact .inl ⟨decide_eq_false h, rfl⟩

theorem voidAttention_queued (p : Pos) (s : State) : Queued s (voidAttention p s) := by
  rcases voidAttention_cases p s with ⟨_, h⟩ | ⟨_, h⟩
  · rw [h]; exact .refl s
  · rw [h]; exact (releaseReservation_queued (dropAttention s)).congr rfl rfl

theorem closeWork_queued (p : Pos) (s : State) : Queued s (closeWork p s) :=
  (voidAttention_queued p (((s.putEntry p .none).onPu p PromptUnit.close).onIntake (Intake.voidPosition p))).congr
    rfl rfl

theorem powerOffCard_queued (p : Pos) (s : State) : Queued s (powerOffCard p s) :=
  (powerOffCard_steps (.refl p s)).queued

theorem resetWork_queued (p : Pos) (s : State) : Queued s (resetWork p s) := by
  have hr : Queued s (closeWork p (removeExchange p s)) := (closeWork_queued p (removeExchange p s)).congr rfl rfl
  unfold resetWork
  generalize closeWork p (removeExchange p s) = u at hr
  split
  · exact (hr.trans (powerOffCard_queued p u)).congr rfl (by rw [State.onPos_oq])
  · exact hr.congr rfl (by rw [State.onPos_oq])

theorem setPending_fold_steps (ps : LineSettings) (l : List Pos) {P : State → Prop}
    (hl : ∀ p s t, LineSteps p s t → P s → P t) (s : State) (h : P s) : P (l.foldl (setPending ps) s) :=
  foldl_keeps (setPending ps) (fun s p => hl p s _ (settleLine_steps (onLine_steps _ (.refl p s)))) l s h

/-! ### The replies queued -/

/-- The replies of the queue, in order. -/
abbrev OutQueue.repliesOf (q : OutQueue) : List OutRecord := q.queue.filter OutRecord.isReply

theorem OutQueue.counterReset_repliesOf (q : OutQueue) : q.counterReset.repliesOf = q.repliesOf := by
  unfold OutQueue.repliesOf OutQueue.counterReset
  dsimp only
  split
  · next h => simp [h]
  · next r rest h =>
    split
    · simp [h, List.filter_cons]
    · simp [h]

theorem repliesOf_counterResetBlocks (s : State) : (counterResetBlocks s).oq.repliesOf = s.oq.repliesOf := by
  refine counterReset_keeps (P := fun t => t.oq.repliesOf = s.oq.repliesOf) (fun p u t h hu => ?_)
    (fun g u t h hu => ?_) s s.oq.counterReset_repliesOf
  · exact h.queued.replies.trans hu
  · rw [h.oq]; exact hu

theorem postApplied_repliesOf (n : Option AppNotice) (s : State) :
    (postApplied n s).oq.repliesOf = s.oq.repliesOf := by
  cases n with
  | none => rfl
  | some n => simp [postApplied, OutQueue.repliesOf]

/-- The state a resolution leaves (R90, R96). -/
theorem resolve_fst (a : Attention) (d : Disposition) (s : State) :
    (resolve a d s).1 = releaseReservation (postApplied (applyDisposition a.pos a.code d s).2.notice
      (dropAttention (applyDisposition a.pos a.code d s).1)) := by rw [resolve]

theorem resolve_repliesOf (a : Attention) (d : Disposition) (s : State) :
    (resolve a d s).1.oq.repliesOf = s.oq.repliesOf := by
  have h := (applyDisposition_application a.pos a.code d s).oq
  rw [resolve_fst]
  refine (releaseReservation_queued _).replies.trans ((postApplied_repliesOf _ _).trans ?_)
  exact congrArg OutQueue.repliesOf h

/-- A request's effect leaves the replies queued as they were. -/
theorem Effect.repliesOf {s t : State} {k : ReqKind} (h : Effect s k t) : t.oq.repliesOf = s.oq.repliesOf := by
  cases h with
  | closePosition p => exact (closeWork_queued p s).replies
  | closeReady p => exact ((closeWork_queued p s).trans (powerOffCard_queued p _)).replies
  | resetPosition p => exact (resetWork_queued p s).replies
  | attend a d => exact resolve_repliesOf a d s
  | cardLineSet g ps =>
    exact setPending_fold_steps ps _ (P := fun t => t.oq.repliesOf = s.oq.repliesOf)
      (fun p u t h hu => h.queued.replies.trans hu) s rfl
  | cardPower p | cardExchange p | cardPresent p =>
    exact (startExchange_steps _ _ _ (.refl p s)).queued.replies
  | cardRelease p => exact (startExchange_steps _ _ _ (onLine_steps _ (.refl p s))).queued.replies
  | cardAbort p x => exact (abortExchange_steps x (.refl p s)).queued.replies
  | counterReset => exact repliesOf_counterResetBlocks s
  | read | openPosition | setMode | busSet | bankOpen | bankClose | bankFreeze | tableWrite | modeSet | attentionSet
  | collect | collectStop | entryWipe | prompt | promptClear | beep | linkRate | resetArm => rfl

theorem carryOut_repliesOf (r : Request) (s : State) : (carryOut r s).1.oq.repliesOf = s.oq.repliesOf := by
  rcases carryOut_carried r s with ⟨_, h⟩ | ⟨_, h⟩
  · rw [h]
  · exact h.repliesOf

theorem accept_repliesOf (r : Request) (s : State) :
    (accept r s).oq.repliesOf = s.oq.repliesOf ++ [.reply r.kind r.tag (carryOut r s).2] := by
  have hs : (startedRecords r.kind (carryOut r s).2 (carryOut r s).1.link.mode).filter OutRecord.isReply = [] := by
    unfold startedRecords; split <;> rfl
  rw [OutQueue.repliesOf, accept_queue, List.filter_append, List.filter_cons, if_pos (isReply_reply _ _ _), hs]
  exact congrArg (· ++ _) (carryOut_repliesOf r s)

/-! ### Table memory -/

/-- What an event does to table memory: nothing, or the effect of one of the bank requests (R61 to R69). -/
inductive TableWork (t : Tables) : Tables → Prop
  | same : TableWork t t
  | opens (b : Bank) (hb : t.frozen.get b = false) : TableWork t { t with openBank := .some b }
  | closes : TableWork t { t with openBank := .none }
  | freezes (b : Bank) : TableWork t { t with
      openBank := if t.isOpen b then .none else t.openBank
      frozen := t.frozen.set b true }
  | writes (b : Bank) (m : Mode) (c : Nat) (ds : List Disposition) (hb : t.openBank = .some b)
      (hc : c + ds.length ≤ 64) : TableWork t (t.writeRun b m c ds)
  | describes (b : Bank) (m : Mode) (d : Descriptor) (hb : t.openBank = .some b) :
      TableWork t (t.writeDescriptor b m d)

theorem TableWork.of_eq {t u : Tables} (h : u = t) : TableWork t u := h ▸ .same

@[simp] theorem voidAttention_tables (p : Pos) (s : State) : (voidAttention p s).tables = s.tables := by
  rcases voidAttention_cases p s with ⟨_, h⟩ | ⟨_, h⟩
  · rw [h]
  · rw [h, releaseReservation_tables]; rfl

@[simp] theorem closeWork_tables (p : Pos) (s : State) : (closeWork p s).tables = s.tables := by simp [closeWork]

theorem powerOffCard_lineWork (p : Pos) (s : State) : LineWork p s (powerOffCard p s) :=
  (powerOffCard_steps (.refl p s)).lineWork

theorem resetWork_tables (p : Pos) (s : State) : (resetWork p s).tables = s.tables := by
  have hr : (closeWork p (removeExchange p s)).tables = s.tables := closeWork_tables p _
  unfold resetWork
  generalize closeWork p (removeExchange p s) = u at hr
  split
  · rw [State.onPos_tables]; exact (powerOffCard_lineWork p u).tables.trans hr
  · exact hr

@[simp] theorem postApplied_tables (n : Option AppNotice) (s : State) : (postApplied n s).tables = s.tables := by
  cases n <;> rfl

theorem resolve_tables (a : Attention) (d : Disposition) (s : State) : (resolve a d s).1.tables = s.tables := by
  have h := (applyDisposition_application a.pos a.code d s).tables
  simpa [resolve, dropAttention] using h

theorem Effect.tables {s t : State} {k : ReqKind} (h : Effect s k t) : TableWork s.tables t.tables := by
  cases h with
  | bankOpen b hf => exact .opens b hf
  | bankClose => exact .closes
  | bankFreeze b => exact .freezes b
  | tableWrite b m c ds hb hc => exact .writes b m c ds hb hc
  | modeSet b m d hb => exact .describes b m d hb
  | closePosition p => exact .of_eq (closeWork_tables p s)
  | closeReady p => exact .of_eq ((powerOffCard_lineWork p _).tables.trans (closeWork_tables p s))
  | resetPosition p => exact .of_eq (resetWork_tables p s)
  | attend a d => exact .of_eq (resolve_tables a d s)
  | cardLineSet g ps =>
    exact .of_eq (setPending_fold_steps ps _ (P := fun t => t.tables = s.tables)
      (fun p u t h hu => h.lineWork.tables.trans hu) s rfl)
  | cardPower p | cardExchange p | cardPresent p =>
    exact .of_eq (startExchange_steps _ _ _ (.refl p s)).lineWork.tables
  | cardRelease p => exact .of_eq (startExchange_steps _ _ _ (onLine_steps _ (.refl p s))).lineWork.tables
  | cardAbort p x => exact .of_eq (abortExchange_lineWork p x s).tables
  | counterReset =>
    have h : (counterResetBlocks s).tables = { s.tables with openBank := .none } :=
      counterReset_keeps (P := fun t => t.tables = { s.tables with openBank := .none })
        (fun p u t h hu => h.lineWork.tables.trans hu) (fun g u t h hu => h.tables.trans hu) s rfl
    rw [h]
    exact .closes
  | read | openPosition | setMode | busSet | attentionSet
  | collect | collectStop | entryWipe | prompt | promptClear | beep | linkRate | resetArm => exact .same

theorem accept_tableWork (r : Request) (s : State) : TableWork s.tables (accept r s).tables := by
  rw [accept_tables]
  rcases carryOut_carried r s with ⟨_, h⟩ | ⟨_, h⟩
  · rw [h]; exact .same
  · exact h.tables

end Sys2Proof.Machine
end

section
/-! SUPPORT. What the end of a poll and the visits behind it can do to every block but the bus and the IF. -/

namespace Sys2Proof.Machine

open Sys2Proof

/-- An entry with another inter-key time: all that polls do to one (R46, R115). -/
def EntryRan (e f : Option Entry) : Prop := ∃ t : Entry → Timer, f = e.map fun x => { x with interkeyTimer := t x }

theorem EntryRan.refl (e : Option Entry) : EntryRan e e := ⟨Entry.interkeyTimer, by cases e <;> rfl⟩

theorem EntryRan.trans {e f g : Option Entry} (h : EntryRan e f) (k : EntryRan f g) : EntryRan e g := by
  obtain ⟨t, rfl⟩ := h
  obtain ⟨u, rfl⟩ := k
  exact ⟨fun x => u { x with interkeyTimer := t x }, by cases e <;> rfl⟩

/-- All that polls do to a prompt unit: its beep leaves, its content is marked applied, its hold starts (R28, R130). -/
structure PromptHeard (u v : PromptUnit) : Prop where
  slotA : v.slotA = u.slotA
  slotB : v.slotB = u.slotB
  currentSlot : v.currentSlot = u.currentSlot
  content : v.content = u.content
  number : v.number = u.number
  cursor : v.cursor = u.cursor
  hold : (v.phase = u.phase ∧ v.holdTimer = u.holdTimer) ∨
    u.phase = .notStarted ∧ ∃ pr, u.current = .some pr ∧
      ((v.phase = .shown ∧ v.holdTimer = u.holdTimer) ∨ (v.phase = .running ∧ v.holdTimer = .running (pr.hold * 100)))

theorem PromptHeard.refl (u : PromptUnit) : PromptHeard u u := ⟨rfl, rfl, rfl, rfl, rfl, rfl, .inl ⟨rfl, rfl⟩⟩

theorem PromptHeard.current {u v : PromptUnit} (h : PromptHeard u v) : v.current = u.current := by
  simp only [PromptUnit.current, h.currentSlot, h.slotA, h.slotB]

theorem PromptHeard.other {u v : PromptUnit} (h : PromptHeard u v) : v.other = u.other := by
  simp only [PromptUnit.other, h.currentSlot, h.slotA, h.slotB]

theorem PromptHeard.trans {u v w : PromptUnit} (h : PromptHeard u v) (k : PromptHeard v w) : PromptHeard u w where
  slotA := k.slotA.trans h.slotA
  slotB := k.slotB.trans h.slotB
  currentSlot := k.currentSlot.trans h.currentSlot
  content := k.content.trans h.content
  number := k.number.trans h.number
  cursor := k.cursor.trans h.cursor
  hold := by
    rcases k.hold with ⟨kp, kt⟩ | ⟨kn, pr, kc, ks⟩
    · rcases h.hold with ⟨hp, ht⟩ | ⟨hn, pr, hc, ⟨hp, ht⟩ | ⟨hp, ht⟩⟩
      · exact .inl ⟨kp.trans hp, kt.trans ht⟩
      · exact .inr ⟨hn, pr, hc, .inl ⟨kp.trans hp, kt.trans ht⟩⟩
      · exact .inr ⟨hn, pr, hc, .inr ⟨kp.trans hp, kt.trans ht⟩⟩
    · rcases h.hold with ⟨hp, ht⟩ | ⟨_, _, _, ⟨hp, _⟩ | ⟨hp, _⟩⟩
      · exact .inr ⟨hp ▸ kn, pr, h.current ▸ kc, by rwa [ht] at ks⟩
      · rw [hp] at kn; cases kn
      · rw [hp] at kn; cases kn

theorem PromptHeard.beep (u : PromptUnit) (b : Beep) : PromptHeard u { u with beep := b } :=
  ⟨rfl, rfl, rfl, rfl, rfl, rfl, .inl ⟨rfl, rfl⟩⟩

theorem PromptUnit.applied_heard (u : PromptUnit) : PromptHeard u u.applied := by
  unfold PromptUnit.applied
  dsimp only
  split
  · next pr hc hp =>
    split
    · exact ⟨rfl, rfl, rfl, rfl, rfl, rfl, .inr ⟨hp, pr, hc, .inl ⟨rfl, rfl⟩⟩⟩
    · exact ⟨rfl, rfl, rfl, rfl, rfl, rfl, .inr ⟨hp, pr, hc, .inr ⟨rfl, rfl⟩⟩⟩
  · exact ⟨rfl, rfl, rfl, rfl, rfl, rfl, .inl ⟨rfl, rfl⟩⟩

/-- What the visits and the ends of polls leave of every block but the buses and the IF. -/
structure Polled (s t : State) : Prop where
  pending : t.pending = s.pending
  timeCount : t.timeCount = s.timeCount
  link : t.link = s.link
  tables : t.tables = s.tables
  attn : t.attn = s.attn
  pos : ∀ p, (t.pos.get p).state = (s.pos.get p).state ∧ (t.pos.get p).bank = (s.pos.get p).bank ∧
    (t.pos.get p).mode = (s.pos.get p).mode
  entry : ∀ p, EntryRan (s.entry.get p) (t.entry.get p)
  pu : ∀ p, PromptHeard (s.pu.get p) (t.pu.get p)
  line : ∀ p, ∃ n, t.line.get p = { s.line.get p with changes := n }
  xs : ∀ p, t.xs.get p = s.xs.get p ∨
    t.xs.get p = .none ∧ ∃ x o d, s.xs.get p = .some x ∧ x.phase = .held o d
  queued : Queued s t
  reservation : t.oq.reservation = s.oq.reservation
  limit : s.oq.notices + s.oq.reservation ≤ 64 → t.oq.notices + t.oq.reservation ≤ 64

variable {s t u : State} {g : Group} {p : Pos}

theorem Polled.trans (h : Polled s t) (k : Polled t u) : Polled s u where
  pending := k.pending.trans h.pending
  timeCount := k.timeCount.trans h.timeCount
  link := k.link.trans h.link
  tables := k.tables.trans h.tables
  attn := k.attn.trans h.attn
  pos := fun p => ⟨(k.pos p).1.trans (h.pos p).1, (k.pos p).2.1.trans (h.pos p).2.1,
    (k.pos p).2.2.trans (h.pos p).2.2⟩
  entry := fun p => (h.entry p).trans (k.entry p)
  pu := fun p => (h.pu p).trans (k.pu p)
  line := fun p => by
    obtain ⟨m, hm⟩ := h.line p
    obtain ⟨n, hn⟩ := k.line p
    exact ⟨n, by rw [hn, hm]⟩
  xs := fun p => by
    rcases k.xs p with hk | ⟨hk, x, o, d, hx, hp⟩
    · rw [hk]; exact h.xs p
    · rcases h.xs p with hh | ⟨hh, _⟩
      · exact .inr ⟨hk, x, o, d, hh ▸ hx, hp⟩
      · rw [hh] at hx; cases hx
  queued := h.queued.trans k.queued
  reservation := k.reservation.trans h.reservation
  limit := fun hs => k.limit (h.limit hs)

/-- A state that differs in the buses, the IF, and in what polls move of entries, prompt units and counters alone. -/
theorem Polled.of_same (hpe : t.pending = s.pending) (htc : t.timeCount = s.timeCount) (hl : t.link = s.link)
    (htb : t.tables = s.tables) (ha : t.attn = s.attn)
    (hp : ∀ p, (t.pos.get p).state = (s.pos.get p).state ∧ (t.pos.get p).bank = (s.pos.get p).bank ∧
      (t.pos.get p).mode = (s.pos.get p).mode)
    (he : ∀ p, EntryRan (s.entry.get p) (t.entry.get p)) (hu : ∀ p, PromptHeard (s.pu.get p) (t.pu.get p))
    (hli : t.line = s.line) (hx : t.xs = s.xs) (ho : t.oq = s.oq) : Polled s t :=
  ⟨hpe, htc, hl, htb, ha, hp, he, hu, fun p => ⟨(s.line.get p).changes, by rw [hli]⟩, fun p => .inl (by rw [hx]),
    .of_eq (by rw [ho]), by rw [ho], by rw [ho]; exact id⟩

theorem Polled.refl (s : State) : Polled s s :=
  .of_same rfl rfl rfl rfl rfl (fun _ => ⟨rfl, rfl, rfl⟩) (fun _ => .refl _) (fun _ => .refl _) rfl rfl rfl

theorem onIntake_polled (f : Intake → Intake) (s : State) : Polled s (s.onIntake f) :=
  .of_same rfl rfl rfl rfl rfl (fun _ => ⟨rfl, rfl, rfl⟩) (fun _ => .refl _) (fun _ => .refl _) rfl rfl rfl

theorem onBus_polled (g : Group) (f : Bus → Bus) (s : State) : Polled s (s.onBus g f) :=
  .of_same rfl rfl rfl rfl rfl (fun _ => ⟨rfl, rfl, rfl⟩) (fun _ => .refl _) (fun _ => .refl _) rfl rfl rfl

theorem onPos_polled (p : Pos) (f : PosRecord → PosRecord) (s : State)
    (hf : ∀ r, (f r).state = r.state ∧ (f r).bank = r.bank ∧ (f r).mode = r.mode) : Polled s (s.onPos p f) := by
  refine .of_same rfl rfl rfl rfl rfl (fun q => ?_) (fun _ => .refl _) (fun _ => .refl _) rfl rfl rfl
  rw [State.onPos_pos, PerPos.get_modify]
  split
  · exact hf _
  · exact ⟨rfl, rfl, rfl⟩

theorem onPu_polled (p : Pos) (f : PromptUnit → PromptUnit) (s : State) (hf : ∀ u, PromptHeard u (f u)) :
    Polled s (s.onPu p f) := by
  refine .of_same rfl rfl rfl rfl rfl (fun _ => ⟨rfl, rfl, rfl⟩) (fun _ => .refl _) (fun q => ?_) rfl rfl rfl
  rw [State.onPu_pu, PerPos.get_modify]
  split
  · exact hf _
  · exact .refl _

theorem Served.polled (h : Served s t) (hq : Queued s t) : Polled s t :=
  ⟨h.pending, h.timeCount, h.link, h.tables, h.attn, fun p => by rw [h.pos]; exact ⟨rfl, rfl, rfl⟩,
    fun p => by rw [h.entry]; exact .refl _, fun p => by rw [h.pu]; exact .refl _, h.line, h.xs, hq, h.reservation,
    h.limit⟩

theorem Visited.polled (h : Visited g s t) : Polled s t :=
  .of_same h.pending h.timeCount h.link h.tables h.attn (fun p => by rw [h.pos]; exact ⟨rfl, rfl, rfl⟩)
    (fun p => by rw [h.entry]; exact .refl _)
    (fun p => by obtain ⟨b, hb⟩ := h.pu p; rw [hb]; exact .beep _ b) h.line h.xs h.oq

theorem postKeypadState_polled (p : Pos) (pr : Presence) (s : State) : Polled s (postKeypadState p pr s) :=
  (postKeypadState_served p pr s).polled (postKeypadState_queued p pr s)

theorem admitSynth_polled (p : Pos) (k : Synth) (s : State) : Polled s (admitSynth p k s) := by
  obtain ⟨f, hf⟩ := admit_eq_onIntake p k s
  rw [hf]
  exact onIntake_polled f s

theorem judgePressure_polled (u s : State) : Polled s (judgePressure u s) := by
  obtain ⟨x, h⟩ := judgePressure_served u s
  exact ⟨h.pending, h.timeCount, h.link, h.tables, h.attn, fun p => by rw [h.pos]; exact ⟨rfl, rfl, rfl⟩,
    fun p => by rw [h.entry]; exact .refl _, fun p => by rw [h.pu]; exact .refl _, h.line, h.xs,
    judgePressure_queued u s, h.reservation, h.limit⟩

theorem keyEntered_polled (p : Pos) (s : State) : Polled s (keyEntered p s) := by
  unfold keyEntered
  split
  · exact .refl s
  next e he =>
  split
  · next n _ _ =>
    refine .of_same rfl rfl rfl rfl rfl (fun _ => ⟨rfl, rfl, rfl⟩) (fun q => ?_) (fun _ => .refl _) rfl rfl rfl
    rw [State.putEntry_entry, PerPos.get_set]
    split
    · next hq => exact ⟨fun _ => .running (n * 100), by rw [hq, he, Option.map_some]⟩
    · exact .refl _
  · exact .refl s

theorem countKey_polled (p : Pos) (s : State) (c : Code) : Polled s (countKey p s c) :=
  (onPos_polled p (fun r => { r with keysEntered := sat16 r.keysEntered }) s fun _ => ⟨rfl, rfl, rfl⟩).trans
    (keyEntered_polled p _)

theorem missPoll_polled (g : Group) (q : Poll) (c : Bool) (s : State) : Polled s (missPoll g q c s) := by
  have hc := (onPos_polled (posAt g q.addr) (fun r => { r with
      misses := sat16 r.misses, checkErrors := if c then sat16 r.checkErrors else r.checkErrors }) s
    fun _ => ⟨rfl, rfl, rfl⟩).trans
      (onBus_polled g (fun b => { b with addrs := b.addrs.modify q.addr fun d => { d with misses := holdAt 3 d.misses } }) _)
  have hr : ∀ v, Polled s v → Polled s ((v.onIntake fun f => f.release q.reserved).onBus g Bus.endPoll) :=
    fun v hv => hv.trans ((onIntake_polled _ v).trans (onBus_polled g _ _))
  unfold missPoll
  extract_lets p counted d lost moved released
  split
  · next hl =>
    have hm : Polled s moved := by
      simp only [moved, hl, if_true]
      exact hc.trans ((onBus_polled g _ _).trans (postKeypadState_polled p _ _))
    exact (hr _ hm).trans (admitSynth_polled p _ _)
  · next hl =>
    have hm : Polled s moved := by
      simp only [moved, hl]
      exact hc
    exact hr _ hm

theorem noteBatch_polled (g : Group) (a : Addr) (r : Reply) (j : BatchJudgement) (s : State) :
    Polled s (noteBatch g a r j s) := by
  cases j with
  | accepted => exact onBus_polled g _ s
  | resend => exact onPos_polled _ _ s fun _ => ⟨rfl, rfl, rfl⟩
  | empty => exact .refl s

theorem takeBatch_polled (g : Group) (q : Poll) (r : Reply) (j : BatchJudgement) (s : State) :
    Polled s (takeBatch g q r j s) := by
  unfold takeBatch
  refine Polled.trans ?_ (onBus_polled g _ _)
  split
  · exact (onIntake_polled _ s).trans
      (foldl_chain Polled.refl (fun _ _ _ => Polled.trans) _ (countKey_polled _) r.keys _)
  · exact onIntake_polled _ s

theorem noteAlarm_polled (g : Group) (a : Addr) (b : Bool) (s : State) : Polled s (noteAlarm g a b s) := by
  unfold noteAlarm
  have h := onBus_polled g (fun b' => { b' with addrs := b'.addrs.modify a fun d => { d with alarm := b } }) s
  dsimp only
  split
  · exact h.trans (admitSynth_polled _ _ _)
  · exact h

theorem noteDisplay_polled (p : Pos) (q : Poll) (b : Bool) (s : State) : Polled s (noteDisplay p q b s) := by
  unfold noteDisplay
  split
  · exact .refl s
  · split
    · exact onPu_polled p _ s PromptUnit.applied_heard
    · exact .refl s

theorem validReply_polled (g : Group) (q : Poll) (r : Reply) (s : State) : Polled s (validReply g q r s) := by
  unfold validReply
  extract_lets p heard back online j taken returned
  have hh : Polled s heard := onBus_polled g _ s
  have ho : Polled s online := by
    simp only [online]
    split
    · exact hh.trans ((onBus_polled g _ _).trans (postKeypadState_polled p _ _))
    · exact hh
  have ht : Polled s taken := ho.trans ((noteBatch_polled g q.addr r j online).trans (takeBatch_polled g q r j _))
  have hb : Polled s returned := by
    simp only [returned]
    split
    · exact ht.trans (admitSynth_polled p _ _)
    · exact ht
  exact hb.trans ((noteAlarm_polled g q.addr r.alarm _).trans (noteDisplay_polled p q r.applied _))

theorem replyEnds_polled (g : Group) (q : Poll) (r : Reply) (s : State) : Polled s (replyEnds g q r s) := by
  unfold replyEnds
  split
  · exact (endDisowned_visited g s).polled
  · split
    · exact (validReply_polled g q r s).trans (nextVisit_visited g _).polled
    · exact (missPoll_polled g q _ s).trans (nextVisit_visited g _).polled

theorem windowEnds_polled (g : Group) (q : Poll) (s : State) :
    Polled s (if q.disowned then endDisowned g s else nextVisit g (missPoll g q false s)) := by
  split
  · exact (endDisowned_visited g s).polled
  · exact (missPoll_polled g q _ s).trans (nextVisit_visited g _).polled

/-- The events of the keypad buses. -/
theorem Event.roundStarts_polled (g : Group) (n : Nat) (s : State) :
    Polled s (judgePressure s (continueRound g 4
      ((s.onBus g fun b => { b with roundTimer := .running n }).onBus g (Bus.startRound false)))) :=
  (onBus_polled g _ s).trans ((onBus_polled g _ _).trans
    ((continueRound_visited g 4 _).polled.trans (judgePressure_polled s _)))

/-! ### Table memory, event by event -/

theorem LineEvent.lineWork {p : Pos} {s t : State} (h : LineEvent p s t) :
    ∃ v, ∃ l : List Synth, LineSteps p s v ∧
      (t = v ∨ t = judgePressure s (l.foldl (fun w k => admitSynth p k w) v)) := by
  cases h with
  | state r =>
    obtain ⟨v, l, hv, he⟩ := takeState_steps p r s
    exact ⟨v, l, hv, .inr he⟩
  | receive rx => exact ⟨_, [], onLine_steps _ (.refl p s), .inl rfl⟩
  | fail => exact ⟨_, [], settleLine_steps (failFrame_steps (.refl p s)), .inl rfl⟩
  | fault c => exact ⟨_, [], takeFault_steps c (.refl p s), .inl rfl⟩
  | done => exact ⟨_, [], takeDone_steps (.refl p s), .inl rfl⟩
  | answer l => exact ⟨_, [], answerArrives_steps _ _ _ (.refl p s), .inl rfl⟩
  | response l => exact ⟨_, [], answerArrives_steps _ _ _ (.refl p s), .inl rfl⟩
  | unlisted => exact ⟨_, [], settleLine_steps (onLine_steps _ (.refl p s)), .inl rfl⟩
  | sent => exact ⟨_, [], settleLine_steps (pump_steps (onLine_steps _ (.refl p s))), .inl rfl⟩
  | silence t ht =>
    have h : LineSteps p s t := ht ▸ abandon_steps (onLine_steps _ (.refl p s))
    refine ⟨_, [], settleLine_steps ?_, .inl rfl⟩
    split
    · exact h
    · split
      · exact onLine_steps _ h
      · exact ask_steps _ (onLine_steps _ h)
  | hello t ht =>
    have h : LineSteps p s t := ht ▸ abandon_steps (onLine_steps _ (.refl p s))
    refine ⟨_, [], settleLine_steps ?_, .inl rfl⟩
    split
    · exact missHello_steps h
    · exact h
  | noReader =>
    exact ⟨_, [], settleLine_steps (ask_steps _ (abandon_steps (onLine_steps _ (.refl p s)))), .inl rfl⟩
  | timeout x hx ha =>
    exact ⟨_, [], settleLine_steps (endExchange_steps _ _ (powerDown_steps _ (.refl p s))), .inl rfl⟩

end Sys2Proof.Machine
end

section
/-! SUPPORT. Table memory over a step: its canonical form is kept and a frozen bank stands (R61, R66). -/

namespace Sys2Proof.Machine

open Sys2Proof

theorem LineEvent.tables {p : Pos} {s t : State} (h : LineEvent p s t) : t.tables = s.tables := by
  obtain ⟨v, l, hv, rfl | rfl⟩ := h.lineWork
  · exact hv.lineWork.tables
  · obtain ⟨f, hf⟩ := foldl_admit_eq_onIntake p l v
    rw [judgePressure_tables, hf]
    exact hv.lineWork.tables

theorem processEntry_tables (e : IntakeEntry) (s : State) : (processEntry e s).tables = s.tables := by
  unfold processEntry
  split
  · rw [releaseReservation_tables]
  · dsimp only
    split
    · rfl
    · rw [releaseReservation_tables, postApplied_tables]
      exact (applyDisposition_application _ _ _ s).tables

/-- What an event does to table memory (R61 to R69). -/
theorem Event.tables {s t : State} (h : Event s t) : TableWork s.tables t.tables := by
  cases h with
  | accept r => exact accept_tableWork r s
  | replyLeavesWaiting r rest b l w =>
    exact accept_tableWork w ((s.onOq fun q => { q with queue := rest, begun := b }).onLink fun _ => l)
  | noticeLeaves n rest b hq => exact .of_eq (serveOwed_tables _)
  | roundStarts g n => exact .of_eq (Event.roundStarts_polled g n s).tables
  | replyEnds g q phase r =>
    exact .of_eq ((replyEnds_polled g q r s).trans (judgePressure_polled s _)).tables
  | windowEnds g q => exact .of_eq ((windowEnds_polled g q s).trans (judgePressure_polled s _)).tables
  | withdraw e rest =>
    rw [judgePressure_tables, Machine.withdraw, processEntry_tables]
    exact .same
  | lapse a =>
    rw [releaseReservation_tables]
    exact .of_eq (applyDisposition_application _ _ _ s).tables
  | interkey p e => exact .of_eq (by simp)
  | total p e mode => exact .of_eq (by simp)
  | holdExpires p =>
    rw [judgePressure_tables]
    unfold Machine.holdExpires
    split
    · exact .same
    · exact .of_eq (admitSynth_tables _ _ _)
  | line p _ h => exact .of_eq h.tables
  | pending | link | hold | transfer | replyLeaves | roundDue | window | tick => exact .same

/-- Table memory keeps its canonical form. -/
theorem TableWork.wf {t u : Tables} (h : TableWork t u) (hw : t.wf = true) : u.wf = true := by
  cases h with
  | same | opens | closes | freezes => exact hw
  | writes b m c ds _ hc => exact (t.writeRun_frame b m c ds hc hw).1
  | describes b m d => exact t.writeDescriptor_wf b m d hw

/-- A frozen bank that is not open reads as it did in `t`. -/
structure StillFrozen (b : Bank) (t u : Tables) : Prop where
  wf : u.wf = true
  frozen : u.frozen.get b = true
  shut : u.openBank ≠ .some b
  entries : ∀ m c, u.readEntry b m c = t.readEntry b m c
  descriptors : ∀ m, u.readDescriptor b m = t.readDescriptor b m

/-- No bank request opens a frozen bank or writes to it (R66). -/
theorem TableWork.stillFrozen {b : Bank} {t u v : Tables} (h : TableWork u v) (k : StillFrozen b t u) :
    StillFrozen b t v := by
  have hw := h.wf k.wf
  cases h with
  | same => exact k
  | opens b' hb' =>
    refine ⟨hw, k.frozen, fun e => ?_, k.entries, k.descriptors⟩
    rw [Option.some.inj e, k.frozen] at hb'
    cases hb'
  | closes => exact ⟨hw, k.frozen, (Option.some_ne_none b).symm, k.entries, k.descriptors⟩
  | freezes b' =>
    refine ⟨hw, ?_, ?_, k.entries, k.descriptors⟩
    · simp only [Quad.get_set, k.frozen, ite_self]
    · dsimp only
      split
      · exact (Option.some_ne_none b).symm
      · exact k.shut
  | writes b' m c ds hb' hc =>
    have hne : b ≠ b' := fun e => k.shut (e ▸ hb')
    obtain ⟨_, hd, ho, hf⟩ := u.writeRun_frame b' m c ds hc k.wf
    refine ⟨hw, hf ▸ k.frozen, ho ▸ k.shut, fun m' c' => ?_, fun m' => ?_⟩
    · rw [u.readEntry_writeRun b' b m m' c ds c' hc k.wf, if_neg fun e => hne e.1]
      exact k.entries m' c'
    · rw [Tables.readDescriptor, hd]
      exact k.descriptors m'
  | describes b' m d hb' =>
    have hne : b ≠ b' := fun e => k.shut (e ▸ hb')
    refine ⟨hw, k.frozen, k.shut, k.entries, fun m' => ?_⟩
    rw [u.readDescriptor_writeDescriptor b' b m m' d k.wf, if_neg fun e => hne e.1]
    exact k.descriptors m'

theorem powerOn_tables (mode : LinkMode) (wcts : Bool) : (powerOn mode wcts).tables = Tables.initial :=
  powerOn_keeps (P := fun t => t.tables = Tables.initial) (fun _ _ _ h hs => h.lineWork.tables.trans hs)
    (fun _ _ _ h hs => h.tables.trans hs) mode wcts rfl

end Sys2Proof.Machine

open Sys2Proof Sys2Proof.Machine

/-- Settles O60: every event leaves table memory or does a bank request's work on it, which keeps the canonical form and
neither opens nor writes a frozen bank; only a power-on reset replaces the memory. -/
theorem everyStepKeepsFrozenBanks : Obligations.EveryStepKeepsFrozenBanks := by
  refine ⟨fun s t hs hstep => ?_, fun s t b hw hf ho hp hstep => ?_⟩
  · refine step_keeps (P := fun s => s.tables.wf = true) (fun mode wcts l => ?_) (fun s t h => h.tables.wf) hstep hs
    simp only [powerOn_tables, Tables.initial_wf]
  · rcases step_cases hstep with ⟨mode, wcts, rest, hr, _⟩ | he
    · exact absurd hr (hp mode wcts rest)
    · have k : StillFrozen b s.tables t.tables :=
        he.keeps (P := fun u => StillFrozen b s.tables u.tables) (fun _ _ h => h.tables.stillFrozen)
          ⟨hw, hf, ho, fun _ _ => rfl, fun _ => rfl⟩
      exact ⟨⟨k.frozen, k.entries, k.descriptors⟩, k.shut⟩

/-- Settles O9: the reply joins behind the records of the request's effect, which leaves the replies queued; a refusal has
no effect. -/
theorem requestsGetOneReplyAndRefusalsChangeNothing : Obligations.RequestsGetOneReplyAndRefusalsChangeNothing := by
  refine ⟨fun s t r hs hr hexec => ?_, fun s t r q k tag a hs hr hexec hq hno => ?_⟩
  · rw [exec_of_takes hs r hr] at hexec
    obtain rfl := Host.Outcome.next.inj hexec
    exact ⟨_, accept_repliesOf r s.received⟩
  · rw [exec_of_takes hs r hr] at hexec
    obtain rfl := Host.Outcome.next.inj hexec
    rcases carryOut_carried r s.received with ⟨hst, hsame⟩ | ⟨hst, heff⟩
    · have e := accept_replied r s.received (.inr hst)
      rw [hsame] at e
      have hlast : (OutRecord.reply r.kind r.tag (carryOut r s.received).2) = .reply k tag a := by
        rw [e] at hq
        exact List.append_inj_right' (s₁ := s.received.oq.queue) (s₂ := q) hq rfl |> List.singleton_inj.1
      cases hlast
      exact e
    · -- An accepted request ends its queue with its own reply or with STARTED, and that reply says OK.
      exfalso
      have hqueue := accept_queue r s.received
      rw [hq] at hqueue
      unfold startedRecords at hqueue
      split at hqueue
      · have := congrArg List.getLast? hqueue
        simp at this
      · have := congrArg List.getLast? hqueue
        simp only [List.getLast?_append, List.getLast?_singleton] at this
        simp at this
        obtain ⟨_, _, rfl⟩ := this
        exact hno hst

end

section
/-! SUPPORT. The frames that leave without an opening frame in the list, the loops of the resets in closed form, and the
state right after a power-on reset. -/

namespace Sys2Proof.Machine

open Sys2Proof

/-! ### The transmit list without a WAITING opening frame (R137) -/

/-- The line after it is asked for a frame: the frame waits behind one that is leaving, or the list begins to leave. -/
def CardLine.ask (f : TxFrame) (l : CardLine) : CardLine :=
  match l.txLeaving, l.txWaiting with
  | .some _, w => { l with txWaiting := w ++ [f] }
  | .none, [] => { l with txLeaving := .some f, txWaiting := [] }
  | .none, g :: rest => { l with txLeaving := .some g, txWaiting := rest ++ [f] }

/-- No opening frame waits, so the list goes on without the exchange record. -/
abbrev CardLine.noOpening (l : CardLine) : Prop := TxFrame.opening ∉ l.txWaiting

theorem State.onLine_onLine (p : Pos) (f g : CardLine → CardLine) (s : State) :
    (s.onLine p f).onLine p g = s.onLine p fun l => g (f l) := by simp [State.onLine]

/-- Updates of one line that agree on the line as it stands are the same. -/
theorem State.onLine_congr {p : Pos} {f g : CardLine → CardLine} {s : State}
    (h : f (s.line.get p) = g (s.line.get p)) : s.onLine p f = s.onLine p g := by
  simp only [State.onLine, PerPos.modify, h]

theorem beginNext_cons {p : Pos} {f : TxFrame} (rest : List TxFrame) (s : State) (hf : f ≠ .opening) :
    beginNext p (f :: rest) s = s.onLine p fun l => { l with txLeaving := .some f, txWaiting := rest } := by
  cases f with
  | opening => exact absurd rfl hf
  | hello | powerOn | powerOff | command _ | eject | askRepeat => rfl

/-- A frame asked for on a line with no WAITING opening frame ahead of it changes the transmit list alone. -/
theorem ask_eq {p : Pos} {f : TxFrame} {s : State} (hf : f ≠ .opening) (h : (s.line.get p).noOpening) :
    ask p f s = s.onLine p (CardLine.ask f) := by
  unfold ask pump
  rw [State.onLine_line, PerPos.get_modify_same]
  split
  · next g hg =>
    have hl : (s.line.get p).txLeaving = .some g := hg
    exact State.onLine_congr (by simp only [CardLine.ask, hl])
  · next hn =>
    have hl : (s.line.get p).txLeaving = .none := hn
    cases hw : (s.line.get p).txWaiting with
    | nil =>
      simp only [List.nil_append]
      rw [beginNext_cons [] _ hf, State.onLine_onLine]
      exact State.onLine_congr (by simp only [CardLine.ask, hl, hw])
    | cons g rest =>
      have hg : g ≠ .opening := fun e => h (by simp [hw, e])
      simp only [List.cons_append]
      rw [beginNext_cons _ _ hg, State.onLine_onLine]
      exact State.onLine_congr (by simp only [CardLine.ask, hl, hw])

/-- A frame asked for stands behind those that the line has. -/
theorem CardLine.ask_frames (f : TxFrame) (l : CardLine) : (l.ask f).frames = l.frames ++ [f] := by
  unfold CardLine.ask CardLine.frames
  split <;> simp_all

/-- Asking for a frame moves nothing but the transmit list. -/
theorem CardLine.ask_same (f : TxFrame) (l : CardLine) :
    ∃ t w, l.ask f = { l with txLeaving := t, txWaiting := w } := by
  unfold CardLine.ask
  split
  · exact ⟨l.txLeaving, _, rfl⟩
  · exact ⟨_, _, rfl⟩
  · exact ⟨_, _, rfl⟩

/-! ### Loops over the positions -/

/-- A loop that changes one line a round, on lines that meet a condition, changes each line of its list. -/
theorem foldl_onLine {C : CardLine → Prop} {f : State → Pos → State} {F : Pos → CardLine → CardLine} (s : State)
    (hf : ∀ L p, C (L.get p) → f { s with line := L } p = { s with line := L.modify p (F p) }) (l : List Pos)
    (hl : l.Nodup) (L : PerPos CardLine) (hC : ∀ p ∈ l, C (L.get p)) :
    ∃ M, l.foldl f { s with line := L } = { s with line := M } ∧
      ∀ q, M.get q = if q ∈ l then F q (L.get q) else L.get q := by
  induction l generalizing L with
  | nil => exact ⟨L, rfl, by simp⟩
  | cons p rest ih =>
    obtain ⟨hp, hr⟩ := List.nodup_cons.1 hl
    have hne : ∀ q ∈ rest, q ≠ p := fun q hq e => hp (e ▸ hq)
    obtain ⟨M, hM, hg⟩ := ih hr (L.modify p (F p)) fun q hq => by
      rw [PerPos.get_modify_ne _ _ (hne q hq)]
      exact hC q (List.mem_cons_of_mem p hq)
    refine ⟨M, by rw [List.foldl_cons, hf L p (hC p (by simp)), hM], fun q => ?_⟩
    rw [hg q, PerPos.get_modify]
    by_cases hq : q = p
    · simp [hq, hp]
    · simp [hq]

theorem allPositions_nodup : allPositions.Nodup := by decide

/-- The line of a position after a counter reset: POWER_OFF asked for if the card was powered, the default settings
tried (R141, R152). -/
def CardLine.resetLine (l : CardLine) : CardLine :=
  (if l.state.powered then l.counterReset.ask .powerOff else l.counterReset).settle false

theorem CardLine.counterReset_noOpening (l : CardLine) : l.counterReset.noOpening := by
  simp [CardLine.noOpening, CardLine.counterReset, CardLine.dropOpening]

/-- The card lines' part of a counter reset, line by line. -/
theorem counterReset_lines (s : State) :
    ∃ L, allPositions.foldl (lineAtReset s) s.counterResetValues = { s.counterResetValues with line := L } ∧
      ∀ p, L.get p = (s.line.get p).resetLine := by
  obtain ⟨M, hM, hg⟩ := foldl_onLine (C := CardLine.noOpening) (f := lineAtReset s)
    (F := fun p l => (if (s.line.get p).state.powered then l.ask .powerOff else l).settle false) s.counterResetValues
    (fun L p hC => by
      have hx : ∀ t : State, t.xs = PerPos.all .none → t.inFlight p = false := fun t ht => by simp [State.inFlight, ht]
      unfold lineAtReset settleLine
      split
      · next hp =>
        rw [ask_eq TxFrame.noConfusion hC, hx _ rfl, State.onLine_onLine]
        rfl
      · next hp =>
        rw [hx _ rfl]
        rfl)
    allPositions allPositions_nodup s.counterResetValues.line
    (fun p _ => by simpa [State.counterResetValues] using (s.line.get p).counterReset_noOpening)
  refine ⟨M, hM, fun p => ?_⟩
  rw [hg p, if_pos (mem_allPositions p)]
  simp [State.counterResetValues, CardLine.resetLine]

/-- A counter reset leaves the queue as its own rule says, with nothing behind it (R181). -/
theorem counterResetBlocks_oq (s : State) : (counterResetBlocks s).oq = s.oq.counterReset := by
  obtain ⟨L, hL, _⟩ := counterReset_lines s
  rw [counterResetBlocks, hL]
  refine foldl_keeps (P := fun t => t.oq = s.oq.counterReset) startAtReset
    (fun u g h => (startAtReset_visited u g).oq.trans h) allFour _ ?_
  rfl

/-! ### The power-on reset -/

/-- The part right after a power-on reset, block by block: what the loops of the reset come to. -/
theorem powerOn_eq (mode : LinkMode) (wcts : Bool) : powerOn mode wcts =
    { State.powerOnValues mode wcts with
      bus := Quad.all { Bus.initial with round := .inProgress 3, poll := .some Poll.firstPoll }
      intake := { Intake.initial with reserved := 20 }
      line := PerPos.all { CardLine.initial with txLeaving := .some .hello } } := by
  cases mode <;> cases wcts <;> rfl

theorem reset_eq_powerOn : State.reset = powerOn .uart false := (powerOn_eq .uart false).symm

/-- The state right after a power-on reset, whatever commands wait. -/
abbrev poweredState (mode : LinkMode) (wcts : Bool) (l : List Instr) : State :=
  { powerOn mode wcts with pending := l }

variable (mode : LinkMode) (wcts : Bool) (l : List Instr)

theorem poweredState_anyOwed : anyOwed (poweredState mode wcts l) = false := by
  rw [anyOwed_false_iff]
  simp [powerOn_eq, State.powerOnValues, OutQueue.empty]

theorem poweredState_poweredOn : PoweredOn mode wcts (poweredState mode wcts l) where
  timeCount := by simp [powerOn_eq, State.powerOnValues]
  link := by cases mode <;> simp [powerOn_eq, State.powerOnValues, Link.powerOn]
  queue := by simp [powerOn_eq, State.powerOnValues]
  reservation := by simp [powerOn_eq, State.powerOnValues, OutQueue.empty]
  owed := poweredState_anyOwed mode wcts l
  positions p := by simp [powerOn_eq, State.powerOnValues, PosRecord.initial]
  buses g := by simp [powerOn_eq, State.powerOnValues, Bus.initial, BusSettings.initial]
  polls g := by simp [powerOn_eq, State.powerOnValues, Poll.firstPoll, blankDisplay, space]
  addresses g a := by simp [powerOn_eq, State.powerOnValues, Bus.initial, AddrState.initial]
  intake := by
    rw [Intake.flagCount_eq_zero_iff]
    simp [powerOn_eq, State.powerOnValues, Intake.initial, (PendingFlags.eq_clear_iff _).1 rfl]
  entriesInitial b m c := by
    have h : (entryAddr b m c.val) / 64 % 8 = m.val := by simp only [entryAddr]; omega
    simp only [powerOn_eq, State.powerOnValues, Tables.readEntry, Tables.initial, sparseRead, initialEntry, h]
  descriptorsInitial b m := by
    simp [powerOn_eq, State.powerOnValues, Tables.readDescriptor, Tables.initial, sparseRead, initialDescriptor]
  banks := by simp [powerOn_eq, State.powerOnValues, Tables.initial]
  attention := by simp [powerOn_eq, State.powerOnValues, AttentionSlot.initial, Config.attentionWindow]
  entries p := by simp [powerOn_eq, State.powerOnValues]
  prompts p := by simp [powerOn_eq, State.powerOnValues, PromptUnit.initial, blankDisplay, space]
  lines p := by simp [powerOn_eq, State.powerOnValues, CardLine.initial, LineSettings.initial, Config.noReaderHello]
  exchanges p := by simp [powerOn_eq, State.powerOnValues]

/-- A part powered on meets every invariant. -/
theorem PoweredOn.inv {s : State} (h : PoweredOn mode wcts s) (ht : s.tables.wf = true) : Inv s where
  outbound := by
    refine ⟨?_, ?_, ?_, fun r hr => ?_⟩
    · simp [OutQueue.replies, h.queue]
    · simp [OutQueue.notices, h.queue, h.reservation]
    · simp [State.halted, h.attention, h.reservation]
    · rw [h.link] at hr; cases hr
  intake := by
    obtain ⟨he, hr, hf, _⟩ := h.intake
    have held : ∀ g, (s.bus.get g).held = 5 := fun g => by
      obtain ⟨q, hq, _, _, _, _, h5, _⟩ := h.polls g
      simp [Bus.held, hq, h5]
    refine ⟨by simp [Intake.occupied, he, hr], ?_, fun g q hq => ?_, by rw [hf]; exact fun h => absurd h (by decide)⟩
    · have h0 := held 0; have h1 := held 1; have h2 := held 2; have h3 := held 3
      simp only [Quad.get] at h0 h1 h2 h3
      rw [hr, heldPlaces, h0, h1, h2, h3]
    · obtain ⟨q', hq', _, _, _, _, h5, _, hd⟩ := h.polls g
      obtain rfl : q' = q := Option.some.inj (hq'.symm.trans hq)
      simp [h5, hd, (h.buses g).2.2.2.2.2.2]
  closed := fun p _ => by
    obtain ⟨he, _, hf, _⟩ := h.intake
    refine ⟨h.entries p, by rw [h.prompts], by rw [h.prompts], by rw [h.prompts], ?_, by simp [he], ?_⟩
    · exact (PendingFlags.eq_clear_iff _).2 ((Intake.flagCount_eq_zero_iff _).1 hf p)
    · simp [ownsAttention, h.attention]
  banks := fun b hb => by rw [h.banks.1] at hb; cases hb
  tables := ht
  entries := fun p e he => by rw [h.entries p] at he; cases he
  prompts := fun p => by
    rw [h.prompts p]
    simp [PromptUnit.ok, PromptUnit.fieldWidth, PromptUnit.current, PromptUnit.other]
  cards := fun p => by
    rw [CardOk, h.lines p, h.exchanges p]
    simp [State.inFlight, h.exchanges p]

theorem poweredState_inv : Inv (poweredState mode wcts l) := by
  refine (poweredState_poweredOn mode wcts l).inv mode wcts ?_
  simp only [powerOn_tables, Tables.initial_wf]

end Sys2Proof.Machine

open Sys2Proof Sys2Proof.Machine

/-- Settles O2: the reset state is the part powered on in UART mode with WCTS negated. -/
theorem resetStateIsPoweredOnAndSafe : Obligations.ResetStateIsPoweredOnAndSafe := by
  have e : State.reset = poweredState .uart false [] := by
    rw [reset_eq_powerOn, poweredState, powerOn_eq]; rfl
  unfold Obligations.ResetStateIsPoweredOnAndSafe
  rw [e]
  exact ⟨poweredState_poweredOn .uart false [], poweredState_inv .uart false []⟩

/-- Settles O3: the state after the command is the part powered on, with the commands that waited. -/
theorem powerOnResetRestoresEveryBlock : Obligations.PowerOnResetRestoresEveryBlock :=
  fun mode wcts s => ⟨_, rfl, poweredState_poweredOn mode wcts s.pending, poweredState_inv mode wcts s.pending, rfl⟩

end

section
/-! SUPPORT. The outbound queue over a step: its limits and the engine's reservation (R72, R176, R178). -/

namespace Sys2Proof.Machine

open Sys2Proof

/-- The part of the queue's invariant that speaks of notices: within the 64 slots with the reservation, which is 1 slot
exactly while an attention is outstanding. -/
def EngineOk (s : State) : Prop :=
  s.oq.notices + s.oq.reservation ≤ 64 ∧ s.oq.reservation = if s.halted then 1 else 0

/-- What keeps the queue's invariant: the replies, the record WAITING, the attention and the reservation stand, and the
notices stay within the limit. -/
structure QueueKept (s t : State) : Prop where
  replies : t.oq.replies = s.oq.replies
  rx : t.link.rx = s.link.rx
  record : t.attn.record = s.attn.record
  reservation : t.oq.reservation = s.oq.reservation
  limit : s.oq.notices + s.oq.reservation ≤ 64 → t.oq.notices + t.oq.reservation ≤ 64

variable {s t u : State} {p : Pos}

theorem QueueKept.trans (h : QueueKept s t) (k : QueueKept t u) : QueueKept s u :=
  ⟨k.replies.trans h.replies, k.rx.trans h.rx, k.record.trans h.record, k.reservation.trans h.reservation,
    fun hs => k.limit (h.limit hs)⟩

theorem QueueKept.of_same (ho : t.oq = s.oq) (hl : t.link = s.link) (ha : t.attn.record = s.attn.record) :
    QueueKept s t := ⟨by rw [ho], by rw [hl], ha, by rw [ho], by rw [ho]; exact id⟩

theorem Polled.queueKept (h : Polled s t) : QueueKept s t := by
  refine ⟨?_, by rw [h.link], by rw [h.attn], h.reservation, h.limit⟩
  have hr := congrArg List.length h.queued.replies
  rwa [← List.countP_eq_length_filter, ← List.countP_eq_length_filter] at hr

theorem LineWork.queueKept (h : LineWork p s t) : QueueKept s t :=
  ⟨h.replies, by rw [h.link], by rw [h.attn], h.reservation, h.limit⟩

theorem Served.queueKept (h : Served s t) : QueueKept s t := (h.lineWork 0).queueKept

theorem QueueKept.halted (h : QueueKept s t) : t.halted = s.halted := by rw [State.halted, h.record]; rfl

theorem QueueKept.engineOk (h : QueueKept s t) (hs : EngineOk s) : EngineOk t :=
  ⟨h.limit hs.1, by rw [h.reservation, hs.2, h.halted]⟩

theorem QueueKept.outboundOk (h : QueueKept s t) (hs : OutboundOk s) : OutboundOk t := by
  obtain ⟨hr, hl, he, hw⟩ := hs
  refine ⟨by rw [h.replies]; exact hr, h.limit hl, by rw [h.reservation, he, h.halted], fun r hrx => ?_⟩
  rw [h.replies]
  exact hw r (by rw [← h.rx]; exact hrx)

/-! ### The ends of an attention -/

/-- A state with no attention and no reservation, whose notices are within the limit. -/
theorem EngineOk.of_idle (hn : t.oq.notices ≤ 64) (hr : t.oq.reservation = 0) (ha : t.attn.record = .none) :
    EngineOk t := ⟨by omega, by simp [State.halted, ha, hr]⟩

/-- A release of the reservation with no attention outstanding (R178). -/
theorem releaseReservation_engineOk (hn : s.oq.notices ≤ 64) (ha : s.attn.record = .none) :
    EngineOk (releaseReservation s) := by
  have h := releaseReservation_served s
  refine h.queueKept.engineOk (.of_idle hn rfl ha)

theorem postApplied_reserved (n : Option AppNotice) (s : State) (h : s.oq.notices + 1 ≤ 64) :
    (postApplied n s).oq.notices ≤ 64 ∧ (postApplied n s).attn = s.attn := by
  cases n with
  | none => exact ⟨by simp only [postApplied]; omega, rfl⟩
  | some n =>
    refine ⟨?_, rfl⟩
    simp only [postApplied, OutQueue.notices, postReserved_oq, countP_append_one, isReply_notice] at h ⊢
    simpa using h

theorem resolve_engineOk (a : Attention) (d : Disposition) (ha : s.attn.record = .some a) (hs : EngineOk s) :
    EngineOk (resolve a d s).1 := by
  obtain ⟨hl, hr⟩ := hs
  have hr1 : s.oq.reservation = 1 := by simpa [State.halted, ha] using hr
  have happ := applyDisposition_application a.pos a.code d s
  have hn : (dropAttention (applyDisposition a.pos a.code d s).1).oq.notices + 1 ≤ 64 := by
    have e : (dropAttention (applyDisposition a.pos a.code d s).1).oq = s.oq := happ.oq
    rw [e]
    omega
  obtain ⟨h1, h2⟩ := postApplied_reserved (applyDisposition a.pos a.code d s).2.notice _ hn
  rw [resolve_fst]
  exact releaseReservation_engineOk h1 (by rw [h2]; rfl)

theorem voidAttention_engineOk (p : Pos) (hs : EngineOk s) : EngineOk (voidAttention p s) := by
  rcases voidAttention_cases p s with ⟨_, h⟩ | ⟨_, h⟩
  · rw [h]; exact hs
  · rw [h]
    refine releaseReservation_engineOk (s := dropAttention s) ?_ rfl
    have hl := hs.1
    have e : (dropAttention s).oq = s.oq := rfl
    rw [e]
    omega

theorem EngineOk.congr (ho : t.oq = s.oq) (ha : t.attn = s.attn) (hs : EngineOk s) : EngineOk t := by
  unfold EngineOk State.halted at hs ⊢
  rw [ho, ha]
  exact hs

theorem closeWork_engineOk (p : Pos) (hs : EngineOk s) : EngineOk (closeWork p s) := by
  have h : EngineOk (((s.putEntry p .none).onPu p PromptUnit.close).onIntake (Intake.voidPosition p)) :=
    hs.congr rfl rfl
  exact (voidAttention_engineOk p h).congr rfl rfl

theorem resetWork_engineOk (p : Pos) (hs : EngineOk s) : EngineOk (resetWork p s) := by
  have h : EngineOk (closeWork p (removeExchange p s)) := closeWork_engineOk p (s := removeExchange p s) (hs.congr rfl rfl)
  unfold resetWork
  generalize closeWork p (removeExchange p s) = v at h
  split
  · exact ((powerOffCard_lineWork p v).queueKept.engineOk h).congr (State.onPos_oq _ _ _) (State.onPos_attn _ _ _)
  · exact h.congr rfl rfl

/-! ### The requests -/

/-- At most the notice being sent outlives a counter reset (R181). -/
theorem OutQueue.counterReset_notices (q : OutQueue) : q.counterReset.notices ≤ 1 := by
  have hf : ∀ l : List OutRecord, (l.filter OutRecord.isReply).countP (fun r => !r.isReply) = 0 := by
    intro l
    simp [List.countP_eq_zero]
  unfold OutQueue.notices OutQueue.counterReset
  dsimp only
  split
  · exact Nat.zero_le 1
  · next r rest _ =>
    split
    · rw [List.countP_cons, hf]; split <;> omega
    · rw [hf]; exact Nat.zero_le 1

theorem counterResetBlocks_attn (s : State) : (counterResetBlocks s).attn = s.attn.counterReset :=
  counterReset_keeps (P := fun t => t.attn = s.attn.counterReset) (fun _ _ _ h hu => h.lineWork.attn.trans hu)
    (fun _ _ _ h hu => h.attn.trans hu) s rfl

theorem counterResetBlocks_link (s : State) :
    (counterResetBlocks s).link = { s.link with armed := false, errors := 0 } :=
  counterReset_keeps (P := fun t => t.link = { s.link with armed := false, errors := 0 })
    (fun _ _ _ h hu => h.lineWork.link.trans hu) (fun _ _ _ h hu => h.link.trans hu) s rfl

theorem counterResetBlocks_engineOk (s : State) : EngineOk (counterResetBlocks s) := by
  have hn := s.oq.counterReset_notices
  refine .of_idle ?_ ?_ ?_
  · rw [counterResetBlocks_oq]; omega
  · rw [counterResetBlocks_oq]; rfl
  · rw [counterResetBlocks_attn]; rfl

theorem Effect.engineOk {k : ReqKind} (h : Effect s k t) (hs : EngineOk s) : EngineOk t := by
  cases h with
  | closePosition p => exact closeWork_engineOk p hs
  | closeReady p => exact (powerOffCard_lineWork p _).queueKept.engineOk (closeWork_engineOk p hs)
  | resetPosition p => exact resetWork_engineOk p hs
  | attend a d ha => exact resolve_engineOk a d ha hs
  | cardLineSet g ps =>
    exact setPending_fold_steps ps _ (P := EngineOk) (fun p u t h => h.lineWork.queueKept.engineOk) s hs
  | cardPower p | cardExchange p | cardPresent p =>
    exact (startExchange_lineWork p _ _ _ s).queueKept.engineOk hs
  | cardRelease p =>
    exact ((onLine_lineWork p _ s).trans (startExchange_lineWork p _ _ _ _)).queueKept.engineOk hs
  | cardAbort p x => exact (abortExchange_lineWork p x s).queueKept.engineOk hs
  | counterReset => exact counterResetBlocks_engineOk s
  | read | openPosition | setMode | busSet | bankOpen | bankClose | bankFreeze | tableWrite | modeSet | attentionSet
  | collect | collectStop | entryWipe | prompt | promptClear | beep | linkRate | resetArm => exact hs.congr rfl rfl

@[simp] theorem voidAttention_link (p : Pos) (s : State) : (voidAttention p s).link = s.link := by
  rcases voidAttention_cases p s with ⟨_, h⟩ | ⟨_, h⟩
  · rw [h]
  · rw [h, releaseReservation_link]; rfl

theorem closeWork_link (p : Pos) (s : State) : (closeWork p s).link = s.link := by simp [closeWork]

theorem resetWork_link (p : Pos) (s : State) : (resetWork p s).link = s.link := by
  have h : (closeWork p (removeExchange p s)).link = s.link := closeWork_link p _
  unfold resetWork
  generalize closeWork p (removeExchange p s) = v at h
  split
  · rw [State.onPos_link]; exact (powerOffCard_lineWork p v).link.trans h
  · exact h

theorem postApplied_link (n : Option AppNotice) (s : State) : (postApplied n s).link = s.link := by cases n <;> rfl

theorem resolve_link (a : Attention) (d : Disposition) (s : State) : (resolve a d s).1.link = s.link := by
  rw [resolve_fst, releaseReservation_link, postApplied_link]
  exact (applyDisposition_application a.pos a.code d s).link

/-- A request's effect leaves the receiver alone. -/
theorem Effect.rx {k : ReqKind} (h : Effect s k t) : t.link.rx = s.link.rx := by
  cases h with
  | closePosition p => rw [closeWork_link]
  | closeReady p => rw [(powerOffCard_lineWork p _).link, closeWork_link]
  | resetPosition p => rw [resetWork_link]
  | attend a d ha => rw [resolve_link]
  | cardLineSet g ps =>
    exact congrArg Link.rx (setPending_fold_steps ps _ (P := fun t => t.link = s.link)
      (fun p u t h hu => h.lineWork.link.trans hu) s rfl)
  | cardPower p | cardExchange p | cardPresent p => rw [(startExchange_lineWork p _ _ _ s).link]
  | cardRelease p => rw [((onLine_lineWork p _ s).trans (startExchange_lineWork p _ _ _ _)).link]
  | cardAbort p x => rw [(abortExchange_lineWork p x s).link]
  | counterReset => rw [counterResetBlocks_link]
  | read | openPosition | setMode | busSet | bankOpen | bankClose | bankFreeze | tableWrite | modeSet | attentionSet
  | collect | collectStop | entryWipe | prompt | promptClear | beep | linkRate | resetArm => rfl

theorem Effect.counterReset_eq (h : Effect s .counterReset t) : t = counterResetBlocks s := by
  cases h with
  | read hk => cases hk
  | counterReset => rfl

/-- The STARTED behind a counter reset's reply finds a slot (R176, R181). -/
theorem carryOut_started (r : Request) (s : State)
    (h : r.kind = .counterReset ∧ (carryOut r s).2.status = .ok) : (carryOut r s).1.oq.notices ≤ 1 := by
  rcases carryOut_carried r s with ⟨hn, _⟩ | ⟨_, he⟩
  · exact absurd h.2 hn
  · rw [h.1] at he
    rw [he.counterReset_eq, counterResetBlocks_oq]
    exact s.oq.counterReset_notices

/-- An acceptance with a place for its reply keeps the queue's invariant (R174, R176). -/
theorem accept_outboundOk (r : Request) (hr : s.oq.replies < 8) (hw : ∀ w, s.link.rx ≠ .waiting w) (hs : EngineOk s) :
    OutboundOk (accept r s) := by
  have hc : EngineOk (carryOut r s).1 ∧ (carryOut r s).1.link.rx = s.link.rx := by
    rcases carryOut_carried r s with ⟨_, h⟩ | ⟨_, h⟩
    · rw [h]; exact ⟨hs, rfl⟩
    · exact ⟨h.engineOk hs, h.rx⟩
  obtain ⟨⟨hl, he⟩, hrx⟩ := hc
  have hrep : (accept r s).oq.replies = s.oq.replies + 1 := by
    simp only [OutQueue.replies, List.countP_eq_length_filter]
    have := congrArg List.length (accept_repliesOf r s)
    simpa using this
  have hres := accept_reservation r s
  have hhalt : (accept r s).halted = (carryOut r s).1.halted := by simp [State.halted]
  refine ⟨by omega, ?_, by rw [hres, hhalt, he], fun w hrxw => ?_⟩
  · rw [hres]
    have hn : (accept r s).oq.notices = (carryOut r s).1.oq.notices +
        (startedRecords r.kind (carryOut r s).2 (carryOut r s).1.link.mode).length := by
      simp only [OutQueue.notices, accept_queue, List.countP_append, List.countP_cons, isReply_reply, startedRecords]
      split <;> simp
    rw [hn]
    unfold startedRecords
    split
    · next h =>
      have h1 := carryOut_started r s h
      have h2 : (carryOut r s).1.oq.reservation ≤ 1 := by rw [he]; split <;> omega
      simp only [List.length_singleton]
      omega
    · simpa using hl
  · rw [accept_link] at hrxw
    exact absurd (hrx.symm.trans hrxw) (hw w)

/-! ### The events -/

theorem LineEvent.queueKept (h : LineEvent p s t) : QueueKept s t := by
  obtain ⟨v, l, hv, rfl | rfl⟩ := h.lineWork
  · exact hv.lineWork.queueKept
  · have ha := foldl_chain Polled.refl (fun _ _ _ => Polled.trans) (fun w k => admitSynth p k w)
      (fun w k => admitSynth_polled p k w) l v
    exact hv.lineWork.queueKept.trans (ha.trans (judgePressure_polled s _)).queueKept

theorem grantable_iff : grantable s = true ↔ anyOwed s = false ∧ 2 ≤ s.oq.freeSlots := by
  rw [grantable, Bool.and_eq_true, Bool.not_eq_true', decide_eq_true_iff]; rfl

/-- The processing of an entry under the 2 slots just granted (R73, R178). -/
theorem processEntry_engineOk (e : IntakeEntry) (hn : s.oq.notices + 2 ≤ 64) (hr : s.oq.reservation = 2)
    (ha : s.attn.record = .none) : EngineOk (processEntry e s) := by
  unfold processEntry
  split
  · exact releaseReservation_engineOk (by omega) ha
  · dsimp only
    split
    · refine ⟨?_, ?_⟩
      · simp only [raiseAttention, postReserved_oq, OutQueue.notices, State.onAttn_oq, countP_append_one, hr]
        simp only [OutQueue.notices] at hn
        simp
        omega
      · simp [raiseAttention, State.halted, postReserved, hr]
    · have happ := applyDisposition_application e.pos e.code
        (s.tables.readEntry (s.pos.get e.pos).bank (s.pos.get e.pos).mode e.code) s
      obtain ⟨h1, h2⟩ := postApplied_reserved (applyDisposition e.pos e.code
        (s.tables.readEntry (s.pos.get e.pos).bank (s.pos.get e.pos).mode e.code) s).2.notice _
        (by rw [happ.oq]; omega)
      exact releaseReservation_engineOk h1 (by rw [h2, happ.attn]; exact ha)

theorem releaseReservation_replies (s : State) : (releaseReservation s).oq.replies = s.oq.replies :=
  (releaseReservation_served s).replies

theorem postReserved_replies (n : Notice) (s : State) : (postReserved n s).oq.replies = s.oq.replies := by
  simp [OutQueue.replies]

theorem postApplied_replies (n : Option AppNotice) (s : State) : (postApplied n s).oq.replies = s.oq.replies := by
  cases n with
  | none => rfl
  | some n => exact postReserved_replies _ s

theorem processEntry_replies (e : IntakeEntry) (s : State) : (processEntry e s).oq.replies = s.oq.replies := by
  unfold processEntry
  split
  · exact releaseReservation_replies s
  · dsimp only
    split
    · exact postReserved_replies _ _
    · rw [releaseReservation_replies, postApplied_replies, (applyDisposition_application _ _ _ s).oq]

theorem processEntry_link (e : IntakeEntry) (s : State) : (processEntry e s).link = s.link := by
  unfold processEntry
  split
  · exact releaseReservation_link s
  · dsimp only
    split
    · rfl
    · rw [releaseReservation_link, postApplied_link, (applyDisposition_application _ _ _ s).link]

theorem Event.outboundOk (h : Event s t) (hs : OutboundOk s) : OutboundOk t := by
  obtain ⟨hr, hl, he, hw⟩ := hs
  have engine : EngineOk s := ⟨hl, he⟩
  cases h with
  | pending l => exact ⟨hr, hl, he, hw⟩
  | link l hl' => exact ⟨hr, hl, he, fun r hrx => hw r (hl' r hrx)⟩
  | hold r h8 => exact ⟨hr, hl, he, fun _ _ => Nat.le_antisymm hr h8⟩
  | transfer b => exact ⟨hr, hl, he, hw⟩
  | accept r h8 hrx => exact accept_outboundOk r h8 hrx engine
  | noticeLeaves n rest b hq =>
    have hv : OutboundOk (s.onOq fun q => { q with queue := rest, begun := b }) := by
      have hrep : (s.onOq fun q => { q with queue := rest, begun := b }).oq.replies = s.oq.replies := by
        simp [OutQueue.replies, hq]
      have hnot : (s.onOq fun q => { q with queue := rest, begun := b }).oq.notices + 1 = s.oq.notices := by
        simp [OutQueue.notices, hq]
      refine ⟨by rw [hrep]; exact hr, ?_, he, fun w hrx => by rw [hrep]; exact hw w hrx⟩
      simp only [State.onOq_oq] at hnot ⊢
      omega
    exact (serveOwed_served _).queueKept.outboundOk hv
  | replyLeaves r rest b l hrep hq hl' =>
    have h1 : (s.onOq fun q => { q with queue := rest, begun := b }).oq.replies + 1 = s.oq.replies := by
      simp [OutQueue.replies, hq, hrep]
    have h2 : (s.onOq fun q => { q with queue := rest, begun := b }).oq.notices = s.oq.notices := by
      simp [OutQueue.notices, hq, hrep]
    refine ⟨?_, ?_, he, fun w hrx => absurd hrx (hl' w)⟩
    · rw [State.onLink_oq]; omega
    · rw [State.onLink_oq, h2]; exact hl
  | replyLeavesWaiting r rest b l w hrep hq hl' hwait =>
    have h1 : (s.onOq fun q => { q with queue := rest, begun := b }).oq.replies + 1 = s.oq.replies := by
      simp [OutQueue.replies, hq, hrep]
    have h2 : (s.onOq fun q => { q with queue := rest, begun := b }).oq.notices = s.oq.notices := by
      simp [OutQueue.notices, hq, hrep]
    refine accept_outboundOk w ?_ (fun v hv => ?_) ⟨?_, he⟩
    · rw [State.onLink_oq]; omega
    · simp only [State.onLink_link, hl'] at hv; cases hv
    · rw [State.onLink_oq, h2]; exact hl
  | roundStarts g n => exact (Event.roundStarts_polled g n s).queueKept.outboundOk ⟨hr, hl, he, hw⟩
  | roundDue | window | tick => exact ⟨hr, hl, he, hw⟩
  | replyEnds g q phase r =>
    exact ((replyEnds_polled g q r s).trans (judgePressure_polled s _)).queueKept.outboundOk ⟨hr, hl, he, hw⟩
  | windowEnds g q =>
    exact ((windowEnds_polled g q s).trans (judgePressure_polled s _)).queueKept.outboundOk ⟨hr, hl, he, hw⟩
  | withdraw e rest _ hh hg =>
    refine (judgePressure_polled s _).queueKept.outboundOk ?_
    have hfree := (grantable_iff.1 hg).2
    have hrec : s.attn.record = .none := by simpa [State.halted] using hh
    have hres : s.oq.reservation = 0 := by simpa [hh] using he
    simp only [OutQueue.freeSlots, Config.noticeLimit] at hfree
    unfold Machine.withdraw
    have hok := processEntry_engineOk e
      (s := (s.onOq fun q => { q with reservation := q.reservation + Config.engineSlots }).onIntake fun f =>
        Intake.serveFlags { f with entries := rest })
      (by simp only [State.onIntake_oq, State.onOq_oq, OutQueue.notices] at hfree ⊢; omega)
      (by simp [hres, Config.engineSlots]) hrec
    refine ⟨?_, hok.1, hok.2, fun w hrx => ?_⟩
    · rw [processEntry_replies]; exact hr
    · rw [processEntry_link] at hrx
      rw [processEntry_replies]
      exact hw w hrx
  | lapse a ha =>
    have hres : s.oq.reservation = 1 := by simpa [State.halted, ha] using he
    have happ := applyDisposition_application a.pos a.code a.held s
    have hoq : (dropAttention (applyDisposition a.pos a.code a.held s).1).oq = s.oq := happ.oq
    have hlink : (dropAttention (applyDisposition a.pos a.code a.held s).1).link = s.link := happ.link
    have hattn : (dropAttention (applyDisposition a.pos a.code a.held s).1).attn.record = .none := rfl
    generalize dropAttention (applyDisposition a.pos a.code a.held s).1 = v at hoq hlink hattn ⊢
    generalize Notice.attentionLapsed a.number a.pos _ _ _ _ _ = n
    have hok := releaseReservation_engineOk (s := postReserved n v)
      (by
        simp only [OutQueue.notices, postReserved_oq, countP_append_one, hoq, isReply_notice] at hl ⊢
        simp
        omega)
      hattn
    refine ⟨?_, hok.1, hok.2, fun w hrx => ?_⟩
    · rw [releaseReservation_replies, postReserved_replies, hoq]; exact hr
    · rw [releaseReservation_link] at hrx
      rw [releaseReservation_replies, postReserved_replies, hoq]
      exact hw w (by rw [← hlink]; exact hrx)
  | interkey p e he' =>
    have hk : QueueKept s (s.putEntry p (.some { e with interkeyTimer := .stopped })) := .of_same rfl rfl rfl
    exact (hk.trans ((admitSynth_polled p _ _).trans (judgePressure_polled s _)).queueKept).outboundOk ⟨hr, hl, he, hw⟩
  | total p e mode he' =>
    have hk : QueueKept s ((s.putEntry p .none).onPos p fun r => { r with mode := mode }) := .of_same rfl rfl rfl
    exact (hk.trans (postExpired_served p _ _ mode _).queueKept).outboundOk ⟨hr, hl, he, hw⟩
  | holdExpires p hd =>
    have hk : QueueKept s (Machine.holdExpires p s) := by
      unfold Machine.holdExpires
      split
      · exact .of_same rfl rfl rfl
      · have hk : QueueKept s (s.onPu p fun u => { u with holdTimer := .stopped, phase := .ended }) :=
          .of_same rfl rfl rfl
        exact hk.trans (admitSynth_polled p _ _).queueKept
    exact (hk.trans (judgePressure_polled s _).queueKept).outboundOk ⟨hr, hl, he, hw⟩
  | line p _ h => exact h.queueKept.outboundOk ⟨hr, hl, he, hw⟩

end Sys2Proof.Machine

open Sys2Proof Sys2Proof.Machine

/-- Settles O55: a reply joins only below 8, a notice only from a free slot or from the reservation, and the reservation
goes with the attention. -/
theorem everyStepKeepsTheQueueLimits : Obligations.EveryStepKeepsTheQueueLimits :=
  fun _ _ hs hstep => step_keeps (P := OutboundOk) (fun mode wcts l => (poweredState_inv mode wcts l).outbound)
    (fun _ _ h => h.outboundOk) hstep hs

end

section
/-! SUPPORT. Entries and prompt units over a step: what every event but COLLECT and PROMPT keeps of them, and what those two
write (R103 to R109, R124 to R133). -/

namespace Sys2Proof.Machine

open Sys2Proof

/-! ### Entries -/

/-- An entry, if there is one, within its limits. -/
abbrev OkEntry (o : Option Entry) : Prop := ∀ e, o = .some e → e.ok

/-- What every event but a COLLECT keeps of an entry: it is not begun, and it stays within its limits. -/
structure EntryKept (e f : Option Entry) : Prop where
  absent : e = .none → f = .none
  ok : OkEntry e → OkEntry f

theorem EntryKept.refl (e : Option Entry) : EntryKept e e := ⟨id, id⟩

theorem EntryKept.trans {e f g : Option Entry} (h : EntryKept e f) (k : EntryKept f g) : EntryKept e g :=
  ⟨fun he => k.absent (h.absent he), fun he => k.ok (h.ok he)⟩

theorem EntryKept.none (e : Option Entry) : EntryKept e .none := ⟨fun _ => rfl, fun _ _ h => nomatch h⟩

/-- An update that keeps the entry's limits. -/
theorem EntryKept.map (e : Option Entry) (f : Entry → Entry) (hf : ∀ x, x.ok → (f x).ok) : EntryKept e (e.map f) := by
  refine ⟨fun h => by rw [h]; rfl, fun h x hx => ?_⟩
  obtain ⟨y, hy, rfl⟩ := Option.map_eq_some_iff.1 hx
  exact hf y (h y hy)

theorem EntryRan.kept {e f : Option Entry} (h : EntryRan e f) : EntryKept e f := by
  obtain ⟨t, rfl⟩ := h
  exact .map e _ fun _ hx => hx

theorem EntryAfter.kept {e f : Option Entry} (h : EntryAfter e f) : EntryKept e f := by
  rcases h with rfl | rfl | rfl
  · exact .refl f
  · exact .none e
  · exact .map e _ fun _ hx => hx

theorem Entry.tick_kept (o : Option Entry) : EntryKept o (o.map Entry.tick) := .map o _ fun _ hx => hx

/-- HOLD keeps an entry's limits: at the max length under policy COMPLETE the entry completes (R109). -/
theorem Entry.hold_ok (c : Code) (sec : Bool) {e : Entry} (h : e.ok) : (e.hold c sec).1.ok := by
  obtain ⟨hlen, h1, h16, hmin, hpol⟩ := h
  unfold Entry.hold
  dsimp only
  split
  · next hlt =>
    have hl : (e.buffer ++ [c]).length = e.buffer.length + 1 := by simp
    split
    · split
      · next hp => exact ⟨by simp only [hl]; omega, h1, h16, hmin, fun e' => by rw [hp] at e'; cases e'⟩
      · next hp => exact ⟨by simp only [hl]; omega, h1, h16, hmin, fun e' => by rw [hp] at e'; cases e'⟩
      · exact ⟨by simp only [Entry.completed, hl]; omega, h1, h16, hmin, fun _ hs => by cases hs⟩
    · next hnf =>
      refine ⟨by simp only [hl]; omega, h1, h16, hmin, fun hp hs => ?_⟩
      have hff := (hpol hp hs).1
      have hne : (e.buffer ++ [c]).length ≠ e.maxLength := fun hf => hnf ⟨hf, hff⟩
      exact ⟨hff, by simp only [hl] at hne ⊢; omega⟩
  · next hge =>
    split
    · exact ⟨hlen, h1, h16, hmin, hpol⟩
    · next hp =>
      refine ⟨?_, h1, h16, hmin, fun e' => by rw [hp] at e'; cases e'⟩
      simp only [List.length_append, List.length_drop, List.length_singleton]
      omega
    · exact ⟨hlen, h1, h16, hmin, hpol⟩

theorem Entry.complete_ok {e : Entry} (h : e.ok) : e.complete.1.ok := by
  unfold Entry.complete
  split
  · exact ⟨h.1, h.2.1, h.2.2.1, h.2.2.2.1, fun _ hs => by cases hs⟩
  · exact h

theorem Entry.erase_ok {e : Entry} (h : e.ok) : Entry.ok { e with buffer := e.buffer.dropLast } := by
  obtain ⟨hlen, h1, h16, hmin, hpol⟩ := h
  have hl : e.buffer.dropLast.length ≤ e.buffer.length := by simp
  exact ⟨by simp only; omega, h1, h16, hmin, fun hp hs => ⟨(hpol hp hs).1, by
    have := (hpol hp hs).2; simp only; omega⟩⟩

theorem Entry.clear_ok {e : Entry} (h : e.ok) : Entry.ok { e with buffer := [], fullReached := false } := by
  obtain ⟨_, h1, h16, hmin, _⟩ := h
  exact ⟨Nat.zero_le _, h1, h16, hmin, fun _ _ => ⟨rfl, h1⟩⟩

theorem putEntry_some_kept {s : State} {p : Pos} {e f : Entry} (he : s.entry.get p = .some e) (hf : e.ok → f.ok) :
    EntryKept (s.entry.get p) ((s.putEntry p (.some f)).entry.get p) := by
  rw [State.putEntry_entry, PerPos.get_set_same, he]
  exact ⟨(fun h => nomatch h), fun h x hx => Option.some.inj hx ▸ hf (h e rfl)⟩

/-- The action step keeps an entry's limits and begins none (R81). -/
theorem entryAction_kept (p : Pos) (c : Code) (sec : Bool) (a : Action) (s : State) :
    EntryKept (s.entry.get p) ((entryAction p c sec a s).1.entry.get p) := by
  have same : EntryKept (s.entry.get p) (s.entry.get p) := .refl _
  cases a with
  | discard | forward => exact same
  | cancel =>
    simp only [entryAction]
    split
    · simpa using EntryKept.none (s.entry.get p)
    · exact same
  | hold =>
    simp only [entryAction]
    split
    · next e he =>
      split
      · exact putEntry_some_kept he (Entry.hold_ok c sec)
      · exact same
    · exact same
  | eraseLast =>
    simp only [entryAction]
    split
    · next e he =>
      split
      · exact putEntry_some_kept he Entry.erase_ok
      · exact same
    · exact same
  | clearEntry =>
    simp only [entryAction]
    split
    · next e he =>
      split
      · exact putEntry_some_kept he Entry.clear_ok
      · exact same
    · exact same
  | complete =>
    simp only [entryAction]
    split
    · next e he =>
      split
      · exact putEntry_some_kept he Entry.complete_ok
      · exact same
    · exact same

/-- The entry that a COLLECT begins is within its limits (R106). -/
theorem newEntry_ok (secret : Bool) (mn mx : Nat) (policy : FullPolicy) (fm em : Option Mode) (ik : Option Nat)
    (total : Nat) (now : BitVec 32) : (newEntry secret mn mx policy fm em ik total now).ok := by
  have hc : 1 ≤ storedMax mx ∧ storedMax mx ≤ 16 := by
    unfold storedMax clamp
    split
    · omega
    · split <;> omega
  exact ⟨Nat.zero_le _, hc.1, hc.2, Nat.min_le_right _ _, fun _ _ => ⟨rfl, hc.1⟩⟩

/-! ### Prompt units -/

/-- Nothing to show and no hold running, as at a CLOSED position. -/
abbrev PromptUnit.bare (u : PromptUnit) : Prop := u.slotA = .none ∧ u.slotB = .none ∧ u.holdTimer = .stopped

/-- What every event but a PROMPT keeps of a prompt unit. -/
structure PromptKept (u v : PromptUnit) : Prop where
  bare : u.bare → v.bare
  ok : u.ok → v.ok

theorem PromptKept.refl (u : PromptUnit) : PromptKept u u := ⟨id, id⟩

theorem PromptKept.trans {u v w : PromptUnit} (h : PromptKept u v) (k : PromptKept v w) : PromptKept u w :=
  ⟨fun hu => k.bare (h.bare hu), fun hu => k.ok (h.ok hu)⟩

theorem PromptUnit.current_of_bare {u : PromptUnit} (h : u.bare) : u.current = .none := by
  unfold PromptUnit.current
  split
  · exact h.1
  · exact h.2.1

theorem PromptUnit.current_ok {u : PromptUnit} (h : u.ok) {pr : Prompt} (hc : u.current = .some pr) : pr.ok := by
  obtain ⟨_, _, ha, hb, _⟩ := h
  unfold PromptUnit.current at hc
  split at hc
  · exact ha pr hc
  · exact hb pr hc

theorem EchoField.end_le {f : EchoField} (h : f.ok) : f.base + f.width ≤ 32 := by
  obtain ⟨h1, _, h3⟩ := h
  simp only [EchoField.base]
  omega

theorem PromptUnit.fieldWidth_eq {u : PromptUnit} {pr : Prompt} {f : EchoField} (hc : u.current = .some pr)
    (hf : pr.field = .some f) : u.fieldWidth = f.width := by
  simp [PromptUnit.fieldWidth, hc, hf]

/-- A unit with another content and cursor, and what an echo leaves of the rest. -/
theorem PromptUnit.ok_of_display {u v : PromptUnit} (h : u.ok) (ha : v.slotA = u.slotA) (hb : v.slotB = u.slotB)
    (hs : v.currentSlot = u.currentSlot) (hp : v.phase = u.phase) (ht : v.holdTimer = u.holdTimer)
    (hl : v.content.length = 32) (hc : v.cursor ≤ u.fieldWidth) : v.ok := by
  obtain ⟨_, _, oka, okb, hother, hended, hhold⟩ := h
  have hcur : v.current = u.current := by simp only [PromptUnit.current, ha, hb, hs]
  have hoth : v.other = u.other := by simp only [PromptUnit.other, ha, hb, hs]
  refine ⟨hl, ?_, by rwa [ha], by rwa [hb], by rwa [hcur, hoth], by rwa [hp, hoth], by rwa [ht, hcur, hp]⟩
  simp only [PromptUnit.fieldWidth, hcur] at hc ⊢
  exact hc

theorem PromptUnit.bare_of_display {u v : PromptUnit} (ha : v.slotA = u.slotA) (hb : v.slotB = u.slotB)
    (ht : v.holdTimer = u.holdTimer) (h : u.bare) : v.bare := by
  rw [PromptUnit.bare, ha, hb, ht]
  exact h

theorem PromptHeard.kept {u v : PromptUnit} (h : PromptHeard u v) : PromptKept u v where
  bare := fun hu => by
    rcases h.hold with ⟨_, ht⟩ | ⟨_, pr, hc, _⟩
    · exact PromptUnit.bare_of_display h.slotA h.slotB ht hu
    · rw [PromptUnit.current_of_bare hu] at hc; cases hc
  ok := fun hu => by
    have hu' := hu
    obtain ⟨hl, hcur, oka, okb, hother, hended, hhold⟩ := hu'
    rcases h.hold with ⟨hp, ht⟩ | ⟨hn, pr, hc, hs⟩
    · exact PromptUnit.ok_of_display hu h.slotA h.slotB h.currentSlot hp ht (by rw [h.content, hl])
        (by rw [h.cursor]; exact hcur)
    · have hstop : u.holdTimer = .stopped := by
        by_contra ht
        rw [hn] at hhold
        exact absurd (hhold ht).2 HoldPhase.noConfusion
      refine ⟨by rw [h.content, hl], ?_, by rw [h.slotA]; exact oka, by rw [h.slotB]; exact okb,
        by rw [h.current, h.other]; exact hother, ?_, ?_⟩
      · rw [h.cursor, PromptUnit.fieldWidth, h.current]; exact hcur
      · rcases hs with ⟨hp, _⟩ | ⟨hp, _⟩ <;> rw [hp] <;> exact fun e => nomatch e
      · rcases hs with ⟨_, ht⟩ | ⟨hp, _⟩
        · rw [ht, hstop]; exact fun e => absurd rfl e
        · exact fun _ => ⟨by rw [h.current, hc]; exact Option.some_ne_none pr, hp⟩

theorem PromptUnit.setBeep_heard (b : Beep) (u : PromptUnit) : PromptHeard u (u.setBeep b) := by
  cases b with
  | none => exact .refl u
  | short => exact .beep u .short
  | long => exact .beep u .long

/-! ### Echo -/

/-- What one cell's write leaves of a unit (R132). -/
theorem PromptUnit.writeCell_display {f : EchoField} (u : PromptUnit) (c : Byte) (hf : f.ok)
    (hl : u.content.length = 32) (hc : u.cursor ≤ f.width) :
    ∃ l n, u.writeCell f c = { u with content := l, cursor := n } ∧ l.length = 32 ∧ n ≤ f.width := by
  have he := EchoField.end_le hf
  unfold PromptUnit.writeCell
  split
  · exact ⟨_, _, rfl, by simpa using hl, by omega⟩
  · refine ⟨_, u.cursor, rfl, ?_, hc⟩
    have h1 := hf.2.1
    simp only [List.length_append, List.length_take, List.length_drop, List.length_singleton, hl]
    omega

theorem PromptUnit.foldl_writeCell_display {f : EchoField} (hf : f.ok) (cs : List Byte) (u : PromptUnit)
    (hl : u.content.length = 32) (hc : u.cursor ≤ f.width) :
    ∃ l n, cs.foldl (PromptUnit.writeCell f) u = { u with content := l, cursor := n } ∧ l.length = 32 ∧ n ≤ f.width := by
  induction cs generalizing u with
  | nil => exact ⟨u.content, u.cursor, rfl, hl, hc⟩
  | cons c rest ih =>
    obtain ⟨l, n, hw, hl', hn⟩ := u.writeCell_display c hf hl hc
    obtain ⟨m, k, hr, hm, hk⟩ := ih { u with content := l, cursor := n } hl' hn
    exact ⟨m, k, by rw [List.foldl_cons, hw, hr], hm, hk⟩

/-- What an echo changes of a unit: content, number, dirty mark and cursor. -/
theorem PromptUnit.echo_display (kind : Echo) (code : Code) (mask : Byte) {u : PromptUnit} :
    ∃ l n d k, u.echo kind code mask = { u with content := l, number := n, dirty := d, cursor := k } ∧
      (u.ok → l.length = 32 ∧ k ≤ u.fieldWidth) := by
  have same : ∃ l n d k, u = { u with content := l, number := n, dirty := d, cursor := k } ∧
      (u.ok → l.length = 32 ∧ k ≤ u.fieldWidth) := ⟨_, _, _, _, rfl, fun h => ⟨h.1, h.2.1⟩⟩
  unfold PromptUnit.echo
  split
  · exact same
  next pr hc =>
  split
  · exact same
  next f hf =>
  have hw := PromptUnit.fieldWidth_eq hc hf
  have cells : ∀ cs, ∃ l n d k, u.writeCells f cs = { u with content := l, number := n, dirty := d, cursor := k } ∧
      (u.ok → l.length = 32 ∧ k ≤ u.fieldWidth) := by
    intro cs
    cases cs with
    | nil => exact same
    | cons c rest =>
      by_cases hu : u.ok
      · have hfo := (PromptUnit.current_ok hu hc).2.2 f hf
        obtain ⟨l, n, hr, hl, hn⟩ := u.foldl_writeCell_display hfo (c :: rest) hu.1 (hw ▸ hu.2.1)
        exact ⟨l, u.number + 1, true, n, by rw [PromptUnit.writeCells, hr]; rfl, fun _ => ⟨hl, hw ▸ hn⟩⟩
      · have any : ∀ (cs : List Byte) (v : PromptUnit), ∃ l n,
            cs.foldl (PromptUnit.writeCell f) v = { v with content := l, cursor := n } := by
          intro cs
          induction cs with
          | nil => exact fun v => ⟨_, _, rfl⟩
          | cons c rest ih =>
            intro v
            have one : ∃ l n, v.writeCell f c = { v with content := l, cursor := n } := by
              unfold PromptUnit.writeCell
              split
              · exact ⟨_, _, rfl⟩
              · exact ⟨_, v.cursor, rfl⟩
            obtain ⟨l, n, hw⟩ := one
            obtain ⟨m, k, hr⟩ := ih { v with content := l, cursor := n }
            exact ⟨m, k, by rw [List.foldl_cons, hw, hr]⟩
        obtain ⟨l, n, hr⟩ := any (c :: rest) u
        exact ⟨l, u.number + 1, true, n, by rw [PromptUnit.writeCells, hr]; rfl, fun h => absurd h hu⟩
  split
  · exact same
  · exact cells _
  · exact cells _
  · unfold PromptUnit.blankLast
    split
    · exact same
    · exact ⟨_, _, _, _, rfl, fun h => ⟨by simpa [PromptUnit.compose] using h.1, by have := h.2.1; omega⟩⟩

theorem PromptUnit.echo_kept (kind : Echo) (code : Code) (mask : Byte) (u : PromptUnit) :
    PromptKept u (u.echo kind code mask) := by
  obtain ⟨l, n, d, k, he, hok⟩ := PromptUnit.echo_display kind code mask (u := u)
  rw [he]
  exact ⟨PromptUnit.bare_of_display rfl rfl rfl,
    fun hu => PromptUnit.ok_of_display hu rfl rfl rfl rfl rfl (hok hu).1 (hok hu).2⟩

theorem blankCells_length {f : EchoField} (hf : f.ok) {l : List Byte} (hl : l.length = 32) :
    (blankCells f l).length = 32 := by
  have he := EchoField.end_le hf
  simp only [blankCells, List.length_append, List.length_take, List.length_drop, List.length_replicate, hl]
  omega

theorem PromptUnit.resetEcho_kept (u : PromptUnit) : PromptKept u u.resetEcho := by
  unfold PromptUnit.resetEcho
  split
  · exact ⟨PromptUnit.bare_of_display rfl rfl rfl,
      fun hu => PromptUnit.ok_of_display hu rfl rfl rfl rfl rfl hu.1 (Nat.zero_le _)⟩
  · next f hf =>
    obtain ⟨pr, hc, hpf⟩ := Option.bind_eq_some_iff.1 hf
    exact ⟨PromptUnit.bare_of_display rfl rfl rfl, fun hu => PromptUnit.ok_of_display hu rfl rfl rfl rfl rfl
      (blankCells_length ((PromptUnit.current_ok hu hc).2.2 f hpf) hu.1) (Nat.zero_le _)⟩

/-! ### Prompts that come and go -/

theorem promptContent_length {pr : Prompt} (h : pr.ok) : (promptContent pr).length = 32 := by
  have hp : (padText pr.text).length = 32 := by
    have := h.1
    simp only [padText, List.length_append, List.length_replicate]
    omega
  unfold promptContent
  split
  · exact hp
  · next f hf => exact blankCells_length (h.2.2 f hf) hp

/-- A unit with no prompt at all and a blank display. -/
theorem PromptUnit.ok_of_bare {u : PromptUnit} (h : u.bare) (hl : u.content.length = 32) (hc : u.cursor = 0) : u.ok := by
  obtain ⟨ha, hb, ht⟩ := h
  have ho : u.other = .none := by unfold PromptUnit.other; split <;> assumption
  exact ⟨hl, by omega, by simp [ha], by simp [hb], fun _ => ho, fun _ => ho, fun h => absurd ht h⟩

theorem PromptUnit.close_bare (u : PromptUnit) : u.close.bare := ⟨rfl, rfl, rfl⟩

theorem PromptUnit.close_ok (u : PromptUnit) : u.close.ok := PromptUnit.ok_of_bare u.close_bare rfl rfl

theorem PromptUnit.clear_ok (u : PromptUnit) : u.clear.ok := PromptUnit.ok_of_bare ⟨rfl, rfl, rfl⟩ rfl rfl

/-- A prompt shown in the current slot with nothing, or a good prompt, in the other. -/
theorem PromptUnit.show_ok {u : PromptUnit} {pr : Prompt} (h : pr.ok) (hc : u.current = .some pr)
    (ho : ∀ x, u.other = .some x → x.ok) : (u.show pr).ok := by
  have slots : (∀ x, u.slotA = .some x → x.ok) ∧ ∀ x, u.slotB = .some x → x.ok := by
    unfold PromptUnit.current at hc
    unfold PromptUnit.other at ho
    cases hs : u.currentSlot <;> simp only [hs] at hc ho
    · exact ⟨fun x hx => by rw [hc] at hx; cases hx; exact h, ho⟩
    · exact ⟨ho, fun x hx => by rw [hc] at hx; cases hx; exact h⟩
  refine ⟨promptContent_length h, Nat.zero_le _, slots.1, slots.2, fun hn => ?_, (fun hp => nomatch hp),
    fun ht => absurd rfl ht⟩
  have : u.current = .none := hn
  rw [hc] at this
  cases this

@[simp] theorem PromptUnit.putSlot_current (u : PromptUnit) (o : Option Prompt) :
    (u.putSlot u.currentSlot o).current = o := by
  cases h : u.currentSlot <;> simp [PromptUnit.putSlot, PromptUnit.current, h]

@[simp] theorem PromptUnit.putSlot_other (u : PromptUnit) (o : Option Prompt) :
    (u.putSlot u.currentSlot o).other = u.other := by
  cases h : u.currentSlot <;> simp [PromptUnit.putSlot, PromptUnit.other, h]

@[simp] theorem PromptUnit.putSlot_opposite_current (u : PromptUnit) (o : Option Prompt) :
    (u.putSlot u.currentSlot.opposite o).current = u.current := by
  cases h : u.currentSlot <;> simp [PromptUnit.putSlot, PromptUnit.current, Slot.opposite, h]

@[simp] theorem PromptUnit.putSlot_opposite_other (u : PromptUnit) (o : Option Prompt) :
    (u.putSlot u.currentSlot.opposite o).other = o := by
  cases h : u.currentSlot <;> simp [PromptUnit.putSlot, PromptUnit.other, Slot.opposite, h]

/-- The expiry of a hold switches to the queued prompt (R131). -/
theorem PromptUnit.switch_ok {u : PromptUnit} {pr : Prompt} (h : u.ok) (ho : u.other = .some pr) :
    (u.switch pr).ok := by
  obtain ⟨_, _, ha, hb, _⟩ := h
  unfold PromptUnit.other at ho
  unfold PromptUnit.switch
  cases hs : u.currentSlot <;> simp only [hs] at ho
  · exact PromptUnit.show_ok (hb pr ho) (by simpa [PromptUnit.putSlot, PromptUnit.current, Slot.opposite, hs] using ho)
      (by simp [PromptUnit.putSlot, PromptUnit.other, Slot.opposite])
  · exact PromptUnit.show_ok (ha pr ho) (by simpa [PromptUnit.putSlot, PromptUnit.current, Slot.opposite, hs] using ho)
      (by simp [PromptUnit.putSlot, PromptUnit.other, Slot.opposite])

/-- The prompt that a PROMPT stores (R125). -/
theorem storedPrompt_ok (text : List Byte) (hold : Nat) (field : Option EchoField) (hf : fieldOk field = true) :
    Prompt.ok ⟨storedText text, min hold 600, field.map storedField⟩ := by
  refine ⟨?_, Nat.min_le_right _ _, fun f h => ?_⟩
  · simp only [storedText, List.length_map, List.length_take]
    omega
  · obtain ⟨g, rfl, rfl⟩ := Option.map_eq_some_iff.1 h
    have hg : g.line ≤ 1 ∧ g.column ≤ 15 ∧ g.width ≠ 0 := of_decide_eq_true hf
    simp only [EchoField.ok, storedField]
    omega

/-- The place that a PROMPT takes (R127, R128). -/
theorem PromptUnit.place_ok {u v : PromptUnit} {form : PromptForm} {pr : Prompt} {slot : Slot} {cur : Bool}
    (h : u.ok) (hp : pr.ok) (hv : u.place form pr = .some (v, slot, cur)) : v.ok := by
  have hu := h
  obtain ⟨hl, hcur, ha, hb, hother, hended, hhold⟩ := hu
  have alone : ∀ w : PromptUnit, (∀ x, w.other = .some x → x.ok) → ((w.putSlot w.currentSlot (.some pr)).show pr).ok :=
    fun w hw => PromptUnit.show_ok hp (by simp) (by simpa using hw)
  unfold PromptUnit.place at hv
  dsimp only at hv
  split at hv
  · cases hv
    refine alone { u with slotA := .none, slotB := .none } ?_
    cases u.currentSlot <;> simp [PromptUnit.other]
  · split at hv
    · next hc =>
      cases hv
      exact alone u (by simp [hother hc])
    · next pr' hc =>
      split at hv
      · next he =>
        cases hv
        exact alone u (by simp [hended he])
      all_goals
        next he =>
        split at hv
        case h_2 => cases hv
        next ho =>
        cases hv
        have hw : ∀ k, (∀ x, (u.putSlot k (.some pr)).slotA = .some x → x.ok) ∧
            ∀ x, (u.putSlot k (.some pr)).slotB = .some x → x.ok := by
          intro k
          cases k
          · exact ⟨fun x hx => by cases hx; exact hp, hb⟩
          · exact ⟨ha, fun x hx => by cases hx; exact hp⟩
        have same : ∀ k, (u.putSlot k (.some pr)).content = u.content ∧ (u.putSlot k (.some pr)).cursor = u.cursor ∧
            (u.putSlot k (.some pr)).phase = u.phase ∧ (u.putSlot k (.some pr)).holdTimer = u.holdTimer := by
          intro k; cases k <;> exact ⟨rfl, rfl, rfl, rfl⟩
        obtain ⟨s1, s2, s3, s4⟩ := same u.currentSlot.opposite
        refine ⟨by rw [s1, hl], ?_, (hw _).1, (hw _).2, ?_, ?_, ?_⟩
        · rw [s2, PromptUnit.fieldWidth, PromptUnit.putSlot_opposite_current]; exact hcur
        · rw [PromptUnit.putSlot_opposite_current, hc]; exact fun e => nomatch e
        · rw [s3, he]; exact fun e => nomatch e
        · rw [s4, s3, PromptUnit.putSlot_opposite_current]; exact hhold

end Sys2Proof.Machine
end

section
/-! SUPPORT. What every event but an acceptance keeps of positions, entries, prompt units, the IF and the attention, and the
invariants that rest on it (R9, R12, R48, R51, R61, R64, R103, R124). -/

namespace Sys2Proof.Machine

open Sys2Proof

/-! ### The IF at a position -/

/-- No flag of the position is set and no entry of it can reach a lookup. -/
structure Intake.quietAt (f : Intake) (p : Pos) : Prop where
  flags : f.flags.get p = PendingFlags.clear
  void : ∀ e ∈ f.entries, e.pos = p → e.void = true

variable {f g : Intake} {p q : Pos}

/-- Entries of other positions join. -/
theorem Intake.quietAt.append {l : List IntakeEntry} (h : f.quietAt p) (hf : g.flags.get p = f.flags.get p)
    (he : g.entries = f.entries ++ l) (hl : ∀ e ∈ l, e.pos ≠ p) : g.quietAt p := by
  refine ⟨hf.trans h.flags, fun e hm hp => ?_⟩
  rw [he, List.mem_append] at hm
  rcases hm with hm | hm
  · exact h.void e hm hp
  · exact absurd hp (hl e hm)

theorem Intake.quietAt.congr (h : f.quietAt p) (hf : g.flags = f.flags) (he : g.entries = f.entries) : g.quietAt p :=
  h.append (by rw [hf]) (l := []) (by simp [he]) (by simp)

/-- The service of the flags enters nothing for a position with none set. -/
theorem FlagsServed.quietAt (h : FlagsServed f g) (hq : f.quietAt p) : g.quietAt p := by
  have clear := (PendingFlags.eq_clear_iff _).1 hq.flags
  obtain ⟨l, he, hl⟩ := h.entries
  have hf : g.flags.get p = PendingFlags.clear := by
    rw [PendingFlags.eq_clear_iff]
    intro k
    by_contra hk
    have := h.flags p k (by simpa using hk)
    rw [clear k] at this
    cases this
  refine hq.append (hf.trans hq.flags.symm) he fun e hm hp => ?_
  obtain ⟨_, _, k, _, hk⟩ := hl e hm
  rw [hp, clear k] at hk
  cases hk

theorem Intake.release_quietAt (n : Nat) (hq : f.quietAt p) : (f.release n).quietAt p :=
  (Intake.serveFlags_served _).quietAt (hq.congr rfl rfl)

theorem Intake.serveOwn_quietAt (l : List Synth) (n : Nat) (hne : q ≠ p) (hq : f.quietAt p) :
    (f.serveOwn q l n).quietAt p := by
  induction l generalizing n f with
  | nil => cases n <;> exact hq
  | cons k rest ih =>
    cases n with
    | zero => exact hq
    | succ n =>
      rw [Intake.serveOwn]
      split
      · refine ih n (hq.append (l := [⟨q, k.code, .synthetic, false⟩]) ?_ rfl (by simpa using hne))
        simp only [Intake.serveFlag, Intake.putFlag, Intake.enter]
        rw [PerPos.get_modify_ne _ _ hne.symm]
      · exact ih (n + 1) hq

theorem Intake.enterBatch_quietAt (codes : List Code) (n : Nat) (hne : q ≠ p) (hq : f.quietAt p) :
    (f.enterBatch q codes n).quietAt p := by
  unfold Intake.enterBatch
  refine (Intake.serveFlags_served _).quietAt ?_
  have h := Intake.serveOwn_quietAt (f := { f with reserved := f.reserved - n }) Synth.inOrder (n - codes.length) hne
    (hq.congr rfl rfl)
  refine h.append rfl rfl fun e hm => ?_
  obtain ⟨c, _, rfl⟩ := List.mem_map.1 hm
  exact hne

theorem admitSynth_quietAt (k : Synth) {s : State} (hc : (s.pos.get p).state = .closed) (hq : s.intake.quietAt p) :
    (admitSynth q k s).intake.quietAt p := by
  by_cases hne : q = p
  · rw [hne, admit_of_closed p k s hc]; exact hq
  · rcases admit_cases q k s with ⟨h, _⟩ | ⟨h, _⟩ | ⟨h, _⟩
    · rw [h]; exact hq
    · rw [h]
      exact hq.append (l := [⟨q, k.code, .synthetic, false⟩]) rfl rfl (by simpa using hne)
    · rw [h]
      refine hq.append (l := []) ?_ (by simp [Intake.putFlag]) (by simp)
      simp only [State.onIntake_intake, Intake.putFlag]
      rw [PerPos.get_modify_ne _ _ (Ne.symm hne)]

/-! ### What is kept -/

/-- What every event but an acceptance keeps. -/
structure Steady (s t : State) : Prop where
  tables : t.tables = s.tables
  pos : ∀ p, (t.pos.get p).state = (s.pos.get p).state ∧ (t.pos.get p).bank = (s.pos.get p).bank
  entry : ∀ p, EntryKept (s.entry.get p) (t.entry.get p)
  pu : ∀ p, PromptKept (s.pu.get p) (t.pu.get p)
  intake : ∀ p, (s.pos.get p).state = .closed → s.intake.quietAt p → t.intake.quietAt p
  attn : ∀ p, (s.pos.get p).state = .closed → ownsAttention p s = false → ownsAttention p t = false

variable {s t u : State}

theorem Steady.trans (h : Steady s t) (k : Steady t u) : Steady s u where
  tables := k.tables.trans h.tables
  pos := fun p => ⟨(k.pos p).1.trans (h.pos p).1, (k.pos p).2.trans (h.pos p).2⟩
  entry := fun p => (h.entry p).trans (k.entry p)
  pu := fun p => (h.pu p).trans (k.pu p)
  intake := fun p hc hq => k.intake p ((h.pos p).1.trans hc) (h.intake p hc hq)
  attn := fun p hc ho => k.attn p ((h.pos p).1.trans hc) (h.attn p hc ho)

theorem ownsAttention_congr (h : t.attn.record = s.attn.record) (p : Pos) : ownsAttention p t = ownsAttention p s := by
  simp only [ownsAttention, h]

/-- A state whose tables, positions, IF and attention are the same. -/
theorem Steady.of_units (htb : t.tables = s.tables)
    (hp : ∀ p, (t.pos.get p).state = (s.pos.get p).state ∧ (t.pos.get p).bank = (s.pos.get p).bank)
    (he : ∀ p, EntryKept (s.entry.get p) (t.entry.get p)) (hu : ∀ p, PromptKept (s.pu.get p) (t.pu.get p))
    (hi : t.intake = s.intake) (ha : t.attn.record = s.attn.record) : Steady s t :=
  ⟨htb, hp, he, hu, fun p _ hq => by rw [hi]; exact hq, fun p _ ho => by rw [ownsAttention_congr ha]; exact ho⟩

theorem Steady.of_same (htb : t.tables = s.tables) (hp : t.pos = s.pos) (he : t.entry = s.entry) (hu : t.pu = s.pu)
    (hi : t.intake = s.intake) (ha : t.attn.record = s.attn.record) : Steady s t :=
  .of_units htb (fun p => by rw [hp]; exact ⟨rfl, rfl⟩) (fun p => by rw [he]; exact .refl _)
    (fun p => by rw [hu]; exact .refl _) hi ha

theorem Steady.refl (s : State) : Steady s s := .of_same rfl rfl rfl rfl rfl rfl

/-- What polls move, with an IF that keeps quiet what is CLOSED. -/
theorem Polled.steady (h : Polled s t)
    (hi : ∀ p, (s.pos.get p).state = .closed → s.intake.quietAt p → t.intake.quietAt p) : Steady s t :=
  ⟨h.tables, fun p => ⟨(h.pos p).1, (h.pos p).2.1⟩, fun p => (h.entry p).kept, fun p => (h.pu p).kept, hi,
    fun p _ ho => by rw [ownsAttention_congr (congrArg AttentionSlot.record h.attn)]; exact ho⟩

theorem Visited.steady {g : Group} (h : Visited g s t) : Steady s t :=
  h.polled.steady fun _ _ hq => hq.congr h.flags h.entries

theorem judgePressure_steady (u s : State) : Steady s (judgePressure u s) :=
  (judgePressure_polled u s).steady fun _ _ hq => hq.congr (judgePressure_flags s u) (judgePressure_entries s u)

theorem admitSynth_steady (p : Pos) (k : Synth) (s : State) : Steady s (admitSynth p k s) :=
  (admitSynth_polled p k s).steady fun _ hc hq => admitSynth_quietAt k hc hq

theorem Served.steady (h : Served s t) : Steady s t :=
  .of_same h.tables h.pos h.entry h.pu h.intake (by rw [h.attn])

theorem LineSteps.steady (h : LineSteps p s t) : Steady s t := by
  have hw := h.lineWork
  refine .of_units hw.tables (fun q => by rw [hw.pos]; exact ⟨rfl, rfl⟩) (fun q => ?_)
    (fun q => by rw [hw.pu]; exact .refl _) hw.intake (by rw [hw.attn])
  by_cases hq : q = p
  · rw [hq]; exact h.entry.kept
  · rw [hw.entry q hq]; exact .refl _

theorem LineEvent.steady (h : LineEvent p s t) : Steady s t := by
  obtain ⟨v, l, hv, rfl | rfl⟩ := h.lineWork
  · exact hv.steady
  · exact hv.steady.trans ((foldl_chain Steady.refl (fun _ _ _ => Steady.trans) (fun w k => admitSynth p k w)
      (fun w k => admitSynth_steady p k w) l v).trans (judgePressure_steady s _))

/-! ### The ends of polls -/

theorem onIntake_steady (f : Intake → Intake) (s : State)
    (hf : ∀ p, (s.pos.get p).state = .closed → s.intake.quietAt p → (f s.intake).quietAt p) :
    Steady s (s.onIntake f) := (onIntake_polled f s).steady hf

theorem onIntake_release_steady (n : Nat) (s : State) : Steady s (s.onIntake fun f => f.release n) :=
  onIntake_steady _ s fun _ _ hq => Intake.release_quietAt n hq

theorem onBus_steady (g : Group) (f : Bus → Bus) (s : State) : Steady s (s.onBus g f) :=
  .of_same rfl rfl rfl rfl rfl rfl

theorem onPos_steady (p : Pos) (f : PosRecord → PosRecord) (s : State)
    (hf : ∀ r, (f r).state = r.state ∧ (f r).bank = r.bank) : Steady s (s.onPos p f) := by
  refine .of_units rfl (fun q => ?_) (fun _ => .refl _) (fun _ => .refl _) rfl rfl
  rw [State.onPos_pos, PerPos.get_modify]
  split
  · exact hf _
  · exact ⟨rfl, rfl⟩

theorem postKeypadState_steady (p : Pos) (pr : Presence) (s : State) : Steady s (postKeypadState p pr s) :=
  (postKeypadState_served p pr s).steady

theorem missPoll_steady (g : Group) (q : Poll) (c : Bool) (s : State) : Steady s (missPoll g q c s) := by
  have hc := (onPos_steady (posAt g q.addr) (fun r => { r with
      misses := sat16 r.misses, checkErrors := if c then sat16 r.checkErrors else r.checkErrors }) s
    fun _ => ⟨rfl, rfl⟩).trans
      (onBus_steady g (fun b => { b with addrs := b.addrs.modify q.addr fun d => { d with misses := holdAt 3 d.misses } }) _)
  have hr : ∀ v, Steady s v → Steady s ((v.onIntake fun f => f.release q.reserved).onBus g Bus.endPoll) :=
    fun v hv => hv.trans ((onIntake_release_steady _ v).trans (onBus_steady g _ _))
  unfold missPoll
  extract_lets p counted d lost moved released
  split
  · next hl =>
    have hm : Steady s moved := by
      simp only [moved, hl, if_true]
      exact hc.trans ((onBus_steady g _ _).trans (postKeypadState_steady p _ _))
    exact (hr _ hm).trans (admitSynth_steady p _ _)
  · next hl =>
    have hm : Steady s moved := by
      simp only [moved, hl]
      exact hc
    exact hr _ hm

theorem countKey_steady (p : Pos) (s : State) (c : Code) : Steady s (countKey p s c) := by
  refine (countKey_polled p s c).steady fun _ _ hq => ?_
  have h : (countKey p s c).intake = s.intake := by
    unfold countKey keyEntered
    split
    · rfl
    · split <;> rfl
  rw [h]
  exact hq

theorem noteBatch_steady (g : Group) (a : Addr) (r : Reply) (j : BatchJudgement) (s : State) :
    Steady s (noteBatch g a r j s) := by
  refine (noteBatch_polled g a r j s).steady fun _ _ hq => ?_
  cases j <;> exact hq

theorem takeBatch_steady (g : Group) (q : Poll) (r : Reply) (j : BatchJudgement) (s : State) :
    Steady s (takeBatch g q r j s) := by
  unfold takeBatch
  refine Steady.trans ?_ (onBus_steady g _ _)
  split
  · next ho =>
    refine Steady.trans ?_ (foldl_chain Steady.refl (fun _ _ _ => Steady.trans) _ (countKey_steady _) r.keys _)
    refine onIntake_steady _ s fun p hc hq => Intake.enterBatch_quietAt _ _ (fun e => ?_) hq
    rw [isOpen_iff, e, hc] at ho
    cases ho.1
  · exact onIntake_release_steady _ s

theorem noteAlarm_steady (g : Group) (a : Addr) (b : Bool) (s : State) : Steady s (noteAlarm g a b s) := by
  unfold noteAlarm
  have h := onBus_steady g (fun b' => { b' with addrs := b'.addrs.modify a fun d => { d with alarm := b } }) s
  dsimp only
  split
  · exact h.trans (admitSynth_steady _ _ _)
  · exact h

theorem noteDisplay_steady (p : Pos) (q : Poll) (b : Bool) (s : State) : Steady s (noteDisplay p q b s) := by
  refine (noteDisplay_polled p q b s).steady fun _ _ hq => ?_
  have h : (noteDisplay p q b s).intake = s.intake := by
    unfold noteDisplay
    split
    · rfl
    · split <;> rfl
  rw [h]
  exact hq

theorem validReply_steady (g : Group) (q : Poll) (r : Reply) (s : State) : Steady s (validReply g q r s) := by
  unfold validReply
  extract_lets p heard back online j taken returned
  have hh : Steady s heard := onBus_steady g _ s
  have ho : Steady s online := by
    simp only [online]
    split
    · exact hh.trans ((onBus_steady g _ _).trans (postKeypadState_steady p _ _))
    · exact hh
  have ht : Steady s taken := ho.trans ((noteBatch_steady g q.addr r j online).trans (takeBatch_steady g q r j _))
  have hb : Steady s returned := by
    simp only [returned]
    split
    · exact ht.trans (admitSynth_steady p _ _)
    · exact ht
  exact hb.trans ((noteAlarm_steady g q.addr r.alarm _).trans (noteDisplay_steady p q r.applied _))

theorem replyEnds_steady (g : Group) (q : Poll) (r : Reply) (s : State) : Steady s (replyEnds g q r s) := by
  unfold replyEnds
  split
  · exact (endDisowned_visited g s).steady
  · split
    · exact (validReply_steady g q r s).trans (nextVisit_visited g _).steady
    · exact (missPoll_steady g q _ s).trans (nextVisit_visited g _).steady

theorem windowEnds_steady (g : Group) (q : Poll) (s : State) :
    Steady s (if q.disowned then endDisowned g s else nextVisit g (missPoll g q false s)) := by
  split
  · exact (endDisowned_visited g s).steady
  · exact (missPoll_steady g q _ s).trans (nextVisit_visited g _).steady

/-! ### The engine -/

theorem applyDisposition_steady (p : Pos) (c : Code) (d : Disposition) (s : State) :
    Steady s (applyDisposition p c d s).1 := by
  have h := applyDisposition_application p c d s
  refine .of_units h.tables (fun q => ?_) (fun q => ?_) (fun q => ?_) h.intake (by rw [h.attn])
  · by_cases hq : q = p
    · rw [hq]; exact ⟨h.state, h.bank⟩
    · rw [h.pos q hq]; exact ⟨rfl, rfl⟩
  · by_cases hq : q = p
    · rw [hq, applyDisposition_entry]; exact entryAction_kept p c _ _ s
    · rw [h.entry q hq]; exact .refl _
  · by_cases hq : q = p
    · subst hq
      have acted : ∀ sec a, PromptKept (s.pu.get q) ((entryAction q c sec a s).1.pu.get q) := by
        intro sec a
        cases a with
        | discard | forward => exact .refl _
        | clearEntry =>
          simp only [entryAction]
          split
          · split
            · simpa using PromptUnit.resetEcho_kept (s.pu.get q)
            · exact .refl _
          · exact .refl _
        | hold | eraseLast | complete =>
          simp only [entryAction]
          split
          · split <;> exact .refl _
          · exact .refl _
        | cancel =>
          simp only [entryAction]
          split <;> exact .refl _
      have hpu : ∃ k m b, ((applyDisposition q c d s).1.pu.get q) = (((entryAction q c (s.descriptor q).secret
          (clampAction (s.secretContext q) c d.action) s).1.pu.get q).echo k c m).setBeep b := by
        simp only [applyDisposition, State.onPos_pu, State.onPu_pu, PerPos.get_modify_same]
        exact ⟨_, _, _, rfl⟩
      obtain ⟨k, m, b, hpu⟩ := hpu
      rw [hpu]
      exact (acted _ _).trans ((PromptUnit.echo_kept _ _ _ _).trans (PromptUnit.setBeep_heard _ _).kept)
    · rw [h.pu q hq]; exact .refl _

theorem releaseReservation_steady (s : State) : Steady s (releaseReservation s) :=
  (Steady.of_same rfl rfl rfl rfl rfl rfl : Steady s (s.onOq fun q => { q with reservation := 0 })).trans
    (releaseReservation_served s).steady

theorem postApplied_steady (n : Option AppNotice) (s : State) : Steady s (postApplied n s) := by
  cases n with
  | none => exact .refl s
  | some n => exact .of_same rfl rfl rfl rfl rfl rfl

theorem dropAttention_steady (s : State) : Steady s (dropAttention s) :=
  ⟨rfl, fun _ => ⟨rfl, rfl⟩, fun _ => .refl _, fun _ => .refl _, fun _ _ hq => hq, fun _ _ _ => rfl⟩

theorem resolve_steady (a : Attention) (d : Disposition) (s : State) : Steady s (resolve a d s).1 := by
  rw [resolve_fst]
  exact (applyDisposition_steady a.pos a.code d s).trans ((dropAttention_steady _).trans
    ((postApplied_steady _ _).trans (releaseReservation_steady _)))

theorem processEntry_steady (e : IntakeEntry) (s : State) : Steady s (processEntry e s) := by
  unfold processEntry
  split
  · exact releaseReservation_steady s
  · next hv =>
    dsimp only
    split
    · refine ⟨rfl, fun _ => ⟨rfl, rfl⟩, fun _ => .refl _, fun _ => .refl _, fun _ _ hq => hq, fun p hc _ => ?_⟩
      have hne : e.pos ≠ p := fun h => hv (.inr (by rw [h]; exact isOpen_of_closed hc))
      exact decide_eq_false hne
    · exact (applyDisposition_steady _ _ _ s).trans ((postApplied_steady _ _).trans (releaseReservation_steady _))

theorem withdraw_steady (e : IntakeEntry) (rest : List IntakeEntry) (he : s.intake.entries = e :: rest) :
    Steady s (Machine.withdraw e rest s) := by
  unfold Machine.withdraw
  refine Steady.trans ?_ (processEntry_steady e _)
  have hg : Steady s (s.onOq fun q => { q with reservation := q.reservation + Config.engineSlots }) :=
    .of_same rfl rfl rfl rfl rfl rfl
  refine hg.trans (onIntake_steady _ _ fun p _ hq => ?_)
  refine (Intake.serveFlags_served _).quietAt ⟨hq.flags, fun x hx => hq.void x ?_⟩
  rw [State.onOq_intake, he]
  exact List.mem_cons_of_mem e hx

/-! ### The events -/

theorem holdExpires_steady (hd : (s.pu.get p).holdTimer.due = true) : Steady s (holdExpires p s) := by
  have onlyPu : ∀ f : PromptUnit → PromptUnit, PromptKept (s.pu.get p) (f (s.pu.get p)) → Steady s (s.onPu p f) := by
    intro f hf
    refine .of_units rfl (fun _ => ⟨rfl, rfl⟩) (fun _ => .refl _) (fun q => ?_) rfl rfl
    rw [State.onPu_pu, PerPos.get_modify]
    split
    · next hq => rw [hq]; exact hf
    · exact .refl _
  have nobare : ¬ (s.pu.get p).bare := fun h => by rw [h.2.2] at hd; cases hd
  unfold Machine.holdExpires
  split
  · next pr ho =>
    refine onlyPu _ ⟨fun h => absurd h nobare, fun h => PromptUnit.switch_ok ?_ ho⟩
    obtain ⟨h1, h2, h3, h4, h5, h6, _⟩ := h
    exact ⟨h1, h2, h3, h4, h5, h6, fun e => absurd rfl e⟩
  · next ho =>
    refine (onlyPu _ ⟨fun h => absurd h nobare, fun h => ?_⟩).trans (admitSynth_steady p _ _)
    obtain ⟨h1, h2, h3, h4, h5, _, _⟩ := h
    exact ⟨h1, h2, h3, h4, h5, fun _ => ho, fun e => absurd rfl e⟩

theorem tick_steady (s : State) : Steady s s.tick := by
  refine .of_units rfl (fun _ => ⟨rfl, rfl⟩) (fun p => ?_) (fun p => ?_) rfl rfl
  · simpa [State.tick] using Entry.tick_kept (s.entry.get p)
  · have hk : PromptKept (s.pu.get p) { s.pu.get p with holdTimer := (s.pu.get p).holdTimer.tick } := by
      refine ⟨fun h => ⟨h.1, h.2.1, by rw [h.2.2]; rfl⟩, fun h => ?_⟩
      obtain ⟨h1, h2, h3, h4, h5, h6, h7⟩ := h
      refine ⟨h1, h2, h3, h4, h5, h6, fun ht => h7 fun e => ht ?_⟩
      rw [e]; rfl
    simpa [State.tick] using hk

/-- The state in which a request is accepted, but for the link and the queue. -/
def Accepts (s t : State) : Prop :=
  ∃ r q b l, t = accept r ((s.onOq fun o => { o with queue := q, begun := b }).onLink fun _ => l)

/-- Every event keeps what `Steady` says, or accepts a request. -/
theorem Event.steady (h : Event s t) : Steady s t ∨ Accepts s t := by
  cases h with
  | accept r => exact .inr ⟨r, s.oq.queue, s.oq.begun, s.link, rfl⟩
  | replyLeavesWaiting r rest b l w => exact .inr ⟨w, rest, b, l, rfl⟩
  | pending | link | hold | transfer | replyLeaves | roundDue | window =>
    exact .inl (.of_same rfl rfl rfl rfl rfl rfl)
  | noticeLeaves n rest b hq =>
    have hd : Steady s (s.onOq fun q => { q with queue := rest, begun := b }) := .of_same rfl rfl rfl rfl rfl rfl
    exact .inl (hd.trans (serveOwed_served _).steady)
  | roundStarts g n =>
    exact .inl ((onBus_steady g _ s).trans ((onBus_steady g _ _).trans
      ((continueRound_visited g 4 _).steady.trans (judgePressure_steady s _))))
  | replyEnds g q phase r => exact .inl ((replyEnds_steady g q r s).trans (judgePressure_steady s _))
  | windowEnds g q => exact .inl ((windowEnds_steady g q s).trans (judgePressure_steady s _))
  | withdraw e rest he => exact .inl ((withdraw_steady e rest he).trans (judgePressure_steady s _))
  | lapse a =>
    have hp : ∀ n v, Steady v (postReserved n v) := fun _ _ => .of_same rfl rfl rfl rfl rfl rfl
    exact .inl ((applyDisposition_steady a.pos a.code a.held s).trans ((dropAttention_steady _).trans
      ((hp _ _).trans (releaseReservation_steady _))))
  | interkey p e he =>
    refine .inl (Steady.trans ?_ ((admitSynth_steady p _ _).trans (judgePressure_steady s _)))
    refine .of_units rfl (fun _ => ⟨rfl, rfl⟩) (fun q => ?_) (fun _ => .refl _) rfl rfl
    by_cases hq : q = p
    · rw [hq]; exact putEntry_some_kept he id
    · rw [State.putEntry_entry, PerPos.get_set_ne _ _ hq]; exact .refl _
  | total p e mode he =>
    refine .inl (Steady.trans ?_ (postExpired_served p _ _ mode _).steady)
    refine Steady.trans (t := s.putEntry p .none) ?_ (onPos_steady p _ _ fun _ => ⟨rfl, rfl⟩)
    refine .of_units rfl (fun _ => ⟨rfl, rfl⟩) (fun q => ?_) (fun _ => .refl _) rfl rfl
    rw [State.putEntry_entry, PerPos.get_set]
    split
    · exact .none _
    · exact .refl _
  | holdExpires p hd => exact .inl ((holdExpires_steady hd).trans (judgePressure_steady s _))
  | line p _ h => exact .inl h.steady
  | tick => exact .inl (tick_steady s)

end Sys2Proof.Machine
end

section
/-! SUPPORT. Closes, and what the requests do to positions, entries and prompt units; with that the invariants of R9, R12,
R61, R64, R103 and R124. -/

namespace Sys2Proof.Machine

open Sys2Proof

/-! ### The attention voided, and the close -/

theorem voidAttention_of_owns {p : Pos} {s : State} (h : ownsAttention p s = true) :
    voidAttention p s = releaseReservation (dropAttention s) := by
  rcases voidAttention_cases p s with ⟨hn, _⟩ | ⟨_, he⟩
  · rw [h] at hn; cases hn
  · exact he

theorem voidAttention_of_not {p : Pos} {s : State} (h : ownsAttention p s = false) : voidAttention p s = s := by
  rcases voidAttention_cases p s with ⟨_, he⟩ | ⟨hn, _⟩
  · exact he
  · rw [h] at hn; cases hn

section Void

variable (p : Pos) (s : State)

theorem voidAttention_steady : Steady s (voidAttention p s) := by
  rcases voidAttention_cases p s with ⟨_, h⟩ | ⟨_, h⟩
  · rw [h]; exact .refl s
  · rw [h]; exact (dropAttention_steady s).trans (releaseReservation_steady _)

@[simp] theorem voidAttention_pos : (voidAttention p s).pos = s.pos := by
  rcases voidAttention_cases p s with ⟨_, h⟩ | ⟨_, h⟩ <;> rw [h]
  rw [releaseReservation_pos]; rfl

@[simp] theorem voidAttention_entry : (voidAttention p s).entry = s.entry := by
  rcases voidAttention_cases p s with ⟨_, h⟩ | ⟨_, h⟩ <;> rw [h]
  rw [releaseReservation_entry]; rfl

@[simp] theorem voidAttention_pu : (voidAttention p s).pu = s.pu := by
  rcases voidAttention_cases p s with ⟨_, h⟩ | ⟨_, h⟩ <;> rw [h]
  rw [releaseReservation_pu]; rfl

@[simp] theorem voidAttention_intake : (voidAttention p s).intake = s.intake := by
  rcases voidAttention_cases p s with ⟨_, h⟩ | ⟨_, h⟩ <;> rw [h]
  rw [releaseReservation_intake]; rfl

@[simp] theorem voidAttention_bus : (voidAttention p s).bus = s.bus := by
  rcases voidAttention_cases p s with ⟨_, h⟩ | ⟨_, h⟩ <;> rw [h]
  rw [releaseReservation_bus]; rfl

theorem voidAttention_attn : (voidAttention p s).attn =
    if ownsAttention p s then { s.attn with record := .none, lapseTimer := .stopped } else s.attn := by
  rcases voidAttention_cases p s with ⟨ho, h⟩ | ⟨ho, h⟩
  · rw [h, ho]; rfl
  · rw [h, ho, releaseReservation_attn]; rfl

theorem closeWork_pos :
    (closeWork p s).pos = s.pos.modify p fun r => { r with state := .closed } := by simp [closeWork]

@[simp] theorem closeWork_entry : (closeWork p s).entry = s.entry.set p .none := by simp [closeWork]

@[simp] theorem closeWork_pu : (closeWork p s).pu = s.pu.modify p PromptUnit.close := by simp [closeWork]

@[simp] theorem closeWork_intake : (closeWork p s).intake = s.intake.voidPosition p := by simp [closeWork]

@[simp] theorem closeWork_bus : (closeWork p s).bus = s.bus := by simp [closeWork]

theorem closeWork_attn : (closeWork p s).attn =
    if ownsAttention p s then { s.attn with record := .none, lapseTimer := .stopped } else s.attn := by
  rw [closeWork, State.onPos_attn, voidAttention_attn]
  rfl

end Void

/-! ### CLOSED positions -/

/-- What a CLOSED position has, whatever its state. -/
structure Shut (s : State) (p : Pos) : Prop where
  entry : s.entry.get p = .none
  bare : (s.pu.get p).bare
  quiet : s.intake.quietAt p
  attn : ownsAttention p s = false

theorem closedOk_iff {s : State} {p : Pos} : ClosedOk s p ↔ ((s.pos.get p).state = .closed → Shut s p) := by
  constructor
  · intro h hc
    obtain ⟨he, ha, hb, ht, hf, hv, ho⟩ := h hc
    exact ⟨he, ⟨ha, hb, ht⟩, ⟨hf, hv⟩, ho⟩
  · intro h hc
    obtain ⟨he, ⟨ha, hb, ht⟩, ⟨hf, hv⟩, ho⟩ := h hc
    exact ⟨he, ha, hb, ht, hf, hv, ho⟩

variable {s t u : State} {p q : Pos} {k : ReqKind}

theorem Steady.shut (h : Steady s t) (hc : (s.pos.get p).state = .closed) (hs : Shut s p) : Shut t p :=
  ⟨(h.entry p).absent hs.entry, (h.pu p).bare hs.bare, h.intake p hc hs.quiet, h.attn p hc hs.attn⟩

theorem Steady.closedOk (h : Steady s t) (hs : ClosedOk s p) : ClosedOk t p := by
  rw [closedOk_iff] at hs ⊢
  intro hc
  rw [(h.pos p).1] at hc
  exact h.shut hc (hs hc)

theorem Intake.voidPosition_quietAt_self (p : Pos) (f : Intake) : (f.voidPosition p).quietAt p := by
  refine ⟨by simp [Intake.voidPosition], fun e hm hp => ?_⟩
  obtain ⟨x, _, rfl⟩ := List.mem_map.1 hm
  split at hp
  · next h => rw [if_pos h]
  · next h => exact absurd hp h

theorem Intake.quietAt.voidPosition {f : Intake} (h : f.quietAt q) (hne : q ≠ p) : (f.voidPosition p).quietAt q := by
  refine ⟨by simpa [Intake.voidPosition, PerPos.get_set_ne _ _ hne] using h.flags, fun e hm hp => ?_⟩
  obtain ⟨x, hx, rfl⟩ := List.mem_map.1 hm
  split at hp
  · next h => exact absurd (h.symm.trans hp).symm hne
  · next hxp => rw [if_neg hxp]; exact h.void x hx hp

theorem closeWork_ownsAttention (p q : Pos) (s : State) :
    ownsAttention q (closeWork p s) = (ownsAttention q s && !ownsAttention p s) := by
  cases ho : ownsAttention p s with
  | false =>
    have hr : (closeWork p s).attn.record = s.attn.record := by rw [closeWork_attn, ho]; rfl
    rw [ownsAttention_congr hr]
    simp
  | true =>
    have hr : (closeWork p s).attn.record = .none := by rw [closeWork_attn, ho]; rfl
    rw [ownsAttention, hr]
    simp

theorem closeWork_shut_self (p : Pos) (s : State) : Shut (closeWork p s) p :=
  ⟨by simp, by simpa using (s.pu.get p).close_bare, by simpa using Intake.voidPosition_quietAt_self p s.intake,
    by simp [closeWork_ownsAttention]⟩

theorem closeWork_shut_other (hne : q ≠ p) (h : Shut s q) : Shut (closeWork p s) q :=
  ⟨by simpa [PerPos.get_set_ne _ _ hne] using h.entry,
    by rw [closeWork_pu, PerPos.get_modify_ne _ _ hne]; exact h.bare,
    by simpa using h.quiet.voidPosition hne, by simp [closeWork_ownsAttention, h.attn]⟩

theorem closeWork_closedOk (p : Pos) (hs : ∀ q, ClosedOk s q) (q : Pos) : ClosedOk (closeWork p s) q := by
  rw [closedOk_iff]
  intro hc
  by_cases hq : q = p
  · rw [hq]; exact closeWork_shut_self p s
  · rw [closeWork_pos, PerPos.get_modify_ne _ _ hq] at hc
    exact closeWork_shut_other hq (closedOk_iff.1 (hs q) hc)

/-- Blocks that `ClosedOk` reads, unchanged at a position. -/
theorem ClosedOk.congr (hs : ClosedOk s q) (hp : (t.pos.get q).state = (s.pos.get q).state)
    (he : t.entry.get q = s.entry.get q) (hu : t.pu.get q = s.pu.get q) (hi : t.intake = s.intake)
    (ha : t.attn.record = s.attn.record) : ClosedOk t q := by
  unfold ClosedOk at hs ⊢
  rw [hp, he, hu, hi, ownsAttention_congr ha]
  exact hs

theorem powerOffCard_steady (p : Pos) (s : State) : Steady s (powerOffCard p s) :=
  (powerOffCard_steps (.refl p s)).steady

/-- What RESET_POSITION does ahead of the counters: line work and a close (R14). -/
theorem resetWork_eq (p : Pos) (s : State) : ∃ v, Steady (closeWork p (removeExchange p s)) v ∧
    resetWork p s = v.onPos p fun r => { PosRecord.initial with bank := r.bank, mode := r.mode } := by
  unfold resetWork
  split
  · exact ⟨_, powerOffCard_steady p _, rfl⟩
  · exact ⟨_, .refl _, rfl⟩

theorem removeExchange_steady (p : Pos) (s : State) : Steady s (removeExchange p s) :=
  .of_same rfl rfl rfl rfl rfl rfl

/-! ### The requests -/

/-- The requests that open, close or reset a position or the part, begin an entry, store a prompt or touch table memory. -/
def ReqKind.placing : ReqKind → Bool
  | .openPosition | .closePosition | .resetPosition | .bankOpen | .bankClose | .bankFreeze | .tableWrite | .modeSet
  | .collect | .prompt | .counterReset => true
  | _ => false

theorem onPu_steady (p : Pos) (f : PromptUnit → PromptUnit) (s : State)
    (hf : PromptKept (s.pu.get p) (f (s.pu.get p))) : Steady s (s.onPu p f) := by
  refine .of_units rfl (fun _ => ⟨rfl, rfl⟩) (fun _ => .refl _) (fun q => ?_) rfl rfl
  rw [State.onPu_pu, PerPos.get_modify]
  split
  · next hq => rw [hq]; exact hf
  · exact .refl _

theorem wipe_steady (p : Pos) (s : State) : Steady s (s.putEntry p .none) := by
  refine .of_units rfl (fun _ => ⟨rfl, rfl⟩) (fun q => ?_) (fun _ => .refl _) rfl rfl
  rw [State.putEntry_entry, PerPos.get_set]
  split
  · exact .none _
  · exact .refl _

/-- Every other request keeps what the events keep. -/
theorem Effect.steady (h : Effect s k t) (hk : k.placing = false) : Steady s t := by
  cases h with
  | openPosition | closePosition | closeReady | resetPosition | bankOpen | bankClose | bankFreeze | tableWrite
  | modeSet | collect | prompt | counterReset => cases hk
  | read | busSet | attentionSet | linkRate | resetArm => exact .of_same rfl rfl rfl rfl rfl rfl
  | setMode p m => exact onPos_steady p _ s fun _ => ⟨rfl, rfl⟩
  | attend a d => exact resolve_steady a d s
  | collectStop p | entryWipe p => exact wipe_steady p s
  | promptClear p => exact onPu_steady p _ s ⟨fun _ => ⟨rfl, rfl, rfl⟩, fun _ => PromptUnit.clear_ok _⟩
  | beep p b => exact onPu_steady p _ s (PromptUnit.setBeep_heard b _).kept
  | cardLineSet g ps =>
    exact setPending_fold_steps ps _ (P := Steady s) (fun p u t h hu => hu.trans h.steady) s (.refl s)
  | cardPower p | cardExchange p | cardPresent p => exact (startExchange_steps _ _ _ (.refl p s)).steady
  | cardRelease p => exact (startExchange_steps _ _ _ (onLine_steps _ (.refl p s))).steady
  | cardAbort p x => exact (abortExchange_steps x (.refl p s)).steady

/-- After a counter reset every position is CLOSED and has nothing (R181). -/
theorem counterResetBlocks_shut (s : State) (p : Pos) :
    ((counterResetBlocks s).pos.get p).state = .closed ∧ Shut (counterResetBlocks s) p := by
  refine counterReset_keeps (P := fun t => (t.pos.get p).state = .closed ∧ Shut t p) (fun _ u t h hu => ?_)
    (fun _ u t h hu => ?_) s ⟨by simp [State.counterResetValues, PosRecord.initial], ?_⟩
  · exact ⟨(h.steady.pos p).1.trans hu.1, h.steady.shut hu.1 hu.2⟩
  · exact ⟨(h.steady.pos p).1.trans hu.1, h.steady.shut hu.1 hu.2⟩
  · refine ⟨by simp [State.counterResetValues], ?_, ⟨by simp [State.counterResetValues, Intake.initial],
      by simp [State.counterResetValues, Intake.initial]⟩, ?_⟩
    · simp [State.counterResetValues, PromptUnit.initial]
    · simp [State.counterResetValues, ownsAttention, AttentionSlot.counterReset, AttentionSlot.initial]

theorem Effect.closedOk (h : Effect s k t) (hs : ∀ p, ClosedOk s p) (q : Pos) : ClosedOk t q := by
  by_cases hk : k.placing = false
  · exact (h.steady hk).closedOk (hs q)
  cases h with
  | openPosition p b m =>
    by_cases hq : q = p
    · intro hc
      rw [hq, State.onPos_pos, PerPos.get_modify_same] at hc
      cases hc
    · exact (hs q).congr (by rw [State.onPos_pos, PerPos.get_modify_ne _ _ hq]) rfl rfl rfl rfl
  | closePosition p => exact closeWork_closedOk p hs q
  | closeReady p => exact (powerOffCard_steady p _).closedOk (closeWork_closedOk p hs q)
  | resetPosition p =>
    obtain ⟨v, hv, he⟩ := resetWork_eq p s
    rw [he]
    have hc : ∀ q, ClosedOk v q := fun q => hv.closedOk
      (closeWork_closedOk p (fun q => (removeExchange_steady p s).closedOk (hs q)) q)
    by_cases hq : q = p
    · subst hq
      have hshut : Shut v q := hv.shut (by rw [closeWork_pos, PerPos.get_modify_same]) (closeWork_shut_self q _)
      exact closedOk_iff.2 fun _ => ⟨hshut.entry, hshut.bare, hshut.quiet, hshut.attn⟩
    · exact (hc q).congr (by rw [State.onPos_pos, PerPos.get_modify_ne _ _ hq]) rfl rfl rfl rfl
  | collect p _ _ _ _ _ _ _ _ _ hp =>
    by_cases hq : q = p
    · intro hc
      rw [hq, State.onPu_pos, State.onPos_pos, PerPos.get_modify_same] at hc
      cases hp.symm.trans hc
    · exact (hs q).congr (by rw [State.onPu_pos, State.onPos_pos, PerPos.get_modify_ne _ _ hq]; rfl)
        (by rw [State.onPu_entry, State.onPos_entry, State.putEntry_entry, PerPos.get_set_ne _ _ hq])
        (by rw [State.onPu_pu, PerPos.get_modify_ne _ _ hq]; rfl) rfl rfl
  | prompt p _ _ _ _ _ _ _ hp =>
    by_cases hq : q = p
    · intro hc
      rw [hq, State.onPu_pos] at hc
      cases hp.symm.trans hc
    · exact (hs q).congr rfl rfl (by rw [State.onPu_pu, PerPos.get_modify_ne _ _ hq]) rfl rfl
  | counterReset => exact closedOk_iff.2 fun _ => (counterResetBlocks_shut s q).2
  | bankOpen | bankClose | bankFreeze | tableWrite | modeSet => exact (hs q).congr rfl rfl rfl rfl rfl
  | read | setMode | busSet | attentionSet | attend | collectStop | entryWipe | promptClear | beep | cardLineSet
  | cardPower | cardExchange | cardPresent | cardRelease | cardAbort | linkRate | resetArm =>
    next => simp_all [ReqKind.placing, ReqKind.reads]

/-- An invariant that the acceptance reads in the request's own effect, and that a refusal keeps. -/
theorem Accepts.keeps {P : State → Prop} (h : Accepts s t) (hs : P s)
    (hsame : ∀ u v : State, v.pos = u.pos → v.entry = u.entry → v.pu = u.pu → v.intake = u.intake → v.attn = u.attn →
      v.tables = u.tables → v.line = u.line → v.xs = u.xs → v.bus = u.bus → P u → P v)
    (heff : ∀ u v k, Effect u k v → P u → P v) : P t := by
  obtain ⟨r, q, b, l, rfl⟩ := h
  have hu : P ((s.onOq fun o => { o with queue := q, begun := b }).onLink fun _ => l) :=
    hsame s _ rfl rfl rfl rfl rfl rfl rfl rfl rfl hs
  generalize (s.onOq fun o => { o with queue := q, begun := b }).onLink (fun _ => l) = u at hu
  refine hsame (carryOut r u).1 _ (accept_pos r u) (accept_entry r u) (accept_pu r u) (accept_intake r u)
    (accept_attn r u) (accept_tables r u) (accept_line r u) (accept_xs r u) (accept_bus r u) ?_
  rcases carryOut_carried r u with ⟨_, h⟩ | ⟨_, h⟩
  · rw [h]; exact hu
  · exact heff _ _ _ h hu

theorem Event.closedOk (h : Event s t) (hs : ∀ p, ClosedOk s p) : ∀ p, ClosedOk t p := by
  rcases h.steady with h | h
  · exact fun p => h.closedOk (hs p)
  · refine h.keeps (P := fun s => ∀ p, ClosedOk s p) hs (fun u v hp he hu hi ha _ _ _ _ hU p => ?_)
      fun u v k h hU => h.closedOk hU
    exact (hU p).congr (by rw [hp]) (by rw [he]) (by rw [hu]) hi (by rw [ha])

/-! ### The open bank -/

/-- No position selects an open bank with an entry (R63). -/
theorem bankUser_none {b : Bank} (h : bankUser b s = .none) (hc : ∀ p, ClosedOk s p) (p : Pos)
    (he : s.entry.get p ≠ .none) : (s.pos.get p).bank ≠ b := by
  intro hb
  have hn := List.find?_eq_none.1 h p (mem_allPositions p)
  have ho : s.isOpen p = true := by
    by_contra ho
    exact he (closedOk_iff.1 (hc p) (not_isOpen_iff.1 ho)).entry
  simp [ho, hb, Option.isSome_iff_ne_none, he] at hn

theorem Steady.banksOk (h : Steady s t) (hs : BanksOk s) : BanksOk t := by
  intro b hb
  rw [h.tables] at hb
  obtain ⟨hf, he⟩ := hs b hb
  refine ⟨by rw [h.tables]; exact hf, fun p hp => ?_⟩
  rw [(h.pos p).2]
  exact he p fun hn => hp ((h.entry p).absent hn)

theorem closeWork_banksOk (p : Pos) (hs : BanksOk s) : BanksOk (closeWork p s) := by
  intro b hb
  rw [closeWork_tables] at hb
  obtain ⟨hf, he⟩ := hs b hb
  refine ⟨by rw [closeWork_tables]; exact hf, fun q hq => ?_⟩
  by_cases hqp : q = p
  · rw [hqp, closeWork_entry, PerPos.get_set_same] at hq
    exact absurd rfl hq
  · rw [closeWork_entry, PerPos.get_set_ne _ _ hqp] at hq
    rw [closeWork_pos, PerPos.get_modify_ne _ _ hqp]
    exact he q hq

/-- The entries, banks and pointer that `BanksOk` reads, unchanged. -/
theorem BanksOk.congr (hs : BanksOk s) (ht : t.tables.openBank = s.tables.openBank)
    (hf : t.tables.frozen = s.tables.frozen)
    (he : ∀ p, t.entry.get p ≠ .none → s.entry.get p ≠ .none ∧ (t.pos.get p).bank = (s.pos.get p).bank) :
    BanksOk t := by
  intro b hb
  rw [ht] at hb
  obtain ⟨h1, h2⟩ := hs b hb
  refine ⟨by rw [hf]; exact h1, fun p hp => ?_⟩
  obtain ⟨hp', hbank⟩ := he p hp
  rw [hbank]
  exact h2 p hp'

theorem BanksOk.of_none_open (h : t.tables.openBank = .none) : BanksOk t := fun b hb => by rw [h] at hb; cases hb

theorem Effect.banksOk (h : Effect s k t) (hc : ∀ p, ClosedOk s p) (hs : BanksOk s) : BanksOk t := by
  by_cases hk : k.placing = false
  · exact (h.steady hk).banksOk hs
  cases h with
  | openPosition p b m hp =>
    refine hs.congr rfl rfl fun q hq => ⟨hq, ?_⟩
    by_cases hqp : q = p
    · subst hqp
      exact absurd (closedOk_iff.1 (hc q) hp).entry hq
    · rw [State.onPos_pos, PerPos.get_modify_ne _ _ hqp]
  | closePosition p => exact closeWork_banksOk p hs
  | closeReady p => exact (powerOffCard_steady p _).banksOk (closeWork_banksOk p hs)
  | resetPosition p =>
    obtain ⟨v, hv, he⟩ := resetWork_eq p s
    rw [he]
    refine (hv.banksOk (closeWork_banksOk p ((removeExchange_steady p s).banksOk hs))).congr rfl rfl fun q hq => ⟨hq, ?_⟩
    rw [State.onPos_pos, PerPos.get_modify]
    split <;> rfl
  | bankOpen b hf hu =>
    intro b' hb'
    obtain rfl : b = b' := Option.some.inj hb'
    exact ⟨hf, bankUser_none hu hc⟩
  | bankClose => exact .of_none_open rfl
  | bankFreeze b =>
    intro b' hb'
    dsimp only at hb'
    split at hb'
    · cases hb'
    · next ho =>
      obtain ⟨hf, he⟩ := hs b' hb'
      refine ⟨?_, he⟩
      have hne : b' ≠ b := fun e => ho (tables_isOpen_iff.2 (e ▸ hb'))
      dsimp only
      rw [Quad.get_set_ne _ _ hne]
      exact hf
  | tableWrite b m c ds =>
    have same : ∀ (ds : List Disposition) (c : Nat) (tb : Tables),
        (tb.writeRun b m c ds).openBank = tb.openBank ∧ (tb.writeRun b m c ds).frozen = tb.frozen := by
      intro ds
      induction ds with
      | nil => exact fun _ _ => ⟨rfl, rfl⟩
      | cons d rest ih => exact fun c tb => ih (c + 1) (tb.writeEntry b m c d)
    exact hs.congr (same ds c s.tables).1 (same ds c s.tables).2 fun q hq => ⟨hq, rfl⟩
  | modeSet => exact hs.congr rfl rfl fun q hq => ⟨hq, rfl⟩
  | prompt => exact hs.congr rfl rfl fun q hq => ⟨hq, rfl⟩
  | collect p _ _ _ _ _ _ _ _ _ hp hb =>
    intro b hb'
    obtain ⟨hf, he⟩ := hs b hb'
    refine ⟨hf, fun q hq => ?_⟩
    rw [State.onPu_pos, State.onPos_pos, PerPos.get_modify]
    by_cases hqp : q = p
    · rw [if_pos hqp, hqp]
      exact fun e => hb (by rw [← e] at hb'; exact hb')
    · rw [if_neg hqp]
      refine he q fun hn => hq ?_
      rw [State.onPu_entry, State.onPos_entry, State.putEntry_entry, PerPos.get_set_ne _ _ hqp]
      exact hn
  | counterReset =>
    refine .of_none_open ?_
    have h : (counterResetBlocks s).tables = { s.tables with openBank := .none } :=
      counterReset_keeps (P := fun t => t.tables = { s.tables with openBank := .none })
        (fun p u t h hu => h.lineWork.tables.trans hu) (fun g u t h hu => h.tables.trans hu) s rfl
    rw [h]
  | read | setMode | busSet | attentionSet | attend | collectStop | entryWipe | promptClear | beep | cardLineSet
  | cardPower | cardExchange | cardPresent | cardRelease | cardAbort | linkRate | resetArm =>
    next => simp_all [ReqKind.placing, ReqKind.reads]

theorem Event.banksOk (h : Event s t) (hs : (∀ p, ClosedOk s p) ∧ BanksOk s) : (∀ p, ClosedOk t p) ∧ BanksOk t := by
  refine ⟨h.closedOk hs.1, ?_⟩
  rcases h.steady with h | h
  · exact h.banksOk hs.2
  · refine (h.keeps (P := fun s => (∀ p, ClosedOk s p) ∧ BanksOk s) hs
      (fun u v hp he hu hi ha htb _ _ _ hU => ⟨fun p => ?_, ?_⟩)
      fun u v k h hU => ⟨h.closedOk hU.1, h.banksOk hU.1 hU.2⟩).2
    · exact (hU.1 p).congr (by rw [hp]) (by rw [he]) (by rw [hu]) hi (by rw [ha])
    · exact hU.2.congr (by rw [htb]) (by rw [htb]) fun p hep => ⟨by rw [← he]; exact hep, by rw [hp]⟩

/-! ### Entries and prompts in bounds -/

theorem Effect.entryOk (h : Effect s k t) (hs : ∀ p, EntryOk s p) (q : Pos) : EntryOk t q := by
  by_cases hk : k.placing = false
  · exact ((h.steady hk).entry q).ok (hs q)
  have wiped : ∀ (p : Pos) (v : State), (∀ q, EntryOk v q) → ∀ q, OkEntry ((v.entry.set p .none).get q) := by
    intro p v hv q
    rw [PerPos.get_set]
    split
    · exact fun e he => nomatch he
    · exact hv q
  have closed : ∀ (p : Pos) (v : State), (∀ q, EntryOk v q) → ∀ q, EntryOk (closeWork p v) q := by
    intro p v hv q
    unfold EntryOk
    rw [closeWork_entry]
    exact wiped p v hv q
  cases h with
  | closePosition p => exact closed p s hs q
  | closeReady p => exact ((powerOffCard_steady p _).entry q).ok (closed p s hs q)
  | resetPosition p =>
    obtain ⟨v, hv, he⟩ := resetWork_eq p s
    rw [he]
    exact (hv.entry q).ok (closed p (removeExchange p s) hs q)
  | collect p =>
    unfold EntryOk
    rw [State.onPu_entry, State.onPos_entry, State.putEntry_entry, PerPos.get_set]
    split
    · exact fun e he => Option.some.inj he ▸ newEntry_ok _ _ _ _ _ _ _ _ _
    · exact hs q
  | counterReset =>
    intro e he
    rw [(counterResetBlocks_shut s q).2.entry] at he
    cases he
  | openPosition | prompt | bankOpen | bankClose | bankFreeze | tableWrite | modeSet => exact hs q
  | read | setMode | busSet | attentionSet | attend | collectStop | entryWipe | promptClear | beep | cardLineSet
  | cardPower | cardExchange | cardPresent | cardRelease | cardAbort | linkRate | resetArm =>
    next => simp_all [ReqKind.placing, ReqKind.reads]

theorem PromptUnit.initial_ok : PromptUnit.initial.ok := PromptUnit.ok_of_bare ⟨rfl, rfl, rfl⟩ rfl rfl

theorem Effect.promptOk (h : Effect s k t) (hs : ∀ p, (s.pu.get p).ok) (q : Pos) : (t.pu.get q).ok := by
  by_cases hk : k.placing = false
  · exact ((h.steady hk).pu q).ok (hs q)
  have closed : ∀ (p : Pos) (v : State), (∀ q, (v.pu.get q).ok) → ∀ q, ((closeWork p v).pu.get q).ok := by
    intro p v hv q
    rw [closeWork_pu, PerPos.get_modify]
    split
    · exact PromptUnit.close_ok _
    · exact hv q
  cases h with
  | closePosition p => exact closed p s hs q
  | closeReady p => exact ((powerOffCard_steady p _).pu q).ok (closed p s hs q)
  | resetPosition p =>
    obtain ⟨v, hv, he⟩ := resetWork_eq p s
    rw [he]
    exact (hv.pu q).ok (closed p (removeExchange p s) hs q)
  | collect p =>
    rw [State.onPu_pu, PerPos.get_modify]
    split
    · exact (PromptUnit.resetEcho_kept _).ok (hs q)
    · exact hs q
  | prompt p text hold field form u slot cur hp hf hu =>
    rw [State.onPu_pu, PerPos.get_modify]
    split
    · exact PromptUnit.place_ok (hs p) (storedPrompt_ok text hold field hf) hu
    · exact hs q
  | counterReset =>
    exact counterReset_keeps (P := fun t => (t.pu.get q).ok) (fun p u t h hu => (h.steady.pu q).ok hu)
      (fun g u t h hu => (h.steady.pu q).ok hu) s
      (by simpa [State.counterResetValues] using PromptUnit.initial_ok)
  | openPosition | bankOpen | bankClose | bankFreeze | tableWrite | modeSet => exact hs q
  | read | setMode | busSet | attentionSet | attend | collectStop | entryWipe | promptClear | beep | cardLineSet
  | cardPower | cardExchange | cardPresent | cardRelease | cardAbort | linkRate | resetArm =>
    next => simp_all [ReqKind.placing, ReqKind.reads]

theorem Event.entryOk (h : Event s t) (hs : ∀ p, EntryOk s p) : ∀ p, EntryOk t p := by
  rcases h.steady with h | h
  · exact fun p => (h.entry p).ok (hs p)
  · refine h.keeps (P := fun s => ∀ p, EntryOk s p) hs (fun u v _ he _ _ _ _ _ _ _ hU p => ?_)
      fun u v k h hU => h.entryOk hU
    unfold EntryOk
    rw [he]
    exact hU p

theorem Event.promptOk (h : Event s t) (hs : ∀ p, (s.pu.get p).ok) : ∀ p, (t.pu.get p).ok := by
  rcases h.steady with h | h
  · exact fun p => (h.pu p).ok (hs p)
  · refine h.keeps (P := fun s => ∀ p, (s.pu.get p).ok) hs (fun u v _ _ hu _ _ _ _ _ _ hU p => ?_)
      fun u v k h hU => h.promptOk hU
    rw [hu]
    exact hU p

end Sys2Proof.Machine

open Sys2Proof Sys2Proof.Machine

/-- Settles O57: only the requests open, close or reset a position, begin an entry or open a bank; every other event keeps
what a CLOSED position lacks, the banks selected and the table memory. -/
theorem everyStepKeepsClosedPositionsEmptyAndBanksApart :
    Obligations.EveryStepKeepsClosedPositionsEmptyAndBanksApart := by
  refine ⟨fun s t hs hstep => ?_, fun s t hc hs hstep => ?_⟩
  · exact step_keeps (P := fun s => ∀ p, ClosedOk s p) (fun mode wcts l => (poweredState_inv mode wcts l).closed)
      (fun _ _ h => h.closedOk) hstep hs
  · exact (step_keeps (P := fun s => (∀ p, ClosedOk s p) ∧ BanksOk s)
      (fun mode wcts l => ⟨(poweredState_inv mode wcts l).closed, (poweredState_inv mode wcts l).banks⟩)
      (fun _ _ h => h.banksOk) hstep ⟨hc, hs⟩).2

/-- Settles O58: an entry changes by the engine's actions, its timers and presentation, and a unit by echo, holds and the
prompt requests, each of which keeps the limits. -/
theorem everyStepKeepsEntriesAndPromptsInBounds : Obligations.EveryStepKeepsEntriesAndPromptsInBounds := by
  refine ⟨fun s t hs hstep => ?_, fun s t hs hstep => ?_⟩
  · exact step_keeps (P := fun s => ∀ p, EntryOk s p) (fun mode wcts l => (poweredState_inv mode wcts l).entries)
      (fun _ _ h => h.entryOk) hstep hs
  · exact step_keeps (P := fun s => ∀ p, (s.pu.get p).ok) (fun mode wcts l => (poweredState_inv mode wcts l).prompts)
      (fun _ _ h => h.promptOk) hstep hs

end

section
/-! SUPPORT. The places of the IF: what the flag service, the batches, the visits and the ends of polls do to the counts of
R26, R27, R43 and R44, and the invariant that rests on it. -/

namespace Sys2Proof.Machine

open Sys2Proof

/-! ### The counts of the IF -/

/-- The IF within its places, and full while a flag waits (R44, R49). -/
def Intake.Sound (f : Intake) : Prop := f.occupied + f.reserved ≤ 128 ∧ (0 < f.flagCount → f.free = 0)

theorem Intake.free_add (f : Intake) (h : f.occupied + f.reserved ≤ 128) : f.free + (f.occupied + f.reserved) = 128 := by
  simp only [Intake.free, Config.fifoPlaces]
  omega

/-- The flags counted are those of the list. -/
theorem Intake.flagCount_congr {f g : Intake} (h : g.flags = f.flags) : g.flagCount = f.flagCount := by
  simp only [Intake.flagCount, h]

/-- An IF with the same counts and no flag more. -/
theorem Intake.Sound.congr {f g : Intake} (h : f.Sound) (ho : g.occupied = f.occupied) (hr : g.reserved = f.reserved)
    (hf : ∀ p k, (g.flags.get p).get k = true → (f.flags.get p).get k = true) : g.Sound := by
  refine ⟨by rw [ho, hr]; exact h.1, fun hg => ?_⟩
  have hpos : 0 < f.flagCount := by
    by_contra hz
    have hclear := (Intake.flagCount_eq_zero_iff f).1 (by omega)
    have : g.flagCount = 0 := (Intake.flagCount_eq_zero_iff g).2 fun p k => by
      by_contra hk
      have := hf p k (by simpa using hk)
      rw [hclear] at this
      cases this
    omega
  rw [Intake.free, ho, hr]
  exact h.2 hpos

/-- A round of the service leaves its flag clear, or no place free. -/
theorem Intake.serveIfFree_clear (f : Intake) (x : Pos × Synth) :
    ((f.serveIfFree x).flags.get x.1).get x.2 = false ∨ (f.serveIfFree x).free = 0 := by
  unfold Intake.serveIfFree
  split
  · left
    simp [Intake.serveFlag, Intake.putFlag, Intake.enter, PendingFlags.get_put]
  · next h =>
    by_cases hf : (f.flags.get x.1).get x.2 = true
    · exact .inr (by by_contra hz; exact h ⟨hf, by omega⟩)
    · exact .inl (by simpa using hf)

theorem FlagsServed.free_eq_zero {f g : Intake} (h : FlagsServed f g) (hf : f.free = 0) : g.free = 0 := by
  obtain ⟨l, he, _⟩ := h.entries
  have ho : g.occupied = f.occupied + l.length := by simp [Intake.occupied, he]
  simp only [Intake.free, Config.fifoPlaces, ho, h.reserved] at hf ⊢
  omega

/-- The service goes on until no flag is set or no place is free (R49). -/
theorem Intake.serveFlags_full (f : Intake) (h : 0 < f.serveFlags.flagCount) : f.serveFlags.free = 0 := by
  by_contra hfree
  have clears : ∀ (l : List (Pos × Synth)) (f : Intake), (l.foldl Intake.serveIfFree f).free ≠ 0 →
      ∀ x ∈ l, ((l.foldl Intake.serveIfFree f).flags.get x.1).get x.2 = false := by
    intro l
    induction l with
    | nil => intro _ _ x hx; cases hx
    | cons y rest ih =>
      intro f hf x hx
      rw [List.foldl_cons] at hf ⊢
      rcases List.mem_cons.1 hx with rfl | hx
      · have hs := foldl_serveIfFree_served rest (f.serveIfFree x)
        rcases Intake.serveIfFree_clear f x with hc | hz
        · by_contra hk
          have := hs.flags x.1 x.2 (by simpa using hk)
          rw [hc] at this
          cases this
        · exact absurd (hs.free_eq_zero hz) hf
      · exact ih _ hf x hx
  have hz : f.serveFlags.flagCount = 0 := (Intake.flagCount_eq_zero_iff _).2 fun p k =>
    clears flagOrder f hfree (p, k)
      (List.mem_flatMap.2 ⟨p, mem_allPositions p, List.mem_map.2 ⟨k, by cases k <;> decide, rfl⟩⟩)
  omega

theorem Intake.serveFlags_sound (f : Intake) (h : f.occupied + f.reserved ≤ 128) : f.serveFlags.Sound :=
  ⟨f.serveFlags_served.within h, f.serveFlags_full⟩

theorem Intake.release_sound (f : Intake) (n : Nat) (h : f.Sound) : (f.release n).Sound := by
  refine Intake.serveFlags_sound _ ?_
  have := h.1
  simp only [Intake.occupied] at this ⊢
  omega

theorem Intake.release_reserved (f : Intake) (n : Nat) : (f.release n).reserved = f.reserved - n :=
  (Intake.serveFlags_served _).reserved

/-- A position's own flags take no more places than they are given (R47). -/
theorem Intake.serveOwn_counts (p : Pos) (l : List Synth) (n : Nat) (f : Intake) :
    (f.serveOwn p l n).reserved = f.reserved ∧ (f.serveOwn p l n).occupied ≤ f.occupied + n := by
  induction l generalizing n f with
  | nil => cases n <;> exact ⟨rfl, Nat.le_add_right _ _⟩
  | cons k rest ih =>
    cases n with
    | zero => exact ⟨rfl, Nat.le_refl _⟩
    | succ n =>
      rw [Intake.serveOwn]
      split
      · obtain ⟨hr, ho⟩ := ih n (f.serveFlag p k)
        refine ⟨hr, ho.trans (le_of_eq ?_)⟩
        simp only [Intake.serveFlag, Intake.putFlag, Intake.enter, Intake.occupied, List.length_append,
          List.length_singleton]
        omega
      · exact ih (n + 1) f

theorem Intake.enterBatch_reserved (f : Intake) (p : Pos) (codes : List Code) (n : Nat) :
    (f.enterBatch p codes n).reserved = f.reserved - n := by
  rw [Intake.enterBatch, (Intake.serveFlags_served _).reserved]
  exact (Intake.serveOwn_counts p _ _ _).1

/-- A batch enters within the places that its poll held (R46, R47). -/
theorem Intake.enterBatch_sound (f : Intake) (p : Pos) (codes : List Code) (n : Nat) (hc : codes.length ≤ n)
    (hn : n ≤ f.reserved) (h : f.Sound) : (f.enterBatch p codes n).Sound := by
  unfold Intake.enterBatch
  refine Intake.serveFlags_sound _ ?_
  have hw := h.1
  have hown := Intake.serveOwn_counts p Synth.inOrder (n - codes.length) { f with reserved := f.reserved - n }
  obtain ⟨hr, ho⟩ := hown
  simp only [Intake.occupied, List.length_append, List.length_map] at hr ho hw ⊢
  omega

/-! ### The counts of the polls -/

/-- What the places of one bus change, the places of all change. -/
theorem heldPlaces_of_bus {s t : State} (g : Group) (h : ∀ i, i ≠ g → t.bus.get i = s.bus.get i) :
    heldPlaces t + (s.bus.get g).held = heldPlaces s + (t.bus.get g).held := by
  have h0 := h 0
  have h1 := h 1
  have h2 := h 2
  have h3 := h 3
  simp only [heldPlaces]
  fin_cases g <;> simp_all [Quad.get] <;> omega

theorem heldPlaces_ge (s : State) (g : Group) : (s.bus.get g).held ≤ heldPlaces s := by
  simp only [heldPlaces]
  fin_cases g <;> simp [Quad.get] <;> omega

variable {s t u : State} {g : Group}

theorem IntakeOk.sound (h : IntakeOk s) : s.intake.Sound := ⟨h.1, h.2.2.2⟩

theorem IntakeOk.mk (hs : s.intake.Sound) (hr : s.intake.reserved = heldPlaces s) (hb : ∀ g, (s.bus.get g).holdOk) :
    IntakeOk s := ⟨hs.1, hr, hb, hs.2⟩

/-- The invariant speaks of the IF and of the buses. -/
theorem IntakeOk.of_same (h : IntakeOk s) (hi : t.intake = s.intake) (hb : t.bus = s.bus) : IntakeOk t := by
  simp only [IntakeOk, heldPlaces, hi, hb] at h ⊢
  exact h

/-- The IF moves with its reserved count as it stands. -/
theorem IntakeOk.onIntake {f : Intake → Intake} (h : IntakeOk s) (hr : (f s.intake).reserved = s.intake.reserved)
    (hs : (f s.intake).Sound) : IntakeOk (s.onIntake f) :=
  .mk hs (hr.trans h.2.1) h.2.2.1

/-- One bus and the reserved count move together. -/
theorem IntakeOk.move (h : IntakeOk s) (hother : ∀ i, i ≠ g → t.bus.get i = s.bus.get i) (hok : (t.bus.get g).holdOk)
    (hr : t.intake.reserved + (s.bus.get g).held = s.intake.reserved + (t.bus.get g).held)
    (hs : t.intake.Sound) : IntakeOk t := by
  refine .mk hs ?_ fun i => ?_
  · have := heldPlaces_of_bus (s := s) (t := t) g hother
    have := h.2.1
    omega
  · by_cases hi : i = g
    · rw [hi]; exact hok
    · rw [hother i hi]; exact h.2.2.1 i

theorem IntakeOk.onBus {f : Bus → Bus} (h : IntakeOk s) (hok : (f (s.bus.get g)).holdOk)
    (hh : (f (s.bus.get g)).held = (s.bus.get g).held) : IntakeOk (s.onBus g f) := by
  refine h.move (g := g) (fun i hi => ?_) ?_ ?_ h.sound
  · rw [State.onBus_bus, Quad.get_modify_ne _ _ hi]
  · rw [State.onBus_bus, Quad.get_modify_same]; exact hok
  · rw [State.onBus_bus, Quad.get_modify_same, hh]; rfl

theorem Bus.holdOk_of_none {b : Bus} (h : b.poll = .none) : b.holdOk := fun q hq => by rw [h] at hq; cases hq

theorem Bus.held_of_none {b : Bus} (h : b.poll = .none) : b.held = 0 := by rw [Bus.held, h]

theorem Bus.held_of_some {b : Bus} {q : Poll} (h : b.poll = .some q) : b.held = q.reserved := by rw [Bus.held, h]

/-- Without a poll a bus may move in everything else. -/
theorem IntakeOk.onBus_idle {f : Bus → Bus} (h : IntakeOk s) (hp : (s.bus.get g).poll = .none)
    (hf : (f (s.bus.get g)).poll = .none) : IntakeOk (s.onBus g f) :=
  h.onBus (Bus.holdOk_of_none hf) (by rw [Bus.held_of_none hf, Bus.held_of_none hp])

/-! ### Visits -/

/-- A poll is sent only with no flag waiting and its 5 places free (R26, R27). -/
theorem sendPoll_intakeOk (a : Addr) (h : IntakeOk s) (hp : (s.bus.get g).poll = .none)
    (hr : (s.bus.get g).round ≠ .finished) (ha : admitsPoll s.intake = true) : IntakeOk (sendPoll g a s) := by
  have hadm : 5 + s.intake.flagCount ≤ s.intake.free := by
    exact of_decide_eq_true ha
  have hfree := s.intake.free_add h.1
  have hzero : s.intake.flagCount = 0 := by
    by_contra hf
    have := h.2.2.2 (by omega)
    omega
  have hbus : (sendPoll g a s).bus.get g = { s.bus.get g with
      addrs := (s.bus.get g).addrs.modify a (fun d => { d with thinning := 0 })
      poll := .some (newPoll g a s) } := by
    simp [sendPoll, State.onAddr]
  refine h.move (g := g) (fun i hi => ?_) ?_ ?_ ⟨?_, fun hf => ?_⟩
  · simp [sendPoll, State.onAddr, Quad.get_modify_ne _ _ hi]
  · rw [hbus]
    rintro q hq
    obtain rfl : newPoll g a s = q := Option.some.inj hq
    simpa [newPoll, Config.pollPlaces] using hr
  · rw [hbus, Bus.held_of_none hp]
    simp [sendPoll, Bus.held, newPoll, State.onAddr]
  · simp only [sendPoll, State.onIntake_intake, Intake.occupied, Config.pollPlaces] at hfree ⊢
    simp only [State.onPu_intake, State.onBus_intake, State.onAddr] at hfree ⊢
    omega
  · have : (sendPoll g a s).intake.flagCount = s.intake.flagCount := Intake.flagCount_congr rfl
    omega

/-- A visit in a round sends a poll or leaves none, and the round goes on. -/
theorem visit_intakeOk (a : Addr) (h : IntakeOk s) (hp : (s.bus.get g).poll = .none)
    (hr : (s.bus.get g).round ≠ .finished) :
    IntakeOk (visit g a s) ∧ ((visit g a s).bus.get g).round = (s.bus.get g).round := by
  have hb : ∀ (f : AddrState → AddrState) (v : State),
      ((v.onAddr g a f).bus.get g).poll = (v.bus.get g).poll ∧
        ((v.onAddr g a f).bus.get g).round = (v.bus.get g).round := by
    intro f v
    simp [State.onAddr]
  have step : ∀ (f : AddrState → AddrState) (v : State), IntakeOk v → (v.bus.get g).poll = .none →
      IntakeOk (v.onAddr g a f) := by
    intro f v hv hpv
    exact hv.onBus_idle hpv hpv
  have ht := step (fun d => { d with quiet := holdAt 8 d.quiet }) s h hp
  obtain ⟨hpt, hrt⟩ := hb (fun d => { d with quiet := holdAt 8 d.quiet }) s
  unfold visit
  extract_lets v b p
  split
  · exact ⟨ht, hrt⟩
  · exact ⟨step _ v ht (hpt.trans hp), (hb _ v).2.trans hrt⟩
  · split
    · next ha =>
      refine ⟨sendPoll_intakeOk a ht (hpt.trans hp) (by rw [hrt]; exact hr) ha, ?_⟩
      refine Eq.trans ?_ hrt
      simp [sendPoll, State.onAddr, v]
    · exact ⟨ht, hrt⟩

/-- The rest of a round keeps the invariant, and a finished round has no poll in flight (R22). -/
theorem runVisits_intakeOk (n : Nat) (h : IntakeOk s) (hp : (s.bus.get g).poll = .none) :
    IntakeOk (runVisits g n s) ∧
      (((runVisits g n s).bus.get g).round = .finished → ((runVisits g n s).bus.get g).poll = .none) := by
  induction n generalizing s with
  | zero => exact ⟨h.onBus_idle hp hp, fun _ => by simpa [runVisits] using hp⟩
  | succ n ih =>
    have hs : IntakeOk (s.onBus g fun b => { b with round := .inProgress n }) := h.onBus_idle hp hp
    obtain ⟨hv, hround⟩ := visit_intakeOk (g := g) ⟨n % 4, Nat.mod_lt n (by decide)⟩ hs (by simpa using hp) (by simp)
    rw [runVisits]
    split
    · refine ⟨hv, fun hf => ?_⟩
      rw [hround] at hf
      simp at hf
    · next hn => exact ih hv hn

theorem Bus.startRound_poll (first : Bool) (b : Bus) : (b.startRound first).poll = b.poll := by
  simp only [Bus.startRound]; split <;> rfl

theorem continueRound_intakeOk (n : Nat) (h : IntakeOk s) (hp : (s.bus.get g).poll = .none) :
    IntakeOk (continueRound g n s) := by
  obtain ⟨hv, hidle⟩ := runVisits_intakeOk n h hp
  unfold continueRound
  dsimp only
  split
  · next hd =>
    have hn := hidle hd.1
    have hstart : IntakeOk ((runVisits g n s).onBus g fun b => { b with roundDue := false }.startRound false) :=
      hv.onBus_idle hn (by rw [Bus.startRound_poll]; exact hn)
    exact (runVisits_intakeOk 4 hstart (by simpa [Bus.startRound_poll] using hn)).1
  · exact hv

theorem firstRound_intakeOk (h : IntakeOk s) (hp : (s.bus.get g).poll = .none) : IntakeOk (firstRound g s) :=
  continueRound_intakeOk 4 (h.onBus_idle hp (by rw [Bus.startRound_poll]; exact hp))
    (by simpa [Bus.startRound_poll] using hp)

theorem nextVisit_intakeOk (h : IntakeOk s) (hp : (s.bus.get g).poll = .none) : IntakeOk (nextVisit g s) := by
  unfold nextVisit
  split
  · exact continueRound_intakeOk _ h hp
  · exact h

/-! ### Synthetic admission and pressure -/

theorem admitSynth_intakeOk (p : Pos) (k : Synth) (h : IntakeOk s) : IntakeOk (admitSynth p k s) := by
  rcases admit_cases p k s with ⟨he, _⟩ | ⟨he, _, _, hf⟩ | ⟨he, _, _, hf⟩
  · rw [he]; exact h
  · rw [he]
    refine h.onIntake rfl ⟨?_, fun hc => ?_⟩
    · have := s.intake.free_add h.1
      simp only [Intake.enter, Intake.occupied, List.length_append, List.length_singleton] at this ⊢
      omega
    · have := h.2.2.2 hc
      omega
  · rw [he]
    exact h.onIntake rfl ⟨h.1, fun _ => hf⟩

theorem judgePressure_intakeOk (u : State) (h : IntakeOk s) : IntakeOk (judgePressure u s) := by
  rcases judgePressure_cases u s with he | ⟨x, _, hv⟩
  · rw [he]; exact h
  · exact (h.onIntake rfl (h.sound.congr rfl rfl fun _ _ hk => hk) :
      IntakeOk (s.onIntake fun f => { f with pressure := x })).of_same hv.intake hv.bus

/-! ### The ends of polls -/

/-- The bus of a state with its poll just ended. -/
theorem endPoll_poll (v : State) : ((v.onBus g Bus.endPoll).bus.get g).poll = .none := by simp [Bus.endPoll]

/-- A poll ends and its places go with it (R27, R45). -/
theorem IntakeOk.ended {q : Poll} {f : Intake → Intake} (h : IntakeOk s) (hq : (s.bus.get g).held = q.reserved)
    (hi : t.intake = f s.intake) (hb : t.bus = s.bus) (hr : (f s.intake).reserved = s.intake.reserved - q.reserved)
    (hs : (f s.intake).Sound) : IntakeOk (t.onBus g Bus.endPoll) := by
  have hle := heldPlaces_ge s g
  have hres := h.2.1
  refine h.move (g := g) (fun i hi => ?_) (Bus.holdOk_of_none (endPoll_poll t)) ?_ ?_
  · rw [State.onBus_bus, Quad.get_modify_ne _ _ hi, hb]
  · rw [Bus.held_of_none (endPoll_poll t), State.onBus_intake, hi, hr]
    omega
  · rw [State.onBus_intake, hi]; exact hs

theorem IntakeOk.released {q : Poll} (h : IntakeOk s) (hq : (s.bus.get g).held = q.reserved) :
    IntakeOk ((s.onIntake fun f => f.release q.reserved).onBus g Bus.endPoll) :=
  h.ended (f := fun f => f.release q.reserved) hq (State.onIntake_intake _ _) (State.onIntake_bus _ _)
    (Intake.release_reserved _ _) (Intake.release_sound _ _ h.sound)

/-- A state that holds the same polls under the same IF, for the ends of polls. -/
structure SamePolls (s t : State) : Prop where
  intake : t.intake = s.intake
  other : ∀ g, (t.bus.get g).poll = (s.bus.get g).poll ∧ (t.bus.get g).round = (s.bus.get g).round ∧
    (t.bus.get g).roundTimer = (s.bus.get g).roundTimer

theorem SamePolls.refl (s : State) : SamePolls s s := ⟨rfl, fun _ => ⟨rfl, rfl, rfl⟩⟩

theorem SamePolls.trans (h : SamePolls s t) (k : SamePolls t u) : SamePolls s u :=
  ⟨k.intake.trans h.intake, fun g => ⟨(k.other g).1.trans (h.other g).1, (k.other g).2.1.trans (h.other g).2.1,
    (k.other g).2.2.trans (h.other g).2.2⟩⟩

theorem SamePolls.of_same (hi : t.intake = s.intake) (hb : t.bus = s.bus) : SamePolls s t :=
  ⟨hi, fun g => by rw [hb]; exact ⟨rfl, rfl, rfl⟩⟩

theorem SamePolls.held (h : SamePolls s t) (g : Group) : (t.bus.get g).held = (s.bus.get g).held := by
  simp only [Bus.held, (h.other g).1]

theorem SamePolls.intakeOk (h : SamePolls s t) (hs : IntakeOk s) : IntakeOk t := by
  refine .mk (by rw [h.intake]; exact hs.sound) ?_ fun g => ?_
  · have h0 := h.held 0
    have h1 := h.held 1
    have h2 := h.held 2
    have h3 := h.held 3
    simp only [Quad.get] at h0 h1 h2 h3
    rw [h.intake, hs.2.1]
    simp only [heldPlaces, h0, h1, h2, h3]
  · have := hs.2.2.1 g
    simp only [Bus.holdOk, (h.other g).1, (h.other g).2.1, (h.other g).2.2] at this ⊢
    exact this

theorem onAddr_samePolls (g : Group) (a : Addr) (f : AddrState → AddrState) (s : State) :
    SamePolls s (s.onAddr g a f) := by
  refine ⟨rfl, fun i => ?_⟩
  simp only [State.onAddr, State.onBus_bus]
  by_cases hi : i = g
  · rw [hi, Quad.get_modify_same]; exact ⟨rfl, rfl, rfl⟩
  · rw [Quad.get_modify_ne _ _ hi]; exact ⟨rfl, rfl, rfl⟩

theorem postKeypadState_samePolls (p : Pos) (pr : Presence) (s : State) : SamePolls s (postKeypadState p pr s) :=
  .of_same (by rw [postKeypadState_intake]) (by rw [postKeypadState_bus])

theorem missPoll_intakeOk {q : Poll} (c : Bool) (h : IntakeOk s) (hq : (s.bus.get g).held = q.reserved) :
    IntakeOk (missPoll g q c s) ∧ ((missPoll g q c s).bus.get g).poll = .none := by
  unfold missPoll
  extract_lets p counted d lost moved released
  have hp : SamePolls s (s.onPos p fun r =>
      { r with misses := sat16 r.misses, checkErrors := if c then sat16 r.checkErrors else r.checkErrors }) :=
    .of_same (State.onPos_intake _ _ _) (State.onPos_bus _ _ _)
  have hc : SamePolls s counted := hp.trans (onAddr_samePolls g q.addr _ _)
  have hm : SamePolls s moved := by
    simp only [moved]
    split
    · exact hc.trans ((onAddr_samePolls g q.addr _ _).trans (postKeypadState_samePolls p _ _))
    · exact hc
  have hr : IntakeOk released := (hm.intakeOk h).released ((hm.held g).trans hq)
  have hn : (released.bus.get g).poll = .none := endPoll_poll _
  split
  · refine ⟨admitSynth_intakeOk p _ hr, ?_⟩
    rw [admitSynth_bus]; exact hn
  · exact ⟨hr, hn⟩

theorem countKey_intake (p : Pos) (s : State) (c : Code) : (countKey p s c).intake = s.intake := by
  unfold countKey keyEntered
  split
  · rfl
  · split <;> rfl

theorem countKey_bus (p : Pos) (s : State) (c : Code) : (countKey p s c).bus = s.bus := by
  unfold countKey keyEntered
  split
  · rfl
  · split <;> rfl

/-- The count of a batch's keys leaves the IF and the buses as they are. -/
theorem foldl_countKey (p : Pos) (l : List Code) (s : State) :
    (l.foldl (countKey p) s).intake = s.intake ∧ (l.foldl (countKey p) s).bus = s.bus :=
  foldl_keeps (P := fun t => t.intake = s.intake ∧ t.bus = s.bus) (countKey p)
    (fun v c hv => ⟨(countKey_intake p v c).trans hv.1, (countKey_bus p v c).trans hv.2⟩) l s ⟨rfl, rfl⟩

theorem noteBatch_samePolls (g : Group) (a : Addr) (r : Reply) (j : BatchJudgement) (s : State) :
    SamePolls s (noteBatch g a r j s) := by
  cases j with
  | accepted => exact onAddr_samePolls g a _ s
  | resend => exact .of_same rfl rfl
  | empty => exact .refl s

theorem takeBatch_intakeOk {q : Poll} {r : Reply} (j : BatchJudgement) (h : IntakeOk s)
    (hq : (s.bus.get g).held = q.reserved) (hr : r.codes.length ≤ q.reserved) : IntakeOk (takeBatch g q r j s) := by
  have hkeys : r.keys.length ≤ q.reserved := (List.length_filterMap_le _ _).trans hr
  have hle := heldPlaces_ge s g
  have hres := h.2.1
  unfold takeBatch
  dsimp only
  split
  · obtain ⟨hi, hb⟩ := foldl_countKey (posAt g q.addr) r.keys
      (s.onIntake fun f => f.enterBatch (posAt g q.addr) r.keys q.reserved)
    rw [State.onIntake_intake] at hi
    rw [State.onIntake_bus] at hb
    exact h.ended (f := fun f => f.enterBatch (posAt g q.addr) r.keys q.reserved) hq hi hb
      (Intake.enterBatch_reserved _ _ _ _) (Intake.enterBatch_sound _ _ _ _ hkeys (by omega) h.sound)
  · exact h.released hq

theorem noteAlarm_intakeOk (a : Addr) (b : Bool) (h : IntakeOk s) :
    IntakeOk (noteAlarm g a b s) ∧ ((noteAlarm g a b s).bus.get g).poll = (s.bus.get g).poll := by
  have ha := onAddr_samePolls g a (fun d => { d with alarm := b }) s
  unfold noteAlarm
  dsimp only
  split
  · exact ⟨admitSynth_intakeOk _ _ (ha.intakeOk h), by rw [admitSynth_bus]; exact (ha.other g).1⟩
  · exact ⟨ha.intakeOk h, (ha.other g).1⟩

theorem noteDisplay_samePolls (p : Pos) (q : Poll) (b : Bool) (s : State) : SamePolls s (noteDisplay p q b s) := by
  unfold noteDisplay
  split
  · exact .refl s
  · split
    · exact .of_same rfl rfl
    · exact .refl s

theorem validReply_intakeOk {q : Poll} {r : Reply} (h : IntakeOk s) (hq : (s.bus.get g).held = q.reserved)
    (hr : r.codes.length ≤ q.reserved) :
    IntakeOk (validReply g q r s) ∧ ((validReply g q r s).bus.get g).poll = .none := by
  unfold validReply
  extract_lets p heard back online j taken returned
  have hh : SamePolls s heard := onAddr_samePolls g q.addr _ s
  have ho : SamePolls s online := by
    simp only [online]
    split
    · exact hh.trans ((onAddr_samePolls g q.addr _ _).trans (postKeypadState_samePolls p _ _))
    · exact hh
  have hn := ho.trans (noteBatch_samePolls g q.addr r j online)
  have ht : IntakeOk taken := takeBatch_intakeOk j (hn.intakeOk h) ((hn.held g).trans hq) hr
  have hp : (taken.bus.get g).poll = .none := endPoll_poll _
  have hret : IntakeOk returned ∧ (returned.bus.get g).poll = .none := by
    simp only [returned]
    split
    · exact ⟨admitSynth_intakeOk p _ ht, by rw [admitSynth_bus]; exact hp⟩
    · exact ⟨ht, hp⟩
  obtain ⟨hal, hap⟩ := noteAlarm_intakeOk (g := g) q.addr r.alarm hret.1
  have hd := noteDisplay_samePolls p q r.applied (noteAlarm g q.addr r.alarm returned)
  exact ⟨hd.intakeOk hal, (hd.other g).1.trans (hap.trans hret.2)⟩

/-- A disowned poll holds no place (R40). -/
theorem endDisowned_intakeOk (h : IntakeOk s) (hq : (s.bus.get g).held = 0) : IntakeOk (endDisowned g s) := by
  refine firstRound_intakeOk (h.onBus (Bus.holdOk_of_none rfl) ?_) (by simp [Bus.endPoll])
  rw [hq]; rfl

/-- The poll that an event ends, in the terms of the invariant. -/
theorem IntakeOk.poll {q : Poll} (h : IntakeOk s) (hq : (s.bus.get g).poll = .some q) :
    (s.bus.get g).held = q.reserved ∧ q.reserved = (if q.disowned then 0 else 5) :=
  ⟨Bus.held_of_some hq, (h.2.2.1 g q hq).1⟩

theorem windowEnds_intakeOk {q : Poll} (h : IntakeOk s) (hq : (s.bus.get g).poll = .some q) :
    IntakeOk (if q.disowned then endDisowned g s else nextVisit g (missPoll g q false s)) := by
  obtain ⟨hheld, hres⟩ := h.poll hq
  split
  · next hd =>
    rw [if_pos hd] at hres
    exact endDisowned_intakeOk h (hheld.trans hres)
  · obtain ⟨hm, hn⟩ := missPoll_intakeOk false h hheld
    exact nextVisit_intakeOk hm hn

theorem replyEnds_intakeOk {q : Poll} {phase : PollPhase} {r : Reply} (h : IntakeOk s)
    (hq : (s.bus.get g).poll = .some { q with phase := phase }) (hr : r.codes.length ≤ 4) :
    IntakeOk (replyEnds g q r s) := by
  obtain ⟨hheld, hres⟩ := h.poll hq
  replace hheld : (s.bus.get g).held = q.reserved := hheld
  replace hres : q.reserved = (if q.disowned then 0 else 5) := hres
  unfold replyEnds
  split
  · next hd =>
    rw [if_pos hd] at hres
    exact endDisowned_intakeOk h (hheld.trans hres)
  · next hd =>
    rw [if_neg hd] at hres
    split
    · obtain ⟨hv, hn⟩ := validReply_intakeOk (r := r) h hheld (by omega)
      exact nextVisit_intakeOk hv hn
    · obtain ⟨hm, hn⟩ := missPoll_intakeOk (!r.checkOk) h hheld
      exact nextVisit_intakeOk hm hn

/-! ### The other events -/

theorem LineEvent.intakeOk {p : Pos} (h : LineEvent p s t) (hs : IntakeOk s) : IntakeOk t := by
  obtain ⟨v, l, hv, rfl | rfl⟩ := h.lineWork
  · exact hs.of_same hv.lineWork.intake hv.lineWork.bus
  · exact judgePressure_intakeOk s (foldl_keeps (P := IntakeOk) (fun w k => admitSynth p k w)
      (fun w k hw => admitSynth_intakeOk p k hw) l v (hs.of_same hv.lineWork.intake hv.lineWork.bus))

theorem postApplied_places (n : Option AppNotice) (v : State) :
    (releaseReservation (postApplied n v)).intake = v.intake ∧
      (releaseReservation (postApplied n v)).bus = v.bus := by
  rw [releaseReservation_intake, releaseReservation_bus]
  cases n <;> exact ⟨rfl, rfl⟩

theorem processEntry_places (e : IntakeEntry) (s : State) :
    (processEntry e s).intake = s.intake ∧ (processEntry e s).bus = s.bus := by
  unfold processEntry
  split
  · exact ⟨by rw [releaseReservation_intake], by rw [releaseReservation_bus]⟩
  · dsimp only
    split
    · exact ⟨rfl, rfl⟩
    · generalize s.tables.readEntry (s.pos.get e.pos).bank (s.pos.get e.pos).mode e.code = d
      have ha := applyDisposition_application e.pos e.code d s
      obtain ⟨hi, hb⟩ := postApplied_places (applyDisposition e.pos e.code d s).2.notice (applyDisposition e.pos e.code d s).1
      exact ⟨hi.trans ha.intake, hb.trans ha.bus⟩

theorem withdraw_intakeOk (e : IntakeEntry) (rest : List IntakeEntry) (he : s.intake.entries = e :: rest)
    (h : IntakeOk s) : IntakeOk (Machine.withdraw e rest s) := by
  have hlen : s.intake.occupied = rest.length + 1 := by simp [Intake.occupied, he]
  have hw := h.1
  have hg : IntakeOk (s.onOq fun q => { q with reservation := q.reservation + Config.engineSlots }) := h.of_same rfl rfl
  have hi := hg.onIntake (f := fun f => Intake.serveFlags { f with entries := rest })
    (Intake.serveFlags_served _).reserved (Intake.serveFlags_sound _ (by
      simp only [State.onOq_intake, Intake.occupied] at hlen hw ⊢
      omega))
  unfold Machine.withdraw
  obtain ⟨hpi, hpb⟩ := processEntry_places e ((s.onOq fun q =>
    { q with reservation := q.reservation + Config.engineSlots }).onIntake fun f => Intake.serveFlags { f with entries := rest })
  exact hi.of_same hpi hpb

theorem tick_samePolls_holdOk {b : Bus} (h : b.holdOk) : b.tick.holdOk := by
  intro q hq
  obtain ⟨hr, hd⟩ := h q hq
  refine ⟨hr, ?_⟩
  split
  · next hdis =>
    rw [if_pos hdis] at hd
    exact ⟨hd.1, by simp [Bus.tick, hd.2, Timer.tick]⟩
  · next hdis =>
    rw [if_neg hdis] at hd
    exact hd

theorem tick_intakeOk (h : IntakeOk s) : IntakeOk s.tick := by
  refine .mk h.sound ?_ fun g => ?_
  · exact h.2.1
  · simpa [State.tick] using tick_samePolls_holdOk (h.2.2.1 g)

theorem Intake.voidPosition_sound (p : Pos) {f : Intake} (h : f.Sound) : (f.voidPosition p).Sound := by
  refine h.congr (by simp [Intake.occupied, Intake.voidPosition]) rfl fun q k hk => ?_
  simp only [Intake.voidPosition, PerPos.get_set] at hk
  split at hk
  · cases k <;> cases hk
  · exact hk

theorem closeWork_intakeOk (p : Pos) (h : IntakeOk s) : IntakeOk (closeWork p s) :=
  (h.onIntake (f := Intake.voidPosition p) rfl (Intake.voidPosition_sound p h.sound)).of_same
    (closeWork_intake p s) (closeWork_bus p s)

/-- A bus at a counter reset holds no place (R40). -/
theorem Bus.counterReset_places (b : Bus) : b.counterReset.held = 0 ∧ b.counterReset.holdOk := by
  unfold Bus.counterReset
  split
  · exact ⟨rfl, Bus.holdOk_of_none rfl⟩
  · refine ⟨rfl, fun q hq => ?_⟩
    cases hq
    exact ⟨rfl, rfl, rfl⟩

theorem counterResetBlocks_intakeOk (s : State) : IntakeOk (counterResetBlocks s) := by
  have hvalues : IntakeOk s.counterResetValues := by
    have hi : s.counterResetValues.intake = Intake.initial := rfl
    refine .mk ?_ ?_ fun g => ?_
    · rw [hi]; exact ⟨by decide, by decide⟩
    · have h := fun g => (Bus.counterReset_places (s.bus.get g)).1
      have h0 := h 0
      have h1 := h 1
      have h2 := h 2
      have h3 := h 3
      simp only [Quad.get] at h0 h1 h2 h3
      simp [State.counterResetValues, heldPlaces, Quad.map, h0, h1, h2, h3, Intake.initial]
    · simpa [State.counterResetValues] using (Bus.counterReset_places (s.bus.get g)).2
  have hlines : IntakeOk (allPositions.foldl (lineAtReset s) s.counterResetValues) :=
    foldl_keeps (P := IntakeOk) (lineAtReset s) (fun v p hv =>
      hv.of_same (lineAtReset_steps s v p).lineWork.intake (lineAtReset_steps s v p).lineWork.bus) _ _ hvalues
  refine foldl_keeps (P := IntakeOk) startAtReset (fun v g hv => ?_) allFour _ hlines
  unfold startAtReset
  split
  · exact hv
  · next hn => exact firstRound_intakeOk hv hn

theorem Effect.intakeOk {k : ReqKind} (h : Effect s k t) (hs : IntakeOk s) : IntakeOk t := by
  have line : ∀ {p : Pos} {u v : State}, LineSteps p u v → IntakeOk u → IntakeOk v :=
    fun h hu => hu.of_same h.lineWork.intake h.lineWork.bus
  cases h with
  | busSet g ps => exact hs.onBus (hs.2.2.1 g) rfl
  | closePosition p => exact closeWork_intakeOk p hs
  | closeReady p => exact line (powerOffCard_steps (.refl p _)) (closeWork_intakeOk p hs)
  | resetPosition p =>
    have hc : IntakeOk (closeWork p (removeExchange p s)) :=
      closeWork_intakeOk p (hs.of_same (State.putXs_intake _ _ _) (State.putXs_bus _ _ _))
    unfold resetWork
    split
    · exact (line (powerOffCard_steps (.refl p _)) hc).of_same (State.onPos_intake _ _ _) (State.onPos_bus _ _ _)
    · exact hc.of_same (State.onPos_intake _ _ _) (State.onPos_bus _ _ _)
  | counterReset => exact counterResetBlocks_intakeOk s
  | cardLineSet g ps =>
    exact setPending_fold_steps ps _ (P := IntakeOk) (fun p u t h hu => line h hu) s hs
  | cardPower p | cardExchange p | cardPresent p => exact line (startExchange_steps _ _ _ (.refl p s)) hs
  | cardRelease p => exact line (startExchange_steps _ _ _ (onLine_steps _ (.refl p s))) hs
  | cardAbort p x => exact line (abortExchange_steps x (.refl p s)) hs
  | attend a d =>
    have ha := applyDisposition_application a.pos a.code d s
    obtain ⟨hi, hb⟩ := postApplied_places (applyDisposition a.pos a.code d s).2.notice
      (dropAttention (applyDisposition a.pos a.code d s).1)
    rw [resolve_fst]
    exact hs.of_same (hi.trans ha.intake) (hb.trans ha.bus)
  | _ => exact hs.of_same rfl rfl

theorem Event.intakeOk (h : Event s t) (hs : IntakeOk s) : IntakeOk t := by
  have accepted : Accepts s t → IntakeOk t := fun h =>
    h.keeps hs (fun u v _ _ _ hi _ _ _ _ hb hu => hu.of_same hi hb) fun u v k h hu => h.intakeOk hu
  cases h with
  | accept r => exact accepted ⟨r, s.oq.queue, s.oq.begun, s.link, rfl⟩
  | replyLeavesWaiting r rest b l w => exact accepted ⟨w, rest, b, l, rfl⟩
  | pending | link | hold | transfer | replyLeaves => exact hs.of_same rfl rfl
  | noticeLeaves n rest b hq =>
    exact hs.of_same (t := serveOwed _) (serveOwed_served _).intake (serveOwed_served _).bus
  | roundStarts g n hd hr =>
    -- A round timer runs in no disowned poll, and a finished round has no other (R21, R40).
    have hn : (s.bus.get g).poll = .none := by
      cases hq : (s.bus.get g).poll with
      | none => rfl
      | some q =>
        have hk := (hs.2.2.1 g q hq).2
        split at hk
        · rw [hk.2] at hd; cases hd
        · exact absurd hr hk
    have h1 : IntakeOk (s.onBus g fun b => { b with roundTimer := .running n }) := hs.onBus_idle hn hn
    have hn1 : ((s.onBus g fun b => { b with roundTimer := .running n }).bus.get g).poll = .none := by simpa using hn
    have h2 := h1.onBus_idle (f := Bus.startRound false) hn1 (by rw [Bus.startRound_poll]; exact hn1)
    exact judgePressure_intakeOk s (continueRound_intakeOk 4 h2 (by simpa [Bus.startRound_poll] using hn))
  | roundDue g n hd hr =>
    have h1 : IntakeOk (s.onBus g fun b => { b with roundTimer := .running n }) := by
      refine hs.onBus (fun q hq => ?_) rfl
      obtain ⟨hres, hk⟩ := hs.2.2.1 g q hq
      refine ⟨hres, ?_⟩
      split
      · next hdis =>
        rw [if_pos hdis] at hk
        exact absurd hk.1 hr
      · exact hr
    exact h1.onBus (h1.2.2.1 g) rfl
  | window g q phase hq =>
    refine hs.onBus (fun q' hq' => ?_) (Bus.held_of_some hq).symm
    cases hq'
    exact hs.2.2.1 g q hq
  | replyEnds g q phase r hq hr => exact judgePressure_intakeOk s (replyEnds_intakeOk hs hq hr)
  | windowEnds g q hq => exact judgePressure_intakeOk s (windowEnds_intakeOk hs hq)
  | withdraw e rest he => exact judgePressure_intakeOk s (withdraw_intakeOk e rest he hs)
  | lapse a =>
    have ha := applyDisposition_application a.pos a.code a.held s
    refine hs.of_same ?_ ?_
    · rw [releaseReservation_intake]; exact ha.intake
    · rw [releaseReservation_bus]; exact ha.bus
  | interkey p e he => exact judgePressure_intakeOk s (admitSynth_intakeOk p _ (hs.of_same rfl rfl))
  | total p e mode he =>
    refine hs.of_same ?_ ?_
    · rw [postExpired_intake]; rfl
    · rw [postExpired_bus]; rfl
  | holdExpires p hd =>
    refine judgePressure_intakeOk s ?_
    unfold Machine.holdExpires
    split
    · exact hs.of_same rfl rfl
    · exact admitSynth_intakeOk p _ (hs.of_same rfl rfl)
  | line p _ h => exact h.intakeOk hs
  | tick => exact tick_intakeOk hs

end Sys2Proof.Machine

open Sys2Proof Sys2Proof.Machine

/-- Settles O56: every event keeps the counts of the IF and of the polls in step. -/
theorem everyStepKeepsTheIntakeLimit : Obligations.EveryStepKeepsTheIntakeLimit := by
  unfold Obligations.EveryStepKeepsTheIntakeLimit
  intro s t hs ht
  exact step_keeps (P := IntakeOk) (fun mode wcts s => (poweredState_inv mode wcts s).intake)
    (fun _ _ h => h.intakeOk) ht hs

end

section
/-! SUPPORT. The part of a card line and of its exchange record that agree with each other (R137, R154, R156): what each
operation of a line makes of it, and the invariant that every event keeps it so. -/

namespace Sys2Proof.Machine

open Sys2Proof

/-! ### The view -/

/-- The kind of an exchange in flight and whether its opening frame has left; none for a held result. -/
def Exchange.live (x : Exchange) : Option (ExchangeKind × Bool) :=
  match x.phase with
  | .awaiting => .some (x.kind, x.sent)
  | .held _ _ => .none

/-- What `CardOk` reads of a line and its record. -/
@[ext] structure CardView where
  state : CardState
  presence : ReaderPresence
  leaving : Option TxFrame
  waiting : List TxFrame
  live : Option (ExchangeKind × Bool)

/-- The line and record of a position. -/
def State.card (s : State) (p : Pos) : CardView :=
  ⟨(s.line.get p).state, (s.line.get p).presence, (s.line.get p).txLeaving, (s.line.get p).txWaiting,
    (s.xs.get p).bind Exchange.live⟩

/-- How many opening frames the record has WAITING (R156). -/
def CardView.openings (v : CardView) : Nat :=
  match v.live with
  | .none => 0
  | .some kb => if kb.1 ≠ .release ∧ kb.2 = false then 1 else 0

/-- The card state agrees with the reader and with the exchange in flight. -/
structure CardView.Agrees (v : CardView) : Prop where
  reader : v.state = .noReader ↔ v.presence ≠ .present
  flight : ∀ k b, v.live = .some (k, b) → v.state = k.inFlightState
  busy : v.state = .powering ∨ v.state = .exchanging → v.live ≠ .none

/-- The transmit list flows, with no opening frame that no record waits for. -/
structure CardView.Flows (v : CardView) : Prop where
  openings : v.waiting.count .opening ≤ v.openings
  flows : v.leaving = .none → v.waiting = []
  leaving : v.leaving ≠ .some .opening

/-- `CardOk` on the view. -/
structure CardView.Ok (v : CardView) : Prop where
  agrees : v.Agrees
  flows : v.Flows
  openings : v.waiting.count .opening = v.openings

variable {p q : Pos} {s t u : State} {v : CardView}

theorem State.card_live (s : State) (p : Pos) : (s.card p).live = (s.xs.get p).bind Exchange.live := rfl

theorem Exchange.live_awaiting {x : Exchange} (h : x.phase = .awaiting) : x.live = .some (x.kind, x.sent) := by
  rw [Exchange.live, h]

theorem Exchange.live_held {x : Exchange} {o : ExchangeOutcome} {d : Option (List Byte)} (h : x.phase = .held o d) :
    x.live = .none := by
  rw [Exchange.live, h]

theorem card_live_iff : (∃ k b, (s.card p).live = .some (k, b)) ↔ s.inFlight p = true := by
  simp only [State.card_live, State.inFlight]
  cases hx : s.xs.get p with
  | none => simp
  | some x =>
    cases hp : x.phase with
    | awaiting => simp [Exchange.live_awaiting hp, hp]
    | held o d => simp [Exchange.live_held hp, hp]

theorem card_live_of_awaiting {x : Exchange} (hx : s.xs.get p = .some x) (ha : x.phase = .awaiting) :
    (s.card p).live = .some (x.kind, x.sent) := by
  simp [State.card_live, Exchange.live, hx, ha]

theorem card_openings (s : State) (p : Pos) : (s.card p).openings =
    (match s.xs.get p with
      | .none => 0
      | .some x => if x.openingWaits then 1 else 0) := by
  cases hx : s.xs.get p with
  | none => simp [CardView.openings, State.card_live, hx]
  | some x =>
    cases hp : x.phase with
    | held o d => simp [CardView.openings, State.card_live, hx, Exchange.live_held hp, Exchange.openingWaits, hp]
    | awaiting => simp [CardView.openings, State.card_live, hx, Exchange.live_awaiting hp, Exchange.openingWaits, hp]

theorem cardOk_iff (s : State) (p : Pos) : CardOk s p ↔ (s.card p).Ok := by
  constructor
  · rintro ⟨hr, hf, hb, ho, hw, hl⟩
    replace ho := ho.trans (card_openings s p).symm
    refine ⟨⟨hr, fun k b hk => ?_, fun h hn => ?_⟩, ⟨ho.le, hw, hl⟩, ho⟩
    · cases hx : s.xs.get p with
      | none => simp [State.card_live, hx] at hk
      | some x =>
        cases ha : x.phase with
        | held => simp [State.card_live, Exchange.live, hx, ha] at hk
        | awaiting =>
          rw [card_live_of_awaiting hx ha] at hk
          cases hk
          exact hf x hx ha
    · obtain ⟨k, b, hk⟩ := card_live_iff.2 (hb h)
      rw [hk] at hn
      cases hn
  · rintro ⟨⟨hr, hf, hb⟩, ⟨_, hw, hl⟩, ho⟩
    refine ⟨hr, fun x hx ha => hf _ _ (card_live_of_awaiting hx ha), fun h => ?_, ho.trans (card_openings s p), hw, hl⟩
    cases hk : (s.card p).live with
    | none => exact absurd hk (hb h)
    | some kb => exact card_live_iff.1 ⟨kb.1, kb.2, hk⟩

/-! ### What leaves the view as it is -/

/-- Another change count, and a held result gone, are nothing to the view. -/
theorem card_of_served (hl : ∃ n, t.line.get p = { s.line.get p with changes := n })
    (hx : t.xs.get p = s.xs.get p ∨ t.xs.get p = .none ∧ ∃ x o d, s.xs.get p = .some x ∧ x.phase = .held o d) :
    t.card p = s.card p := by
  obtain ⟨n, hn⟩ := hl
  have hlive : (t.xs.get p).bind Exchange.live = (s.xs.get p).bind Exchange.live := by
    rcases hx with hx | ⟨hx, x, o, d, hs, hp⟩
    · rw [hx]
    · simp [hx, hs, Exchange.live, hp]
  simp only [State.card, hn, hlive]

theorem card_of_same (hl : t.line = s.line) (hx : t.xs = s.xs) : t.card p = s.card p := by
  simp only [State.card, hl, hx]

theorem Served.card (h : Served s t) (p : Pos) : t.card p = s.card p := card_of_served (h.line p) (h.xs p)

theorem Polled.card (h : Polled s t) (p : Pos) : t.card p = s.card p := card_of_served (h.line p) (h.xs p)

theorem LineWork.card (h : LineWork p s t) (hq : q ≠ p) : t.card q = s.card q := card_of_served (h.line q hq) (h.xs q hq)

/-- An update of the line that keeps what the view reads. -/
theorem onLine_card_same (f : CardLine → CardLine) (s : State) (p : Pos)
    (h : ∀ l, (f l).state = l.state ∧ (f l).presence = l.presence ∧ (f l).txLeaving = l.txLeaving ∧
      (f l).txWaiting = l.txWaiting) : (s.onLine p f).card p = s.card p := by
  obtain ⟨h1, h2, h3, h4⟩ := h (s.line.get p)
  simp only [State.card, State.onLine_line, PerPos.get_modify_same, State.onLine_xs, h1, h2, h3, h4]

theorem CardLine.loadSilence_view (l : CardLine) : l.loadSilence.state = l.state ∧
    l.loadSilence.presence = l.presence ∧ l.loadSilence.txLeaving = l.txLeaving ∧
      l.loadSilence.txWaiting = l.txWaiting := by
  unfold CardLine.loadSilence
  split <;> exact ⟨rfl, rfl, rfl, rfl⟩

theorem CardLine.validFrame_view (l : CardLine) : l.validFrame.state = l.state ∧
    l.validFrame.presence = l.presence ∧ l.validFrame.txLeaving = l.txLeaving ∧
      l.validFrame.txWaiting = l.txWaiting := by
  unfold CardLine.validFrame
  dsimp only
  split <;> exact CardLine.loadSilence_view _

theorem CardLine.settle_view (b : Bool) (l : CardLine) : (l.settle b).state = l.state ∧
    (l.settle b).presence = l.presence ∧ (l.settle b).txLeaving = l.txLeaving ∧
      (l.settle b).txWaiting = l.txWaiting := by
  unfold CardLine.settle
  split
  · exact ⟨rfl, rfl, rfl, rfl⟩
  · split <;> exact ⟨rfl, rfl, rfl, rfl⟩

theorem loadSilence_card (s : State) (p : Pos) : (s.onLine p CardLine.loadSilence).card p = s.card p :=
  onLine_card_same _ s p CardLine.loadSilence_view

theorem onLine_loadSilence_card (f : CardLine → CardLine) (s : State) (p : Pos) :
    (s.onLine p fun l => (f l).loadSilence).card p = (s.onLine p f).card p := by
  rw [← State.onLine_onLine p f CardLine.loadSilence, loadSilence_card]

theorem validFrame_card (s : State) (p : Pos) : (s.onLine p CardLine.validFrame).card p = s.card p :=
  onLine_card_same _ s p CardLine.validFrame_view

theorem settleLine_card (s : State) (p : Pos) : (settleLine p s).card p = s.card p :=
  onLine_card_same _ s p (CardLine.settle_view _)

theorem late_card (s : State) (p : Pos) : (s.onLine p CardLine.late).card p = s.card p :=
  onLine_card_same _ s p fun _ => ⟨rfl, rfl, rfl, rfl⟩

theorem postCardState_card (s : State) (p : Pos) : (postCardState p s).card p = s.card p :=
  (postCardState_served p s).card p

theorem wipePresented_card (s : State) (p : Pos) : (wipePresented p s).card p = s.card p := by
  unfold wipePresented
  split
  · rfl
  · split
    · exact card_of_same rfl rfl
    · rfl

theorem releaseReservation_card (s : State) (p : Pos) : (releaseReservation s).card p = s.card p :=
  ((releaseReservation_served s).card p).trans (card_of_same rfl rfl)

/-! ### What each operation makes of the view -/

/-- The view with the WAITING opening frame taken out (R156). -/
def CardView.drop (v : CardView) : CardView := { v with waiting := v.waiting.filter fun f => decide (f ≠ .opening) }

/-- The view once an exchange in flight, if there is one, has ended (R166). -/
def CardView.ended (v : CardView) : CardView :=
  match v.live with
  | .none => v
  | .some _ => { v.drop with live := .none }

/-- The view with a frame asked for (R137). -/
def CardView.asked (f : TxFrame) (v : CardView) : CardView :=
  match v.leaving with
  | .none => { v with leaving := .some f }
  | .some _ => { v with waiting := v.waiting ++ [f] }

theorem dropOpening_card (s : State) (p : Pos) : (s.onLine p CardLine.dropOpening).card p = (s.card p).drop := by
  simp [State.card, CardView.drop, CardLine.dropOpening]

theorem moveCard_card (st : CardState) (s : State) (p : Pos) :
    (moveCard p st s).card p = { s.card p with state := st } := by
  rw [moveCard, postCardState_card]
  simp [State.card, CardLine.move]

theorem endExchange_card (o : ExchangeOutcome) (d : Option (List Byte)) (s : State) (p : Pos) :
    (endExchange p o d s).card p = (s.card p).ended := by
  unfold endExchange
  split
  · next hx => simp [CardView.ended, State.card_live, hx]
  · next x hx =>
    split
    · next hp => simp [CardView.ended, State.card_live, hx, Exchange.live, hp]
    · next hp =>
      have hheld : ((s.onLine p CardLine.dropOpening).putXs p
          (.some { x with timer := .stopped, phase := .held o d, command := .none, header := .none })).card p =
          (s.card p).ended := by
        have hl := card_live_of_awaiting hx hp
        rw [CardView.ended, hl]
        simp [State.card, CardView.drop, CardLine.dropOpening, Exchange.live]
      dsimp only
      rw [loadSilence_card, (serveOwed_served _).card]
      split
      · rw [wipePresented_card, hheld]
      all_goals exact hheld

theorem card_waiting_nil (h : (s.card p).Flows) (hl : (s.line.get p).txLeaving = .none) :
    (s.line.get p).txWaiting = [] := h.flows hl

/-- A frame that is no opening frame is asked for (R137). -/
theorem ask_card {f : TxFrame} (hf : f ≠ .opening) (hw : (s.card p).leaving = .none → (s.card p).waiting = []) :
    (ask p f s).card p = (s.card p).asked f := by
  unfold ask pump
  rw [State.onLine_line, PerPos.get_modify_same]
  split
  · next g hg =>
    have hl : (s.line.get p).txLeaving = .some g := hg
    simp [State.card, CardView.asked, hl]
  · next hn =>
    have hl : (s.line.get p).txLeaving = .none := hn
    have hnil : (s.line.get p).txWaiting = [] := hw hl
    simp only [hnil, List.nil_append]
    rw [beginNext_cons [] _ hf]
    simp [State.card, CardView.asked, hl, hnil]

/-! ### What the operations keep -/

theorem count_filter_opening (l : List TxFrame) :
    (l.filter fun f => decide (f ≠ .opening)).count .opening = 0 := by
  rw [List.count_eq_zero]
  simp

theorem CardView.Ok.nowait (h : v.Ok) (hl : v.live = .none) : v.waiting.count .opening = 0 := by
  rw [h.openings, CardView.openings, hl]

theorem CardView.Flows.drop (h : v.Flows) : v.drop.Flows where
  openings := (count_filter_opening v.waiting).le.trans (Nat.zero_le _)
  flows := fun hl => by
    have hn : v.waiting = [] := h.flows hl
    simp [CardView.drop, hn]
  leaving := h.leaving

theorem CardView.Flows.asked {f : TxFrame} (hf : f ≠ .opening) (h : v.Flows) : (v.asked f).Flows := by
  unfold CardView.asked
  split
  · next hl =>
    exact ⟨h.openings, fun e => (Option.some_ne_none f e).elim, fun e => hf (Option.some.inj e)⟩
  · next g hl =>
    refine ⟨?_, fun e => ?_, h.leaving⟩
    · have := h.openings
      simpa [CardView.openings, List.count_append, List.count_singleton, hf] using this
    · rw [show v.leaving = .none from e] at hl; cases hl

theorem CardView.Flows.withState (h : v.Flows) (st : CardState) : ({ v with state := st } : CardView).Flows :=
  ⟨h.openings, h.flows, h.leaving⟩

theorem CardView.Flows.ended (h : v.Flows) : v.ended.Flows := by
  unfold CardView.ended
  split
  · exact h
  · exact ⟨(count_filter_opening v.waiting).le, h.drop.flows, h.leaving⟩

theorem CardView.ended_live (v : CardView) : v.ended.live = .none := by
  unfold CardView.ended
  split
  · next h => exact h
  · rfl

theorem CardView.ended_state (v : CardView) : v.ended.state = v.state ∧ v.ended.presence = v.presence := by
  unfold CardView.ended
  split <;> exact ⟨rfl, rfl⟩

theorem CardView.asked_same (f : TxFrame) (v : CardView) : (v.asked f).state = v.state ∧
    (v.asked f).presence = v.presence ∧ (v.asked f).live = v.live := by
  unfold CardView.asked
  split <;> exact ⟨rfl, rfl, rfl⟩

/-- With no exchange in flight the view is in order when its reader agrees and the card is not at work. -/
theorem CardView.Flows.ok_of_idle (h : v.Flows) (hl : v.live = .none) (hr : v.state = .noReader ↔ v.presence ≠ .present)
    (hp : v.state ≠ .powering) (he : v.state ≠ .exchanging) : v.Ok := by
  have hzero : v.openings = 0 := by rw [CardView.openings, hl]
  refine ⟨⟨hr, fun k b hk => ?_, fun hs => ?_⟩, h, ?_⟩
  · rw [hl] at hk; cases hk
  · rcases hs with hs | hs
    · exact absurd hs hp
    · exact absurd hs he
  · have := h.openings
    omega

theorem CardView.Ok.asked {f : TxFrame} (hf : f ≠ .opening) (h : v.Ok) : (v.asked f).Ok := by
  obtain ⟨hs, hp, hl⟩ := v.asked_same f
  refine ⟨⟨by rw [hs, hp]; exact h.agrees.reader, by rw [hs, hl]; exact h.agrees.flight,
    by rw [hs, hl]; exact h.agrees.busy⟩, h.flows.asked hf, ?_⟩
  have ho := h.openings
  have hopen : (v.asked f).openings = v.openings := by rw [CardView.openings, CardView.openings, hl]
  rw [hopen, ← ho]
  unfold CardView.asked
  split
  · rfl
  · simp [List.count_append, hf]

/-- The view once the card has moved and any exchange in flight has ended. -/
theorem CardView.Flows.ended_ok {st : CardState} (h : v.Flows) (hst : v.state = st)
    (hr : st = .noReader ↔ v.presence ≠ .present) (hp : st ≠ .powering) (he : st ≠ .exchanging) : v.ended.Ok := by
  obtain ⟨hs, hpr⟩ := v.ended_state
  refine h.ended.ok_of_idle v.ended_live ?_ ?_ ?_
  · rw [hs, hpr, hst]; exact hr
  · rw [hs, hst]; exact hp
  · rw [hs, hst]; exact he

/-- Outside NO_READER the reader is PRESENT, and so it stays in any other state. -/
theorem CardView.Ok.reader_of {st : CardState} (h : v.Ok) (hs : v.state ≠ .noReader) (hst : st ≠ .noReader) :
    st = .noReader ↔ v.presence ≠ .present :=
  ⟨fun e => absurd e hst, fun e => absurd (h.agrees.reader.2 e) hs⟩

theorem CardView.Ok.ne_noReader {k : ExchangeKind} {b : Bool} (h : v.Ok) (hl : v.live = .some (k, b)) :
    v.state ≠ .noReader := by
  rw [h.agrees.flight k b hl]
  cases k <;> exact CardState.noConfusion

/-- Without an exchange in flight the card is neither powering nor exchanging. -/
theorem CardView.Ok.not_busy (h : v.Ok) (hl : v.live = .none) : v.state ≠ .powering ∧ v.state ≠ .exchanging :=
  ⟨fun e => h.agrees.busy (.inl e) hl, fun e => h.agrees.busy (.inr e) hl⟩

/-! ### The transmit list -/

/-- The view with a frame leaving ahead of a list. -/
def CardView.leave (f : TxFrame) (rest : List TxFrame) (v : CardView) : CardView :=
  { v with leaving := .some f, waiting := rest }

theorem leave_card (f : TxFrame) (rest : List TxFrame) (s : State) (p : Pos) :
    (s.onLine p fun l => { l with txLeaving := .some f, txWaiting := rest }).card p = (s.card p).leave f rest := by
  simp [State.card, CardView.leave]

theorem CardView.Agrees.leave {f : TxFrame} {rest : List TxFrame} (h : v.Agrees) (hf : f ≠ .opening)
    (hc : rest.count .opening = v.openings) : (v.leave f rest).Ok :=
  ⟨⟨h.reader, h.flight, h.busy⟩, ⟨hc.le, fun e => (Option.some_ne_none f e).elim, fun e => hf (Option.some.inj e)⟩, hc⟩

/-- The frames of a list begin to leave: an opening frame only with the record that waits for it (R137, R156, R160). -/
theorem beginNext_card (l : List TxFrame) (ha : (s.card p).Agrees) (hl : (s.card p).leaving ≠ .some .opening)
    (hc : l.count .opening = (s.card p).openings) : ((beginNext p l s).card p).Ok := by
  induction l generalizing s with
  | nil =>
    have hv : (beginNext p [] s).card p = { s.card p with waiting := [] } := by simp [beginNext, State.card]
    rw [hv]
    exact ⟨⟨ha.reader, ha.flight, ha.busy⟩, ⟨Nat.zero_le _, fun _ => rfl, hl⟩, hc⟩
  | cons f rest ih =>
    cases f with
    | hello | powerOn | powerOff | command _ | eject | askRepeat =>
      rw [beginNext_cons _ _ TxFrame.noConfusion, leave_card]
      exact ha.leave TxFrame.noConfusion (by simpa [List.count_cons] using hc)
    | opening =>
      have hcount : rest.count .opening + 1 = (s.card p).openings := by simpa [List.count_cons] using hc
      rw [beginNext]
      split
      · next hx =>
        rw [CardView.openings, State.card_live, hx] at hcount
        simp at hcount
      next x hx =>
      have hlive : (s.card p).live = .some (x.kind, false) ∧ x.phase = .awaiting ∧ x.kind ≠ .release := by
        rw [CardView.openings, State.card_live, hx, Option.bind_some] at hcount
        rw [State.card_live, hx, Option.bind_some]
        cases hp : x.phase with
        | held o d => simp [Exchange.live_held hp] at hcount
        | awaiting =>
          rw [Exchange.live_awaiting hp] at hcount ⊢
          by_cases hw : x.kind ≠ .release ∧ x.sent = false
          · exact ⟨by rw [hw.2], rfl, hw.1⟩
          · simp [hw] at hcount
      obtain ⟨hlive, hph, hkind⟩ := hlive
      have hzero : rest.count .opening = 0 := by
        have : (s.card p).openings ≤ 1 := by
          rw [CardView.openings, hlive]
          dsimp only
          split <;> omega
        omega
      split
      · next g t hopen =>
        -- The record goes on with its opening frame sent; everything else of the view stands.
        have hv : g ≠ .opening ∧ t.line = s.line ∧ (t.card p).live = .some (x.kind, true) := by
          unfold openFrame at hopen
          split at hopen
          · next hk => cases hopen; exact ⟨TxFrame.noConfusion, rfl, by simp [State.card, Exchange.live, hph]⟩
          · next hk => cases hopen; exact ⟨TxFrame.noConfusion, rfl, by simp [State.card, Exchange.live, hph]⟩
          · next hk =>
            split at hopen
            · cases hopen
            · cases hopen; exact ⟨TxFrame.noConfusion, rfl, by simp [State.card, Exchange.live, hph]⟩
          · cases hopen
        obtain ⟨hg, hline, hlt⟩ := hv
        have hview : t.card p = { s.card p with live := .some (x.kind, true) } := by
          simp only [State.card_live] at hlt
          simp [State.card, hline, hlt]
        rw [leave_card, hview]
        refine CardView.Agrees.leave ⟨ha.reader, fun k b hk => ?_, fun _ => Option.some_ne_none _⟩ hg ?_
        · cases hk; exact ha.flight _ _ hlive
        · rw [hzero, CardView.openings]; simp
      · next hopen =>
        have hpres : x.kind = .present := by
          unfold openFrame at hopen
          split at hopen
          · cases hopen
          · cases hopen
          · next hk => exact hk
          · next hk => exact absurd hk hkind
        have hstate : (s.card p).state = .exchanging := by rw [ha.flight _ _ hlive, hpres]; rfl
        have hview : (moveCard p .ready (endExchange p .entryGone .none
            (s.onLine p fun l => { l with txWaiting := rest }))).card p =
            { (s.card p) with state := .ready, waiting := rest.filter fun f => decide (f ≠ .opening), live := .none } := by
          have hw : (s.onLine p fun l => { l with txWaiting := rest }).card p = { s.card p with waiting := rest } := by
            simp [State.card]
          rw [moveCard_card, endExchange_card, hw]
          simp only [CardView.ended, hlive]
          rfl
        have hagrees : CardView.Agrees { (s.card p) with
            state := .ready, waiting := rest.filter fun f => decide (f ≠ .opening), live := .none } := by
          refine ⟨⟨fun e => CardState.noConfusion e, fun e => ?_⟩, (fun _ _ e => nomatch e), fun e => ?_⟩
          · have := ha.reader.2 e
            rw [hstate] at this; cases this
          · rcases e with e | e <;> cases e
        generalize moveCard p .ready (endExchange p .entryGone .none
          (s.onLine p fun l => { l with txWaiting := rest })) = u at hview ⊢
        exact ih (s := u) (by rw [hview]; exact hagrees) (by rw [hview]; exact hl) (by rw [hview]; exact hzero)
/-- The list goes on when no frame is leaving (R137). -/
theorem pump_card (ha : (s.card p).Agrees) (hl : (s.card p).leaving ≠ .some .opening)
    (hc : (s.card p).waiting.count .opening = (s.card p).openings) : ((pump p s).card p).Ok := by
  unfold pump
  split
  · next g hg =>
    exact ⟨ha, ⟨hc.le, fun e => (Option.some_ne_none g (hg.symm.trans e)).elim, hl⟩, hc⟩
  · exact beginNext_card _ ha hl hc

/-- An exchange's opening frame is asked for once its record and card state stand (R155, R156). -/
theorem ask_opening_card (h : (s.card p).Agrees) (hl : (s.card p).leaving ≠ .some .opening)
    (hc : (s.card p).waiting.count .opening + 1 = (s.card p).openings) : ((ask p .opening s).card p).Ok := by
  have hv : (s.onLine p fun l => { l with txWaiting := l.txWaiting ++ [.opening] }).card p =
      { s.card p with waiting := (s.card p).waiting ++ [.opening] } := by simp [State.card]
  unfold ask
  generalize s.onLine p (fun l => { l with txWaiting := l.txWaiting ++ [.opening] }) = u at hv ⊢
  refine pump_card (by rw [hv]; exact ⟨h.reader, h.flight, h.busy⟩) (by rw [hv]; exact hl) ?_
  rw [hv]
  have happ : ((s.card p).waiting ++ [TxFrame.opening]).count .opening = (s.card p).waiting.count .opening + 1 := by simp
  exact happ.trans hc

theorem ask_ok {f : TxFrame} (hf : f ≠ .opening) (h : (s.card p).Ok) : ((ask p f s).card p).Ok := by
  rw [ask_card hf h.flows.flows]
  exact h.asked hf

/-! ### Failing frames, lost lines -/

theorem loseLine_ok (h : (s.card p).Flows) : ((loseLine p s).card p).Ok := by
  have hv : (loseLine p s).card p =
      ({ s.card p with state := .noReader, presence := .lost } : CardView).ended := by
    have hm : (s.onLine p fun l => { l.move .noReader with
        powerUnknown := l.powerUnknown || l.state.powered, presence := .lost, cause := .none }).card p =
        { s.card p with state := .noReader, presence := .lost } := by simp [State.card, CardLine.move]
    have ht : ∀ u : State, (u.onLine p fun l => { l with
        silenceTimer := .stopped, helloTimer := .stopped, noReaderTimer := .running Config.noReaderHello }).card p =
        u.card p := fun u => onLine_card_same _ u p fun _ => ⟨rfl, rfl, rfl, rfl⟩
    rw [loseLine, postCardState_card, ht, endExchange_card, hm]
  rw [hv]
  refine CardView.Flows.ended_ok (st := .noReader) ⟨h.openings, h.flows, h.leaving⟩ rfl ?_ CardState.noConfusion
    CardState.noConfusion
  exact ⟨fun _ => ReaderPresence.noConfusion, fun _ => rfl⟩

/-- A card is moved to SEATED with POWER_OFF behind what waits, and its exchange ends (R163, R165, R168). -/
theorem poweredDown_ok (o : ExchangeOutcome) (d : Option (List Byte)) (h : (s.card p).Ok) (hs : (s.card p).state ≠ .noReader) :
    ((endExchange p o d (moveCard p .seated (ask p .powerOff (s.onLine p CardLine.dropOpening)))).card p).Ok := by
  have hd : (s.onLine p CardLine.dropOpening).card p = (s.card p).drop := dropOpening_card s p
  have ha : (ask p .powerOff (s.onLine p CardLine.dropOpening)).card p = (s.card p).drop.asked .powerOff := by
    rw [ask_card TxFrame.noConfusion (by rw [hd]; exact h.flows.drop.flows), hd]
  rw [endExchange_card, moveCard_card, ha]
  refine ((h.flows.drop.asked TxFrame.noConfusion).withState .seated).ended_ok rfl ?_ CardState.noConfusion
    CardState.noConfusion
  rw [(CardView.asked_same _ _).2.1]
  exact h.reader_of hs CardState.noConfusion

theorem failDuring_ok {x : Exchange} (hx : s.xs.get p = .some x) (hph : x.phase = .awaiting) (h : (s.card p).Ok) :
    ((failDuring p x s).card p).Ok := by
  have hlive := card_live_of_awaiting hx hph
  unfold failDuring
  split
  · have hv : (s.putXs p (.some { x with repeatUsed := true })).card p = s.card p := by
      simp [State.card, hx, Exchange.live]
    exact ask_ok TxFrame.noConfusion (by rw [hv]; exact h)
  · split
    · next hk =>
      rw [endExchange_card]
      have hst : (s.card p).state = .releasing := by rw [h.agrees.flight _ _ hlive, hk]; rfl
      exact h.flows.ended_ok hst (hst ▸ h.agrees.reader) CardState.noConfusion CardState.noConfusion
    all_goals exact poweredDown_ok _ _ h (h.ne_noReader hlive)

theorem failOutside_ok (h : (s.card p).Ok) : ((failOutside p s).card p).Ok := by
  have ht : (s.onLine p fun l => { l with checkFails := holdAt 3 l.checkFails }).card p = s.card p :=
    onLine_card_same _ s p fun _ => ⟨rfl, rfl, rfl, rfl⟩
  unfold failOutside
  dsimp only
  split
  · exact loseLine_ok (by rw [ht]; exact h.flows)
  · rw [ht]; exact h

theorem failFrame_ok (h : (s.card p).Ok) : ((failFrame p s).card p).Ok := by
  have ht : (s.onLine p fun l => { l with rx := .hunting, checkErrors := sat16 l.checkErrors }.loadSilence).card p =
      s.card p := by
    refine onLine_card_same _ s p fun l => ?_
    exact CardLine.loadSilence_view { l with rx := .hunting, checkErrors := sat16 l.checkErrors }
  unfold failFrame
  extract_lets t
  replace ht : t.card p = s.card p := ht
  rw [← ht] at h
  split
  · exact failOutside_ok h
  · next x hx =>
    split
    · next hp => exact failDuring_ok hx hp h
    · exact failOutside_ok h

theorem abandon_ok (h : (s.card p).Ok) : ((abandon p s).card p).Ok := by
  unfold abandon
  split
  · exact h
  · exact failFrame_ok h

theorem missHello_ok (h : (s.card p).Ok) : ((missHello p s).card p).Ok := by
  have ht : (s.onLine p fun l => { l with helloOut := false, misses := holdAt 3 l.misses }).card p = s.card p :=
    onLine_card_same _ s p fun _ => ⟨rfl, rfl, rfl, rfl⟩
  unfold missHello
  dsimp only
  split
  · exact loseLine_ok (by rw [ht]; exact h.flows)
  · rw [loadSilence_card, ht]; exact h

/-! ### The reader's frames -/

theorem restoreLine_ok (r : ReaderCondition) (h : (s.card p).Ok) (hs : (s.card p).state = .noReader) :
    ((restoreLine p r s).card p).Ok := by
  have hlive : (s.card p).live = .none := by
    cases hl : (s.card p).live with
    | none => rfl
    | some kb => exact absurd hs (h.ne_noReader (k := kb.1) (b := kb.2) hl)
  have hst : reportedState r ≠ .noReader ∧ reportedState r ≠ .powering ∧ reportedState r ≠ .exchanging := by
    cases r <;> exact ⟨CardState.noConfusion, CardState.noConfusion, CardState.noConfusion⟩
  have ht : (s.onLine p fun l => ({ l.move (reportedState r) with
      presence := .present, powerUnknown := false, noReaderTimer := .stopped }).loadSilence).card p =
      { s.card p with state := reportedState r, presence := .present } := by
    rw [onLine_loadSilence_card]
    simp [State.card, CardLine.move]
  have hok : CardView.Ok { s.card p with state := reportedState r, presence := .present } :=
    CardView.Flows.ok_of_idle ⟨h.flows.openings, h.flows.flows, h.flows.leaving⟩ hlive
      ⟨fun e => absurd e hst.1, fun e => absurd rfl e⟩ hst.2.1 hst.2.2
  rw [← ht] at hok
  unfold restoreLine
  dsimp only
  rw [postCardState_card]
  split
  · exact ask_ok TxFrame.noConfusion hok
  · exact hok

/-- What a report moves the card to, and whether it ends an exchange in flight, in the terms of the invariant. -/
theorem reportEffect_ends {st : CardState} {r : ReaderCondition} {b : Bool} {e : ReportEffect}
    (h : reportEffect st r b = .some e) : e.state ≠ .noReader ∧ e.state ≠ .powering ∧ e.state ≠ .exchanging ∧
      st ≠ .noReader ∧ (e.ends = false → st ≠ .powering ∧ st ≠ .exchanging ∧ (st = .releasing → b = false)) := by
  cases st <;> cases r <;> cases b <;> simp [reportEffect] at h <;> subst h <;> simp

theorem releaseInFlight_of_live {b : Bool} (h : (s.card p).live = .some (.release, b)) :
    s.releaseInFlight p = true := by
  rw [State.card_live] at h
  unfold State.releaseInFlight
  cases hx : s.xs.get p with
  | none => rw [hx] at h; cases h
  | some x =>
    rw [hx, Option.bind_some] at h
    cases hp : x.phase with
    | held o d => rw [Exchange.live_held hp] at h; cases h
    | awaiting =>
      rw [Exchange.live_awaiting hp] at h
      have hk : x.kind = .release := congrArg Prod.fst (Option.some.inj h)
      simp [hp, hk]

theorem reportCard_ok (r : ReaderCondition) (h : (s.card p).Ok) : ((reportCard p r s).card p).Ok := by
  unfold reportCard
  split
  · exact h
  next e he =>
  obtain ⟨h1, h2, h3, h4, hends⟩ := reportEffect_ends he
  have admitted : ∀ (l : List Synth) (v : State), (l.foldl (fun t k => admitSynth p k t) v).card p = v.card p := by
    intro l v
    obtain ⟨f, hf⟩ := foldl_admit_eq_onIntake p l v
    rw [hf]
    exact card_of_same rfl rfl
  have hm : (s.onLine p fun l => { l.move e.state with cause := if l.state = .fault then .none else l.cause }).card p =
      { s.card p with state := e.state } := by simp [State.card, CardLine.move]
  have hr := h.reader_of (st := e.state) h4 h1
  dsimp only
  rw [admitted, postCardState_card]
  split
  · rw [endExchange_card, hm]
    exact (h.flows.withState e.state).ended_ok rfl hr h2 h3
  · next hf =>
    have hlive : (s.card p).live = .none := by
      obtain ⟨n1, n2, n3⟩ := hends (by simpa using hf)
      cases hl : (s.card p).live with
      | none => rfl
      | some kb =>
        obtain ⟨k, b⟩ := kb
        have hs : (s.line.get p).state = k.inFlightState := h.agrees.flight k b hl
        cases k with
        | power => exact absurd hs n1
        | command | present => exact absurd hs n2
        | release =>
          have := n3 hs
          rw [releaseInFlight_of_live hl] at this
          cases this
    rw [hm]
    exact (h.flows.withState e.state).ok_of_idle hlive hr h2 h3

theorem onLine_ok (f : CardLine → CardLine) (u : State) (hf : ∀ l, (f l).state = l.state ∧
    (f l).presence = l.presence ∧ (f l).txLeaving = l.txLeaving ∧ (f l).txWaiting = l.txWaiting) (hu : (u.card p).Ok) :
    ((u.onLine p f).card p).Ok := by
  rw [onLine_card_same f u p hf]
  exact hu

theorem takeFault_ok (c : FaultCause) (h : (s.card p).Ok) : ((takeFault p c s).card p).Ok := by
  have ht := validFrame_card s p
  unfold takeFault
  dsimp only
  rw [settleLine_card]
  generalize s.onLine p CardLine.validFrame = t at ht ⊢
  rw [← ht] at h
  have hst : (t.card p).state = (s.line.get p).state := by rw [ht]; rfl
  split
  · rw [late_card]; exact h
  · exact onLine_ok _ t (fun _ => ⟨rfl, rfl, rfl, rfl⟩) h
  all_goals
    next hs =>
    have hm : (t.onLine p fun l => { l.move .fault with cause := .some c, faults := sat16 l.faults }).card p =
        { t.card p with state := .fault } := by simp [State.card, CardLine.move]
    rw [postCardState_card, endExchange_card, hm]
    refine (h.flows.withState .fault).ended_ok rfl (h.reader_of ?_ CardState.noConfusion) CardState.noConfusion
      CardState.noConfusion
    rw [hst, hs]
    exact CardState.noConfusion

theorem takeDone_ok (h : (s.card p).Ok) : ((takeDone p s).card p).Ok := by
  have ht := validFrame_card s p
  unfold takeDone
  dsimp only
  rw [settleLine_card]
  generalize s.onLine p CardLine.validFrame = t at ht ⊢
  rw [← ht] at h
  split
  · next hs =>
    have hst : (t.card p).state = .releasing := by rw [ht]; exact hs
    have hr := h.reader_of (st := .presented) (by rw [hst]; exact CardState.noConfusion) CardState.noConfusion
    split
    · rw [endExchange_card, moveCard_card]
      exact (h.flows.withState .presented).ended_ok rfl hr CardState.noConfusion CardState.noConfusion
    · next hrel =>
      rw [moveCard_card]
      refine (h.flows.withState .presented).ok_of_idle ?_ hr CardState.noConfusion CardState.noConfusion
      change (t.card p).live = .none
      cases hl : (t.card p).live with
      | none => rfl
      | some kb =>
        obtain ⟨k, b⟩ := kb
        have hk := h.agrees.flight k b hl
        rw [hst] at hk
        rw [ht] at hl
        cases k with
        | release => exact absurd (releaseInFlight_of_live hl) hrel
        | power | command | present => cases hk
  · rw [late_card]; exact h

theorem takeAnswer_ok (aw : ExchangeKind → Bool) (fits : Bool) (payload : List Byte) (h : (s.card p).Ok) :
    ((takeAnswer p aw fits payload s).card p).Ok := by
  unfold takeAnswer
  split
  · rw [late_card]; exact h
  next x hx =>
  split
  · rw [late_card]; exact h
  next hp =>
  split
  · rw [late_card]; exact h
  split
  · rw [endExchange_card, moveCard_card]
    exact (h.flows.withState .ready).ended_ok rfl
      (h.reader_of (h.ne_noReader (card_live_of_awaiting hx hp)) CardState.noConfusion) CardState.noConfusion
      CardState.noConfusion
  · have hv : (s.onLine p fun l => { l with checkErrors := sat16 l.checkErrors }).card p = s.card p :=
      onLine_card_same _ s p fun _ => ⟨rfl, rfl, rfl, rfl⟩
    exact failDuring_ok (s := s.onLine p fun l => { l with checkErrors := sat16 l.checkErrors }) hx hp
      (by rw [hv]; exact h)

theorem answerArrives_ok (aw : ExchangeKind → Bool) (fits : Bool) (payload : List Byte) (h : (s.card p).Ok) :
    ((answerArrives p aw fits payload s).card p).Ok := by
  have ht := validFrame_card s p
  unfold answerArrives
  dsimp only
  rw [settleLine_card]
  generalize s.onLine p CardLine.validFrame = t at ht ⊢
  rw [← ht] at h
  split
  · rw [late_card]; exact h
  · exact takeAnswer_ok aw fits payload h

theorem judgePressure_card (u s : State) (p : Pos) : (judgePressure u s).card p = s.card p :=
  (judgePressure_polled u s).card p

theorem LineEvent.cardOk_self (h : LineEvent p s t) (hs : (s.card p).Ok) : (t.card p).Ok := by
  cases h with
  | receive rx => exact onLine_ok _ s (fun _ => ⟨rfl, rfl, rfl, rfl⟩) hs
  | fail => rw [settleLine_card]; exact failFrame_ok hs
  | state r =>
    rw [takeState, judgePressure_card, settleLine_card]
    have ht := validFrame_card s p
    split
    · next hn => exact restoreLine_ok r (by rw [ht]; exact hs) (by rw [ht]; exact hn)
    · exact reportCard_ok r (by rw [ht]; exact hs)
  | fault c => exact takeFault_ok c hs
  | done => exact takeDone_ok hs
  | answer payload => exact answerArrives_ok _ _ _ hs
  | response payload => exact answerArrives_ok _ _ _ hs
  | unlisted =>
    rw [takeUnlisted, settleLine_card]
    exact onLine_ok _ s (fun l => CardLine.validFrame_view l) hs
  | sent =>
    have hv : (s.onLine p fun l => { l with txLeaving := .none }).card p = { s.card p with leaving := .none } := by
      simp [State.card]
    rw [settleLine_card]
    exact pump_card (by rw [hv]; exact ⟨hs.agrees.reader, hs.agrees.flight, hs.agrees.busy⟩)
      (by rw [hv]; exact fun e => nomatch e) (by rw [hv]; exact hs.openings)
  | silence t ht =>
    have h1 : (t.card p).Ok := by
      rw [ht]; exact abandon_ok (onLine_ok _ s (fun _ => ⟨rfl, rfl, rfl, rfl⟩) hs)
    rw [settleLine_card]
    split
    · exact h1
    · split
      · exact onLine_ok _ t (fun _ => ⟨rfl, rfl, rfl, rfl⟩) h1
      · exact ask_ok TxFrame.noConfusion (onLine_ok _ t (fun _ => ⟨rfl, rfl, rfl, rfl⟩) h1)
  | hello t ht =>
    have h1 : (t.card p).Ok := by
      rw [ht]; exact abandon_ok (onLine_ok _ s (fun _ => ⟨rfl, rfl, rfl, rfl⟩) hs)
    rw [settleLine_card]
    split
    · exact missHello_ok h1
    · exact h1
  | noReader =>
    rw [settleLine_card]
    exact ask_ok TxFrame.noConfusion (abandon_ok (onLine_ok _ s (fun _ => ⟨rfl, rfl, rfl, rfl⟩) hs))
  | timeout x hx ha =>
    have hlive := card_live_of_awaiting hx ha
    rw [settleLine_card]
    unfold powerDown
    split
    · next hk =>
      rw [endExchange_card]
      have hst : (s.card p).state = .releasing := by rw [hs.agrees.flight _ _ hlive, hk]; rfl
      exact hs.flows.ended_ok hst (hst ▸ hs.agrees.reader) CardState.noConfusion CardState.noConfusion
    all_goals exact poweredDown_ok _ _ hs (hs.ne_noReader hlive)

/-- An event of one line leaves the others as they were. -/
theorem LineEvent.cardOk (h : LineEvent p s t) (hs : ∀ q, (s.card q).Ok) (q : Pos) : (t.card q).Ok := by
  by_cases hq : q = p
  · rw [hq]; exact h.cardOk_self (hs p)
  · obtain ⟨v, l, hv, he⟩ := h.lineWork
    have hview : t.card q = s.card q := by
      rcases he with rfl | rfl
      · exact hv.lineWork.card hq
      · obtain ⟨f, hf⟩ := foldl_admit_eq_onIntake p l v
        rw [judgePressure_card, hf]
        exact (card_of_same rfl rfl).trans (hv.lineWork.card hq)
    rw [hview]
    exact hs q

/-! ### The requests -/

theorem voidAttention_card (p q : Pos) (s : State) : (voidAttention p s).card q = s.card q := by
  rcases voidAttention_cases p s with ⟨_, h⟩ | ⟨_, h⟩
  · rw [h]
  · rw [h, releaseReservation_card]
    exact card_of_same rfl rfl

theorem closeWork_card (p q : Pos) (s : State) : (closeWork p s).card q = s.card q := by
  unfold closeWork
  generalize hu : ((s.putEntry p .none).onPu p PromptUnit.close).onIntake (Intake.voidPosition p) = u
  have hc : u.card q = s.card q := by subst hu; exact card_of_same rfl rfl
  rw [← hc, ← voidAttention_card p q u]
  exact card_of_same (State.onPos_line _ _ _) (State.onPos_xs _ _ _)

/-- A card with no exchange in flight is powered off (R13, R14). -/
theorem powerOffCard_ok (h : (s.card p).Flows) (hl : (s.card p).live = .none) (hr : (s.card p).presence = .present) :
    ((powerOffCard p s).card p).Ok := by
  rw [powerOffCard, moveCard_card, ask_card TxFrame.noConfusion h.flows]
  obtain ⟨_, hp, hlive⟩ := CardView.asked_same .powerOff (s.card p)
  refine ((h.asked TxFrame.noConfusion).withState .seated).ok_of_idle (hlive.trans hl) ?_ CardState.noConfusion
    CardState.noConfusion
  exact ⟨fun e => CardState.noConfusion e, fun e => absurd (hp.trans hr) e⟩

theorem CardState.powered_iff (st : CardState) : st.powered = true ↔ st = .powering ∨ st = .ready ∨ st = .exchanging := by
  cases st <;> simp [CardState.powered]

theorem CardView.Ok.present (h : v.Ok) (hs : v.state ≠ .noReader) : v.presence = .present := by
  by_contra hp
  exact hs (h.agrees.reader.2 hp)

theorem resetWork_ok (h : (s.card p).Ok) : ((resetWork p s).card p).Ok := by
  have hview : (closeWork p (removeExchange p s)).card p = { (s.card p).drop with live := .none } := by
    rw [closeWork_card]
    simp [removeExchange, State.card, CardView.drop, CardLine.dropOpening]
  have hflows : CardView.Flows { (s.card p).drop with live := .none } :=
    ⟨(count_filter_opening _).le, h.flows.drop.flows, h.flows.leaving⟩
  have hpos : ∀ u : State, (u.onPos p fun r => { PosRecord.initial with bank := r.bank, mode := r.mode }).card p =
      u.card p := fun u => card_of_same (State.onPos_line _ _ _) (State.onPos_xs _ _ _)
  unfold resetWork
  rw [hpos]
  split
  · next hp =>
    have hs : (s.card p).state ≠ .noReader := fun e => by
      rw [show (s.line.get p).state = .noReader from e] at hp; cases hp
    exact powerOffCard_ok (by rw [hview]; exact hflows) (by rw [hview]) (by rw [hview]; exact h.present hs)
  · next hp =>
    rw [CardState.powered_iff] at hp
    rw [hview]
    exact hflows.ok_of_idle rfl h.agrees.reader (fun e => hp (.inl e)) fun e => hp (.inr (.inr e))

/-- An exchange whose opening frame is asked for at once (R155 to R160). -/
theorem startExchange_ok {x : Exchange} {st : CardState} (h : (s.card p).Ok) (hs : (s.card p).state ≠ .noReader)
    (hx : s.xs.get p = .none) (hnew : x.live = .some (x.kind, false)) (hk : x.kind ≠ .release)
    (hst : st = x.kind.inFlightState) : ((startExchange p x st [.opening] s).card p).Ok := by
  have hlive : (s.card p).live = .none := by rw [State.card_live, hx]; rfl
  have hview : (moveCard p st (s.putXs p (.some x))).card p =
      { s.card p with state := st, live := .some (x.kind, false) } := by
    rw [moveCard_card]
    simp [State.card, hnew]
  have hn : st ≠ .noReader := by rw [hst]; cases x.kind <;> exact CardState.noConfusion
  rw [startExchange, List.foldl_cons, List.foldl_nil]
  refine ask_opening_card ?_ (by rw [hview]; exact h.flows.leaving) ?_
  · rw [hview]
    refine ⟨h.reader_of hs hn, fun k b hkb => ?_, fun _ => Option.some_ne_none _⟩
    cases hkb
    exact hst
  · rw [hview]
    have hzero : (s.card p).waiting.count .opening = 0 := h.nowait hlive
    simp [CardView.openings, hk, hzero]

/-- A release asks for its frames with no opening frame (R161). -/
theorem startRelease_ok (tag : Byte) (t : Nat) (frames : List TxFrame) (h : (s.card p).Ok)
    (hs : (s.card p).state ≠ .noReader) (hx : s.xs.get p = .none) (hf : ∀ f ∈ frames, f ≠ .opening) :
    ((startExchange p (newExchange .release tag .none .none t) .releasing frames s).card p).Ok := by
  have hlive : (s.card p).live = .none := by rw [State.card_live, hx]; rfl
  have hview : (moveCard p .releasing (s.putXs p (.some (newExchange .release tag .none .none t)))).card p =
      { s.card p with state := .releasing, live := .some (.release, false) } := by
    rw [moveCard_card]
    simp [State.card, newExchange, Exchange.live]
  have hok : ((moveCard p .releasing (s.putXs p (.some (newExchange .release tag .none .none t)))).card p).Ok := by
    have hzero : (s.card p).waiting.count .opening = 0 := h.nowait hlive
    rw [hview]
    refine ⟨⟨h.reader_of hs CardState.noConfusion, fun k b hk => ?_, fun _ => Option.some_ne_none _⟩,
      ⟨hzero.le, h.flows.flows, h.flows.leaving⟩, ?_⟩
    · cases hk; rfl
    · simpa [CardView.openings] using hzero
  unfold startExchange
  generalize moveCard p .releasing (s.putXs p (.some (newExchange .release tag .none .none t))) = u at hok
  induction frames generalizing u with
  | nil => exact hok
  | cons f rest ih =>
    exact ih (fun g hg => hf g (List.mem_cons_of_mem f hg)) _ (ask_ok (hf f (List.mem_cons_self ..)) hok)

theorem abortExchange_ok {x : Exchange} (h : (s.card p).Ok) (hx : s.xs.get p = .some x) (ha : x.phase = .awaiting) :
    ((abortExchange p x s).card p).Ok := by
  have hlive := card_live_of_awaiting hx ha
  have hn := h.ne_noReader hlive
  have hgone : (((powerDown p x.kind s).putXs p .none).card p).Ok := by
    have hput : ∀ u : State, (u.putXs p .none).card p = { u.card p with live := .none } := by
      intro u; simp [State.card]
    rw [hput]
    unfold powerDown
    split
    · next hk =>
      have hst : (s.card p).state = .releasing := by rw [h.agrees.flight _ _ hlive, hk]; rfl
      have hzero : (s.card p).waiting.count .opening = 0 := by rw [h.openings, CardView.openings, hlive, hk]; rfl
      refine CardView.Flows.ok_of_idle ⟨hzero.le, h.flows.flows, h.flows.leaving⟩ rfl h.agrees.reader ?_ ?_
      · rw [hst]; exact CardState.noConfusion
      · rw [hst]; exact CardState.noConfusion
    all_goals
      have hd : (s.onLine p CardLine.dropOpening).card p = (s.card p).drop := dropOpening_card s p
      rw [moveCard_card, ask_card TxFrame.noConfusion (by rw [hd]; exact h.flows.drop.flows), hd]
      have hfl : CardView.Flows { (s.card p).drop with live := .none } :=
        ⟨(count_filter_opening _).le, h.flows.drop.flows, h.flows.leaving⟩
      have hflows := (hfl.asked (f := .powerOff) TxFrame.noConfusion).withState .seated
      have heq : ({ ({ (s.card p).drop.asked .powerOff with state := .seated } : CardView) with live := .none } : CardView) =
          { ({ (s.card p).drop with live := .none } : CardView).asked .powerOff with state := .seated } := by
        unfold CardView.asked
        dsimp only
        split <;> rfl
      rw [heq]
      refine hflows.ok_of_idle ?_ ?_ CardState.noConfusion CardState.noConfusion
      · exact (CardView.asked_same .powerOff _).2.2
      · have hp := (CardView.asked_same .powerOff ({ (s.card p).drop with live := .none } : CardView)).2.1
        exact ⟨fun e => CardState.noConfusion e, fun e => absurd (hp.trans (h.present hn)) e⟩
  unfold abortExchange
  dsimp only
  rw [settleLine_card, loadSilence_card]
  split
  · rw [wipePresented_card]; exact hgone
  all_goals exact hgone

/-- A line after a counter reset (R152). -/
theorem counterResetBlocks_card (s : State) (p : Pos) (h : (s.card p).Ok) : ((counterResetBlocks s).card p).Ok := by
  obtain ⟨L, hL, hget⟩ := counterReset_lines s
  have hcard : (counterResetBlocks s).card p = { s.counterResetValues with line := L }.card p := by
    rw [counterResetBlocks, hL]
    exact foldl_keeps (P := fun t => t.card p = { s.counterResetValues with line := L }.card p) startAtReset
      (fun u g hu => (startAtReset_visited u g).polled.card p |>.trans hu) allFour _ rfl
  have hdrop : CardView.Flows { (s.card p).drop with live := .none } :=
    ⟨(count_filter_opening _).le, h.flows.drop.flows, h.flows.leaving⟩
  have hview : { s.counterResetValues with line := L }.card p =
      if (s.line.get p).state.powered then
        { ({ (s.card p).drop with live := .none } : CardView).asked .powerOff with state := .seated }
      else { (s.card p).drop with live := .none } := by
    have hlive : { s.counterResetValues with line := L }.xs.get p = .none := by simp [State.counterResetValues]
    have hline : { s.counterResetValues with line := L }.line.get p = (s.line.get p).resetLine := hget p
    rw [State.card, hline, hlive]
    unfold CardLine.resetLine
    split
    · next hp =>
      obtain ⟨h1, h2, h3, h4⟩ := CardLine.settle_view false ((s.line.get p).counterReset.ask .powerOff)
      rw [h1, h2, h3, h4]
      have hfl := h.flows.flows
      unfold CardLine.ask CardView.asked
      cases hleave : (s.line.get p).txLeaving with
      | none =>
        have hw : (s.line.get p).txWaiting = [] := hfl hleave
        simp [CardLine.counterReset, CardLine.dropOpening, CardView.drop, State.card, hleave, hw, hp]
      | some g => simp [CardLine.counterReset, CardLine.dropOpening, CardView.drop, State.card, hleave, hp]
    · next hp =>
      obtain ⟨h1, h2, h3, h4⟩ := CardLine.settle_view false (s.line.get p).counterReset
      rw [h1, h2, h3, h4]
      simp [CardLine.counterReset, CardLine.dropOpening, CardView.drop, State.card, hp]
  rw [hcard, hview]
  split
  · next hp =>
    have hs : (s.card p).state ≠ .noReader := fun e => by
      rw [show (s.line.get p).state = .noReader from e] at hp; cases hp
    obtain ⟨_, hpres, hlive⟩ := CardView.asked_same .powerOff ({ (s.card p).drop with live := .none } : CardView)
    refine ((hdrop.asked TxFrame.noConfusion).withState .seated).ok_of_idle hlive ?_ CardState.noConfusion
      CardState.noConfusion
    exact ⟨fun e => CardState.noConfusion e, fun e => absurd (hpres.trans (h.present hs)) e⟩
  · next hp =>
    rw [CardState.powered_iff] at hp
    exact hdrop.ok_of_idle rfl h.agrees.reader (fun e => hp (.inl e)) fun e => hp (.inr (.inr e))

/-! ### Every event -/

theorem LineSteps.card_other {p q : Pos} {s t : State} (h : LineSteps p s t) (hq : q ≠ p) : t.card q = s.card q :=
  h.lineWork.card hq

/-- What the operations of line `p` keep at that line they keep everywhere. -/
theorem LineSteps.cards {p : Pos} {s t : State} (h : LineSteps p s t) (hs : ∀ q, (s.card q).Ok) (hp : (t.card p).Ok)
    (q : Pos) : (t.card q).Ok := by
  by_cases hq : q = p
  · rw [hq]; exact hp
  · rw [h.card_other hq]; exact hs q

theorem resetWork_card_other {p q : Pos} (s : State) (hq : q ≠ p) : (resetWork p s).card q = s.card q := by
  have hrem : (removeExchange p s).card q = s.card q := by
    simp [removeExchange, State.card, PerPos.get_modify_ne _ _ hq, PerPos.get_set_ne _ _ hq]
  have hpos : ∀ u : State, (u.onPos p fun r => { PosRecord.initial with bank := r.bank, mode := r.mode }).card q =
      u.card q := fun u => card_of_same (State.onPos_line _ _ _) (State.onPos_xs _ _ _)
  unfold resetWork
  rw [hpos]
  split
  · rw [(powerOffCard_steps (.refl p _)).card_other hq, closeWork_card, hrem]
  · rw [closeWork_card, hrem]

theorem Effect.cardOk {k : ReqKind} (h : Effect s k t) (hs : ∀ q, (s.card q).Ok) (q : Pos) : (t.card q).Ok := by
  have hline : ∀ {p : Pos} {st : CardState}, (s.line.get p).state = st → st ≠ .noReader → (s.card p).state ≠ .noReader :=
    fun h hn => by rw [show (s.card _).state = _ from h]; exact hn
  cases h with
  | closePosition p => rw [closeWork_card]; exact hs q
  | closeReady p hp hx hl =>
    have hv : ∀ q, (closeWork p s).card q = s.card q := fun q => closeWork_card p q s
    refine (powerOffCard_steps (.refl p (closeWork p s))).cards (fun q => by rw [hv]; exact hs q) ?_ q
    refine powerOffCard_ok (by rw [hv]; exact (hs p).flows) (by rw [hv, State.card_live, hx]; rfl) ?_
    rw [hv]
    exact (hs p).present (hline hl CardState.noConfusion)
  | resetPosition p =>
    by_cases hq : q = p
    · rw [hq]; exact resetWork_ok (hs p)
    · rw [resetWork_card_other s hq]; exact hs q
  | attend a d =>
    have ha := applyDisposition_application a.pos a.code d s
    rw [resolve_fst, releaseReservation_card]
    generalize (applyDisposition a.pos a.code d s).2.notice = n
    have hv : (postApplied n (dropAttention (applyDisposition a.pos a.code d s).1)).card q = s.card q := by
      cases n <;> exact card_of_same ha.line ha.xs
    rw [hv]
    exact hs q
  | cardLineSet g ps =>
    refine foldl_keeps (P := fun t => (t.card q).Ok) (setPending ps) (fun u p hu => ?_) _ s (hs q)
    by_cases hq : q = p
    · rw [hq] at hu ⊢
      rw [setPending, settleLine_card]
      exact onLine_ok _ u (fun _ => ⟨rfl, rfl, rfl, rfl⟩) hu
    · rw [setPending, (settleLine_steps (onLine_steps _ (.refl p u))).card_other hq]; exact hu
  | cardPower p tag n hx hl =>
    exact (startExchange_steps _ _ _ (.refl p s)).cards hs
      (startExchange_ok (hs p) (hline hl CardState.noConfusion) hx rfl ExchangeKind.noConfusion rfl) q
  | cardExchange p tag command n hx hl =>
    exact (startExchange_steps _ _ _ (.refl p s)).cards hs
      (startExchange_ok (hs p) (hline hl CardState.noConfusion) hx rfl ExchangeKind.noConfusion rfl) q
  | cardPresent p tag header n hx hl =>
    exact (startExchange_steps _ _ _ (.refl p s)).cards hs
      (startExchange_ok (hs p) (hline hl CardState.noConfusion) hx rfl ExchangeKind.noConfusion rfl) q
  | cardRelease p tag n hx hl =>
    have hv : ∀ q, (s.onLine p fun l => { l with cause := .none }).card q = s.card q := by
      intro q
      by_cases hq : q = p
      · rw [hq]; exact onLine_card_same _ s p fun _ => ⟨rfl, rfl, rfl, rfl⟩
      · exact (onLine_steps _ (.refl p s)).card_other hq
    refine (startExchange_steps _ _ _ (.refl p (s.onLine p fun l => { l with cause := .none }))).cards
      (fun q => by rw [hv]; exact hs q) ?_ q
    refine startRelease_ok tag n _ (by rw [hv]; exact hs p) ?_ hx ?_
    · rw [hv]
      intro e
      rw [show (s.line.get p).state = .noReader from e] at hl
      cases hl
    · unfold releaseFrames
      split <;> simp
  | cardAbort p x hx ha => exact (abortExchange_steps x (.refl p s)).cards hs (abortExchange_ok (hs p) hx ha) q
  | counterReset => exact counterResetBlocks_card s q (hs q)
  | _ => exact hs q

theorem processEntry_card (e : IntakeEntry) (s : State) (q : Pos) : (processEntry e s).card q = s.card q := by
  unfold processEntry
  split
  · exact releaseReservation_card s q
  · dsimp only
    split
    · rfl
    · generalize s.tables.readEntry (s.pos.get e.pos).bank (s.pos.get e.pos).mode e.code = d
      have ha := applyDisposition_application e.pos e.code d s
      rw [releaseReservation_card]
      cases (applyDisposition e.pos e.code d s).2.notice <;> exact card_of_same ha.line ha.xs

theorem tick_card (s : State) (q : Pos) : s.tick.card q = s.card q := by
  have hlive : ∀ o : Option Exchange,
      (o.map fun x => { x with timer := x.timer.tick }).bind Exchange.live = o.bind Exchange.live := by
    intro o; cases o <;> rfl
  simp [State.card, State.tick, CardLine.tick, hlive]

theorem Event.cardOk (h : Event s t) (hs : ∀ q, (s.card q).Ok) (q : Pos) : (t.card q).Ok := by
  have accepted : Accepts s t → (t.card q).Ok := fun h =>
    h.keeps (P := fun s => ∀ q, (s.card q).Ok) hs
      (fun u v _ _ _ _ _ _ hl hx _ hu p => by rw [card_of_same hl hx]; exact hu p)
      (fun u v k h hu => h.cardOk hu) q
  have same : t.card q = s.card q → (t.card q).Ok := fun e => by rw [e]; exact hs q
  cases h with
  | accept r => exact accepted ⟨r, s.oq.queue, s.oq.begun, s.link, rfl⟩
  | replyLeavesWaiting r rest b l w => exact accepted ⟨w, rest, b, l, rfl⟩
  | pending | link | hold | transfer | replyLeaves | roundDue | window => exact hs q
  | noticeLeaves n rest b hq =>
    exact same (((serveOwed_served _).card q).trans (card_of_same rfl rfl))
  | roundStarts g n => exact same ((Event.roundStarts_polled g n s).card q)
  | replyEnds g q' phase r => exact same (((replyEnds_polled g q' r s).trans (judgePressure_polled s _)).card q)
  | windowEnds g q' => exact same (((windowEnds_polled g q' s).trans (judgePressure_polled s _)).card q)
  | withdraw e rest => exact same ((judgePressure_card _ _ q).trans ((processEntry_card e _ q).trans (card_of_same rfl rfl)))
  | lapse a ha =>
    have happ := applyDisposition_application a.pos a.code a.held s
    exact same ((releaseReservation_card _ q).trans (card_of_same happ.line happ.xs))
  | interkey p e he =>
    exact same ((judgePressure_card _ _ q).trans (((admitSynth_polled p _ _).card q).trans (card_of_same rfl rfl)))
  | total p e mode he =>
    exact same (((postExpired_served p _ _ mode _).card q).trans (card_of_same rfl rfl))
  | holdExpires p hd =>
    refine same ((judgePressure_card _ _ q).trans ?_)
    unfold Machine.holdExpires
    split
    · exact card_of_same rfl rfl
    · exact ((admitSynth_polled p _ _).card q).trans (card_of_same rfl rfl)
  | line p _ h => exact h.cardOk hs q
  | tick => exact same (tick_card s q)

end Sys2Proof.Machine

open Sys2Proof Sys2Proof.Machine

/-- Settles O59: every event keeps what a line and its record show of each other in order. -/
theorem everyStepKeepsCardAndExchangeInStep : Obligations.EveryStepKeepsCardAndExchangeInStep := by
  unfold Obligations.EveryStepKeepsCardAndExchangeInStep
  intro s t hs ht
  have hok := step_keeps (P := fun s => ∀ p, (s.card p).Ok)
    (fun mode wcts l p => (cardOk_iff _ p).1 ((poweredState_inv mode wcts l).cards p)) (fun _ _ h => h.cardOk) ht
    fun p => (cardOk_iff s p).1 (hs p)
  exact fun p => (cardOk_iff t p).2 (hok p)

end

section
/-! SUPPORT. Which codes the notices of an event give away (R77, R78, R82, R93, R99, R112). -/

namespace Sys2Proof.Machine

open Sys2Proof

variable {s t u : State} {p : Pos} {P : Notice → Prop}

/-! ### Records that join and records that leave -/

/-- From `s` to `t` records leave the queue and join it, and the notices that join are as `P` says. -/
def Queues (P : Notice → Prop) (s t : State) : Prop :=
  ∃ kept queued, t.oq.queue = kept ++ queued ∧ kept.Sublist s.oq.queue ∧ ∀ n, .notice n ∈ queued → P n

theorem Queues.kept {l : List OutRecord} (ht : t.oq.queue = l) (h : l.Sublist s.oq.queue) : Queues P s t :=
  ⟨l, [], by simp [ht], h, by simp⟩

theorem Queues.of_eq (h : t.oq.queue = s.oq.queue) : Queues P s t := .kept h (List.Sublist.refl _)

theorem Queues.trans (h : Queues P s t) (k : Queues P t u) : Queues P s u := by
  obtain ⟨l, m, hm, hs, hn⟩ := h
  obtain ⟨l', m', hm', hs', hn'⟩ := k
  rw [hm] at hs'
  obtain ⟨a, b, rfl, ha, hb⟩ := List.sublist_append_iff.1 hs'
  refine ⟨a, b ++ m', by rw [hm', List.append_assoc], ha.trans hs, fun n hmem => ?_⟩
  rcases List.mem_append.1 hmem with hmem | hmem
  · exact hn n (hb.subset hmem)
  · exact hn' n hmem

theorem Queues.mono {Q : Notice → Prop} (h : Queues P s t) (hPQ : ∀ n, P n → Q n) : Queues Q s t := by
  obtain ⟨l, m, hm, hs, hn⟩ := h
  exact ⟨l, m, hm, hs, fun n hmem => hPQ n (hn n hmem)⟩

/-- A state with the same queue to begin with. -/
theorem Queues.from {s' : State} (h : Queues P s t) (hs : s'.oq.queue = s.oq.queue) : Queues P s' t := by
  obtain ⟨l, m, hm, hl, hn⟩ := h
  exact ⟨l, m, hm, hs ▸ hl, hn⟩

/-- A notice joins at the tail. -/
theorem Queues.posted {n : Notice} (h : t.oq.queue = s.oq.queue ++ [.notice n]) (hn : P n) : Queues P s t :=
  ⟨s.oq.queue, [.notice n], h, List.Sublist.refl _, fun m hm => by
    obtain rfl : m = n := by simpa using hm
    exact hn⟩

theorem Notice.keepsSecrets_of_codeless {n : Notice} (h : n.codeless = true) : n.keepsSecrets s := by
  cases n with
  | app | attention | attentionLapsed => cases h
  | entryExpired | keypadState | fifoPressure | cardState | exchangeDone | started => trivial

/-- Notices without codes give none away. -/
theorem Queued.queues (h : Queued s t) : Queues (Notice.keepsSecrets u) s t := by
  obtain ⟨ns, hn, hc⟩ := h
  refine ⟨s.oq.queue, ns.map .notice, hn, List.Sublist.refl _, fun n hmem => ?_⟩
  exact Notice.keepsSecrets_of_codeless (hc n (by simpa using hmem))

/-! ### What the secrets are read from -/

/-- Two states with the same entries, positions and tables hold the same secrets. -/
theorem Notice.keepsSecrets_congr (he : t.entry = s.entry) (hp : t.pos = s.pos) (ht : t.tables = s.tables) {n : Notice}
    (h : n.keepsSecrets t) : n.keepsSecrets s := by
  have hdesc : ∀ p, t.descriptor p = s.descriptor p := fun p => by simp only [State.descriptor, hp, ht]
  have hsec : ∀ p, t.secretContext p = s.secretContext p := fun p => by
    simp only [State.secretContext, State.entrySecret, he, hdesc]
  have happ : ∀ a : AppNotice, a.keepsSecrets t → a.keepsSecrets s := by
    intro a ha
    cases a with
    | key p c m => simpa only [AppNotice.keepsSecrets, hsec] using ha
    | entryComplete p n sec codes => simpa only [AppNotice.keepsSecrets, State.plainCodes, he, hdesc] using ha
    | entryProgress | entryCancelled => trivial
  cases n with
  | app a => exact happ a h
  | attention number p reported o m d w => simpa only [Notice.keepsSecrets, hsec] using h
  | attentionLapsed number p reported a r m outcome =>
    obtain ⟨h1, h2⟩ := h
    exact ⟨by simpa only [hsec] using h1, fun n hn => happ n (h2 n hn)⟩
  | entryExpired | keypadState | fifoPressure | cardState | exchangeDone | started => trivial

/-! ### The notice of an application -/

/-- In secret context FORWARD of a digit is applied as HOLD (R78). -/
theorem forward_of_clampAction {secret : Bool} {c : Code} {a : Action} (h : clampAction secret c a = .forward) :
    9 < c.val ∨ secret = false := by
  unfold clampAction at h
  split at h
  · cases h
  · next hn =>
    subst h
    cases secret with
    | false => exact .inr rfl
    | true => exact .inl (by simpa [isDigit] using hn)

/-- A completion names codes only of an entry that is not secret (R112). -/
theorem Entry.completeNotice_codes {e : Entry} {n : Nat} {secret : Bool} {l : List Code}
    (h : e.completeNotice = .completed n secret (.some l)) : secret = false ∧ e.secret = false ∧ l = e.buffer := by
  unfold Entry.completeNotice Entry.openCodes at h
  obtain ⟨_, hs, hc⟩ := EntryNotice.completed.inj h
  by_cases he : e.secret = true
  · rw [if_pos he] at hc
    cases hc
  · rw [if_neg he] at hc
    exact ⟨by rw [← hs]; simpa using he, by simpa using he, (Option.some.inj hc).symm⟩

/-- ENTRY_COMPLETE names the codes of a plain entry (R112). -/
theorem entryAction_completed {c : Code} {sec : Bool} {a : Action} {n : Nat} {secret : Bool} {codes : Option (List Code)}
    (h : (entryAction p c sec a s).2.notice = .some (.completed n secret codes)) (hsec : sec = (s.descriptor p).secret) :
    ∀ l, codes = .some l → secret = false ∧ s.plainCodes p l := by
  intro l hl
  subst hl
  cases a with
  | discard | forward => cases h
  | eraseLast | clearEntry =>
    simp only [entryAction] at h
    split at h
    · split at h <;> cases h
    · cases h
  | cancel =>
    simp only [entryAction] at h
    split at h <;> cases h
  | hold =>
    simp only [entryAction] at h
    split at h
    case h_2 => cases h
    next e he =>
    split at h
    case h_2 => cases h
    unfold Entry.hold at h
    split at h
    · dsimp only at h
      split at h
      · split at h
        · cases h
        · cases h
        · obtain ⟨h1, h2, rfl⟩ := Entry.completeNotice_codes (Option.some.inj h)
          obtain ⟨hes, hms⟩ : e.secret = false ∧ sec = false := by simpa [Entry.completed] using h2
          exact ⟨h1, e, he, hes, .inr ⟨hsec ▸ hms, c, rfl⟩⟩
      · cases h
    · split at h <;> cases h
  | complete =>
    simp only [entryAction] at h
    split at h
    case h_2 => cases h
    next e he =>
    split at h
    case h_2 => cases h
    unfold Entry.complete at h
    split at h
    · obtain ⟨h1, h2, rfl⟩ := Entry.completeNotice_codes (Option.some.inj h)
      exact ⟨h1, e, he, h2, .inl rfl⟩
    · cases h

/-- The notice of an application gives away no code that the rules keep (R78, R82, R89, R112). -/
theorem applied_keepsSecrets (p : Pos) (c : Code) (d : Disposition) (s : State) {n : AppNotice}
    (h : (applyDisposition p c d s).2.notice = .some n) : n.keepsSecrets s := by
  simp only [applyDisposition] at h
  generalize hact : clampAction (s.secretContext p) c d.action = a at h
  generalize hout : entryAction p c (s.descriptor p).secret a s = r at h
  unfold applicationNotice at h
  split at h
  · obtain rfl := Option.some.inj h
    exact forward_of_clampAction hact
  · next len sec codes _ hn =>
    obtain rfl := Option.some.inj h
    rw [← hout] at hn
    exact entryAction_completed hn rfl
  · obtain rfl := Option.some.inj h
    trivial
  · split at h
    · obtain rfl := Option.some.inj h
      trivial
    · cases h

theorem reportedCode_keeps {masked secret : Bool} {c : Code} (h : isDigit c = true → secret = true → masked = true) :
    9 < (reportedCode masked c).toNat ∨ secret = false := by
  cases secret with
  | false => exact .inr rfl
  | true =>
    refine .inl ?_
    cases masked with
    | true =>
      change 9 < (0xFF : Byte).toNat
      decide
    | false =>
      have hd : ¬ c.val ≤ 9 := fun hle => by
        have := h (by simpa [isDigit] using hle) rfl
        cases this
      have hc := c.isLt
      simp only [reportedCode, codeByte, Bool.false_eq_true, if_false, BitVec.toNat_ofNat]
      omega

theorem reportedAfter_keeps (a : Attention) (secret : Bool) :
    9 < (reportedAfter a secret).toNat ∨ secret = false :=
  reportedCode_keeps fun hd hs => by rw [hd, hs]; exact Bool.or_true _

/-! ### The events of the engine -/

theorem postApplied_queues {n : Option AppNotice} (h : ∀ a, n = .some a → a.keepsSecrets u) (s : State) :
    Queues (Notice.keepsSecrets u) s (postApplied n s) := by
  cases n with
  | none => exact .of_eq rfl
  | some a => exact .posted (n := .app a) rfl (h a rfl)

theorem resolve_queues (a : Attention) (d : Disposition) (s : State) :
    Queues (Notice.keepsSecrets s) s (resolve a d s).1 := by
  have happ := (applyDisposition_application a.pos a.code d s).oq
  rw [resolve_fst]
  refine ((postApplied_queues (fun n hn => applied_keepsSecrets a.pos a.code d s hn) _).from ?_).trans
    (releaseReservation_queued _).queues
  exact congrArg OutQueue.queue happ.symm

theorem processEntry_queues (e : IntakeEntry) (s : State) :
    Queues (Notice.keepsSecrets s) s (processEntry e s) := by
  unfold processEntry
  split
  · exact (releaseReservation_queued s).queues
  · dsimp only
    split
    · refine .posted (n := .attention (s.attn.number + 1) e.pos _ e.origin _ _ s.attn.window) rfl ?_
      exact reportedCode_keeps fun hd hs => by rw [hd, hs]; rfl
    · generalize s.tables.readEntry (s.pos.get e.pos).bank (s.pos.get e.pos).mode e.code = d
      have happ := (applyDisposition_application e.pos e.code d s).oq
      refine ((postApplied_queues (fun n hn => applied_keepsSecrets e.pos e.code d s hn) _).from ?_).trans
        (releaseReservation_queued _).queues
      exact congrArg OutQueue.queue happ.symm

theorem withdraw_queues (e : IntakeEntry) (rest : List IntakeEntry) (s : State) :
    Queues (Notice.keepsSecrets s) s (Machine.withdraw e rest s) := by
  have key : ∀ v : State, v.entry = s.entry → v.pos = s.pos → v.tables = s.tables → v.oq.queue = s.oq.queue →
      Queues (Notice.keepsSecrets s) s (processEntry e v) := fun v he hp ht hq =>
    ((processEntry_queues e v).mono fun n hn => Notice.keepsSecrets_congr he hp ht hn).from hq.symm
  exact key _ (by rw [State.onIntake_entry, State.onOq_entry]) (by rw [State.onIntake_pos, State.onOq_pos])
    (by rw [State.onIntake_tables, State.onOq_tables]) (by rw [State.onIntake_oq, State.onOq_oq])

theorem lapse_queues (a : Attention) (s : State) : Queues (Notice.keepsSecrets s) s
    (releaseReservation (postReserved
      (.attentionLapsed a.number a.pos (reportedAfter a (applyDisposition a.pos a.code a.held s).2.secretContext)
        (applyDisposition a.pos a.code a.held s).2.action (applyDisposition a.pos a.code a.held s).2.refused
        ((applyDisposition a.pos a.code a.held s).1.pos.get a.pos).mode
        (applyDisposition a.pos a.code a.held s).2.notice)
      (dropAttention (applyDisposition a.pos a.code a.held s).1))) := by
  have happ := (applyDisposition_application a.pos a.code a.held s).oq
  have hsec : (applyDisposition a.pos a.code a.held s).2.secretContext = s.secretContext a.pos := rfl
  have hn := fun n => applied_keepsSecrets a.pos a.code a.held s (n := n)
  rw [hsec]
  generalize (applyDisposition a.pos a.code a.held s).2.notice = outcome at hn
  generalize (applyDisposition a.pos a.code a.held s).2.action = action
  generalize (applyDisposition a.pos a.code a.held s).2.refused = refused
  generalize ((applyDisposition a.pos a.code a.held s).1.pos.get a.pos).mode = mode
  refine Queues.trans (.posted (n := .attentionLapsed a.number a.pos (reportedAfter a (s.secretContext a.pos)) action refused
    mode outcome) ?_ ⟨reportedAfter_keeps a _, hn⟩) (releaseReservation_queued _).queues
  rw [postReserved_oq]
  exact congrArg (fun q => OutQueue.queue q ++ [_]) happ

/-! ### The requests -/

theorem counterReset_queue_sublist (q : OutQueue) : q.counterReset.queue.Sublist q.queue := by
  unfold OutQueue.counterReset
  dsimp only
  split
  · exact List.nil_sublist _
  · next r rest hq =>
    rw [hq]
    split
    · exact List.filter_sublist.cons_cons _
    · exact List.filter_sublist

theorem Effect.queues {k : ReqKind} (h : Effect s k t) : Queues (Notice.keepsSecrets s) s t := by
  cases h with
  | closePosition p => exact (closeWork_queued p s).queues
  | closeReady p =>
    exact ((closeWork_queued p s).trans (powerOffCard_steps (.refl p (closeWork p s))).queued).queues
  | resetPosition p => exact (resetWork_queued p s).queues
  | attend a d => exact resolve_queues a d s
  | cardLineSet g ps =>
    exact setPending_fold_steps ps _ (P := Queues (Notice.keepsSecrets s) s)
      (fun p u t h hu => hu.trans h.queued.queues) s (.of_eq rfl)
  | cardPower p | cardExchange p | cardPresent p =>
    exact (startExchange_steps _ _ _ (.refl p s)).queued.queues
  | cardRelease p => exact (startExchange_steps _ _ _ (onLine_steps _ (.refl p s))).queued.queues
  | cardAbort p x => exact (abortExchange_steps x (.refl p s)).queued.queues
  | counterReset => exact .kept (congrArg OutQueue.queue (counterResetBlocks_oq s)) (counterReset_queue_sublist s.oq)
  | _ => exact .of_eq rfl

theorem accept_queues (r : Request) (s : State) : Queues (Notice.keepsSecrets s) s (accept r s) := by
  have hc : Queues (Notice.keepsSecrets s) s (carryOut r s).1 := by
    rcases carryOut_carried r s with ⟨_, h⟩ | ⟨_, h⟩
    · rw [h]; exact .of_eq rfl
    · exact h.queues
  refine hc.trans ⟨_, _, accept_queue r s, List.Sublist.refl _, fun n hn => ?_⟩
  rcases List.mem_cons.1 hn with hn | hn
  · cases hn
  · unfold startedRecords at hn
    split at hn
    · obtain rfl : n = .started .counterReset (carryOut r s).1.link.mode := by simpa using hn
      trivial
    · cases hn

/-! ### The receiver -/

theorem onLink_queues (f : Link → Link) (s : State) : Queues P s (s.onLink f) := .of_eq rfl

/-- An acceptance whose state differs in the link and in the records that have left. -/
theorem accept_queues_from (r : Request) {s v : State} (he : v.entry = s.entry) (hp : v.pos = s.pos)
    (ht : v.tables = s.tables) (hq : Queues (Notice.keepsSecrets s) s v) :
    Queues (Notice.keepsSecrets s) s (accept r v) :=
  hq.trans ((accept_queues r v).mono fun _ hn => Notice.keepsSecrets_congr he hp ht hn)

theorem judgeRecord_queues (good : Option Request) (f : Link → Link) (s : State) :
    Queues (Notice.keepsSecrets s) s (judgeRecord good (s.onLink f)) := by
  unfold judgeRecord
  split
  · exact .of_eq rfl
  · split
    · exact .of_eq rfl
    · next r _ => exact accept_queues_from r rfl rfl rfl (onLink_queues f s)

theorem linkByte_queues (s : State) (b : Byte) : Queues (Notice.keepsSecrets s) s (linkByte s b) := by
  unfold linkByte
  split
  · exact .of_eq rfl
  · split
    · exact onLink_queues _ s
    · exact .of_eq rfl
  · split
    · exact judgeRecord_queues _ _ s
    · exact onLink_queues _ s

/-- Bytes that end at most one record, at a receiver that is RECEIVING one just begun. -/
theorem foldl_linkByte_queues (bytes : List Byte) (hrx : s.link.rx = .receiving [])
    (hn : recordEnds bytes.dropLast = false) : Queues (Notice.keepsSecrets s) s (bytes.foldl linkByte s) := by
  rcases List.eq_nil_or_concat bytes with rfl | ⟨init, b, rfl⟩
  · exact .of_eq rfl
  · rw [List.concat_eq_append] at hn ⊢
    rw [List.dropLast_concat] at hn
    rw [List.foldl_append, foldl_linkByte_taken init hrx (by simpa using hn), List.foldl_cons, List.foldl_nil]
    exact ((linkByte_queues _ b).mono fun n hk => Notice.keepsSecrets_congr rfl rfl rfl hk).from rfl

/-- A command's bytes that end at most one record. -/
theorem recordArrives_queues (bytes : List Byte) (s : State) (h : s.link.mode = .uart →
    recordEnds bytes.dropLast = false ∧ ∀ got, s.link.rx = .receiving got → got = []) :
    Queues (Notice.keepsSecrets s) s (recordArrives bytes s) := by
  cases hrx : s.link.rx with
  | waiting r => rw [recordArrives_of_waiting bytes hrx]; exact .of_eq rfl
  | hunting =>
    cases hm : s.link.mode with
    | usb =>
      have he : recordArrives bytes s = linkTransfer (usbPackets [] bytes) s := by simp only [recordArrives, hm]
      rw [he]
      simp only [linkTransfer, hrx]
      exact judgeRecord_queues _ _ s
    | uart =>
      have hs : linkByte s linkSync = s.onLink fun k => { k with rx := .receiving [] } := by simp [linkByte, hrx]
      simp only [recordArrives, hm, hrx, reduceCtorEq, if_false, List.foldl_cons, hs]
      exact ((foldl_linkByte_queues bytes rfl (h hm).1).mono fun n hk =>
        Notice.keepsSecrets_congr rfl rfl rfl hk).from rfl
  | receiving got =>
    cases hm : s.link.mode with
    | usb =>
      have he : recordArrives bytes s = linkTransfer (usbPackets [] bytes) s := by simp only [recordArrives, hm]
      rw [he]
      simp only [linkTransfer, hrx]
      exact judgeRecord_queues _ _ s
    | uart =>
      obtain rfl := (h hm).2 got hrx
      simp only [recordArrives, hm, hrx, if_true]
      exact foldl_linkByte_queues bytes hrx (h hm).1

theorem execRecordSent_queues (h : execRecordSent s = .next t) : Queues (Notice.keepsSecrets s) s t := by
  unfold execRecordSent at h
  split at h
  case h_2 => cases h; exact .of_eq rfl
  next r rest _ hq =>
  rw [← Host.Outcome.next.inj h]
  generalize hv : (s.onOq fun q => { q with queue := rest, begun := s.link.up && decide (rest ≠ []) }) = v
  have hleft : Queues (Notice.keepsSecrets s) s v := by
    subst hv
    exact .kept rfl (by rw [hq]; exact List.sublist_cons_self _ _)
  have same : v.entry = s.entry ∧ v.pos = s.pos ∧ v.tables = s.tables := by subst hv; exact ⟨rfl, rfl, rfl⟩
  obtain ⟨he, hp, ht⟩ := same
  cases r with
  | notice n => exact hleft.trans (serveOwed_queued v).queues
  | reply k tag a =>
    have hsw : ∃ f, (if k = .linkRate ∧ a.status = .ok then v.onLink Link.switchRate else v) = v.onLink f := by
      split
      · exact ⟨_, rfl⟩
      · exact ⟨id, rfl⟩
    obtain ⟨f, hf⟩ := hsw
    simp only [departed, hf, acceptWaiting]
    have hlink : Queues (Notice.keepsSecrets s) s (v.onLink f) := hleft.trans (onLink_queues f v)
    split
    · next r _ => exact accept_queues_from r he hp ht (hlink.trans (onLink_queues _ _))
    · exact hlink
    · exact hlink

/-! ### The other events -/

theorem LineEvent.queued (h : LineEvent p s t) : Queued s t := by
  obtain ⟨v, l, hv, rfl | rfl⟩ := h.lineWork
  · exact hv.queued
  · obtain ⟨f, hf⟩ := foldl_admit_eq_onIntake p l v
    rw [hf]
    exact hv.queued.trans ((Queued.of_eq rfl : Queued v (v.onIntake f)).trans (judgePressure_queued s _))

theorem lineByte_queued (p : Pos) (s : State) (b : Byte) : Queued s (lineByte p s b) := by
  unfold lineByte
  split
  · split
    · exact .of_eq rfl
    · exact .refl s
  · split
    · exact (Queued.of_eq rfl : Queued s (setRx p .hunting s)).trans (judgeFrame_event p _ _).queued
    · exact .of_eq rfl

theorem frameArrives_queued (p : Pos) (bytes : List Byte) (s : State) : Queued s (frameArrives p bytes s) :=
  foldl_chain Queued.refl (fun _ _ _ => Queued.trans) (lineByte p) (lineByte_queued p) _ s

theorem replyByte_queued (g : Group) (s : State) (byte : Byte) : Queued s (replyByte g s byte) := by
  unfold replyByte
  split
  · exact .refl s
  next q hq =>
  split
  · exact .refl s
  · split
    · exact .of_eq rfl
    · exact .refl s
  · dsimp only
    split
    · exact .of_eq rfl
    · next r _ =>
      exact (Queued.of_eq rfl : Queued s (s.onBus g _)).trans
        ((replyEnds_polled g q r _).queued.trans (judgePressure_queued _ _))
  · exact .of_eq rfl

/-- An expiry of a timer that is due, or nothing. -/
theorem queued_of_ite {c : Bool} {v : State} (h : (if c = true then Host.Outcome.next v else .next s) =
    (.next t : Host.Outcome State Fault Refusal)) (hv : Queued s v) : Queued s t := by
  split at h
  · rw [← Host.Outcome.next.inj h]; exact hv
  · rw [← Host.Outcome.next.inj h]; exact .refl s

theorem execRoundTimerExpiry_queued (g : Group) (h : execRoundTimerExpiry g s = .next t) : Queued s t := by
  unfold execRoundTimerExpiry at h
  split at h
  case isFalse => cases h; exact .refl s
  dsimp only at h
  split at h
  · rw [← Host.Outcome.next.inj h]
    exact (onBus_polled g (fun b => { b with roundTimer := .running b.settings.period }) s).queued.trans
      ((onBus_polled g (Bus.startRound false) _).queued.trans
        ((continueRound_visited g 4 _).polled.queued.trans (judgePressure_queued s _)))
  · rw [← Host.Outcome.next.inj h]
    exact .of_eq rfl

theorem execPollLastByteLeaves_queued (g : Group) (h : execPollLastByteLeaves g s = .next t) : Queued s t := by
  unfold execPollLastByteLeaves at h
  split at h
  · cases h; exact .refl s
  · split at h <;> (rw [← Host.Outcome.next.inj h]; exact .of_eq rfl)

theorem execResponseWindowExpiry_queued (g : Group) (h : execResponseWindowExpiry g s = .next t) : Queued s t := by
  unfold execResponseWindowExpiry at h
  split at h
  · cases h; exact .refl s
  next q _ =>
  split at h
  · rw [← Host.Outcome.next.inj h]
    exact (windowEnds_polled g q s).queued.trans (judgePressure_queued s _)
  · cases h; exact .refl s

theorem execInterkeyExpiry_queued (h : execInterkeyExpiry p s = .next t) : Queued s t := by
  unfold execInterkeyExpiry at h
  split at h
  · cases h; exact .refl s
  next e _ =>
  exact queued_of_ite h ((Queued.of_eq rfl : Queued s (s.putEntry p (.some { e with interkeyTimer := .stopped }))).trans
    ((admitSynth_polled p _ _).queued.trans (judgePressure_queued s _)))

theorem execTotalTimerExpiry_queued (h : execTotalTimerExpiry p s = .next t) : Queued s t := by
  unfold execTotalTimerExpiry at h
  split at h
  · cases h; exact .refl s
  next e _ =>
  have key : ∀ mode : Mode, Queued s (postExpired p e.buffer.length e.secret mode
      ((s.putEntry p .none).onPos p fun r => { r with mode := mode })) := fun mode =>
    (Queued.of_eq rfl : Queued s ((s.putEntry p .none).onPos p fun r => { r with mode := mode })).trans
      (postExpired_queued p _ _ mode _)
  exact queued_of_ite h (key _)

theorem execPromptHoldExpiry_queued (h : execPromptHoldExpiry p s = .next t) : Queued s t := by
  unfold execPromptHoldExpiry at h
  refine queued_of_ite h (Queued.trans (t := holdExpires p s) ?_ (judgePressure_queued s _))
  unfold Machine.holdExpires
  split
  · exact .of_eq rfl
  · exact (admitSynth_polled p _ (s.onPu p _)).queued.congr rfl rfl

theorem execCardLineTimer_queued (h : execCardFrameSent p s = .next t ∨ execLineSilenceExpiry p s = .next t ∨
    execHelloAnswerExpiry p s = .next t ∨ execNoReaderHelloExpiry p s = .next t ∨
      execExchangeTimerExpiry p s = .next t) : Queued s t := by
  rcases h with h | h | h | h | h
  · unfold execCardFrameSent at h
    split at h
    · cases h; exact .refl s
    · rw [← Host.Outcome.next.inj h]; exact LineEvent.sent.queued
  · exact queued_of_ite h (LineEvent.silence _ rfl).queued
  · exact queued_of_ite h (LineEvent.hello _ rfl).queued
  · exact queued_of_ite h LineEvent.noReader.queued
  · unfold execExchangeTimerExpiry at h
    split at h
    · cases h; exact .refl s
    next x hx =>
    split at h
    · next ha => rw [← Host.Outcome.next.inj h]; exact (LineEvent.timeout x hx ha.1).queued
    · cases h; exact .refl s

theorem execWithdrawal_queues (h : execWithdrawal s = .next t) : Queues (Notice.keepsSecrets s) s t := by
  unfold execWithdrawal at h
  split at h
  · cases h; exact .of_eq rfl
  next e rest _ =>
  split at h
  · rw [← Host.Outcome.next.inj h]
    exact (withdraw_queues e rest s).trans (judgePressure_queued s _).queues
  · cases h; exact .of_eq rfl

theorem execLapseTimerExpiry_queues (h : execLapseTimerExpiry s = .next t) : Queues (Notice.keepsSecrets s) s t := by
  unfold execLapseTimerExpiry at h
  split at h
  · cases h; exact .of_eq rfl
  next a _ =>
  split at h
  · rw [← Host.Outcome.next.inj h]
    exact lapse_queues a s
  · cases h; exact .of_eq rfl

/-- What a command queues, but for a request and a RECORD_DISCARD, whose bytes bring a record. -/
theorem execLinkDown_queues (h : execLinkDown s = .next t) : Queues P s t := by
  unfold execLinkDown at h
  split at h <;> (cases h; exact .of_eq rfl)

/-- Every command's notices, the command taken from the queue. -/
theorem exec_queues (c : Instr) (rest : List Instr) (hb : State.bringsOneRecord { s with pending := c :: rest })
    (h : exec c s = .next t) : Queues (Notice.keepsSecrets s) s t := by
  have request : ∀ r : Request, r.command = c → exec r.command s = .next t → Queues (Notice.keepsSecrets s) s t := by
    intro r hr hx
    rw [exec_command] at hx
    rw [← Host.Outcome.next.inj hx]
    refine recordArrives_queues r.bytes s fun hm => ?_
    obtain ⟨hw, hgot⟩ := (hb hm).1 r rest (by rw [hr])
    exact ⟨(r.bytes_whole hw).2, hgot⟩
  cases c with
  | powerOnReset mode wcts =>
    have hq : t.oq.queue = [.notice (.started .powerOn mode)] := by
      cases h
      exact (poweredState_poweredOn mode wcts s.pending).queue
    exact ⟨[], [.notice (.started .powerOn mode)], hq, List.nil_sublist _, fun n hn => by
      obtain rfl : n = .started .powerOn mode := by simpa using hn
      trivial⟩
  | linkUp => cases h; exact .of_eq rfl
  | linkDown => exact execLinkDown_queues h
  | recordDiscard bytes =>
    rw [← Host.Outcome.next.inj h]
    exact recordArrives_queues bytes s fun hm => (hb hm).2 bytes rest rfl
  | recordSent => exact execRecordSent_queues h
  | linkSyncByte =>
    simp only [exec, execLinkSyncByte] at h
    split at h
    · rw [← Host.Outcome.next.inj h]; exact linkByte_queues s _
    · cases h; exact .of_eq rfl
  | roundTimerExpiry g => exact (execRoundTimerExpiry_queued g h).queues
  | pollLastByteLeaves g => exact (execPollLastByteLeaves_queued g h).queues
  | keypadReply g reply =>
    rw [← Host.Outcome.next.inj h]
    exact (foldl_chain Queued.refl (fun _ _ _ => Queued.trans) (replyByte g) (replyByte_queued g) _ s).queues
  | keypadReplyByte g byte => rw [← Host.Outcome.next.inj h]; exact (replyByte_queued g s byte).queues
  | responseWindowExpiry g => exact (execResponseWindowExpiry_queued g h).queues
  | withdrawal => exact execWithdrawal_queues h
  | lapseTimerExpiry => exact execLapseTimerExpiry_queues h
  | interkeyExpiry p => exact (execInterkeyExpiry_queued h).queues
  | totalTimerExpiry p => exact (execTotalTimerExpiry_queued h).queues
  | promptHoldExpiry p => exact (execPromptHoldExpiry_queued h).queues
  | cardFrameSent p => exact (execCardLineTimer_queued (.inl h)).queues
  | lineSilenceExpiry p => exact (execCardLineTimer_queued (.inr (.inl h))).queues
  | helloAnswerExpiry p => exact (execCardLineTimer_queued (.inr (.inr (.inl h)))).queues
  | noReaderHelloExpiry p => exact (execCardLineTimer_queued (.inr (.inr (.inr (.inl h))))).queues
  | exchangeTimerExpiry p => exact (execCardLineTimer_queued (.inr (.inr (.inr (.inr h))))).queues
  | cardLineSyncByte p => rw [← Host.Outcome.next.inj h]; exact (lineByte_queued p s _).queues
  | tick => cases h; exact .of_eq rfl
  | stateFrame p _ | faultFrame p _ | doneFrame p | answerFrame p _ | responseFrame p _ | unlistedFrameKind p _ _
  | failingFrame p _ => rw [← Host.Outcome.next.inj h]; exact (frameArrives_queued p _ s).queues
  | unknownRequest kind tag payload => exact request ⟨.unknown kind, tag, payload⟩ rfl h
  | openPosition tag payload => exact request ⟨.openPosition, tag, payload⟩ rfl h
  | closePosition tag payload => exact request ⟨.closePosition, tag, payload⟩ rfl h
  | resetPosition tag payload => exact request ⟨.resetPosition, tag, payload⟩ rfl h
  | setMode tag payload => exact request ⟨.setMode, tag, payload⟩ rfl h
  | positionStatus tag payload => exact request ⟨.positionStatus, tag, payload⟩ rfl h
  | busSet tag payload => exact request ⟨.busSet, tag, payload⟩ rfl h
  | busStatus tag payload => exact request ⟨.busStatus, tag, payload⟩ rfl h
  | bankOpen tag payload => exact request ⟨.bankOpen, tag, payload⟩ rfl h
  | bankClose tag payload => exact request ⟨.bankClose, tag, payload⟩ rfl h
  | bankFreeze tag payload => exact request ⟨.bankFreeze, tag, payload⟩ rfl h
  | tableWrite tag payload => exact request ⟨.tableWrite, tag, payload⟩ rfl h
  | modeSet tag payload => exact request ⟨.modeSet, tag, payload⟩ rfl h
  | tableRead tag payload => exact request ⟨.tableRead, tag, payload⟩ rfl h
  | attentionSet tag payload => exact request ⟨.attentionSet, tag, payload⟩ rfl h
  | attend tag payload => exact request ⟨.attend, tag, payload⟩ rfl h
  | collect tag payload => exact request ⟨.collect, tag, payload⟩ rfl h
  | collectStatus tag payload => exact request ⟨.collectStatus, tag, payload⟩ rfl h
  | collectStop tag payload => exact request ⟨.collectStop, tag, payload⟩ rfl h
  | entryRead tag payload => exact request ⟨.entryRead, tag, payload⟩ rfl h
  | entryWipe tag payload => exact request ⟨.entryWipe, tag, payload⟩ rfl h
  | prompt tag payload => exact request ⟨.prompt, tag, payload⟩ rfl h
  | promptClear tag payload => exact request ⟨.promptClear, tag, payload⟩ rfl h
  | beep tag payload => exact request ⟨.beep, tag, payload⟩ rfl h
  | cardLineSet tag payload => exact request ⟨.cardLineSet, tag, payload⟩ rfl h
  | cardStatus tag payload => exact request ⟨.cardStatus, tag, payload⟩ rfl h
  | cardPower tag payload => exact request ⟨.cardPower, tag, payload⟩ rfl h
  | cardExchange tag payload => exact request ⟨.cardExchange, tag, payload⟩ rfl h
  | cardPresent tag payload => exact request ⟨.cardPresent, tag, payload⟩ rfl h
  | cardRelease tag payload => exact request ⟨.cardRelease, tag, payload⟩ rfl h
  | cardAbort tag payload => exact request ⟨.cardAbort, tag, payload⟩ rfl h
  | linkRate tag payload => exact request ⟨.linkRate, tag, payload⟩ rfl h
  | resetArm tag payload => exact request ⟨.resetArm, tag, payload⟩ rfl h
  | counterReset tag payload => exact request ⟨.counterReset, tag, payload⟩ rfl h
  | identify tag payload => exact request ⟨.identify, tag, payload⟩ rfl h
  | counterStatus tag payload => exact request ⟨.counterStatus, tag, payload⟩ rfl h

end Sys2Proof.Machine

open Sys2Proof Sys2Proof.Machine

/-- Settles O33: a command queues engine notices in at most one event, and that event reads the entry and the tables as
the step found them. -/
theorem secretDigitsStayOutOfNotices : Obligations.SecretDigitsStayOutOfNotices := by
  unfold Obligations.SecretDigitsStayOutOfNotices
  refine ⟨fun s p c d mode hc hsec hn => ?_, fun s t hb ht => ?_⟩
  · have hk : 9 < c.val ∨ s.secretContext p = false := applied_keepsSecrets p c d s hn
    rw [hsec] at hk
    rcases hk with hk | hk
    · omega
    · cases hk
  · unfold step at ht
    split at ht
    · cases ht
      exact ⟨s.oq.queue, [], by simp, List.Sublist.refl _, by simp⟩
    · next c rest hp =>
      have h := exec_queues c rest (s := { s with pending := rest })
        (by rw [State.bringsOneRecord] at hb ⊢; rw [hp] at hb; exact hb) ht
      exact (h.mono fun n hn => Notice.keepsSecrets_congr rfl rfl rfl hn).from rfl

end

section
/-! SUPPORT. The step and the tick, the formats of chapter 12 and the actions on an entry: what each function gives, case
by case (R5, R6, R57, R83, R84, R108 to R113, R185, R188). -/

namespace Sys2Proof.Machine

open Sys2Proof

/-! ### The tick -/

/-- A running timer after some ticks. -/
theorem tick_iterate_running (n k : Nat) : Timer.tick^[k] (.running n) = .running (n - k) := by
  induction k generalizing n with
  | zero => simp
  | succ k ih =>
    rw [Function.iterate_succ_apply, Timer.tick, ih]
    congr 1
    omega

theorem tick_iterate_stopped (k : Nat) : Timer.tick^[k] .stopped = .stopped := by
  induction k with
  | zero => rfl
  | succ k ih => rw [Function.iterate_succ_apply, Timer.tick, ih]

theorem timer_due_running (n : Nat) : (Timer.running n).due = true ↔ n = 0 := by
  cases n <;> simp [Timer.due]

/-! ### The two-byte disposition (section 12.6) -/

theorem actionOf_index (a : Action) : actionOf a.index = .some a := by cases a <;> rfl

theorem Action.index_le (a : Action) : a.index ≤ 6 := by cases a <;> decide

theorem echoOf_index (e : Echo) : echoOf e.index = e := by cases e <;> rfl

theorem Echo.index_le (e : Echo) : e.index ≤ 3 := by cases e <;> decide

theorem beepOf_index (b : Beep) : beepOf b.index = .some b := by cases b <;> rfl

theorem Beep.index_le (b : Beep) : b.index ≤ 2 := by cases b <;> decide

theorem index_of_actionOf {n : Nat} {a : Action} (h : actionOf n = .some a) : a.index = n := by
  unfold actionOf at h
  split at h <;> cases h <;> rfl

theorem index_of_beepOf {n : Nat} {b : Beep} (h : beepOf n = .some b) : b.index = n := by
  unfold beepOf at h
  split at h <;> cases h <;> rfl

theorem index_of_echoOf {n : Nat} (h : n < 4) : (echoOf n).index = n := by
  match n, h with
  | 0, _ => rfl
  | 1, _ => rfl
  | 2, _ => rfl
  | 3, _ => rfl

theorem actionOf_eq_none {n : Nat} (h : n < 8) : actionOf n = .none ↔ n = 7 := by
  interval_cases n <;> simp [actionOf]

theorem beepOf_eq_none {n : Nat} (h : n < 4) : beepOf n = .none ↔ n = 3 := by
  interval_cases n <;> simp [beepOf]

/-- The bytes of an entry, as numbers (section 12.6). -/
theorem writeDisposition_toNat (d : Disposition) : ∃ x y : Byte, writeDisposition d = [x, y] ∧
    x.toNat = d.nextMode.val + 8 * d.action.index + 64 * d.echo.index ∧
    y.toNat = d.beep.index + (if d.attention then 4 else 0) + (if d.report then 8 else 0) := by
  have hm := d.nextMode.isLt
  have ha := d.action.index_le
  have he := d.echo.index_le
  have hb := d.beep.index_le
  refine ⟨_, _, rfl, toNat_byte (by omega), toNat_byte ?_⟩
  split <;> split <;> omega

/-- What is read of two bytes whose parts are known. -/
theorem readDisposition_of {x y : Byte} {a : Action} {b : Beep} (ha : actionOf (x.toNat / 8 % 8) = .some a)
    (hb : beepOf (y.toNat % 4) = .some b) : readDisposition x y = if y.toNat / 16 = 0 then
      .some { nextMode := ⟨x.toNat % 8, by omega⟩, action := a, echo := echoOf (x.toNat / 64), beep := b,
              attention := decide (y.toNat / 4 % 2 = 1), report := decide (y.toNat / 8 % 2 = 1) }
    else .none := by
  simp only [readDisposition, ha, hb]

theorem readDisposition_written (d : Disposition) : ∃ x y, writeDisposition d = [x, y] ∧ readDisposition x y = .some d := by
  obtain ⟨x, y, hw, hx, hy⟩ := writeDisposition_toNat d
  have hm := d.nextMode.isLt
  have ha := d.action.index_le
  have he := d.echo.index_le
  have hb := d.beep.index_le
  refine ⟨x, y, hw, ?_⟩
  have hx8 : x.toNat / 8 % 8 = d.action.index := by omega
  have hx1 : x.toNat % 8 = d.nextMode.val := by omega
  have hx64 : x.toNat / 64 = d.echo.index := by omega
  have hy : y.toNat % 4 = d.beep.index ∧ y.toNat / 16 = 0 ∧
      decide (y.toNat / 4 % 2 = 1) = d.attention ∧ decide (y.toNat / 8 % 2 = 1) = d.report := by
    cases hat : d.attention <;> cases hre : d.report <;>
      simp only [hat, hre, if_true, Bool.false_eq_true, if_false] at hy <;> simp only [decide_eq_true_eq, decide_eq_false_iff_not] <;> omega
  obtain ⟨hy4, hy16, hat, hre⟩ := hy
  rw [readDisposition_of (by rw [hx8, actionOf_index]) (by rw [hy4, beepOf_index]), if_pos hy16]
  simp only [hx64, echoOf_index, hat, hre, hx1]

theorem writeDisposition_read {x y : Byte} {d : Disposition} (h : readDisposition x y = .some d) :
    writeDisposition d = [x, y] := by
  unfold readDisposition at h
  split at h
  case h_2 => cases h
  next a b ha hb =>
  split at h
  case isFalse => cases h
  next h16 =>
  obtain rfl := Option.some.inj h
  have hx := x.isLt
  have hai := index_of_actionOf ha
  have hbi := index_of_beepOf hb
  have hei := index_of_echoOf (n := x.toNat / 64) (by omega)
  simp only [writeDisposition, hai, hbi, hei, List.cons.injEq, and_true, decide_eq_true_eq]
  constructor
  · apply BitVec.eq_of_toNat_eq
    rw [toNat_byte (by omega)]
    omega
  · apply BitVec.eq_of_toNat_eq
    rw [toNat_byte (by split <;> split <;> omega)]
    split <;> split <;> omega

theorem readDisposition_eq_none (x y : Byte) : readDisposition x y = .none ↔
    (x.toNat / 8 % 8 = 7 ∨ y.toNat % 4 = 3 ∨ y.toNat / 16 ≠ 0) := by
  rw [← actionOf_eq_none (n := x.toNat / 8 % 8) (by omega), ← beepOf_eq_none (n := y.toNat % 4) (by omega)]
  cases ha : actionOf (x.toNat / 8 % 8) with
  | none => simp [readDisposition, ha]
  | some a =>
    cases hb : beepOf (y.toNat % 4) with
    | none => simp [readDisposition, ha, hb]
    | some b =>
      rw [readDisposition_of ha hb]
      simp

theorem readRun_written (i : Nat) (ds : List Disposition) : readRun i (ds.flatMap writeDisposition) = .good ds := by
  induction ds generalizing i with
  | nil => rfl
  | cons d rest ih =>
    obtain ⟨x, y, hw, hr⟩ := readDisposition_written d
    simp only [List.flatMap_cons, hw, List.cons_append, List.nil_append, readRun, hr, ih]

/-! ### The check (R185) -/

theorem checkSums_append (l m : List Byte) : checkSums (l ++ m) = m.foldl checkStep (checkSums l) := by
  rw [checkSums, List.foldl_append, checkSums]

/-- The two check bytes, as numbers. -/
theorem checkBytes_toNat (l : List Byte) : ∃ c2 c1 : Byte, checkBytes l = [c2, c1] ∧ c2.toNat = (checkSums l).2 ∧
    c1.toNat = (checkSums l).1 := by
  obtain ⟨h1, h2⟩ := checkSums_lt l
  exact ⟨_, _, rfl, toNat_byte (by omega), toNat_byte (by omega)⟩

theorem byte_ne_ff {b : Byte} (h : b.toNat < 255) : b ≠ 0xFF := by
  rintro rfl
  exact absurd h (by decide)

/-- The receiver's test is of the two numbers. -/
theorem passesCheck_two (l : List Byte) (c2 c1 : Byte) :
    passesCheck l [c2, c1] = decide (c2.toNat = (checkSums l).2 ∧ c1.toNat = (checkSums l).1) := by
  obtain ⟨d2, d1, hd, h2, h1⟩ := checkBytes_toNat l
  rw [passesCheck, hd, ← h2, ← h1]
  simp only [List.cons.injEq, and_true, BitVec.toNat_inj]

theorem goodRecord_body (kind tag c2 c1 : Byte) (payload : List Byte) (hp : payload.length ≤ 250) :
    goodRecord (recordBody kind tag payload ++ [c2, c1]) =
      if c2.toNat = (checkSums (recordBody kind tag payload)).2 ∧ c1.toNat = (checkSums (recordBody kind tag payload)).1
      then .some ⟨reqKindOf kind, tag, payload⟩ else .none := by
  have hn : (BitVec.ofNat 8 payload.length).toNat = payload.length := toNat_byte (by omega)
  have he : recordBody kind tag payload ++ [c2, c1] =
      kind :: tag :: BitVec.ofNat 8 payload.length :: (payload ++ [c2, c1]) := by simp [recordBody, u8]
  rw [he]
  simp only [goodRecord, hn, List.take_left', List.drop_left', passesCheck_two, Config.recordPayload]
  simp [hp]

theorem goodFrame_body (kind c2 c1 : Byte) (payload : List Byte) (hp : payload.length ≤ 240) :
    goodFrame (frameBody kind payload ++ [c2, c1]) =
      if c2.toNat = (checkSums (frameBody kind payload)).2 ∧ c1.toNat = (checkSums (frameBody kind payload)).1
      then .some (kind, payload) else .none := by
  have hn : (BitVec.ofNat 8 payload.length).toNat = payload.length := toNat_byte (by omega)
  have he : frameBody kind payload ++ [c2, c1] =
      kind :: BitVec.ofNat 8 payload.length :: (payload ++ [c2, c1]) := by simp [frameBody, u8]
  rw [he]
  simp only [goodFrame, hn, List.take_left', List.drop_left', passesCheck_two, Config.framePayload]
  simp [hp]

theorem readReply_body (status c2 c1 : Byte) (codes : List Byte) (hs : status.toNat % 8 = codes.length)
    (hc : codes.length ≤ 4) : ∃ r, readReply (status :: codes ++ [c2, c1]) = .some r ∧
      r.checkOk = decide (c2.toNat = (checkSums (status :: codes)).2 ∧ c1.toNat = (checkSums (status :: codes)).1) := by
  have hread : readReply (status :: codes ++ [c2, c1]) = .some {
      addr := status.toNat / 64, seq := decide (status.toNat / 32 % 2 = 1),
      applied := decide (status.toNat / 16 % 2 = 1), alarm := decide (status.toNat / 8 % 2 = 1),
      codes := codes, checkOk := passesCheck (status :: codes) [c2, c1] } := by
    simp only [List.cons_append, readReply, hs, List.take_left', List.drop_left']
    simp [hc]
  exact ⟨_, hread, passesCheck_two (status :: codes) c2 c1⟩

/-- The first sum tells two bytes apart, but 0x00 from 0xFF (R185). -/
theorem checkBytes_ne {before after : List Byte} {x y : Byte} (hxy : x ≠ y) (h0 : ¬ (x = 0x00 ∧ y = 0xFF))
    (h1 : ¬ (x = 0xFF ∧ y = 0x00)) : checkBytes (before ++ x :: after) ≠ checkBytes (before ++ y :: after) := by
  intro he
  obtain ⟨c2, c1, hc, _, hc1⟩ := checkBytes_toNat (before ++ x :: after)
  obtain ⟨d2, d1, hd, _, hd1⟩ := checkBytes_toNat (before ++ y :: after)
  rw [hc, hd] at he
  obtain rfl : c1 = d1 := by simpa using (List.cons.inj he).2
  have hsum := hc1.symm.trans hd1
  rw [checkSums_fst, checkSums_fst] at hsum
  simp only [List.map_append, List.map_cons, List.sum_append, List.sum_cons] at hsum
  have hx := x.isLt
  have hy := y.isLt
  have hne : x.toNat ≠ y.toNat := fun e => hxy (BitVec.eq_of_toNat_eq e)
  have h0' : ¬ (x.toNat = 0 ∧ y.toNat = 255) := fun ⟨a, b⟩ =>
    h0 ⟨BitVec.eq_of_toNat_eq (by simpa using a), BitVec.eq_of_toNat_eq (by simpa using b)⟩
  have h1' : ¬ (x.toNat = 255 ∧ y.toNat = 0) := fun ⟨a, b⟩ =>
    h1 ⟨BitVec.eq_of_toNat_eq (by simpa using a), BitVec.eq_of_toNat_eq (by simpa using b)⟩
  omega

/-- A step by 0xFF is a step by 0x00 (R185). -/
theorem checkStep_ff (sums : Nat × Nat) : checkStep sums 0xFF = checkStep sums 0x00 := by
  have h : (sums.1 + (0xFF : Byte).toNat) % 255 = (sums.1 + (0x00 : Byte).toNat) % 255 := by
    change (sums.1 + 255) % 255 = (sums.1 + 0) % 255
    omega
  simp only [checkStep, h]

theorem checkBytes_blind (before after : List Byte) :
    checkBytes (before ++ 0x00 :: after) = checkBytes (before ++ 0xFF :: after) := by
  have h : checkSums (before ++ 0x00 :: after) = checkSums (before ++ 0xFF :: after) := by
    rw [checkSums_append, checkSums_append, List.foldl_cons, List.foldl_cons, checkStep_ff]
  rw [checkBytes, checkBytes, h]

/-! ### The actions on an entry (R83, R84, R108 to R113) -/

section Actions

variable {s : State} {p : Pos} {e : Entry} (c : Code) (ms : Bool)

/-- HOLD on a COLLECTING entry. -/
theorem hold_of_collecting (he : s.entry.get p = .some e) (hc : e.state = .collecting) :
    entryAction p c ms .hold s = (s.putEntry p (.some (e.hold c ms).1), (e.hold c ms).2) := by
  simp only [entryAction, he, hc]

/-- An action that leaves the entry as it is leaves the state as it is. -/
theorem putEntry_same (he : s.entry.get p = .some e) : s.putEntry p (.some e) = s := by
  rw [State.putEntry, ← he, PerPos.set_get_same]

theorem Entry.hold_below (h : e.buffer.length < e.maxLength)
    (hf : e.buffer.length + 1 < e.maxLength ∨ e.fullReached = true) : e.hold c ms =
      ({ e with buffer := e.buffer ++ [c], secret := e.secret || ms }, ⟨false, .none, .none, .none⟩) := by
  have hn : ¬ ((e.buffer ++ [c]).length = e.maxLength ∧ e.fullReached = false) := by
    rintro ⟨hl, hfr⟩
    rw [List.length_append, List.length_singleton] at hl
    rcases hf with hf | hf
    · omega
    · rw [hfr] at hf; cases hf
  unfold Entry.hold
  rw [if_pos h]
  dsimp only
  rw [if_neg hn]
  rfl

theorem Entry.hold_fills (h : e.buffer.length + 1 = e.maxLength) (hf : e.fullReached = false) (hp : e.policy ≠ .complete) :
    e.hold c ms = ({ e with buffer := e.buffer ++ [c], secret := e.secret || ms, fullReached := true },
      ⟨false, .none, e.fullMode, .none⟩) := by
  have hl : (e.buffer ++ [c]).length = e.maxLength := by simpa using h
  unfold Entry.hold
  rw [if_pos (by omega)]
  dsimp only
  rw [if_pos ⟨hl, hf⟩]
  cases hpol : e.policy with
  | complete => exact absurd hpol hp
  | stop | roll => rfl

theorem firstMode_eq (a b : Option Mode) : firstMode a b = if a = .none then b else a := by cases a <;> simp [firstMode]

theorem Entry.hold_completes (h : e.buffer.length + 1 = e.maxLength) (hf : e.fullReached = false)
    (hp : e.policy = .complete) : e.hold c ms =
      ({ e with buffer := e.buffer ++ [c], secret := e.secret || ms, fullReached := true, state := .complete,
                interkeyTimer := .stopped },
        { refused := false, tally := .none, newMode := if e.endMode = none then e.fullMode else e.endMode,
          notice := some (.completed e.maxLength (e.secret || ms)
            (if (e.secret || ms) = true then none else some (e.buffer ++ [c]))) }) := by
  have hl : (e.buffer ++ [c]).length = e.maxLength := by simpa using h
  unfold Entry.hold
  rw [if_pos (by omega)]
  dsimp only
  rw [if_pos ⟨hl, hf⟩]
  simp only [hp, Entry.completed, Entry.completeNotice, Entry.openCodes, hl, firstMode_eq, ActionOutcome.plain]

theorem Entry.hold_refused (h : e.buffer.length = e.maxLength) (hp : e.policy = .stop) :
    e.hold c ms = (e, ⟨true, .refusal, .none, .none⟩) := by
  unfold Entry.hold
  rw [if_neg (by omega), hp]
  rfl

theorem Entry.hold_rolls (h : e.buffer.length = e.maxLength) (hp : e.policy = .roll) : e.hold c ms =
    ({ e with buffer := e.buffer.tail ++ [c], secret := e.secret || ms }, ⟨false, .none, .none, .none⟩) := by
  unfold Entry.hold
  rw [if_neg (by omega), hp, List.drop_one]
  rfl

/-- The actions on an entry that is not COLLECTING, or on none. -/
theorem entryAction_not_collecting (h : s.entryCollecting p = false) :
    entryAction p c ms .hold s = (s, ⟨false, .strayHold, .none, .none⟩) ∧
    entryAction p c ms .eraseLast s = (s, ⟨false, .none, .none, .none⟩) ∧
    entryAction p c ms .clearEntry s = (s, ⟨false, .none, .none, .none⟩) ∧
    entryAction p c ms .complete s = (s, ⟨true, .none, .none, .none⟩) := by
  unfold State.entryCollecting at h
  cases he : s.entry.get p with
  | none =>
    simp only [entryAction, he]
    exact ⟨rfl, rfl, rfl, rfl⟩
  | some e =>
    rw [he] at h
    cases hs : e.state with
    | collecting => simp [hs] at h
    | complete =>
      simp only [entryAction, he, hs]
      exact ⟨rfl, rfl, rfl, rfl⟩

theorem Entry.complete_enough (h : e.minLength ≤ e.buffer.length) : e.complete =
    ({ e with state := .complete, interkeyTimer := .stopped }, ⟨false, .none, e.endMode,
      .some (.completed e.buffer.length e.secret (if e.secret then .none else .some e.buffer))⟩) := by
  unfold Entry.complete
  rw [if_pos h]
  rfl

theorem Entry.complete_short (h : e.buffer.length < e.minLength) : e.complete = (e, ⟨true, .refusal, .none, .none⟩) := by
  unfold Entry.complete
  rw [if_neg (by omega)]
  rfl

end Actions

/-! ### The echo (R132, R133) -/

section Echo

variable {u : PromptUnit} {pr : Prompt} {f : EchoField} (c : Code) (mask : Byte)

theorem displayChars_digit {c : Code} (h : c.val ≤ 9) : displayChars c = [BitVec.ofNat 8 (0x30 + c.val)] := by
  rw [displayChars, if_pos h]

theorem displayChars_doubleZero : displayChars 0x0E = [0x30, 0x30] := rfl

theorem displayChars_none {c : Code} (h : 9 < c.val) (hc : c ≠ 0x0E) : displayChars c = [] := by
  rw [displayChars, if_neg (by omega), if_neg]
  intro e
  exact hc (Fin.ext e)

/-- The echo on a prompt with a field. -/
theorem echo_mask (hu : u.current = .some pr) (hf : pr.field = .some f) :
    u.echo .mask c mask = u.writeCells f [mask] := by simp only [PromptUnit.echo, hu, hf]

theorem echo_char (hu : u.current = .some pr) (hf : pr.field = .some f) :
    u.echo .char c mask = u.writeCells f (displayChars c) := by simp only [PromptUnit.echo, hu, hf]

theorem echo_blankLast (hu : u.current = .some pr) (hf : pr.field = .some f) :
    u.echo .blankLast c mask = u.blankLast f := by simp only [PromptUnit.echo, hu, hf]

theorem echo_without_field (kind : Echo)
    (h : u.current = none ∨ (∃ pr, u.current = some pr ∧ pr.field = none) ∨ kind = .none) : u.echo kind c mask = u := by
  unfold PromptUnit.echo
  rcases h with h | ⟨pr, h, hf⟩ | rfl
  · simp only [h]
  · simp only [h, hf]
  · split
    · rfl
    · split <;> rfl

theorem writeCell_free (x : Byte) (h : u.cursor < f.width) :
    u.writeCell f x = { u with content := u.content.set (f.base + u.cursor) x, cursor := u.cursor + 1 } := by
  rw [PromptUnit.writeCell, if_pos h]

/-- The content of a display whose field shifts by one, a character at its end (R132). -/
def shiftField (f : EchoField) (content : List Byte) (x : Byte) : List Byte :=
  content.take f.base ++ (((content.drop f.base).take f.width).drop 1 ++ [x]) ++ content.drop (f.base + f.width)

theorem writeCell_full (x : Byte) (h : u.cursor = f.width) :
    u.writeCell f x = { u with content := shiftField f u.content x } := by
  rw [PromptUnit.writeCell, if_neg (by omega), shiftField]

/-- A shift, cell by cell. -/
theorem shiftField_getElem? {content : List Byte} (x : Byte) (hw : 1 ≤ f.width)
    (hl : f.base + f.width ≤ content.length) (i : Nat) : (shiftField f content x)[i]? =
      if i < f.base ∨ f.base + f.width ≤ i then content[i]?
      else if i + 1 < f.base + f.width then content[i + 1]? else some x := by
  have htake : (content.take f.base).length = f.base := by rw [List.length_take]; omega
  have hmid : (((content.drop f.base).take f.width).drop 1).length = f.width - 1 := by
    simp only [List.length_drop, List.length_take]; omega
  unfold shiftField
  split
  · next h =>
    rcases h with h | h
    · rw [List.append_assoc, List.getElem?_append_left (by omega), List.getElem?_take_of_lt h]
    · rw [List.getElem?_append_right (by simp only [List.length_append, htake, hmid, List.length_singleton]; omega),
        List.getElem?_drop]
      simp only [List.length_append, htake, hmid, List.length_singleton]
      congr 1
      omega
  · next h =>
    rw [List.append_assoc, List.getElem?_append_right (by omega), htake,
      List.getElem?_append_left (by simp only [List.length_append, hmid, List.length_singleton]; omega)]
    split
    · next h1 =>
      rw [List.getElem?_append_left (by omega), List.getElem?_drop, List.getElem?_take_of_lt (by omega),
        List.getElem?_drop]
      congr 1
      omega
    · next h1 =>
      rw [List.getElem?_append_right (by omega), hmid]
      have : i - f.base - (f.width - 1) = 0 := by omega
      rw [this]
      rfl

theorem shiftField_length {content : List Byte} (x : Byte) (hw : 1 ≤ f.width) (hl : f.base + f.width ≤ content.length) :
    (shiftField f content x).length = content.length := by
  simp only [shiftField, List.length_append, List.length_take, List.length_drop, List.length_singleton]
  omega

/-- A write with one cell free or none leaves the field full (R132). -/
theorem writeCell_near_full {free : Nat} (x : Byte) (hc : u.cursor + free = f.width) (hfree : free ≤ 1) (hw : 1 ≤ f.width)
    (hl : f.base + f.width ≤ u.content.length) : ∃ c1, u.writeCell f x = { u with content := c1, cursor := f.width } ∧
      c1.length = u.content.length ∧ (∀ i, i < f.base ∨ f.base + f.width ≤ i → c1[i]? = u.content[i]?) ∧
      (∀ i, f.base ≤ i → i + 1 < f.base + f.width → c1[i]? = u.content[i + 1 - free]?) ∧
      c1[f.base + f.width - 1]? = some x := by
  by_cases h0 : free = 0
  · subst h0
    have hget := shiftField_getElem? (f := f) x hw hl
    refine ⟨shiftField f u.content x, by rw [writeCell_full x (by omega), ← hc, Nat.add_zero], shiftField_length x hw hl,
      fun i hi => (hget i).trans (if_pos hi), fun i h1 h2 => ?_, ?_⟩
    · rw [hget, if_neg (by omega), if_pos h2, Nat.sub_zero]
    · rw [hget, if_neg (by omega), if_neg (by omega)]
  · obtain rfl : free = 1 := by omega
    refine ⟨u.content.set (f.base + u.cursor) x, by rw [writeCell_free x (by omega), hc], List.length_set,
      fun i hi => ?_, fun i h1 h2 => ?_, ?_⟩
    · rw [List.getElem?_set_ne (by omega)]
    · rw [List.getElem?_set_ne (by omega), Nat.add_sub_cancel]
    · have he : f.base + f.width - 1 = f.base + u.cursor := by omega
      rw [he, List.getElem?_set_self (by omega)]

theorem writeCells_one (x : Byte) : u.writeCells f [x] =
    (u.writeCell f x).compose (u.writeCell f x).content := rfl

theorem writeCells_two (x y : Byte) : u.writeCells f [x, y] =
    ((u.writeCell f x).writeCell f y).compose ((u.writeCell f x).writeCell f y).content := rfl

end Echo

end Sys2Proof.Machine

open Sys2Proof Sys2Proof.Machine

/-- Settles O1: the step is the command at the front of the queue. -/
theorem stepRunsTheFrontCommand : Obligations.StepRunsTheFrontCommand := by
  refine ⟨fun c rest s => rfl, fun s h => ?_⟩
  rw [step, h]

/-- Settles O53: a tick ticks each timer, and n ticks take a count of n to 0. -/
theorem tickMovesEveryTimer : Obligations.TickMovesEveryTimer := by
  refine ⟨fun s => ⟨s.tick, rfl, rfl, fun g => ?_, rfl, fun p => ⟨?_, ?_, ?_, ?_⟩⟩, fun n k hn => ?_, fun k => ?_⟩
  · exact Quad.get_map _ _ _
  · exact PerPos.get_map _ _ _
  · exact PerPos.get_map _ _ _
  · exact PerPos.get_map _ _ _
  · exact PerPos.get_map _ _ _
  · rw [tick_iterate_running]
    rw [timer_due_running]
    omega
  · rw [tick_iterate_stopped]
    rfl

/-- Settles O26: the parts of the two bytes are the parts of the entry. -/
theorem dispositionFormRoundTrips : Obligations.DispositionFormRoundTrips :=
  ⟨readDisposition_written, fun _ _ _ h => writeDisposition_read h, readDisposition_eq_none, readRun_written 0⟩

/-- Settles O54: the receivers compare the two sums, and the first sum tells any two bytes apart but 0x00 and 0xFF. -/
theorem checkDetectsSingleByteChanges : Obligations.CheckDetectsSingleByteChanges := by
  refine ⟨rfl, fun l b => ?_, fun l => ?_, fun kind tag c2 c1 payload hp => goodRecord_body kind tag c2 c1 payload hp,
    fun kind c2 c1 payload hp => goodFrame_body kind c2 c1 payload hp,
    fun status c2 c1 codes hs hc => readReply_body status c2 c1 codes hs hc, fun l c2 c1 h => ?_,
    fun before after x y => checkBytes_ne, checkBytes_blind⟩
  · rw [checkSums_append]
    rfl
  · obtain ⟨c2, c1, hc, h2, h1⟩ := checkBytes_toNat l
    obtain ⟨l1, l2⟩ := checkSums_lt l
    exact ⟨c2, c1, by rw [withCheck, hc], h2, h1, byte_ne_ff (by omega), byte_ne_ff (by omega)⟩
  · obtain ⟨l1, l2⟩ := checkSums_lt l
    rw [passesCheck_two, decide_eq_false_iff_not]
    rintro ⟨h2, h1⟩
    rcases h with h | h
    · exact byte_ne_ff (by omega) h
    · exact byte_ne_ff (by omega) h

/-- Settles O29: the cases of HOLD by length, full mark and policy, and the other actions by the entry's state. -/
theorem actionsWorkOnTheEntry : Obligations.ActionsWorkOnTheEntry := by
  refine ⟨fun s p c ms e he hc hl hf => ?_, fun s p c ms e he hc hl hf hp => ?_, fun s p c ms e he hc hl hf hp => ?_,
    fun s p c ms e he hc hl hp => ?_, fun s p c ms e he hc hl hp => ?_,
    fun s p c ms h => entryAction_not_collecting c ms h, fun s p c ms e he hc => ⟨?_, ?_⟩,
    fun s p c ms e he hc hl => ?_, fun s p c ms e he hc hl => ?_, fun s p c ms e he => ?_, fun s p c ms he => ?_⟩
  · rw [hold_of_collecting c ms he hc, Entry.hold_below c ms hl hf]
  · rw [hold_of_collecting c ms he hc, Entry.hold_fills c ms hl hf hp]
  · rw [hold_of_collecting c ms he hc, Entry.hold_completes c ms hl hf hp]
  · rw [hold_of_collecting c ms he hc, Entry.hold_refused c ms hl hp, putEntry_same he]
  · rw [hold_of_collecting c ms he hc, Entry.hold_rolls c ms hl hp]
  · simp only [entryAction, he, hc, List.dropLast_eq_take]
    rfl
  · simp only [entryAction, he, hc]
    rfl
  · simp only [entryAction, he, hc, Entry.complete_enough hl]
  · simp only [entryAction, he, hc, Entry.complete_short hl, putEntry_same he]
  · simp only [entryAction, he]
    rfl
  · simp only [entryAction, he]
    rfl

/-- Settles O40: a write into a free cell, the shift of a full field cell by cell, and two writes for DOUBLE_ZERO. -/
theorem echoWritesTheField : Obligations.EchoWritesTheField := by
  refine ⟨fun u pr f c mask hu hf hc => ⟨?_, fun h9 => ?_, fun h9 hne => ?_⟩,
    fun u pr f c mask hu hf hc hw hl => ?_, fun u pr f mask free hu hf hc hfree hw hl => ?_,
    fun u pr f mask hu hf hc => ?_, fun u pr f c mask hu hf => ⟨fun hc => ?_, fun hc => ?_⟩,
    fun u kind c mask h => echo_without_field c mask kind h⟩
  · rw [echo_mask c mask hu hf, writeCells_one, writeCell_free mask hc]
    rfl
  · rw [echo_char c mask hu hf, displayChars_digit h9, writeCells_one, writeCell_free _ hc]
    rfl
  · rw [echo_char c mask hu hf, displayChars_none h9 hne]
    rfl
  · have he : u.echo .mask c mask = { u.compose (shiftField f u.content mask) with cursor := f.width } := by
      rw [echo_mask c mask hu hf, writeCells_one, writeCell_full mask hc, ← hc]
      rfl
    have hget := shiftField_getElem? (f := f) mask hw hl
    dsimp only
    rw [he]
    refine ⟨shiftField_length mask hw hl, rfl, rfl, fun i hi => ?_, fun i h1 h2 => ?_, ?_, fun h9 => ?_, fun h9 hne => ?_⟩
    · exact (hget i).trans (if_pos hi)
    · refine (hget i).trans ?_
      rw [if_neg (by simp only [EchoField.base]; omega), if_pos (by simp only [EchoField.base]; omega)]
    · refine (hget _).trans ?_
      rw [if_neg (by simp only [EchoField.base]; omega), if_neg (by simp only [EchoField.base]; omega)]
    · rw [echo_char c mask hu hf, displayChars_digit h9, echo_mask c _ hu hf]
    · rw [echo_char c mask hu hf, displayChars_none h9 hne]
      rfl
  · obtain ⟨c1, he, hlen, hout, hin, hlast⟩ := writeCell_near_full 0x30 hc hfree hw hl
    have hv : u.echo .char 0x0E mask =
        { u.compose (shiftField f c1 0x30) with cursor := f.width } := by
      rw [echo_char _ mask hu hf, displayChars_doubleZero, writeCells_two, he, writeCell_full 0x30 rfl]
      rfl
    have hl1 : f.base + f.width ≤ c1.length := by rw [hlen]; exact hl
    have hget := shiftField_getElem? (f := f) 0x30 hw hl1
    dsimp only
    rw [hv]
    refine ⟨rfl, (shiftField_length 0x30 hw hl1).trans hlen, fun i hi => ?_, fun i h1 h2 => ?_, fun h2 => ?_, ?_⟩
    · exact ((hget i).trans (if_pos hi)).trans (hout i hi)
    · refine (hget i).trans ?_
      rw [if_neg (by simp only [EchoField.base]; omega), if_pos (by simp only [EchoField.base]; omega),
        hin (i + 1) (by simp only [EchoField.base]; omega) (by simp only [EchoField.base]; omega)]
    · refine (hget _).trans ?_
      rw [if_neg (by simp only [EchoField.base]; omega), if_pos (by simp only [EchoField.base]; omega), ← hlast]
      congr 1
      simp only [EchoField.base]
      omega
    · refine (hget _).trans ?_
      rw [if_neg (by simp only [EchoField.base]; omega), if_neg (by simp only [EchoField.base]; omega)]
  · have h1 := writeCell_free (u := u) (f := f) 0x30 (by omega)
    have h2 := writeCell_free (u := { u with content := u.content.set (f.base + u.cursor) 0x30, cursor := u.cursor + 1 })
      (f := f) 0x30 (show u.cursor + 1 < f.width by omega)
    rw [echo_char _ mask hu hf, displayChars_doubleZero, writeCells_two, h1, h2]
    rfl
  · rw [echo_blankLast c mask hu hf, PromptUnit.blankLast, if_pos hc]
  · rw [echo_blankLast c mask hu hf, PromptUnit.blankLast, if_neg (by omega)]
    rfl

end

section
/-! SUPPORT. The owed-notice service from flag to flag, the departures of the queue and the receiver of the link (R172 to
R180). -/

namespace Sys2Proof.Machine

open Sys2Proof

variable {s t u : State}

/-! ### The flags -/

/-- Whether a result is held. -/
def Exchange.isHeld (x : Exchange) : Bool :=
  match x.phase with
  | .awaiting => false
  | .held _ _ => true

theorem isOwed_result (s : State) (p : Pos) : isOwed s (.result p) = ((s.xs.get p).map Exchange.isHeld).getD false := by
  simp only [isOwed, takeOwed]
  split
  · next h => simp [h]
  · next x h =>
    split
    · next hp => simp [h, Exchange.isHeld, hp]
    · next hp => simp [h, Exchange.isHeld, hp]

theorem isOwed_expired (s : State) (p : Pos) : isOwed s (.expired p) = (s.oq.expired.get p).isSome := by
  simp only [isOwed, takeOwed]
  split <;> simp_all

theorem isOwed_card (s : State) (p : Pos) : isOwed s (.card p) = (s.oq.cards.get p).isSome := by
  simp only [isOwed, takeOwed]
  split <;> simp_all

theorem isOwed_keypad (s : State) (p : Pos) : isOwed s (.keypad p) = (s.oq.keypads.get p).isSome := by
  simp only [isOwed, takeOwed]
  split <;> simp_all

theorem isOwed_pressure (s : State) : isOwed s .pressure = s.oq.pressure.isSome := by
  simp only [isOwed, takeOwed]
  split <;> simp_all

/-- The flags are read from the records and the owed contents alone. -/
theorem isOwed_congr (hx : t.xs = s.xs) (he : t.oq.expired = s.oq.expired) (hc : t.oq.cards = s.oq.cards)
    (hk : t.oq.keypads = s.oq.keypads) (hp : t.oq.pressure = s.oq.pressure) (j : OwedKey) : isOwed t j = isOwed s j := by
  cases j with
  | result p => rw [isOwed_result, isOwed_result, hx]
  | expired p => rw [isOwed_expired, isOwed_expired, he]
  | card p => rw [isOwed_card, isOwed_card, hc]
  | keypad p => rw [isOwed_keypad, isOwed_keypad, hk]
  | pressure => rw [isOwed_pressure, isOwed_pressure, hp]

@[simp] theorem isOwed_enqueue (r : OutRecord) (s : State) (j : OwedKey) : isOwed (s.enqueue r) j = isOwed s j :=
  isOwed_congr (t := s.enqueue r) (s := s) rfl rfl rfl rfl rfl j

theorem isOwed_departed (rest : List OutRecord) (b : Bool) (s : State) (j : OwedKey) :
    isOwed (s.onOq fun q => { q with queue := rest, begun := b }) j = isOwed s j :=
  isOwed_congr (t := s.onOq fun q => { q with queue := rest, begun := b }) (s := s) rfl rfl rfl rfl rfl j

theorem takeOwed_of_not_owed {j : OwedKey} (h : isOwed s j = false) : takeOwed j s = .none := by
  simpa [isOwed] using h

/-- Taking one flag clears it and leaves the others. -/
theorem isOwed_taken {k j : OwedKey} {n : Notice} (h : takeOwed k s = .some (n, t)) :
    isOwed t j = (isOwed s j && decide (j ≠ k)) := by
  have hneq : ∀ {p q : Pos}, (q ≠ p) → ∀ {α : Type} (l : PerPos (Option α)) (x : Option α),
      (l.set p x).get q = l.get q := fun hq _ l x => PerPos.get_set_ne l x hq
  cases k with
  | result p =>
    simp only [takeOwed] at h
    split at h
    · cases h
    · split at h
      · cases h
      · obtain ⟨_, rfl⟩ := Prod.mk.inj (Option.some.inj h)
        cases j with
        | result q =>
          by_cases hq : q = p
          · subst hq; simp [isOwed_result]
          · simp [isOwed_result, hneq hq, hq]
        | expired q => simp [isOwed_expired]
        | card q => simp [isOwed_card]
        | keypad q => simp [isOwed_keypad]
        | pressure => simp [isOwed_pressure]
  | expired p =>
    simp only [takeOwed] at h
    split at h
    · cases h
    · obtain ⟨_, rfl⟩ := Prod.mk.inj (Option.some.inj h)
      cases j with
      | expired q =>
        by_cases hq : q = p
        · subst hq; simp [isOwed_expired]
        · simp [isOwed_expired, hneq hq, hq]
      | result q => simp [isOwed_result]
      | card q => simp [isOwed_card]
      | keypad q => simp [isOwed_keypad]
      | pressure => simp [isOwed_pressure]
  | card p =>
    simp only [takeOwed] at h
    split at h
    · cases h
    · obtain ⟨_, rfl⟩ := Prod.mk.inj (Option.some.inj h)
      cases j with
      | card q =>
        by_cases hq : q = p
        · subst hq; simp [isOwed_card]
        · simp [isOwed_card, hneq hq, hq]
      | expired q => simp [isOwed_expired]
      | result q => simp [isOwed_result]
      | keypad q => simp [isOwed_keypad]
      | pressure => simp [isOwed_pressure]
  | keypad p =>
    simp only [takeOwed] at h
    split at h
    · cases h
    · obtain ⟨_, rfl⟩ := Prod.mk.inj (Option.some.inj h)
      cases j with
      | keypad q =>
        by_cases hq : q = p
        · subst hq; simp [isOwed_keypad]
        · simp [isOwed_keypad, hneq hq, hq]
      | expired q => simp [isOwed_expired]
      | result q => simp [isOwed_result]
      | card q => simp [isOwed_card]
      | pressure => simp [isOwed_pressure]
  | pressure =>
    simp only [takeOwed] at h
    split at h
    · cases h
    · obtain ⟨_, rfl⟩ := Prod.mk.inj (Option.some.inj h)
      cases j with
      | pressure => simp [isOwed_pressure]
      | expired q => simp [isOwed_expired]
      | result q => simp [isOwed_result]
      | card q => simp [isOwed_card]
      | keypad q => simp [isOwed_keypad]

/-! ### The service -/

/-- What one round of the service leaves: flags only clear, and slots only fill. -/
structure Serves (s t : State) : Prop where
  owed : ∀ j, isOwed s j = false → isOwed t j = false
  full : s.oq.freeSlots = 0 → t.oq.freeSlots = 0
  queue : ∃ more, t.oq.queue = s.oq.queue ++ more

theorem Serves.refl (s : State) : Serves s s := ⟨fun _ h => h, fun h => h, [], by simp⟩

theorem Serves.trans (h : Serves s t) (k : Serves t u) : Serves s u := by
  obtain ⟨l, hl⟩ := h.queue
  obtain ⟨m, hm⟩ := k.queue
  exact ⟨fun j hj => k.owed j (h.owed j hj), fun hf => k.full (h.full hf), l ++ m, by rw [hm, hl, List.append_assoc]⟩

theorem serveOne_serves (s : State) (k : OwedKey) : Serves s (serveOne s k) ∧
    (isOwed (serveOne s k) k = false ∨ (serveOne s k).oq.freeSlots = 0) := by
  unfold serveOne
  split
  · next h => exact ⟨.refl s, .inl (by simp [isOwed, h])⟩
  · next n v hv =>
    split
    · next hf =>
      have hq := (takeOwed_taken k s n v hv)
      refine ⟨⟨fun j hj => ?_, fun h => absurd hf (by omega), [.notice n], by simp [hq.queue]⟩, .inl ?_⟩
      · rw [isOwed_enqueue, isOwed_taken hv, hj, Bool.false_and]
      · rw [isOwed_enqueue, isOwed_taken hv]
        simp
    · next hf => exact ⟨.refl s, .inr (by omega)⟩

theorem foldl_serveOne_serves (l : List OwedKey) (s : State) : Serves s (l.foldl serveOne s) ∧
    ∀ k ∈ l, isOwed (l.foldl serveOne s) k = false ∨ (l.foldl serveOne s).oq.freeSlots = 0 := by
  induction l generalizing s with
  | nil => exact ⟨.refl s, fun k hk => nomatch hk⟩
  | cons j rest ih =>
    obtain ⟨h1, h2⟩ := serveOne_serves s j
    obtain ⟨h3, h4⟩ := ih (serveOne s j)
    refine ⟨h1.trans h3, fun k hk => ?_⟩
    rcases List.mem_cons.1 hk with rfl | hk
    · exact h2.imp (h3.owed k) h3.full
    · exact h4 k hk

/-- The service ends with no flag set or no slot free (R177). -/
theorem serveOwed_ends (s : State) : anyOwed (serveOwed s) = false ∨ (serveOwed s).oq.freeSlots = 0 := by
  obtain ⟨_, h⟩ := foldl_serveOne_serves OwedKey.inOrder s
  by_cases hf : (serveOwed s).oq.freeSlots = 0
  · exact .inr hf
  · left
    rw [anyOwed, List.any_eq_false]
    intro k hk
    rcases h k hk with h | h
    · rw [serveOwed, h]; exact Bool.false_ne_true
    · exact absurd h hf

/-- Flags that are not set are passed over. -/
theorem foldl_serveOne_skips (l : List OwedKey) (s : State) (h : ∀ k ∈ l, isOwed s k = false) :
    l.foldl serveOne s = s := by
  induction l with
  | nil => rfl
  | cons k rest ih =>
    rw [List.foldl_cons, serveOne, takeOwed_of_not_owed (h k (by simp))]
    exact ih fun j hj => h j (by simp [hj])

/-- The first flag set takes the slot that is free. -/
theorem serveOwed_first {before after : List OwedKey} {k : OwedKey} {m : Notice} {v : State}
    (ho : OwedKey.inOrder = before ++ k :: after) (hb : ∀ j ∈ before, isOwed s j = false)
    (hk : takeOwed k s = .some (m, v)) (hf : 0 < s.oq.freeSlots) :
    (∃ more, (serveOwed s).oq.queue = s.oq.queue ++ .notice m :: more) ∧ isOwed (serveOwed s) k = false := by
  have hs : serveOwed s = after.foldl serveOne (v.enqueue (.notice m)) := by
    rw [serveOwed, ho, List.foldl_append, foldl_serveOne_skips before s hb, List.foldl_cons, serveOne, hk]
    simp only [hf, if_true]
  obtain ⟨⟨howed, _, more, hq⟩, _⟩ := foldl_serveOne_serves after (v.enqueue (.notice m))
  have hv := (takeOwed_taken k s m v hk).queue
  rw [hs]
  refine ⟨⟨more, ?_⟩, howed k ?_⟩
  · rw [hq, enqueue_oq, hv, List.append_assoc]
    rfl
  · rw [isOwed_enqueue, isOwed_taken hk]
    simp

/-- The queue and the transfer are nothing to a flag. -/
theorem takeOwed_departed {k : OwedKey} {m : Notice} (rest : List OutRecord) (b : Bool)
    (h : takeOwed k s = .some (m, u)) :
    ∃ v, takeOwed k (s.onOq fun q => { q with queue := rest, begun := b }) = .some (m, v) := by
  cases k with
  | result p =>
    simp only [takeOwed] at h ⊢
    split at h
    · cases h
    · next hx =>
      split at h
      · cases h
      · next hp =>
        obtain ⟨rfl, _⟩ := Prod.mk.inj (Option.some.inj h)
        simp only [State.onOq_xs, hx, hp]
        exact ⟨_, rfl⟩
  | expired p | card p | keypad p | pressure =>
    simp only [takeOwed] at h ⊢
    split at h
    · cases h
    · next hx =>
      obtain ⟨rfl, _⟩ := Prod.mk.inj (Option.some.inj h)
      simp only [State.onOq_oq, State.onOq_line, hx]
      exact ⟨_, rfl⟩

/-! ### Departures -/

/-- The record that leaves, and what its departure brings (R176). -/
theorem exec_recordSent {r : OutRecord} {rest : List OutRecord} (hb : s.oq.begun = true) (hq : s.oq.queue = r :: rest) :
    exec .recordSent s =
      .next (departed r (s.onOq fun q => { q with queue := rest, begun := s.link.up && decide (rest ≠ []) })) := by
  simp only [exec, execRecordSent, hb, hq]

theorem acceptWaiting_of_not_waiting (h : ∀ r, s.link.rx ≠ .waiting r) : acceptWaiting s = s := by
  unfold acceptWaiting
  split
  · next r hr => exact absurd hr (h r)
  · rfl
  · rfl

theorem acceptWaiting_of_waiting {r : Request} (h : s.link.rx = .waiting r) :
    acceptWaiting s = accept r (s.onLink fun l => { l with rx := .hunting }) := by
  simp only [acceptWaiting, h]

theorem Link.switchRate_eq (l : Link) :
    l.switchRate = { l with rate := l.pendingRate.getD l.rate, pendingRate := .none } := by
  unfold Link.switchRate
  split
  · next h =>
    obtain ⟨⟩ := l
    obtain rfl := h
    rfl
  · next h => rw [h]; rfl

/-! ### The receiver -/

theorem execLinkDown_uart (hm : s.link.mode = .uart) :
    execLinkDown s = .next (s.onLink fun l => { l with up := false }) := by
  unfold execLinkDown
  split
  · rfl
  · next h => exact nomatch hm.symm.trans h

/-- A transfer cut on USB, with the receiver state that the cut leaves. -/
theorem execLinkDown_usb {rx : RxState} (hm : s.link.mode = .usb)
    (h : (∃ r, s.link.rx = .waiting r) ∧ rx = s.link.rx ∨ (∀ r, s.link.rx ≠ .waiting r) ∧ rx = .hunting) :
    execLinkDown s = .next { s with
      link := { s.link with up := false, rx := rx }, oq := { s.oq with begun := false } } := by
  unfold execLinkDown
  split
  · next h => exact nomatch hm.symm.trans h
  · simp only [State.onLink, State.onOq]
    cases hx : s.link.rx with
    | waiting r =>
      rcases h with ⟨_, rfl⟩ | ⟨hn, _⟩
      · rw [hx]
      · exact absurd hx (hn r)
    | hunting | receiving got =>
      rcases h with ⟨⟨r, hr⟩, _⟩ | ⟨_, rfl⟩
      · exact nomatch hx.symm.trans hr
      · rfl

theorem execLinkSyncByte_uart (hm : s.link.mode = .uart) : execLinkSyncByte s = .next (linkByte s linkSync) := by
  unfold execLinkSyncByte
  split
  · rfl
  · next h => exact nomatch hm.symm.trans h

/-- Bytes that are no good record are discarded and counted (R172, R173). -/
theorem judgeRecord_none (s : State) :
    judgeRecord .none s = s.onLink fun l => { l with errors := min 65535 (l.errors + 1) } := rfl

theorem recordArrives_usb {bytes : List Byte} (hm : s.link.mode = .usb) (h : ∀ r, s.link.rx ≠ .waiting r) :
    recordArrives bytes s = judgeRecord (goodRecord bytes) s.received := by
  have ht : recordArrives bytes s = linkTransfer (usbPackets [] bytes) s := by simp only [recordArrives, hm]
  rw [ht, linkTransfer, usbTransfer_packets [] bytes (by decide), List.nil_append, Option.bind_some]
  split
  · next r hr => exact absurd hr (h r)
  · rfl
  · rfl

end Sys2Proof.Machine

open Sys2Proof Sys2Proof.Machine

/-- Settles O4: the link's commands by mode and receiver state. -/
theorem linkEventsMoveOnlyTheLink : Obligations.LinkEventsMoveOnlyTheLink := by
  refine ⟨fun s => rfl, fun s hm => ?_, fun s hm hrx => ?_, fun s r hm hrx => ?_, fun s hm hrx => ?_,
    fun s got hm hrx he => ?_, fun s h => ?_, fun s bytes hw h => ?_, fun s bytes r hrx => ?_⟩
  · exact execLinkDown_uart hm
  · exact execLinkDown_usb hm (.inr ⟨hrx, rfl⟩)
  · exact (execLinkDown_usb hm (.inl ⟨⟨r, hrx⟩, rfl⟩))
  · refine (execLinkSyncByte_uart hm).trans ?_
    simp only [linkByte, hrx, if_true]
    rfl
  · have he' : ¬ recordEnds (got ++ [linkSync]) = true := by simpa [linkSync] using he
    refine (execLinkSyncByte_uart hm).trans ?_
    simp only [linkByte, hrx, if_neg he']
    rfl
  · rcases h with hm | ⟨r, hr⟩
    · simp only [exec, execLinkSyncByte, hm]
    · simp only [exec, execLinkSyncByte, linkByte, hr]
      split <;> rfl
  · have hg : goodRecord bytes = .none := by simpa [Instr.wellFormed] using hw
    have ha : recordArrives bytes s = judgeRecord (goodRecord bytes) s.received := by
      rcases h with ⟨_, hrx, h1, h2⟩ | ⟨hm, hrx⟩
      · exact recordArrives_of_fresh hrx fun _ => ⟨h1, h2⟩
      · exact recordArrives_usb hm hrx
    simp only [exec, execRecordDiscard, ha, hg, judgeRecord_none]
    rfl
  · simp only [exec, execRecordDiscard, recordArrives_of_waiting bytes hrx]

/-- Settles O5: with nothing owed and no record WAITING a departure is the departure alone. -/
theorem recordSentLeavesTheQueue : Obligations.RecordSentLeavesTheQueue := by
  refine ⟨fun s n rest hb hq ho => ?_, fun s k tag a rest hb hq hrx hk => ?_, fun s tag a rest rate hb hq hrx ha hp => ?_,
    fun s hb => ?_⟩
  · rw [exec_recordSent hb hq]
    exact congrArg _ (serveOwed_of_none_owed _ (anyOwed_false_congr s _ rfl rfl rfl rfl rfl ho))
  · rw [exec_recordSent hb hq]
    refine congrArg _ ?_
    unfold departed
    dsimp only
    split
    · next hk' =>
      have hnone : s.link.pendingRate = .none := by
        rcases hk with hk | hk | hk
        · exact absurd hk'.1 hk
        · exact absurd hk'.2 hk
        · exact hk
      rw [acceptWaiting_of_not_waiting]
      · simp only [State.onLink, State.onOq, Link.switchRate, hnone]
      · intro r hr
        rw [State.onLink_link, Link.switchRate_rx] at hr
        exact hrx r hr
    · exact acceptWaiting_of_not_waiting hrx
  · rw [exec_recordSent hb hq]
    refine congrArg _ ?_
    unfold departed
    dsimp only
    rw [if_pos ⟨rfl, ha⟩, acceptWaiting_of_not_waiting]
    · simp only [State.onLink, State.onOq, Link.switchRate, hp]
    · intro r hr
      rw [State.onLink_link, Link.switchRate_rx] at hr
      exact hrx r hr
  · simp only [exec, execRecordSent, hb]

/-- Settles O6: the loop over the flags stops at the first one set, with a slot free. -/
theorem freedSlotServesTheFirstOwedFlag : Obligations.FreedSlotServesTheFirstOwedFlag := by
  intro s t n m rest before after k u hb hq hlim ho hbefore hk ht
  rw [exec_recordSent hb hq] at ht
  obtain ⟨v, hv⟩ := takeOwed_departed rest (s.link.up && decide (rest ≠ [])) hk
  have hflags := isOwed_departed rest (s.link.up && decide (rest ≠ [])) s
  have hfree : 0 < (s.onOq fun q => { q with queue := rest, begun := s.link.up && decide (rest ≠ []) }).oq.freeSlots := by
    have hn : s.oq.notices = (rest.countP fun r => !r.isReply) + 1 := by simp [OutQueue.notices, hq, OutRecord.isReply]
    simp only [OutQueue.freeSlots, OutQueue.notices, Config.noticeLimit, State.onOq_oq]
    omega
  have hqueue : (s.onOq fun q => { q with queue := rest, begun := s.link.up && decide (rest ≠ []) }).oq.queue = rest :=
    rfl
  generalize (s.onOq fun q => { q with queue := rest, begun := s.link.up && decide (rest ≠ []) }) = left at *
  have hserved : serveOwed left = t := Host.Outcome.next.inj ht
  obtain ⟨hmore, hclear⟩ := serveOwed_first ho (fun j hj => (hflags j).trans (hbefore j hj)) hv hfree
  have hend := serveOwed_ends left
  rw [hserved, hqueue] at hmore
  rw [hserved] at hclear hend
  exact ⟨hmore, hclear, hend⟩

/-- Settles O7: behind 8 replies a good record waits, and a reply's departure accepts it as its command would be. -/
theorem fullReplyQueueHoldsOneRecord : Obligations.FullReplyQueueHoldsOneRecord := by
  -- The departure of a reply leaves fewer than 8, so the request's command is accepted there.
  have taken : ∀ (s : State) (r : Request) (l : Link) (k : ReqKind) (tag : Byte) (a : Answer) (rest : List OutRecord)
      (b : Bool), s.oq.queue = .reply k tag a :: rest → s.oq.replies ≤ 8 → r.command.wellFormed = true →
      l.rx = .waiting r → exec r.command { s with
        link := { l with rx := .hunting }, oq := { s.oq with queue := rest, begun := b } } =
        .next (acceptWaiting { s with link := l, oq := { s.oq with queue := rest, begun := b } }) := by
    intro s r l k tag a rest b hq h8 hw hl
    have hrep : s.oq.replies = rest.countP OutRecord.isReply + 1 := by
      rw [OutQueue.replies, hq, List.countP_cons_of_pos rfl]
    rw [exec_of_takes ⟨.inl rfl, by simp only [OutQueue.replies]; omega⟩ r hw, acceptWaiting_of_waiting hl]
    rfl
  refine ⟨fun s r hrx hw h8 => ?_, fun s r w hrx => ?_, fun s r k tag a rest hb hq hrx hw h8 hk => ?_,
    fun s r tag a rest hb hq ha hrx hw h8 => ?_⟩
  · rw [exec_command, receive_of_fresh hrx r hw]
    exact congrArg _ (if_pos h8)
  · rw [exec_command, receive, recordArrives_of_waiting _ hrx]
  · rw [exec_recordSent hb hq, taken s r s.link k tag a rest _ hq h8 hw hrx]
    have hn : ¬ (k = .linkRate ∧ a.status = .ok) := fun ⟨h1, h2⟩ => hk.elim (· h1) (· h2)
    simp only [departed, if_neg hn]
    rfl
  · have h := taken s r { s.link with rate := s.link.pendingRate.getD s.link.rate, pendingRate := .none } .linkRate tag a
      rest (s.link.up && decide (rest ≠ [])) hq h8 hw hrx
    have hd : ∀ v, departed (.reply .linkRate tag a) v = acceptWaiting (v.onLink Link.switchRate) :=
      fun v => congrArg acceptWaiting (if_pos ⟨rfl, ha⟩)
    rw [exec_recordSent hb hq, hd]
    simp only [State.onLink, State.onOq, Link.switchRate_eq]
    exact h.symm

end

section
/-! SUPPORT. The answers of requests: the record checks, and the requests of positions, disposition tables and settings as
they are carried out. -/

namespace Sys2Proof.Machine

open Sys2Proof

variable {s t : State}

/-! ### Acceptance -/

/-- A request that changes nothing and is answered without fields is refused (R179). -/
theorem exec_refused {st : Status} (h : s.takesRequests) (r : Request) (hr : r.command.wellFormed = true)
    (hc : carryOut r s.received = (s.received, .no st [])) (hst : st ≠ .ok) :
    exec r.command s = .next (s.refused r.kind r.tag st) :=
  exec_of_carryOut h r hr hc (.inr hst)

/-! ### The record checks (R2, R174, R186) -/

theorem below_pos_none {b : Byte} (h : 15 < b.toNat) : below 16 b = .none := below_none h

theorem below_four_none {b : Byte} (h : 3 < b.toNat) : below 4 b = .none := below_none h

theorem below_mode_none {b : Byte} (h : 7 < b.toNat) : below 8 b = .none := below_none h

/-- A position above 15 is refused ahead of every other check. -/
theorem carryOut_noPosition {r : Request} {b : Byte} {rest : List Byte} (hk : r.kind.namesPosition = true)
    (hp : r.payload = b :: rest) (hb : 15 < b.toNat) : carryOut r s = (s, .no .badRecord []) := by
  obtain ⟨kind, tag, payload⟩ := r
  obtain rfl : payload = b :: rest := hp
  have hnone := below_pos_none hb
  cases kind with
  | openPosition | closePosition | resetPosition | setMode | positionStatus | collectStatus | collectStop | entryRead
  | entryWipe | promptClear | beep | cardStatus | cardPower | cardPresent | cardRelease | cardAbort =>
    simp only [carryOut, doOpenPosition, doClosePosition, doResetPosition, doSetMode, doPositionStatus, doCollectStatus,
      doCollectStop, doEntryRead, doEntryWipe, doPromptClear, doBeep, doCardStatus, doCardPower, doCardPresent,
      doCardRelease, doCardAbort]
    split
    · next h =>
      obtain ⟨rfl, _⟩ := List.cons.inj h
      simp only [hnone]
    · rfl
  | collect =>
    simp only [carryOut, doCollect]
    split
    · next h =>
      obtain ⟨rfl, _⟩ := List.cons.inj h
      simp only [hnone]
    · rfl
  | prompt =>
    simp only [carryOut, doPrompt]
    split
    · next h => exact nomatch hnone.symm.trans h
    · rfl
  | cardExchange =>
    simp only [carryOut, doCardExchange]
    split
    · next h _ => exact nomatch hnone.symm.trans h
    · rfl
  | _ => simp [ReqKind.namesPosition] at hk

/-- A group above 3 is refused ahead of every other check. -/
theorem carryOut_noGroup {r : Request} {b : Byte} {rest : List Byte} (hk : r.kind.namesGroup = true)
    (hp : r.payload = b :: rest) (hb : 3 < b.toNat) : carryOut r s = (s, .no .badRecord []) := by
  obtain ⟨kind, tag, payload⟩ := r
  obtain rfl : payload = b :: rest := hp
  have hnone := below_four_none hb
  cases kind with
  | busSet | busStatus | cardLineSet =>
    simp only [carryOut, doBusSet, doBusStatus, doCardLineSet]
    split
    · next h =>
      obtain ⟨rfl, _⟩ := List.cons.inj h
      simp only [hnone]
    · rfl
  | _ => simp [ReqKind.namesGroup] at hk

/-- A payload of another length than the request's is refused ahead of every other check. -/
theorem carryOut_noLength {r : Request} {n : Nat} (hk : r.kind.fixedLength = .some n) (hn : r.payload.length ≠ n) :
    carryOut r s = (s, .no .badRecord []) := by
  obtain ⟨kind, tag, payload⟩ := r
  cases kind with
  | tableWrite | attend | prompt | cardExchange | unknown => cases hk
  | _ =>
    obtain rfl := Option.some.inj hk
    simp only [carryOut, doOpenPosition, doClosePosition, doResetPosition, doSetMode, doPositionStatus, doCollectStatus,
      doCollectStop, doEntryRead, doEntryWipe, doPromptClear, doBeep, doCardStatus, doCardPower, doCardPresent,
      doCardRelease, doCardAbort, doBusSet, doBusStatus, doCardLineSet, doBankOpen, doBankClose, doBankFreeze, doModeSet,
      doTableRead, doAttentionSet, doCollect, doLinkRate, doResetArm, doCounterReset, doIdentify, doCounterStatus]
    split
    · exact absurd rfl hn
    · rfl

theorem readAttend_none {payload : List Byte} (h3 : payload.length ≠ 3) (h5 : payload.length ≠ 5) :
    readAttend payload = .none := by
  unfold readAttend
  split
  · exact absurd rfl h3
  · exact absurd rfl h5
  · rfl

theorem splitLastTwo_length {l command : List Byte} {t1 t0 : Byte} (h : splitLastTwo l = .some (command, t1, t0)) :
    l.length = command.length + 2 := by
  unfold splitLastTwo at h
  split at h
  · next b0 b1 front hl =>
    obtain ⟨rfl, _⟩ := Prod.mk.inj (Option.some.inj h)
    rw [← List.length_reverse, hl, List.length_reverse]
    rfl
  · cases h

/-- Fields of PROMPT are read only of a payload as long as its text and its other fields. -/
theorem readPrompt_length {l : List Byte} {f : PromptFields} (h : readPrompt l = .some f) :
    ∃ form n rest, l = form :: n :: rest ∧ rest.length = n.toNat + 6 := by
  unfold readPrompt at h
  split at h
  · next form n rest =>
    split at h
    · next hd =>
      have := congrArg List.length hd
      rw [List.length_drop] at this
      exact ⟨form, n, rest, rfl, by simp only [List.length_cons, List.length_nil] at this; omega⟩
    · cases h
  · cases h

theorem doTableWrite_noLength {payload : List Byte} (h : payload.length < 4) :
    doTableWrite payload s = (s, .no .badRecord []) := by
  unfold doTableWrite
  split
  · simp only [List.length_cons] at h; omega
  · rfl

theorem doCardExchange_noLength {tag : Byte} {payload : List Byte} (h : payload.length < 4 ∨ 243 < payload.length) :
    doCardExchange tag payload s = (s, .no .badRecord []) := by
  unfold doCardExchange
  split
  · split
    · next hl =>
      have := splitLastTwo_length hl
      rw [List.length_cons] at h
      exact if_pos (by omega)
    · rfl
  · rfl

theorem doPrompt_noLength {payload : List Byte} (h : payload.length < 3 ∨
    ∃ p form n rest, payload = p :: form :: n :: rest ∧ rest.length ≠ n.toNat + 6) :
    doPrompt payload s = (s, .no .badRecord []) := by
  unfold doPrompt
  split
  · split
    · next hf _ =>
      obtain ⟨form, n, rest, rfl, hlen⟩ := readPrompt_length hf
      rcases h with h | ⟨p, form', n', rest', h, hne⟩
      · simp only [List.length_cons] at h; omega
      · simp only [List.cons.injEq] at h
        obtain ⟨_, _, rfl, rfl⟩ := h
        exact absurd hlen hne
    · rfl
  · rfl

/-- A payload that no fields of a request of variable length imply is refused ahead of every other check. -/
theorem carryOut_noFields {r : Request}
    (h : r.kind = .attend ∧ r.payload.length ≠ 3 ∧ r.payload.length ≠ 5 ∨ r.kind = .tableWrite ∧ r.payload.length < 4 ∨
      r.kind = .cardExchange ∧ (r.payload.length < 4 ∨ 243 < r.payload.length) ∨
      r.kind = .prompt ∧ (r.payload.length < 3 ∨
        ∃ p form n rest, r.payload = p :: form :: n :: rest ∧ rest.length ≠ n.toNat + 6)) :
    carryOut r s = (s, .no .badRecord []) := by
  obtain ⟨kind, tag, payload⟩ := r
  rcases h with ⟨rfl, h3, h5⟩ | ⟨rfl, h⟩ | ⟨rfl, h⟩ | ⟨rfl, h⟩
  · simp only [carryOut, doAttend, readAttend_none h3 h5]
  · exact doTableWrite_noLength h
  · exact doCardExchange_noLength h
  · exact doPrompt_noLength h

end Sys2Proof.Machine

open Sys2Proof Sys2Proof.Machine

/-- Settles O8: each check comes first in the requests that it belongs to. -/
theorem unusableRecordsAreAnswered : Obligations.UnusableRecordsAreAnswered := by
  refine ⟨fun s kind tag payload h hw => ?_, fun kind tag => rfl, fun s r b rest h hw hk hp hb => ?_,
    fun s r b rest h hw hk hp hb => ?_, fun s r n h hw hk hn => ?_, fun s r h hw hr => ?_⟩
  · exact exec_of_carryOut h ⟨.unknown kind, tag, payload⟩ hw rfl (.inl ⟨nofun, nofun⟩)
  · exact exec_refused h r hw (carryOut_noPosition hk hp hb) (by decide)
  · exact exec_refused h r hw (carryOut_noGroup hk hp hb) (by decide)
  · exact exec_refused h r hw (carryOut_noLength hk hn) (by decide)
  · exact exec_refused h r hw (carryOut_noFields hr) (by decide)

end

section
/-! SUPPORT. The requests of positions and disposition tables, each as it is carried out at its fields. -/

namespace Sys2Proof.Machine

open Sys2Proof

variable {s t : State}

/-! ### Positions (R9, R15, R16) -/

theorem doOpenPosition_closed {p : Pos} (b : Bank) (m : Mode) (h : (s.pos.get p).state = .closed) :
    doOpenPosition (u8 p.val ++ u8 b.val ++ u8 m.val) s =
      (s.onPos p fun r => { r with state := .opened, bank := b, mode := m }, .ok []) := by
  simp [doOpenPosition, u8, isOpen_of_closed h]

theorem doOpenPosition_opened {p : Pos} (b : Bank) (m : Mode) (h : (s.pos.get p).state = .opened) :
    doOpenPosition (u8 p.val ++ u8 b.val ++ u8 m.val) s = (s, .no .positionOpen []) := by
  simp [doOpenPosition, u8, isOpen_of_opened h]

/-- Two numbers of which one is above its limit are not read together. -/
theorem below_bankMode {bb mb : Byte} (h : 3 < bb.toNat ∨ 7 < mb.toNat) (b : Bank) (m : Mode) :
    ¬ (below 4 bb = .some b ∧ below 8 mb = .some m) := by
  rintro ⟨hb, hm⟩
  rcases h with h | h
  · exact nomatch (below_four_none h).symm.trans hb
  · exact nomatch (below_mode_none h).symm.trans hm

theorem doOpenPosition_badValue {p : Pos} {bb mb : Byte} (h : 3 < bb.toNat ∨ 7 < mb.toNat) :
    doOpenPosition (u8 p.val ++ [bb, mb]) s = (s, .no .badValue []) := by
  simp only [doOpenPosition, u8, List.cons_append, List.nil_append, below_pos]
  split
  · next hb hm => exact absurd ⟨hb, hm⟩ (below_bankMode h _ _)
  · rfl

theorem doSetMode_opened {p : Pos} (m : Mode) (h : (s.pos.get p).state = .opened) :
    doSetMode (u8 p.val ++ u8 m.val) s = (s.onPos p fun r => { r with mode := m }, .ok []) := by
  simp [doSetMode, u8, isOpen_of_opened h]

theorem doSetMode_closed {p : Pos} (m : Mode) (h : (s.pos.get p).state = .closed) :
    doSetMode (u8 p.val ++ u8 m.val) s = (s, .no .positionClosed []) := by
  simp [doSetMode, u8, isOpen_of_closed h]

theorem doSetMode_badValue {p : Pos} {mb : Byte} (h : 7 < mb.toNat) :
    doSetMode (u8 p.val ++ [mb]) s = (s, .no .badValue []) := by
  simp [doSetMode, u8, below_mode_none h]

/-! ### Status (R16, R41, R117) -/

/-- The entry's state in COLLECT_STATUS, by cases. -/
theorem entryStateIndex_some (e : Entry) :
    entryStateIndex (.some e) = match e.state with
      | .collecting => 1
      | .complete => 2 := rfl

theorem doPositionStatus_eq (p : Pos) : ∃ a, doPositionStatus (u8 p.val) s = (s, .ok a) ∧
    a = (u8 (s.pos.get p).state.index ++ u8 (s.pos.get p).bank.val ++ u8 (s.pos.get p).mode.val ++
        u16 (s.pos.get p).keysEntered ++ u16 (s.pos.get p).strayHolds ++ u16 (s.pos.get p).refusals ++
        u16 (s.pos.get p).duplicates ++ u16 (s.pos.get p).misses ++ u16 (s.pos.get p).checkErrors ++
        u8 (entryStateIndex (s.entry.get p)) ++ u8 (s.entryLength p) ++ yesNo (s.entrySecret p) ++
        u8 (s.line.get p).state.index ++
        u8 ((s.bus.get (groupOf p)).addrs.get (addrOf p)).presence.index) := by
  refine ⟨_, ?_, rfl⟩
  simp only [doPositionStatus, u8, below_pos]
  rfl

theorem doBusStatus_eq (g : Group) : ∃ a, doBusStatus (u8 g.val) s = (s, .ok a) ∧
    a = (busSettingsField (s.bus.get g).settings ++ pendingBusField (s.bus.get g).pending ++
        u16 (s.bus.get g).roundCounter.toNat ++ u8 (s.bus.get g).round.index ++ yesNo (s.bus.get g).roundDue ++
        optU8 ((s.bus.get g).poll.map fun q => q.addr.val) ++
        (s.bus.get g).addrs.toList.flatMap (fun d => u8 d.presence.index) ++
        (s.bus.get g).addrs.toList.flatMap (fun d => seqField d.lastSeq) ++
        (s.bus.get g).addrs.toList.flatMap (fun d => u8 d.misses) ++
        (s.bus.get g).addrs.toList.flatMap (fun d => u8 d.quiet) ++
        (s.bus.get g).addrs.toList.flatMap (fun d => u8 d.thinning) ++
        (s.bus.get g).addrs.toList.flatMap (fun d => yesNo d.alarm)) := by
  refine ⟨_, ?_, rfl⟩
  simp only [doBusStatus, u8, below_four]

@[simp] theorem State.received_bus (s : State) : s.received.bus = s.bus := rfl

/-- A field of the four addresses, in ascending order. -/
theorem flatMap_addrs (q : Quad AddrState) (f : AddrState → List Byte) :
    q.toList.flatMap f = allFour.flatMap fun a => f (q.get a) := rfl

theorem doCollectStatus_eq (p : Pos) :
    doCollectStatus (u8 p.val) s = (s, .ok (u8 (entryStateIndex (s.entry.get p)) ++ u8 (s.pos.get p).mode.val ++
      entryFields s.timeCount (s.entry.get p))) := by
  simp only [doCollectStatus, u8, below_pos]

/-! ### Settings (R19, R140, R141) -/

/-- A clamp is the nearer of its limits. -/
theorem clamp_eq {lo hi n : Nat} (h : lo ≤ hi) : clamp lo hi n = max lo (min hi n) := by
  unfold clamp
  split
  · omega
  · split <;> omega

theorem clamp_ne_iff {lo hi n : Nat} : clamp lo hi n ≠ n ↔ n < lo ∨ hi < n := by
  unfold clamp
  split
  · omega
  · split <;> omega

theorem clampBus_eq (rate period window thinning : Nat) :
    clampBus rate period window thinning = ⟨rate, max 5 (min 250 period), max 2 (min 20 window), min 15 thinning⟩ := by
  rw [clampBus, clamp_eq (by decide), clamp_eq (by decide)]

/-- The set is adjusted when it is not stored as it came (R19). -/
theorem clampBusAdjusted_eq (rate period window thinning : Nat) :
    clampBusAdjusted period window thinning =
      decide (clampBus rate period window thinning ≠ (⟨rate, period, window, thinning⟩ : BusSettings)) := by
  rw [clampBusAdjusted, decide_eq_decide, clampBus, Ne, Ne, Ne, BusSettings.mk.injEq]
  have : min 15 thinning = thinning ↔ ¬ 15 < thinning := by omega
  tauto

theorem doBusSet_eq {g : Group} {rate period window thinning : Nat} (hr : rate ∈ busRates) (hp : period < 65536)
    (hw : window < 65536) (ht : thinning < 256) :
    doBusSet (u8 g.val ++ u32 rate ++ u16 period ++ u16 window ++ u8 thinning) s =
      (s.onBus g fun b => { b with pending := .some (clampBus rate period window thinning) },
        .stored (clampBusAdjusted period window thinning) (busSettingsField (clampBus rate period window thinning))) := by
  have hr' : rate < 4294967296 := by
    simp only [busRates, List.mem_cons, List.not_mem_nil, or_false] at hr
    omega
  simp only [doBusSet, u8, u16, u32, List.cons_append, List.nil_append, below_four, be32_bytes hr', be16_bytes hp,
    be16_bytes hw, toNat_byte ht, hr, not_true, if_false]

theorem doBusSet_badValue {g : Group} {rate period window thinning : Nat} (hr : rate ∉ busRates)
    (hlt : rate < 4294967296) :
    doBusSet (u8 g.val ++ u32 rate ++ u16 period ++ u16 window ++ u8 thinning) s = (s, .no .badValue []) := by
  simp only [doBusSet, u8, u16, u32, List.cons_append, List.nil_append, below_four, be32_bytes hlt, hr, not_false_eq_true,
    if_true]

theorem doCardLineSet_eq {g : Group} {rate timeout : Nat} (hr : rate ∈ cardRates) (ht : timeout < 65536) :
    doCardLineSet (u8 g.val ++ u32 rate ++ u16 timeout) s =
      ((allFour.map (posAt g)).foldl (setPending ⟨rate, clamp 200 5000 timeout⟩) s,
        .stored (decide (clamp 200 5000 timeout ≠ timeout)) (u32 rate ++ u16 (clamp 200 5000 timeout))) := by
  have hr' : rate < 4294967296 := by
    simp only [cardRates, List.mem_cons, List.not_mem_nil, or_false] at hr
    omega
  simp only [doCardLineSet, u8, u16, u32, List.cons_append, List.nil_append, below_four, be32_bytes hr', be16_bytes ht,
    hr, not_true, if_false]

theorem doCardLineSet_badValue {g : Group} {rate timeout : Nat} (hr : rate ∉ cardRates) (hlt : rate < 4294967296) :
    doCardLineSet (u8 g.val ++ u32 rate ++ u16 timeout) s = (s, .no .badValue []) := by
  simp only [doCardLineSet, u8, u16, u32, List.cons_append, List.nil_append, below_four, be32_bytes hlt, hr,
    not_false_eq_true, if_true]

/-- What a pair does to a line: applied on an idle one, pending on any other (R140, R141). -/
def CardLine.take (ps : LineSettings) (inFlight : Bool) (l : CardLine) : CardLine :=
  if l.quiet ∧ inFlight = false then { l with settings := ps, pending := .none } else { l with pending := .some ps }

theorem setPending_eq (ps : LineSettings) (L : PerPos CardLine) (p : Pos) :
    setPending ps { s with line := L } p =
      { s with line := L.modify p (CardLine.take ps (s.inFlight p)) } := by
  have h : setPending ps { s with line := L } p =
      { s with line := (L.modify p fun l => { l with pending := .some ps }).modify p (CardLine.settle (s.inFlight p)) } := rfl
  rw [h]
  congr 1
  simp only [PerPos.modify, PerPos.get_set_same, PerPos.set_set_same]
  congr 1
  simp only [CardLine.settle, CardLine.take, CardLine.quiet, and_assoc]

/-- The positions of a group. -/
theorem mem_group {g : Group} {p : Pos} : p ∈ allFour.map (posAt g) ↔ groupOf p = g := by
  revert g p
  decide

theorem group_nodup (g : Group) : (allFour.map (posAt g)).Nodup := by
  revert g
  decide

/-- A pair taken by the four lines of a group (R140). -/
theorem foldl_setPending (ps : LineSettings) (g : Group) (s : State) :
    ∃ M, (allFour.map (posAt g)).foldl (setPending ps) s = { s with line := M } ∧
      ∀ q, M.get q = if groupOf q = g then CardLine.take ps (s.inFlight q) (s.line.get q) else s.line.get q := by
  obtain ⟨M, hM, hg⟩ := foldl_onLine (C := fun _ => True) s (fun L p _ => setPending_eq ps L p) _ (group_nodup g) s.line
    fun _ _ => trivial
  refine ⟨M, hM, fun q => ?_⟩
  rw [hg q]
  simp only [mem_group]

/-! ### Banks (R63, R66) -/

/-- The first position of the walk that a test takes is the lowest. -/
theorem find_allPositions {f : Pos → Bool} {p : Pos} (hp : f p = true) (hlow : ∀ q : Pos, q.val < p.val → f q = false) :
    allPositions.find? f = .some p := by
  have hsplit : ∀ p : Pos, allPositions = allPositions.take p.val ++ p :: allPositions.drop (p.val + 1) ∧
      ∀ q ∈ allPositions.take p.val, q.val < p.val := by decide
  obtain ⟨he, hlt⟩ := hsplit p
  rw [List.find?_eq_some_iff_append]
  refine ⟨hp, _, _, he, fun q hq => ?_⟩
  rw [hlow q (hlt q hq)]
  rfl

/-- Whether an OPEN position selects the bank and has an entry (R63 step 3). -/
theorem usesBank_iff {b : Bank} {p : Pos} :
    (s.isOpen p && decide ((s.pos.get p).bank = b) && (s.entry.get p).isSome) = true ↔
      (s.pos.get p).state = .opened ∧ (s.pos.get p).bank = b ∧ s.entry.get p ≠ .none := by
  rw [Bool.and_eq_true, Bool.and_eq_true, decide_eq_true_eq, isOpen_iff, Option.isSome_iff_ne_none, and_assoc]

theorem bankUser_eq_none {b : Bank}
    (h : ∀ p, (s.pos.get p).state = .opened → (s.pos.get p).bank = b → s.entry.get p = .none) : bankUser b s = .none := by
  rw [bankUser, List.find?_eq_none]
  intro p _ hp
  obtain ⟨hopen, hbank, he⟩ := usesBank_iff.1 hp
  exact he (h p hopen hbank)

theorem bankUser_eq_some {b : Bank} {p : Pos} (hopen : (s.pos.get p).state = .opened) (hbank : (s.pos.get p).bank = b)
    (he : s.entry.get p ≠ .none)
    (hlow : ∀ q : Pos, q.val < p.val →
      ¬ ((s.pos.get q).state = .opened ∧ (s.pos.get q).bank = b ∧ s.entry.get q ≠ .none)) : bankUser b s = .some p :=
  find_allPositions (usesBank_iff.2 ⟨hopen, hbank, he⟩) fun q hq =>
    Bool.eq_false_iff.2 fun h => hlow q hq (usesBank_iff.1 h)

theorem doBankOpen_free {b : Bank} (hf : s.tables.frozen.get b = false) (hu : bankUser b s = .none) :
    doBankOpen (u8 b.val) s =
      ({ s with tables := { s.tables with openBank := .some b } }, .ok (bankField s.tables.openBank)) := by
  simp [doBankOpen, u8, hf, hu]

theorem doBankOpen_frozen {b : Bank} (hf : s.tables.frozen.get b = true) :
    doBankOpen (u8 b.val) s = (s, .no .bankFrozen []) := by
  simp [doBankOpen, u8, hf]

theorem doBankOpen_inUse {b : Bank} {p : Pos} (hf : s.tables.frozen.get b = false) (hu : bankUser b s = .some p) :
    doBankOpen (u8 b.val) s = (s, .no .bankInUse (u8 p.val)) := by
  simp [doBankOpen, u8, hf, hu]

theorem doBankFreeze_eq (b : Bank) :
    doBankFreeze (u8 b.val) s =
      ({ s with tables := { s.tables with
          openBank := if s.tables.openBank = some b then none else s.tables.openBank
          frozen := s.tables.frozen.set b true } },
        .ok (yesNo (decide (s.tables.openBank = some b)) ++ yesNo (s.tables.frozen.get b))) := by
  simp [doBankFreeze, u8, Tables.isOpen]

theorem doBankOpen_badValue {bb : Byte} (h : 3 < bb.toNat) : doBankOpen [bb] s = (s, .no .badValue []) := by
  simp [doBankOpen, below_four_none h]

theorem doBankFreeze_badValue {bb : Byte} (h : 3 < bb.toNat) : doBankFreeze [bb] s = (s, .no .badValue []) := by
  simp [doBankFreeze, below_four_none h]

end Sys2Proof.Machine

open Sys2Proof Sys2Proof.Machine

/-- Settles O10: the requests' equations, by the position's state and the fields. -/
theorem openPositionAndSetModeWriteTheRecord : Obligations.OpenPositionAndSetModeWriteTheRecord := by
  refine ⟨fun s tag p b m h hc => ?_, fun s tag bb mb p h hv => ?_, fun s tag p b m h ho => ?_, fun s tag p m h ho => ?_,
    fun s tag mb p h hv => ?_, fun s tag p m h hc => ?_⟩
  · exact exec_of_carryOut h ⟨.openPosition, tag, _⟩ rfl (doOpenPosition_closed (s := s.received) b m hc)
      (.inl ⟨nofun, nofun⟩)
  · exact exec_refused h ⟨.openPosition, tag, _⟩ rfl (doOpenPosition_badValue hv) nofun
  · exact exec_refused h ⟨.openPosition, tag, _⟩ rfl (doOpenPosition_opened (s := s.received) b m ho) nofun
  · exact exec_of_carryOut h ⟨.setMode, tag, _⟩ rfl (doSetMode_opened (s := s.received) m ho) (.inl ⟨nofun, nofun⟩)
  · exact exec_refused h ⟨.setMode, tag, _⟩ rfl (doSetMode_badValue hv) nofun
  · exact exec_refused h ⟨.setMode, tag, _⟩ rfl (doSetMode_closed (s := s.received) m hc) nofun

/-- Settles O13: each status request answers its fields and leaves the state. -/
theorem statusRequestsOfTheCounterSide : Obligations.StatusRequestsOfTheCounterSide := by
  refine ⟨fun s tag p h => ?_, fun s tag g h => ?_, fun s tag p e h he => ?_, fun s tag p h he => ?_⟩
  · obtain ⟨a, ha, rfl⟩ := doPositionStatus_eq (s := s.received) p
    exact exec_of_carryOut h ⟨.positionStatus, tag, _⟩ rfl ha (.inl ⟨nofun, nofun⟩)
  · obtain ⟨a, ha, rfl⟩ := doBusStatus_eq (s := s.received) g
    refine (exec_of_carryOut h ⟨.busStatus, tag, u8 g.val⟩ rfl ha (.inl ⟨nofun, nofun⟩)).trans ?_
    have hpoll : optU8 ((s.bus.get g).poll.map fun q => q.addr.val) = match (s.bus.get g).poll with
        | .none => [0xFF]
        | .some q => u8 q.addr.val := by
      cases (s.bus.get g).poll <;> rfl
    simp only [State.received_bus, hpoll, flatMap_addrs, busSettingsField]
    rfl
  · have hexec := exec_of_carryOut h ⟨.collectStatus, tag, u8 p.val⟩ rfl (doCollectStatus_eq (s := s.received) p)
      (.inl ⟨nofun, nofun⟩)
    refine hexec.trans ?_
    rw [show s.received.entry.get p = some e from he]
    simp only [entryStateIndex_some, entryFields, List.append_assoc]
    rfl
  · have hexec := exec_of_carryOut h ⟨.collectStatus, tag, u8 p.val⟩ rfl (doCollectStatus_eq (s := s.received) p)
      (.inl ⟨nofun, nofun⟩)
    refine hexec.trans ?_
    rw [show s.received.entry.get p = none from he]
    rfl

/-- Settles O14: the clamped set goes to the bus, and to each of the group's lines by the state of that line. -/
theorem settingsAreClampedAndStored : Obligations.SettingsAreClampedAndStored := by
  refine ⟨fun s tag g rate period window thinning h hr hp hw ht => ?_,
    fun s tag g rate period window thinning h hr hlt => ?_, fun s tag g rate timeout h hr ht => ?_,
    fun s tag g rate timeout h hr hlt => ?_⟩
  · refine (exec_of_carryOut h ⟨.busSet, tag, u8 g.val ++ u32 rate ++ u16 period ++ u16 window ++ u8 thinning⟩ rfl (doBusSet_eq (s := s.received) hr hp hw ht)
      (.inl ⟨nofun, nofun⟩)).trans ?_
    rw [clampBusAdjusted_eq rate, clampBus_eq]
    rfl
  · exact exec_refused h ⟨.busSet, tag, _⟩ rfl (doBusSet_badValue hr hlt) nofun
  · obtain ⟨M, hM, hg⟩ := foldl_setPending ⟨rate, clamp 200 5000 timeout⟩ g s.received
    have hexec := exec_of_carryOut h ⟨.cardLineSet, tag, u8 g.val ++ u32 rate ++ u16 timeout⟩ rfl
      (doCardLineSet_eq (s := s.received) hr ht) (.inl ⟨nofun, nofun⟩)
    have hc : clamp 200 5000 timeout = max 200 (min 5000 timeout) := clamp_eq (by decide)
    rw [hM, decide_eq_decide.2 clamp_ne_iff, hc] at hexec
    rw [hc] at hg
    refine ⟨_, hexec, rfl, fun p hp hq hx => ?_, fun p hp hn => ?_, fun p hp => ?_⟩
    · exact (hg p).trans ((if_pos hp).trans (if_pos ⟨hq, hx⟩))
    · exact (hg p).trans ((if_pos hp).trans (if_neg hn))
    · exact (hg p).trans (if_neg hp)
  · exact exec_refused h ⟨.cardLineSet, tag, _⟩ rfl (doCardLineSet_badValue hr hlt) nofun

/-- Settles O22: the checks of BANK_OPEN in their order, and BANK_FREEZE of any bank. -/
theorem bankOpenAndFreezeMoveTheOpenBank : Obligations.BankOpenAndFreezeMoveTheOpenBank := by
  refine ⟨fun s tag b h hf hu => ?_, fun s tag b h hf => ?_, fun s tag b p h hf ho hb he hlow => ?_, fun s tag b h => ?_,
    fun s tag bb h hb => ⟨?_, ?_⟩⟩
  · have hexec := exec_of_carryOut h ⟨.bankOpen, tag, u8 b.val⟩ rfl
      (doBankOpen_free (s := s.received) hf (bankUser_eq_none (s := s.received) hu)) (.inl ⟨nofun, nofun⟩)
    rw [bankField_eq] at hexec
    exact hexec
  · exact exec_refused h ⟨.bankOpen, tag, _⟩ rfl (doBankOpen_frozen (s := s.received) hf) nofun
  · exact exec_of_carryOut h ⟨.bankOpen, tag, _⟩ rfl
      (doBankOpen_inUse (s := s.received) hf (bankUser_eq_some (s := s.received) ho hb he hlow)) (.inl ⟨nofun, nofun⟩)
  · exact exec_of_carryOut h ⟨.bankFreeze, tag, _⟩ rfl (doBankFreeze_eq (s := s.received) b) (.inl ⟨nofun, nofun⟩)
  · exact exec_refused h ⟨.bankOpen, tag, _⟩ rfl (doBankOpen_badValue hb) nofun
  · exact exec_refused h ⟨.bankFreeze, tag, _⟩ rfl (doBankFreeze_badValue hb) nofun

end

section
/-! SUPPORT. Runs of disposition entries, and TABLE_WRITE, MODE_SET and TABLE_READ as they are carried out. -/

namespace Sys2Proof.Machine

open Sys2Proof

variable {s t : State}

/-! ### Runs (R67, R68, R70) -/

theorem flatMap_writeDisposition_length (ds : List Disposition) : (ds.flatMap writeDisposition).length = 2 * ds.length := by
  induction ds with
  | nil => rfl
  | cons d rest ih => simp only [List.flatMap_cons, List.length_append, ih, writeDisposition, List.length_cons,
      List.length_nil]; omega

/-- A run with a form that is not read is refused with the number of entries before it. -/
theorem readRun_bad (i : Nat) (before : List Disposition) (rest : List Byte) {x y : Byte}
    (h : readDisposition x y = .none) :
    readRun i (before.flatMap writeDisposition ++ [x, y] ++ rest) = .bad (i + before.length) := by
  induction before generalizing i with
  | nil => simp [readRun, h]
  | cons d ds ih =>
    obtain ⟨a, b, hw, hr⟩ := readDisposition_written d
    have hrest := ih (i + 1)
    simp only [List.flatMap_cons, hw, List.cons_append, List.nil_append, readRun, hr] at hrest ⊢
    rw [hrest, List.length_cons, Nat.add_assoc, Nat.add_comm 1]

/-- The entries of the codes that follow one another from `first` on, as a run. -/
theorem rowRun_eq (t : Tables) (b : Bank) (m : Mode) (codes : List Code) (first : Nat)
    (h : ∀ (i : Nat) (c : Code), codes[i]? = .some c → c.val = first + i) :
    rowRun t b m first codes.length = codes.flatMap fun c => writeDisposition (t.readEntry b m c) := by
  induction codes generalizing first with
  | nil => rfl
  | cons c rest ih =>
    have hc : c.val = first := h 0 c rfl
    rw [List.length_cons, rowRun, ih (first + 1) fun i d hd => by rw [h (i + 1) d hd]; omega, List.flatMap_cons, ← hc]
    rfl

/-- The codes of a run all lie in the row. -/
theorem run_in_row {codes : List Code} {first : Nat}
    (h : ∀ (i : Nat) (c : Code), codes[i]? = .some c → c.val = first + i) (hne : codes ≠ []) :
    first + codes.length ≤ 64 := by
  have hpos : 0 < codes.length := List.length_pos_iff.2 hne
  have hlt : codes.length - 1 < codes.length := by omega
  have hlast := h (codes.length - 1) codes[codes.length - 1] (List.getElem?_eq_getElem hlt)
  have := codes[codes.length - 1].isLt
  omega

/-! ### TABLE_WRITE (R67, R68) -/

/-- The count and length of a run agree. -/
abbrev runFits (count : Byte) (run : List Byte) : Prop :=
  1 ≤ count.toNat ∧ count.toNat ≤ 64 ∧ run.length = 2 * count.toNat

theorem runFits.counts {count : Byte} {run : List Byte} (h : runFits count run) :
    ¬ (count.toNat < 1 ∨ 64 < count.toNat ∨ run.length ≠ 2 * count.toNat) := by
  obtain ⟨h1, h2, h3⟩ := h
  omega

theorem doTableWrite_badRecord {bb mb first count : Byte} {run : List Byte}
    (h : count = 0 ∨ 64 < count.toNat ∨ run.length ≠ 2 * count.toNat) :
    doTableWrite (bb :: mb :: first :: count :: run) s = (s, .no .badRecord []) := by
  refine if_pos ?_
  rcases h with rfl | h
  · exact .inl (by decide)
  · exact .inr h

theorem doTableWrite_badValue {bb mb first count : Byte} {run : List Byte} (h : runFits count run)
    (hv : 3 < bb.toNat ∨ 7 < mb.toNat) :
    doTableWrite (bb :: mb :: first :: count :: run) s = (s, .no .badValue []) := by
  simp only [doTableWrite, if_neg h.counts]
  split
  · next hb hm => exact absurd ⟨hb, hm⟩ (below_bankMode hv _ _)
  · rfl

section Row

variable {b : Bank} {m : Mode} {first count : Byte} {run : List Byte}

theorem doTableWrite_closed (h : runFits count run) (ho : s.tables.openBank ≠ .some b) :
    doTableWrite (BitVec.ofNat 8 b.val :: BitVec.ofNat 8 m.val :: first :: count :: run) s =
      (s, .no .bankClosed []) := by
  have hb : s.tables.isOpen b = false := decide_eq_false ho
  simp only [doTableWrite, if_neg h.counts, below_four, below_mode, hb, Bool.not_false, if_true]

theorem doTableWrite_crosses (h : runFits count run) (ho : s.tables.openBank = .some b)
    (hx : 64 < first.toNat + count.toNat) :
    doTableWrite (BitVec.ofNat 8 b.val :: BitVec.ofNat 8 m.val :: first :: count :: run) s =
      (s, .no .runCrossesRow []) := by
  have hb : s.tables.isOpen b = true := decide_eq_true ho
  simp only [doTableWrite, if_neg h.counts, below_four, below_mode, hb, Bool.not_true, Bool.false_eq_true, if_false,
    if_pos hx]

theorem doTableWrite_badRun {i : Nat} (h : runFits count run) (ho : s.tables.openBank = .some b)
    (hx : first.toNat + count.toNat ≤ 64) (hr : readRun 0 run = .bad i) :
    doTableWrite (BitVec.ofNat 8 b.val :: BitVec.ofNat 8 m.val :: first :: count :: run) s =
      (s, .no .badValue (u8 i)) := by
  have hb : s.tables.isOpen b = true := decide_eq_true ho
  simp only [doTableWrite, if_neg h.counts, below_four, below_mode, hb, Bool.not_true, Bool.false_eq_true, if_false,
    if_neg (Nat.not_lt.2 hx), hr]

theorem doTableWrite_goodRun {ds : List Disposition} (h : runFits count run) (ho : s.tables.openBank = .some b)
    (hx : first.toNat + count.toNat ≤ 64) (hr : readRun 0 run = .good ds) :
    doTableWrite (BitVec.ofNat 8 b.val :: BitVec.ofNat 8 m.val :: first :: count :: run) s =
      ({ s with tables := s.tables.writeRun b m first.toNat ds }, .ok [count]) := by
  have hb : s.tables.isOpen b = true := decide_eq_true ho
  simp only [doTableWrite, if_neg h.counts, below_four, below_mode, hb, Bool.not_true, Bool.false_eq_true, if_false,
    if_neg (Nat.not_lt.2 hx), hr]

end Row

theorem doTableWrite_good {b : Bank} {m : Mode} {first : Nat} {ds : List Disposition} (ho : s.tables.openBank = .some b)
    (h1 : 1 ≤ ds.length) (h2 : first + ds.length ≤ 64) :
    doTableWrite (u8 b.val ++ u8 m.val ++ u8 first ++ u8 ds.length ++ ds.flatMap writeDisposition) s =
      ({ s with tables := s.tables.writeRun b m first ds }, .ok (u8 ds.length)) := by
  have hf : (BitVec.ofNat 8 first).toNat = first := toNat_byte (by omega)
  have hn : (BitVec.ofNat 8 ds.length).toNat = ds.length := toNat_byte (by omega)
  have hfits : runFits (BitVec.ofNat 8 ds.length) (ds.flatMap writeDisposition) :=
    ⟨by omega, by omega, by rw [flatMap_writeDisposition_length, hn]⟩
  have hdo := doTableWrite_goodRun (m := m) (first := BitVec.ofNat 8 first) hfits ho (by omega) (readRun_written 0 ds)
  rw [hf] at hdo
  exact hdo

end Sys2Proof.Machine

open Sys2Proof Sys2Proof.Machine

/-- Settles O24: the checks in their order, the last of them at the first form that is not read; the accepted run is
`Tables.writeRun`. -/
theorem tableWriteReplacesTheRun : Obligations.TableWriteReplacesTheRun := by
  refine ⟨fun s tag b m first ds h hwf ho h1 h2 => ?_, fun s tag bb mb first count run h hlen hbad => ?_,
    fun s tag bb mb first count run h h1 h2 h3 hv => ?_, fun s tag first count b m run h h1 h2 h3 ho => ?_,
    fun s tag first count b m run h h1 h2 h3 ho hx => ?_, fun s tag first x y b m before rest h ho hr hn hx hv => ?_⟩
  · have hlen := flatMap_writeDisposition_length ds
    have hexec := exec_of_carryOut h
      ⟨.tableWrite, tag, u8 b.val ++ u8 m.val ++ u8 first ++ u8 ds.length ++ ds.flatMap writeDisposition⟩
      (decide_eq_true (by simp [u8, hlen, Config.recordPayload]; omega)) (doTableWrite_good (s := s.received) ho h1 h2) (.inl ⟨nofun, nofun⟩)
    obtain ⟨_, hdesc, hbank, hfrozen⟩ := s.tables.writeRun_frame b m first ds h2 hwf
    have hread := fun b' m' c' => s.tables.readEntry_writeRun b b' m m' first ds c' h2 hwf
    refine ⟨_, hexec, rfl, hbank, hfrozen, hdesc, fun i d c hd hc => ?_, fun c hc => ?_, fun b' m' c hne => ?_⟩
    · refine (hread b m c).trans ?_
      rw [if_pos ⟨rfl, rfl, by omega⟩, hc, Nat.add_sub_cancel_left, hd]
      rfl
    · refine (hread b m c).trans ?_
      split
      · next hin => rw [List.getElem?_eq_none (by omega)]; rfl
      · rfl
    · exact (hread b' m' c).trans (if_neg fun hin => hne.elim (· hin.1) (· hin.2.1))
  · exact exec_refused h ⟨.tableWrite, tag, bb :: mb :: first :: count :: run⟩ (decide_eq_true (by simp [Config.recordPayload]; omega))
      (doTableWrite_badRecord hbad) nofun
  · exact exec_refused h ⟨.tableWrite, tag, bb :: mb :: first :: count :: run⟩ (decide_eq_true (by simp [Config.recordPayload]; omega))
      (doTableWrite_badValue ⟨h1, h2, h3⟩ hv) nofun
  · exact exec_refused h ⟨.tableWrite, tag, u8 b.val ++ u8 m.val ++ [first, count] ++ run⟩
      (decide_eq_true (by simp [u8, Config.recordPayload]; omega))
      (doTableWrite_closed (s := s.received) ⟨h1, h2, h3⟩ ho) nofun
  · exact exec_refused h ⟨.tableWrite, tag, u8 b.val ++ u8 m.val ++ [first, count] ++ run⟩
      (decide_eq_true (by simp [u8, Config.recordPayload]; omega))
      (doTableWrite_crosses (s := s.received) ⟨h1, h2, h3⟩ ho hx) nofun
  · have hlen := flatMap_writeDisposition_length before
    have hcount : (BitVec.ofNat 8 (before.length + 1 + rest.length / 2)).toNat = before.length + 1 + rest.length / 2 :=
      toNat_byte (by omega)
    have hfits : runFits (BitVec.ofNat 8 (before.length + 1 + rest.length / 2))
        (before.flatMap writeDisposition ++ [x, y] ++ rest) := by
      refine ⟨by omega, by omega, ?_⟩
      simp only [List.length_append, hlen, List.length_cons, List.length_nil, hcount]
      omega
    have hbad := readRun_bad 0 before rest ((readDisposition_eq_none x y).2 hv)
    rw [Nat.zero_add] at hbad
    exact exec_of_carryOut h ⟨.tableWrite, tag, u8 b.val ++ u8 m.val ++ [first] ++
      u8 (before.length + 1 + rest.length / 2) ++ (before.flatMap writeDisposition ++ [x, y] ++ rest)⟩
      (decide_eq_true (by simp [u8, hlen, Config.recordPayload]; omega))
      (doTableWrite_badRun (s := s.received) (m := m) hfits ho (by omega) hbad) (.inl ⟨nofun, nofun⟩)

/-- Settles O25: MODE_SET is `Tables.writeDescriptor` behind its checks, and TABLE_READ's run is the row's entries one by
one. -/
theorem modeSetWritesAndTableReadReturns : Obligations.ModeSetWritesAndTableReadReturns := by
  refine ⟨fun s tag mask b m secret h hwf ho => ?_, fun s tag bb mb secret mask h hv => ?_,
    fun s tag secret mask b m h ho => ?_, fun s tag secret mask b m h ho hs => ?_, fun s tag b m codes first h hne hc => ?_,
    fun s tag bb mb first count h hv => ?_, fun s tag first count b m h h1 h2 hx => ?_⟩
  · have hbits : decide ((if secret then 1 else 0 : Byte) = 1) = secret := by cases secret <;> rfl
    have hle : ¬ 1 < (if secret then 1 else 0 : Byte).toNat := by cases secret <;> decide
    have hdo : doModeSet (u8 b.val ++ u8 m.val ++ yesNo secret ++ [mask]) s.received =
        ({ s.received with tables := s.tables.writeDescriptor b m ⟨secret, storedMask mask⟩ },
          .stored (decide (storedMask mask ≠ mask)) (yesNo secret ++ [storedMask mask])) := by
      have ho' : s.received.tables.openBank = .some b := ho
      simp only [doModeSet, u8, yesNo, List.cons_append, List.nil_append, below_four, below_mode, Tables.isOpen, ho',
        decide_true, Bool.not_true, Bool.false_eq_true, if_false, hle, hbits]
      rfl
    have hexec := exec_of_carryOut h ⟨.modeSet, tag, u8 b.val ++ u8 m.val ++ yesNo secret ++ [mask]⟩ rfl hdo
      (.inl ⟨nofun, nofun⟩)
    have hread := fun b' m' => s.tables.readDescriptor_writeDescriptor b b' m m' ⟨secret, storedMask mask⟩ hwf
    exact ⟨_, hexec, rfl, rfl, rfl, rfl, (hread b m).trans (if_pos ⟨rfl, rfl⟩),
      fun b' m' hne => (hread b' m').trans (if_neg fun hin => hne.elim (· hin.1) (· hin.2))⟩
  · refine exec_refused h ⟨.modeSet, tag, [bb, mb, secret, mask]⟩ rfl ?_ nofun
    simp only [carryOut, doModeSet]
    split
    · next hb hm => exact absurd ⟨hb, hm⟩ (below_bankMode hv _ _)
    · rfl
  · refine exec_refused h ⟨.modeSet, tag, u8 b.val ++ u8 m.val ++ [secret, mask]⟩ rfl ?_ nofun
    have ho' : ¬ s.received.tables.openBank = .some b := ho
    simp [carryOut, doModeSet, u8, Tables.isOpen, ho']
  · refine exec_refused h ⟨.modeSet, tag, u8 b.val ++ u8 m.val ++ [secret, mask]⟩ rfl ?_ nofun
    have ho' : s.received.tables.openBank = .some b := ho
    simp [carryOut, doModeSet, u8, Tables.isOpen, ho', hs]
  · have hrow := run_in_row hc hne
    have hpos := List.length_pos_iff.2 hne
    have hf : (BitVec.ofNat 8 first).toNat = first := toNat_byte (by omega)
    have hn : (BitVec.ofNat 8 codes.length).toNat = codes.length := toNat_byte (by omega)
    refine exec_of_carryOut h ⟨.tableRead, tag, u8 b.val ++ u8 m.val ++ u8 first ++ u8 codes.length⟩ rfl ?_
      (.inl ⟨nofun, nofun⟩)
    have h1 : ¬ (codes.length < 1 ∨ 64 < codes.length) := by omega
    simp only [carryOut, doTableRead, u8, List.cons_append, List.nil_append, below_four, below_mode, hf, hn, if_neg h1,
      if_neg (Nat.not_lt.2 hrow), rowRun_eq s.received.tables b m codes first hc]
    rfl
  · refine exec_refused h ⟨.tableRead, tag, [bb, mb, first, count]⟩ rfl ?_ nofun
    simp only [carryOut, doTableRead]
    split
    · next hb hm =>
      refine if_pos ?_
      rcases hv with hv | hv | rfl | hv
      · exact absurd ⟨hb, hm⟩ (below_bankMode (.inl hv) _ _)
      · exact absurd ⟨hb, hm⟩ (below_bankMode (.inr hv) _ _)
      · exact .inl (by decide)
      · exact .inr hv
    · rfl
  · refine exec_refused h ⟨.tableRead, tag, u8 b.val ++ u8 m.val ++ [first, count]⟩ rfl ?_ nofun
    have h1' : ¬ (count.toNat < 1 ∨ 64 < count.toNat) := by omega
    simp only [carryOut, doTableRead, u8, List.cons_append, List.nil_append, below_four, below_mode, if_neg h1', if_pos hx]

end

section
/-! SUPPORT. Posts with one slot free, synthetic admission with room, and the timers of entries and prompts. -/

namespace Sys2Proof.Machine

open Sys2Proof

variable {s t : State}

/-! ### A timer that is due (R6) -/

theorem Timer.due_running_zero : (Timer.running 0).due = true := rfl

theorem Timer.not_due {t : Timer} (h : t ≠ .running 0) : t.due = false := by
  cases t with
  | stopped => rfl
  | running n => exact beq_eq_false_iff_ne.2 fun hn => h (hn ▸ rfl)

/-! ### A post that finds a slot free (R177) -/

theorem isOwed_of_anyOwed (h : anyOwed s = false) (j : OwedKey) : isOwed s j = false := by
  rw [isOwed, takeOwed_of_anyOwed s h j]
  rfl

/-- With one flag set and a slot free, that flag's notice is queued and nothing else happens. -/
theorem serveOwed_only {k : OwedKey} {n : Notice} (hk : takeOwed k s = .some (n, t))
    (hs : ∀ j, j ≠ k → isOwed s j = false) (hf : 0 < s.oq.freeSlots) : serveOwed s = t.enqueue (.notice n) := by
  refine serveOwed_single s t k n hk (fun j hj => takeOwed_of_not_owed (hs j hj)) (fun j => takeOwed_of_not_owed ?_) hf
  rw [isOwed_enqueue, isOwed_taken hk]
  by_cases hj : j = k
  · simp [hj]
  · rw [hs j hj, Bool.false_and]

theorem postExpired_free (p : Pos) (n : Nat) (b : Bool) (m : Mode) (h : anyOwed s = false) (hf : 0 < s.oq.freeSlots) :
    postExpired p n b m s = s.enqueue (.notice (.entryExpired p n b m 1)) := by
  have hnone : s.oq.expired.get p = .none := ((anyOwed_false_iff s).1 h).2.1 p
  have ht : takeOwed (.expired p) (s.onOq fun q => { q with expired := q.expired.set p (.some ⟨n, b, m, 1⟩) }) =
      .some (.entryExpired p n b m 1, s) := by
    simp only [takeOwed, State.onOq_oq, PerPos.get_set_same]
    simp only [State.onOq, PerPos.set_set_none _ _ _ hnone]
  rw [postExpired, hnone]
  refine serveOwed_only ht (fun j hj => ?_) hf
  have hj' := isOwed_of_anyOwed h j
  cases j with
  | result q => rw [isOwed_result] at hj' ⊢; exact hj'
  | expired q =>
    have hq : q ≠ p := fun e => hj (by rw [e])
    rw [isOwed_expired] at hj' ⊢
    rw [State.onOq_oq, PerPos.get_set_ne _ _ hq]
    exact hj'
  | card q => rw [isOwed_card] at hj' ⊢; exact hj'
  | keypad q => rw [isOwed_keypad] at hj' ⊢; exact hj'
  | pressure => rw [isOwed_pressure] at hj' ⊢; exact hj'

theorem postExpired_full (p : Pos) (n : Nat) (b : Bool) (m : Mode) (hf : s.oq.freeSlots = 0) :
    postExpired p n b m s = s.onOq fun q => { q with expired := q.expired.set p (.some ⟨n, b, m,
      match s.oq.expired.get p with
      | .none => 1
      | .some o => holdAt 255 o.ends⟩) } := by
  unfold postExpired
  exact serveOwed_of_full (s.onOq _) hf

/-! ### Admission and pressure (R48, R52) -/

theorem nextPressure_normal {n : Nat} (h : n < 64) : nextPressure .normal n = .normal :=
  if_neg (Nat.not_le.2 h)

/-- An event that leaves both counts as they were leaves pressure too. -/
theorem judgePressure_of_counts (ho : t.intake.occupied = s.intake.occupied) (hr : t.intake.reserved = s.intake.reserved) :
    judgePressure s t = t := if_pos ⟨ho, hr⟩

/-- Under NORMAL pressure with fewer than 64 places committed, pressure stays. -/
theorem judgePressure_of_normal (before : State) (hp : s.intake.pressure = .normal)
    (hn : s.intake.occupied + s.intake.reserved < 64) : judgePressure before s = s :=
  judgePressure_of_same before s (by rw [hp, nextPressure_normal hn])

theorem occupied_enter (f : Intake) (p : Pos) (c : Code) (o : Origin) : (f.enter p c o).occupied = f.occupied + 1 := by
  simp [Intake.enter, Intake.occupied]

theorem State.intakeRoom.free {n : Nat} (h : s.intakeRoom n) : 1 ≤ s.intake.free := by
  obtain ⟨_, hn, _⟩ := h
  simp only [Intake.free, Config.fifoPlaces]
  omega

theorem State.intakeRoom.flag {n : Nat} (h : s.intakeRoom n) (p : Pos) (k : Synth) :
    (s.intake.flags.get p).get k = false := (Intake.flagCount_eq_zero_iff _).1 h.2.2 p k

/-- With room a synthetic code enters, and pressure stays NORMAL. -/
theorem admit_in_room {p : Pos} {u : State} (k : Synth) (h : s.intakeRoom 1) (ho : (s.pos.get p).state = .opened) :
    judgePressure u (admitSynth p k s) = s.onIntake fun f => f.enter p k.code .synthetic := by
  rw [admit_of_free p k s ho (h.flag p k) h.free]
  obtain ⟨hp, hn, _⟩ := h
  refine judgePressure_of_normal u hp ?_
  rw [State.onIntake_intake, occupied_enter]
  simp only [Intake.enter]
  omega

/-- With no place free, or the flag set already, a synthetic code leaves its flag set. -/
theorem admit_flags {p : Pos} (k : Synth) (ho : (s.pos.get p).state = .opened)
    (h : s.intake.free = 0 ∨ (s.intake.flags.get p).get k = true) :
    admitSynth p k s = s.onIntake fun f => f.putFlag p k true := by
  by_cases hf : (s.intake.flags.get p).get k = true
  · have hput : (s.intake.flags.get p).put k true = s.intake.flags.get p := by
      cases k <;> exact (by simp only [PendingFlags.get] at hf; simp only [PendingFlags.put, ← hf])
    rw [admit_of_flagged p k s hf]
    simp only [State.onIntake, Intake.putFlag, PerPos.modify, hput, PerPos.set_get_same]
  · exact admit_of_full p k s ho (by simpa using hf) (h.resolve_right hf)

/-! ### The timers of an entry (R115, R116) -/

theorem exec_interkeyExpiry_due {p : Pos} {e : Entry} (he : s.entry.get p = some e) (hd : e.interkeyTimer = .running 0) :
    exec (.interkeyExpiry p) s = .next (judgePressure s (admitSynth p .interkeyLapse
      (s.putEntry p (.some { e with interkeyTimer := .stopped })))) := by
  simp only [exec, execInterkeyExpiry, he, hd, Timer.due_running_zero, if_true]

theorem exec_totalTimerExpiry_due {p : Pos} {e : Entry} (he : s.entry.get p = some e) (hd : e.totalTimer = .running 0) :
    exec (.totalTimerExpiry p) s = .next (postExpired p e.buffer.length e.secret (e.endMode.getD (s.pos.get p).mode)
      ((s.putEntry p .none).onPos p fun r => { r with mode := e.endMode.getD (s.pos.get p).mode })) := by
  simp only [exec, execTotalTimerExpiry, he, hd, Timer.due_running_zero, if_true]

end Sys2Proof.Machine

open Sys2Proof Sys2Proof.Machine

/-- Settles O36: a due timer's expiry is the raise of INTERKEY_LAPSE or the post of ENTRY_ENDED, each with room and
without. -/
theorem entryTimersExpire : Obligations.EntryTimersExpire := by
  refine ⟨fun s p e he hd ho hr => ?_, fun s p e he hd ho hr => ?_, fun s p e he hd hf => ?_, fun s p e he hd hf => ?_,
    fun s p h => ?_, fun s p h => ?_⟩
  · rw [exec_interkeyExpiry_due he hd]
    exact congrArg _ (admit_in_room (s := s.putEntry p (.some { e with interkeyTimer := .stopped })) .interkeyLapse hr ho)
  · rw [exec_interkeyExpiry_due he hd,
      admit_flags (s := s.putEntry p (.some { e with interkeyTimer := .stopped })) .interkeyLapse ho hr]
    rw [judgePressure_of_counts]
    · rfl
    · rfl
    · rfl
  · rw [exec_totalTimerExpiry_due he hd]
    obtain ⟨h, hf⟩ := hf
    rw [postExpired_free (s := (s.putEntry p .none).onPos p fun r => { r with mode := e.endMode.getD (s.pos.get p).mode })
      p _ _ _ (anyOwed_false_congr s _ rfl rfl rfl rfl rfl h) hf]
    rfl
  · rw [exec_totalTimerExpiry_due he hd]
    rw [postExpired_full (s := (s.putEntry p .none).onPos p fun r => { r with mode := e.endMode.getD (s.pos.get p).mode })
      p _ _ _ hf]
    rfl
  · cases he : s.entry.get p with
    | none => simp only [exec, execInterkeyExpiry, he]
    | some e => simp only [exec, execInterkeyExpiry, he, Timer.not_due (h e he), Bool.false_eq_true, if_false]
  · cases he : s.entry.get p with
    | none => simp only [exec, execTotalTimerExpiry, he]
    | some e => simp only [exec, execTotalTimerExpiry, he, Timer.not_due (h e he), Bool.false_eq_true, if_false]

end

section
/-! SUPPORT. The requests of entries as they are carried out. -/

namespace Sys2Proof.Machine

open Sys2Proof

variable {s t : State}

/-! ### Fields that may be absent (R186) -/

/-- A mode or none survives its byte. -/
theorem optMode_field (m : Option Mode) : ∃ b, optU8 (m.map Fin.val) = [b] ∧ optMode b = .some m := by
  cases m with
  | none => exact ⟨0xFF, rfl, rfl⟩
  | some m =>
    refine ⟨BitVec.ofNat 8 m.val, rfl, ?_⟩
    have hne : BitVec.ofNat 8 m.val ≠ 0xFF := by revert m; decide
    simp only [optMode, if_neg hne, below_mode]

/-- A value above 7 that is not all ones is no mode. -/
theorem optMode_none {b : Byte} (h : 7 < b.toNat) (hne : b ≠ 0xFF) : optMode b = .none := by
  simp only [optMode, if_neg hne, below_mode_none h]

/-- A 2-byte number or none survives its bytes. -/
theorem optWord_field {n : Option Nat} (h : ∀ k, n = some k → k < 65535) :
    ∃ hi lo, optU16 n = [hi, lo] ∧ optWord hi lo = n := by
  cases n with
  | none => exact ⟨0xFF, 0xFF, rfl, if_pos (by decide)⟩
  | some n =>
    have hn : n < 65535 := h n rfl
    refine ⟨_, _, rfl, ?_⟩
    rw [optWord, be16_bytes (by omega), if_neg (by omega)]

theorem optWord_some {hi lo : Byte} (h : hi ≠ 0xFF ∨ lo ≠ 0xFF) : optWord hi lo = .some (be16 hi lo) := by
  refine if_neg fun he => ?_
  simp only [be16] at he
  have h1 : hi = 0xFF := BitVec.eq_of_toNat_eq (by have := hi.isLt; have := lo.isLt; simp only [BitVec.reduceToNat]; omega)
  have h2 : lo = 0xFF := BitVec.eq_of_toNat_eq (by have := hi.isLt; have := lo.isLt; simp only [BitVec.reduceToNat]; omega)
  exact h.elim (· h1) (· h2)

theorem policyOf_index (pol : FullPolicy) : policyOf (BitVec.ofNat 8 pol.index).toNat = .some pol := by
  cases pol <;> rfl

theorem policyOf_none {n : Nat} (h : 2 < n) : policyOf n = .none := by
  unfold policyOf
  split
  · omega
  · omega
  · omega
  · rfl

/-! ### COLLECT (R105 to R107) -/

theorem storedMax_eq (n : Nat) : storedMax n = max 1 (min 16 n) := clamp_eq (by decide)

theorem storedTotal_eq (n : Nat) : storedTotal n = max 10 (min 1200 n) := clamp_eq (by decide)

theorem storedInterkey_eq (t : Option Nat) : storedInterkey t = t.map fun n => max 5 (min 300 n) :=
  congrArg (fun f => t.map f) (funext fun _ => clamp_eq (by decide))

section Collect

variable {p : Pos} {start : Mode} {mn mx fmb emb i1 i0 t1 t0 : Byte} {pol : FullPolicy} {fm em : Option Mode} {total : Nat}

theorem doCollect_closed (ht : optWord t1 t0 = .some total) (hfm : optMode fmb = .some fm) (hem : optMode emb = .some em)
    (hc : (s.pos.get p).state = .closed) :
    doCollect [BitVec.ofNat 8 p.val, BitVec.ofNat 8 start.val, mn, mx, BitVec.ofNat 8 pol.index, fmb, emb, i1, i0, t1, t0]
      s = (s, .no .positionClosed []) := by
  simp only [doCollect, below_pos, ht, below_mode, policyOf_index, hfm, hem, isOpen_of_closed hc, Bool.not_false, if_true]

theorem doCollect_bankWriting (ht : optWord t1 t0 = .some total) (hfm : optMode fmb = .some fm)
    (hem : optMode emb = .some em) (ho : (s.pos.get p).state = .opened)
    (hb : s.tables.openBank = some (s.pos.get p).bank) :
    doCollect [BitVec.ofNat 8 p.val, BitVec.ofNat 8 start.val, mn, mx, BitVec.ofNat 8 pol.index, fmb, emb, i1, i0, t1, t0]
      s = (s, .no .bankWriting []) := by
  have hb' : s.tables.isOpen (s.pos.get p).bank = true := decide_eq_true hb
  simp only [doCollect, below_pos, ht, below_mode, policyOf_index, hfm, hem, isOpen_of_opened ho, hb', Bool.not_true,
    Bool.false_eq_true, if_false, if_true]

theorem doCollect_collecting (ht : optWord t1 t0 = .some total) (hfm : optMode fmb = .some fm)
    (hem : optMode emb = .some em) (ho : (s.pos.get p).state = .opened)
    (hb : s.tables.openBank ≠ some (s.pos.get p).bank) (hc : s.entryCollecting p = true) :
    doCollect [BitVec.ofNat 8 p.val, BitVec.ofNat 8 start.val, mn, mx, BitVec.ofNat 8 pol.index, fmb, emb, i1, i0, t1, t0]
      s = (s, .no .wrongState []) := by
  have hb' : s.tables.isOpen (s.pos.get p).bank = false := decide_eq_false hb
  simp only [doCollect, below_pos, ht, below_mode, policyOf_index, hfm, hem, isOpen_of_opened ho, hb', hc, Bool.not_true,
    Bool.false_eq_true, if_false, if_true]

theorem doCollect_begins {ik : Option Nat} (ht : optWord t1 t0 = .some total) (hi : optWord i1 i0 = ik)
    (hfm : optMode fmb = .some fm) (hem : optMode emb = .some em) (ho : (s.pos.get p).state = .opened)
    (hb : s.tables.openBank ≠ some (s.pos.get p).bank) (hc : s.entryCollecting p = false) :
    doCollect [BitVec.ofNat 8 p.val, BitVec.ofNat 8 start.val, mn, mx, BitVec.ofNat 8 pol.index, fmb, emb, i1, i0, t1, t0]
      s =
      let secret := (s.tables.readDescriptor (s.pos.get p).bank start).secret
      let e := newEntry secret mn.toNat mx.toNat pol fm em ik total s.timeCount
      (((s.putEntry p (.some e)).onPos p fun r => { r with mode := start }).onPu p PromptUnit.resetEcho,
        .stored (collectAdjusted mn.toNat mx.toNat ik total)
          (u8 e.minLength ++ u8 e.maxLength ++ optU16 e.interkeyTimeout ++ u16 e.totalTimeout ++
            yesNo (s.entry.get p).isSome ++ yesNo secret)) := by
  have hb' : s.tables.isOpen (s.pos.get p).bank = false := decide_eq_false hb
  simp only [doCollect, below_pos, ht, hi, below_mode, policyOf_index, hfm, hem, isOpen_of_opened ho, hb', hc,
    Bool.not_true, Bool.false_eq_true, if_false]

end Collect

theorem doCollect_badRecord {p : Pos} {sm mn mx pol fm em i1 i0 : Byte} :
    doCollect [BitVec.ofNat 8 p.val, sm, mn, mx, pol, fm, em, i1, i0, 0xFF, 0xFF] s = (s, .no .badRecord []) := by
  have ht : optWord 0xFF 0xFF = .none := if_pos (by decide)
  simp only [doCollect, below_pos, ht]

theorem doCollect_badValue {p : Pos} {sm mn mx pol fm em i1 i0 t1 t0 : Byte} (ht : t1 ≠ 0xFF ∨ t0 ≠ 0xFF)
    (h : 7 < sm.toNat ∨ 2 < pol.toNat ∨ 7 < fm.toNat ∧ fm ≠ 0xFF ∨ 7 < em.toNat ∧ em ≠ 0xFF) :
    doCollect [BitVec.ofNat 8 p.val, sm, mn, mx, pol, fm, em, i1, i0, t1, t0] s = (s, .no .badValue []) := by
  simp only [doCollect, below_pos, optWord_some ht]
  split
  · next hs hp hf he =>
    rcases h with h | h | ⟨h, hne⟩ | ⟨h, hne⟩
    · exact nomatch (below_mode_none h).symm.trans hs
    · exact nomatch (policyOf_none h).symm.trans hp
    · exact nomatch (optMode_none h hne).symm.trans hf
    · exact nomatch (optMode_none h hne).symm.trans he
  · rfl

/-! ### COLLECT_STOP, ENTRY_READ and ENTRY_WIPE (R118 to R120) -/

/-- An entry in one state or none, as a reading of COLLECTING. -/
theorem entryCollecting_eq (s : State) (p : Pos) :
    s.entryCollecting p = true ↔ ∃ e, s.entry.get p = .some e ∧ e.state = .collecting := by
  simp only [State.entryCollecting]
  cases h : s.entry.get p with
  | none => simp
  | some e => simp

theorem openCodes_getD (e : Entry) :
    (e.openCodes.getD []).map codeByte = if e.secret then [] else e.buffer.map codeByte := by
  simp only [Entry.openCodes]
  split <;> rfl

theorem doCollectStop_collecting {p : Pos} {e : Entry} (he : s.entry.get p = some e) (hs : e.state = .collecting) :
    doCollectStop (u8 p.val) s = (s.putEntry p .none,
      .ok (u8 e.buffer.length ++ yesNo e.secret ++ if e.secret then [] else e.buffer.map codeByte)) := by
  simp only [doCollectStop, u8, below_pos, he, hs, openCodes_getD]

theorem doCollectStop_noEntry {p : Pos} (h : s.entryCollecting p = false) :
    doCollectStop (u8 p.val) s = (s, .no .noEntry []) := by
  simp only [doCollectStop, u8, below_pos]
  split
  · rfl
  · next e he =>
    split
    · rfl
    · next hs => exact absurd ((entryCollecting_eq s p).2 ⟨e, he, hs⟩) (by simp [h])

theorem doEntryRead_noEntry {p : Pos} (h : s.entry.get p = none ∨ s.entryCollecting p = true) :
    doEntryRead (u8 p.val) s = (s, .no .noEntry []) := by
  simp only [doEntryRead, u8, below_pos]
  rcases h with h | h
  · rw [h]
  · obtain ⟨e, he, hs⟩ := (entryCollecting_eq s p).1 h
    simp only [he, hs]

theorem doEntryRead_complete {p : Pos} {e : Entry} (he : s.entry.get p = some e) (hs : e.state = .complete) :
    doEntryRead (u8 p.val) s =
      if e.secret then (s, .no .entrySecret []) else (s, .ok (u8 e.buffer.length ++ e.buffer.map codeByte)) := by
  simp only [doEntryRead, u8, below_pos, he, hs]

theorem doEntryWipe_eq (p : Pos) :
    doEntryWipe (u8 p.val) s = (s.putEntry p .none, .ok (u8 (entryStateIndex (s.entry.get p)))) := by
  simp only [doEntryWipe, u8, below_pos]

end Sys2Proof.Machine

open Sys2Proof Sys2Proof.Machine

/-- Settles O34: the fields of COLLECT read one by one, then the checks of the position's state in their order. -/
theorem collectBeginsAnEntry : Obligations.CollectBeginsAnEntry := by
  refine ⟨fun s tag p start mn mx total pol fm em ik h hmn hmx htot hik ho hb hc => ?_,
    fun s tag sm mn mx pol fm em i1 i0 p h => ?_, fun s tag sm mn mx pol fm em i1 i0 t1 t0 p h ht hv => ?_,
    fun s tag mn mx i1 i0 t1 t0 p start pol fm em h ht => ?_⟩
  · obtain ⟨fmb, hfm, hfm'⟩ := optMode_field fm
    obtain ⟨emb, hem, hem'⟩ := optMode_field em
    obtain ⟨i1, i0, hi, hi'⟩ := optWord_field hik
    have ht : optWord (BitVec.ofNat 8 (total / 256)) (BitVec.ofNat 8 total) = .some total := by
      rw [optWord, be16_bytes (by omega), if_neg (by omega)]
    have hdo := doCollect_begins (s := s.received) (start := start) (mn := BitVec.ofNat 8 mn) (mx := BitVec.ofNat 8 mx)
      (pol := pol) ht hi' hfm' hem' ho hb hc
    rw [toNat_byte hmn, toNat_byte hmx] at hdo
    have hexec := exec_of_carryOut h ⟨.collect, tag, [BitVec.ofNat 8 p.val, BitVec.ofNat 8 start.val, BitVec.ofNat 8 mn,
      BitVec.ofNat 8 mx, BitVec.ofNat 8 pol.index, fmb, emb, i1, i0, BitVec.ofNat 8 (total / 256),
      BitVec.ofNat 8 total]⟩ rfl hdo (.inl ⟨nofun, nofun⟩)
    simp only [newEntry, collectAdjusted, storedMin, storedMax_eq, storedTotal_eq, storedInterkey_eq] at hexec
    dsimp only
    rw [hfm, hem, hi]
    exact hexec
  · exact exec_refused h ⟨.collect, tag, u8 p.val ++ [sm, mn, mx, pol, fm, em, i1, i0, 0xFF, 0xFF]⟩ rfl
      doCollect_badRecord nofun
  · exact exec_refused h ⟨.collect, tag, u8 p.val ++ [sm, mn, mx, pol, fm, em, i1, i0, t1, t0]⟩ rfl
      (doCollect_badValue ht hv) nofun
  · obtain ⟨fmb, hfm, hfm'⟩ := optMode_field fm
    obtain ⟨emb, hem, hem'⟩ := optMode_field em
    have ht' := optWord_some ht
    dsimp only
    rw [hfm, hem]
    refine ⟨fun hc => ?_, fun ho hb => ?_, fun ho hb hc => ?_⟩
    · exact exec_refused h ⟨.collect, tag, _⟩ rfl (doCollect_closed (s := s.received) ht' hfm' hem' hc) nofun
    · exact exec_refused h ⟨.collect, tag, _⟩ rfl (doCollect_bankWriting (s := s.received) ht' hfm' hem' ho hb) nofun
    · exact exec_refused h ⟨.collect, tag, _⟩ rfl (doCollect_collecting (s := s.received) ht' hfm' hem' ho hb hc) nofun

/-- Settles O35: the three requests by the entry's state. -/
theorem collectStopEntryReadAndEntryWipe : Obligations.CollectStopEntryReadAndEntryWipe := by
  refine ⟨fun s tag p e h he hs => ?_, fun s tag p h hc => ?_, fun s tag p h he => ?_, fun s tag p e h he hs hsec => ?_,
    fun s tag p e h he hs hsec => ?_, fun s tag p h => ?_⟩
  · exact exec_of_carryOut h ⟨.collectStop, tag, u8 p.val⟩ rfl (doCollectStop_collecting (s := s.received) he hs)
      (.inl ⟨nofun, nofun⟩)
  · exact exec_refused h ⟨.collectStop, tag, u8 p.val⟩ rfl (doCollectStop_noEntry (s := s.received) hc) nofun
  · exact exec_refused h ⟨.entryRead, tag, u8 p.val⟩ rfl (doEntryRead_noEntry (s := s.received) he) nofun
  · exact exec_refused h ⟨.entryRead, tag, u8 p.val⟩ rfl
      ((doEntryRead_complete (s := s.received) he hs).trans (if_pos hsec)) nofun
  · exact exec_of_carryOut h ⟨.entryRead, tag, u8 p.val⟩ rfl
      ((doEntryRead_complete (s := s.received) he hs).trans (if_neg (by simp [hsec]))) (.inl ⟨nofun, nofun⟩)
  · exact exec_of_carryOut h ⟨.entryWipe, tag, u8 p.val⟩ rfl (doEntryWipe_eq (s := s.received) p) (.inl ⟨nofun, nofun⟩)

end

section
/-! SUPPORT. PROMPT and BEEP as they are carried out, and the hold's expiry. -/

namespace Sys2Proof.Machine

open Sys2Proof

variable {s t : State}

/-! ### PROMPT (R125 to R129) -/

/-- An echo field whose fields fit their bytes survives them. -/
theorem readPrompt_written {form hold : Nat} {text : List Byte} {field : Option EchoField} (hf : form < 256)
    (hh : hold < 65536) (ht : text.length < 256)
    (hfield : ∀ f, field = some f → f.line < 256 ∧ f.column < 256 ∧ f.width < 256) :
    readPrompt (u8 form ++ byteString text ++ u16 hold ++ fieldBytes field) = .some ⟨form, text, hold, field⟩ := by
  have hlist : u8 form ++ byteString text ++ u16 hold ++ fieldBytes field =
      BitVec.ofNat 8 form :: BitVec.ofNat 8 text.length :: (text ++ (u16 hold ++ fieldBytes field)) := by
    simp [u8, byteString]
  rw [hlist]
  simp only [readPrompt, toNat_byte hf, toNat_byte ht, List.drop_left, List.take_left]
  cases field with
  | none => simp [u16, fieldBytes, be16_bytes hh]
  | some f =>
    obtain ⟨h1, h2, h3⟩ := hfield f rfl
    simp [u16, u8, fieldBytes, be16_bytes hh, Nat.mod_eq_of_lt h1, Nat.mod_eq_of_lt h2, Nat.mod_eq_of_lt h3]

section Prompt

variable {p : Pos} {rest : List Byte} {f : PromptFields}

theorem doPrompt_noForm (hr : readPrompt rest = .some f) (hf : promptFormOf f.form = .none) :
    doPrompt (BitVec.ofNat 8 p.val :: rest) s = (s, .no .badValue []) := by
  simp only [doPrompt, hr, below_pos, hf]

theorem doPrompt_badField {form : PromptForm} (hr : readPrompt rest = .some f) (hf : promptFormOf f.form = .some form)
    (hk : fieldOk f.field = false) : doPrompt (BitVec.ofNat 8 p.val :: rest) s = (s, .no .badValue []) := by
  simp only [doPrompt, hr, below_pos, hf, hk, Bool.not_false, if_true]

theorem doPrompt_closed {form : PromptForm} (hr : readPrompt rest = .some f) (hf : promptFormOf f.form = .some form)
    (hk : fieldOk f.field = true) (hc : (s.pos.get p).state = .closed) :
    doPrompt (BitVec.ofNat 8 p.val :: rest) s = (s, .no .positionClosed []) := by
  simp only [doPrompt, hr, below_pos, hf, hk, isOpen_of_closed hc, Bool.not_true, Bool.not_false, Bool.false_eq_true,
    if_false, if_true]

theorem doPrompt_full {form : PromptForm} (hr : readPrompt rest = .some f) (hf : promptFormOf f.form = .some form)
    (hk : fieldOk f.field = true) (ho : (s.pos.get p).state = .opened)
    (hp : (s.pu.get p).place form ⟨storedText f.text, min f.hold 600, f.field.map storedField⟩ = .none) :
    doPrompt (BitVec.ofNat 8 p.val :: rest) s = (s, .no .slotsFull []) := by
  simp only [doPrompt, hr, below_pos, hf, hk, isOpen_of_opened ho, hp, Bool.not_true, Bool.false_eq_true, if_false]

theorem doPrompt_placed {form : PromptForm} {u : PromptUnit} {slot : Slot} {cur : Bool} (hr : readPrompt rest = .some f)
    (hf : promptFormOf f.form = .some form) (hk : fieldOk f.field = true) (ho : (s.pos.get p).state = .opened)
    (hp : (s.pu.get p).place form ⟨storedText f.text, min f.hold 600, f.field.map storedField⟩ = .some (u, slot, cur)) :
    doPrompt (BitVec.ofNat 8 p.val :: rest) s = (s.onPu p fun _ => u,
      .stored (promptAdjusted f.text f.hold f.field)
        (u8 slot.index ++ yesNo cur ++ u8 (storedText f.text).length ++ u16 (min f.hold 600) ++
          fieldBytes (f.field.map storedField))) := by
  simp only [doPrompt, hr, below_pos, hf, hk, isOpen_of_opened ho, hp, Bool.not_true, Bool.false_eq_true, if_false]

end Prompt

theorem promptFormOf_none {n : Nat} (h : 1 < n) : promptFormOf n = .none := by
  unfold promptFormOf
  split
  · omega
  · omega
  · rfl

theorem fieldOk_iff (field : Option EchoField) :
    fieldOk field = true ↔ ∀ f, field = some f → f.line ≤ 1 ∧ f.column ≤ 15 ∧ 1 ≤ f.width := by
  cases field with
  | none => exact ⟨(fun _ f h => nomatch h), (fun _ => rfl)⟩
  | some f =>
    rw [fieldOk, decide_eq_true_eq]
    constructor
    · rintro ⟨h1, h2, h3⟩ g hg
      obtain rfl := Option.some.inj hg
      exact ⟨h1, h2, Nat.one_le_iff_ne_zero.2 h3⟩
    · intro h
      obtain ⟨h1, h2, h3⟩ := h f rfl
      exact ⟨h1, h2, Nat.one_le_iff_ne_zero.1 h3⟩

theorem promptAdjusted_eq (text : List Byte) (hold : Nat) (field : Option EchoField) :
    promptAdjusted text hold field =
      decide (storedText text ≠ text ∨ min hold 600 ≠ hold ∨ field.map storedField ≠ field) := by
  rw [promptAdjusted, decide_eq_decide]
  have : min hold 600 ≠ hold ↔ 600 < hold := by omega
  rw [this]

/-- The unit of a prompt that becomes current in a slot of its own: the only prompt of the unit (R127 to R129). -/
def PromptUnit.alone (u : PromptUnit) (pr : Prompt) : PromptUnit :=
  (({ u with slotA := .none, slotB := .none } : PromptUnit).putSlot u.currentSlot (.some pr)).show pr

theorem place_replace (u : PromptUnit) (pr : Prompt) : u.place .replace pr = .some (u.alone pr, u.currentSlot, true) := rfl

/-- A unit with the other slot empty: the current slot taken is the only one. -/
theorem putSlot_alone {u : PromptUnit} (ho : u.other = none) (pr : Prompt) :
    (u.putSlot u.currentSlot (.some pr)).show pr = u.alone pr := by
  obtain ⟨a, b, k, _⟩ := u
  cases k with
  | a =>
    obtain rfl : b = none := ho
    rfl
  | b =>
    obtain rfl : a = none := ho
    rfl

theorem place_queue_shows {u : PromptUnit} (ho : u.other = none) (h : u.current = none ∨ u.phase = .ended) (pr : Prompt) :
    u.place .queue pr = .some (u.alone pr, u.currentSlot, true) := by
  simp only [PromptUnit.place]
  split
  · rw [putSlot_alone ho]
  · next hc =>
    have he : u.phase = .ended := h.resolve_left (by simp [hc])
    simp only [he]
    rw [putSlot_alone ho]

theorem place_queue_behind {u : PromptUnit} (hc : u.current ≠ none) (he : u.phase ≠ .ended) (pr : Prompt) :
    u.place .queue pr = match u.other with
      | none => .some (u.putSlot u.currentSlot.opposite (.some pr), u.currentSlot.opposite, false)
      | some _ => .none := by
  simp only [PromptUnit.place]
  split
  · next h => exact absurd h hc
  · cases hp : u.phase with
    | ended => exact absurd hp he
    | notStarted | running | shown => rfl

/-! ### BEEP and the hold's expiry (R131, R135) -/

theorem doBeep_set {p : Pos} {b : Beep} (h : b ≠ .none) :
    doBeep (u8 p.val ++ u8 b.index) s =
      (s.onPu p (fun u => { u with beep := b }), .ok (u8 (s.pu.get p).beep.index)) := by
  cases b with
  | none => exact absurd rfl h
  | short | long =>
    simp only [doBeep, u8, List.cons_append, List.nil_append, below_pos]
    rfl

theorem doBeep_badValue {p : Pos} {bb : Byte} (h : bb = 0 ∨ 2 < bb.toNat) :
    doBeep (u8 p.val ++ [bb]) s = (s, .no .badValue []) := by
  simp only [doBeep, u8, List.cons_append, List.nil_append, below_pos]
  have hb : beepOf bb.toNat = .none ∨ beepOf bb.toNat = .some .none := by
    rcases h with rfl | h
    · exact .inr rfl
    · left
      unfold beepOf
      split
      · omega
      · omega
      · omega
      · rfl
  rcases hb with hb | hb <;> rw [hb]

theorem exec_promptHoldExpiry_due {p : Pos} (h : (s.pu.get p).holdTimer = .running 0) :
    exec (.promptHoldExpiry p) s = .next (judgePressure s (holdExpires p s)) := by
  simp only [exec, execPromptHoldExpiry, h, Timer.due_running_zero, if_true]

theorem holdExpires_switches {p : Pos} {pr : Prompt} (h : (s.pu.get p).other = some pr) :
    holdExpires p s = s.onPu p fun u => ({ u with holdTimer := .stopped }).switch pr := by
  simp only [holdExpires, h]

theorem holdExpires_ends {p : Pos} (h : (s.pu.get p).other = none) :
    holdExpires p s = admitSynth p .promptEnded (s.onPu p fun u => { u with holdTimer := .stopped, phase := .ended }) := by
  simp only [holdExpires, h]

/-- The queued prompt of a unit, switched to (R131). -/
theorem switch_eq {u : PromptUnit} {pr : Prompt} (h : u.other = some pr) :
    ({ u with holdTimer := .stopped }).switch pr =
      { u with
        slotA := match u.currentSlot with
          | .a => none
          | .b => some pr
        slotB := match u.currentSlot with
          | .a => some pr
          | .b => none
        currentSlot := match u.currentSlot with
          | .a => .b
          | .b => .a
        phase := .notStarted, holdTimer := .stopped, content := promptContent pr, number := u.number + 1,
        dirty := true, cursor := 0 } := by
  obtain ⟨a, b, k, _⟩ := u
  cases k with
  | a =>
    obtain rfl : b = some pr := h
    rfl
  | b =>
    obtain rfl : a = some pr := h
    rfl

end Sys2Proof.Machine

open Sys2Proof Sys2Proof.Machine

/-- Settles O37: the fields read, and the place by the form and the unit. -/
theorem promptTakesItsPlace : Obligations.PromptTakesItsPlace := by
  intro s tag p form hold text field h hform hhold htext hfield c good stored padded shown u current behind answer opened
  have htext' : text.length < 256 := by omega
  have hread := readPrompt_written hform hhold htext' hfield
  have hgood : good ↔ fieldOk field = true := (fieldOk_iff field).symm
  have hform0 : promptFormOf 0 = .some .replace := rfl
  have hform1 : promptFormOf 1 = .some .queue := rfl
  have hw : c.wellFormed = true := decide_eq_true (by
    have hfb : (fieldBytes field).length = 4 := by cases field <;> rfl
    simp only [List.length_append, hfb, byteString, u8, u16, List.length_cons, List.length_nil, Config.recordPayload]
    omega)
  have hpay : u8 p.val ++ u8 form ++ byteString text ++ u16 hold ++ fieldBytes field =
      BitVec.ofNat 8 p.val :: (u8 form ++ byteString text ++ u16 hold ++ fieldBytes field) := by simp [u8]
  have halone : u.alone stored = current := by
    cases hk : u.currentSlot <;> simp only [PromptUnit.alone, PromptUnit.putSlot, current, hk] <;> rfl
  have refused : ∀ st : Status, st ≠ .ok →
      doPrompt (BitVec.ofNat 8 p.val :: (u8 form ++ byteString text ++ u16 hold ++ fieldBytes field)) s.received =
        (s.received, .no st []) → exec c s = .next (s.refused .prompt tag st) := fun st hst hd =>
    exec_refused h ⟨.prompt, tag, _⟩ hw ((congrArg (doPrompt · s.received) hpay).trans hd) hst
  have placed : ∀ (k : PromptForm) (v : PromptUnit) (slot : Slot) (cur : Bool), promptFormOf form = .some k → good →
      opened → u.place k stored = .some (v, slot, cur) →
      exec c s = .next (({ s.received with pu := s.pu.set p v }).replied .prompt tag (answer slot cur)) := by
    intro k v slot cur hk hg ho hp
    have hd := doPrompt_placed (s := s.received) (p := p) hread hk (hgood.1 hg) ho hp
    have hexec := exec_of_carryOut h ⟨.prompt, tag, _⟩ hw ((congrArg (doPrompt · s.received) hpay).trans hd)
      (.inl ⟨nofun, nofun⟩)
    rw [promptAdjusted_eq] at hexec
    exact hexec
  refine ⟨fun hbad => ?_, fun hf hg hc => ?_, fun hf hg ho => ?_, fun hf hg ho hother hcur => ?_,
    fun hf hg ho hother hcur he => ?_, fun hf hg ho hother hcur he => ?_⟩
  · refine refused _ nofun ?_
    cases hk : promptFormOf form with
    | none => exact doPrompt_noForm hread hk
    | some k =>
      refine doPrompt_badField hread hk (Bool.eq_false_iff.2 fun hok => ?_)
      rcases hbad with hbad | hbad
      · exact nomatch (promptFormOf_none hbad).symm.trans hk
      · exact hbad (hgood.2 hok)
  · refine refused _ nofun ?_
    obtain rfl | rfl : form = 0 ∨ form = 1 := by omega
    · exact doPrompt_closed hread hform0 (hgood.1 hg) hc
    · exact doPrompt_closed hread hform1 (hgood.1 hg) hc
  · subst hf
    rw [← halone]
    exact placed _ _ _ _ hform0 hg ho (place_replace u stored)
  · subst hf
    rw [← halone]
    exact placed _ _ _ _ hform1 hg ho (place_queue_shows hother hcur stored)
  · subst hf
    have hp := place_queue_behind hcur he stored
    rw [hother] at hp
    have := placed _ _ _ _ hform1 hg ho hp
    cases hk : u.currentSlot with
    | a => simp only [hk, PromptUnit.putSlot, Slot.opposite] at this ⊢; simp only [behind, hk]; exact this
    | b => simp only [hk, PromptUnit.putSlot, Slot.opposite] at this ⊢; simp only [behind, hk]; exact this
  · subst hf
    refine refused _ nofun (doPrompt_full hread hform1 (hgood.1 hg) ho ?_)
    refine (place_queue_behind hcur he stored).trans ?_
    cases hother' : u.other with
    | none => exact absurd hother' hother
    | some pr => rfl

/-- Settles O39: BEEP by its value, and a due hold by what is queued behind it. -/
theorem beepAndHoldExpiryMoveThePrompt : Obligations.BeepAndHoldExpiryMoveThePrompt := by
  refine ⟨fun s tag p b h hb => ?_, fun s tag bb p h hb => ?_, fun s p pr hd ho => ?_, fun s p hd ho hopen hr => ?_,
    fun s p hd ho hopen hf => ?_, fun s p hd => ?_⟩
  · exact exec_of_carryOut h ⟨.beep, tag, u8 p.val ++ u8 b.index⟩ rfl (doBeep_set (s := s.received) hb)
      (.inl ⟨nofun, nofun⟩)
  · exact exec_refused h ⟨.beep, tag, u8 p.val ++ [bb]⟩ rfl (doBeep_badValue hb) nofun
  · rw [exec_promptHoldExpiry_due hd, holdExpires_switches ho, judgePressure_of_counts (s := s) (t := s.onPu p _) rfl rfl]
    exact congrArg (fun u => Host.Outcome.next { s with pu := s.pu.set p u }) (switch_eq ho)
  · rw [exec_promptHoldExpiry_due hd, holdExpires_ends ho]
    exact congrArg _ (admit_in_room (s := s.onPu p fun u => { u with holdTimer := .stopped, phase := .ended })
      .promptEnded hr hopen)
  · rw [exec_promptHoldExpiry_due hd, holdExpires_ends ho,
      admit_flags (s := s.onPu p fun u => { u with holdTimer := .stopped, phase := .ended }) .promptEnded hopen (.inl hf),
      judgePressure_of_counts]
    · rfl
    · rfl
    · rfl
  · simp only [exec, execPromptHoldExpiry, Timer.not_due hd, Bool.false_eq_true, if_false]

end

section
/-! SUPPORT. The status requests of the card side and the part, and the requests of the link. -/

namespace Sys2Proof.Machine

open Sys2Proof

variable {s t : State}

/-! ### Status (R92, R151, R183) -/

theorem doCardStatus_eq (p : Pos) : ∃ a, doCardStatus (u8 p.val) s = (s, .ok a) ∧
    a = (u8 (s.line.get p).state.index ++ u8 (s.line.get p).presence.index ++ u8 (causeIndex (s.line.get p).cause) ++
      yesNo (s.line.get p).powerUnknown ++ u32 (s.line.get p).settings.rate ++ u16 (s.line.get p).settings.timeout ++
      lineSettingsField (s.line.get p).pending ++ u8 (s.line.get p).misses ++ u8 (s.line.get p).checkFails ++
      u16 (s.line.get p).checkErrors ++ u16 (s.line.get p).lateFrames ++ u16 (s.line.get p).faults ++
      u8 (s.line.get p).changes ++ exchangeField (s.xs.get p)) := by
  refine ⟨_, ?_, rfl⟩
  simp only [doCardStatus, u8, below_pos]

theorem ExchangePhase.index_eq (ph : ExchangePhase) : ph.index = if ph = .awaiting then 0 else 1 := by
  cases ph with
  | awaiting => rfl
  | held o d => exact (if_neg nofun).symm

theorem exchangeField_eq (x : Option Exchange) : exchangeField x = match x with
    | none => [0, 0, 0, 0, 0, 0, 0]
    | some x => 1 :: (u8 x.kind.index ++ [x.tag] ++
        u8 (if x.phase = .awaiting then 0 else 1) ++ yesNo x.repeatUsed ++ optU16 x.timer.remaining) := by
  cases x with
  | none => rfl
  | some x =>
    simp only [exchangeField, ExchangePhase.index_eq]
    rfl

/-- The serial's bytes, the most significant first. -/
theorem serialBytes_eq : serialBytes = (List.range 8).map fun i => Config.serial.extractLsb' (8 * (7 - i)) 8 := by
  simp [serialBytes, List.range, List.range.loop, BitVec.setWidth_ushiftRight_eq_extractLsb]

theorem doIdentify_nil : doIdentify [] s = (s, .ok (byteString partName ++ u8 Config.siliconRevision ++
    u8 (linkModeIndex s.link.mode) ++ u32 s.link.rate ++ byteString serialBytes)) := rfl

theorem doCounterStatus_nil : ∃ a, doCounterStatus [] s = (s, .ok a) ∧
    a = (u8 s.intake.occupied ++ u8 s.intake.reserved ++ u8 s.intake.pressure.index ++ u8 s.intake.flagCount ++
      attentionFields s ++ u8 s.oq.replies ++ u8 s.oq.notices ++ u8 s.oq.reservation ++
      u8 (owedCount s .result) ++ u8 (owedCount s .expired) ++ u8 (owedCount s .card) ++ u8 (owedCount s .keypad) ++
      yesNo (isOwed s .pressure) ++ bankField s.tables.openBank ++ s.tables.frozen.toList.flatMap yesNo ++
      u16 s.link.errors ++ yesNo s.link.armed) := ⟨_, rfl, rfl⟩

/-- What is owed is nothing of the link's. -/
theorem owedCount_received (s : State) (k : Pos → OwedKey) : owedCount s.received k = owedCount s k :=
  congrArg (fun f => allPositions.countP f)
    (funext fun p => isOwed_congr (t := s.received) (s := s) rfl rfl rfl rfl rfl (k p))

/-! ### The link (R180, R181) -/

theorem doLinkRate_uart {rate : Nat} (hm : s.link.mode = .uart) (hr : rate ∈ uartRates) :
    doLinkRate (u32 rate) s = (s.onLink fun l => { l with pendingRate := .some rate }, .ok []) := by
  have hlt : rate < 4294967296 := by
    simp only [uartRates, List.mem_cons, List.not_mem_nil, or_false] at hr
    omega
  simp only [doLinkRate, u32, hm, be32_bytes hlt, hr, not_true, if_false]

theorem doLinkRate_badValue {rate : Nat} (hm : s.link.mode = .uart) (hr : rate ∉ uartRates) (hlt : rate < 4294967296) :
    doLinkRate (u32 rate) s = (s, .no .badValue []) := by
  simp only [doLinkRate, u32, hm, be32_bytes hlt, hr, not_false_eq_true, if_true]

theorem doLinkRate_usb {rate : Nat} (hm : s.link.mode = .usb) :
    doLinkRate (u32 rate) s = (s, .no .wrongState []) := by
  simp only [doLinkRate, u32, hm]

theorem armedAfter_of_ne {k : ReqKind} (a : Answer) (h : k ≠ .resetArm) : armedAfter k a = false :=
  decide_eq_false fun hk => h hk.1

end Sys2Proof.Machine

open Sys2Proof Sys2Proof.Machine

/-- Settles O50: each status request answers its fields and leaves the state. -/
theorem statusRequestsOfTheCardSideAndThePart : Obligations.StatusRequestsOfTheCardSideAndThePart := by
  refine ⟨fun s tag p h => ?_, fun s tag h => ?_, fun s tag h => ?_⟩
  · obtain ⟨a, ha, rfl⟩ := doCardStatus_eq (s := s.received) p
    have hexec := exec_of_carryOut h ⟨.cardStatus, tag, u8 p.val⟩ rfl ha (.inl ⟨nofun, nofun⟩)
    rw [exchangeField_eq] at hexec
    exact hexec
  · refine (exec_of_carryOut h ⟨.identify, tag, []⟩ rfl (doIdentify_nil (s := s.received)) (.inl ⟨nofun, nofun⟩)).trans ?_
    rw [serialBytes_eq]
    rfl
  · obtain ⟨a, ha, rfl⟩ := doCounterStatus_nil (s := s.received)
    have hexec := exec_of_carryOut h ⟨.counterStatus, tag, []⟩ rfl ha (.inl ⟨nofun, nofun⟩)
    rw [bankField_eq, owedCount_received, owedCount_received, owedCount_received, owedCount_received,
      isOwed_pressure] at hexec
    exact hexec

/-- Settles O51: LINK_RATE by mode and value, and armed as each acceptance leaves it. -/
theorem linkRateAndArming : Obligations.LinkRateAndArming := by
  refine ⟨fun s tag rate h hm hr => ?_, fun s tag rate h hm hr hlt => ?_, fun s tag rate h hm => ?_, fun s tag h => ?_,
    fun s t r h hw ht hk => ?_, fun s tag x rest h hlen => ⟨?_, ?_⟩, fun s tag h ha => ?_⟩
  · exact exec_of_carryOut h ⟨.linkRate, tag, u32 rate⟩ rfl (doLinkRate_uart (s := s.received) hm hr)
      (.inl ⟨nofun, nofun⟩)
  · exact exec_refused h ⟨.linkRate, tag, u32 rate⟩ rfl (doLinkRate_badValue (s := s.received) hm hr hlt) nofun
  · exact exec_refused h ⟨.linkRate, tag, u32 rate⟩ rfl (doLinkRate_usb (s := s.received) hm) nofun
  · exact exec_of_takes h ⟨.resetArm, tag, []⟩ rfl
  · rw [exec_of_takes h r hw] at ht
    rw [← Host.Outcome.next.inj ht, accept_link]
    exact armedAfter_of_ne _ hk
  · exact exec_refused h ⟨.counterReset, tag, x :: rest⟩
      (decide_eq_true (by simp only [List.length_cons, Config.recordPayload]; omega)) rfl nofun
  · exact exec_refused h ⟨.resetArm, tag, x :: rest⟩
      (decide_eq_true (by simp only [List.length_cons, Config.recordPayload]; omega)) rfl nofun
  · refine exec_refused h ⟨.counterReset, tag, []⟩ rfl ?_ nofun
    have ha' : s.received.link.armed = false := ha
    simp only [carryOut, doCounterReset, ha', Bool.false_eq_true, if_false]

end

section
/-! SUPPORT. A visit of an address, and the visits of a round, row by row of the polling table (R22 to R28). -/

namespace Sys2Proof.Machine

open Sys2Proof

variable {s t : State} {g : Group}

@[simp] theorem Quad.modify_modify_same {α : Type} (q : Quad α) (i : Fin 4) (f h : α → α) :
    (q.modify i f).modify i h = q.modify i fun x => h (f x) := by
  simp [Quad.modify]

/-! ### What a visit decides -/

/-- The decision that R23 makes at a visit, on the address with its quiet counter risen. -/
def State.decision (s : State) (g : Group) (a : Addr) : PollDecision :=
  whomToPoll s.intake.pressure (s.collecting (posAt g a)) (!s.isOpen (posAt g a)) (s.bus.get g).roundCounter
    (s.bus.get g).settings.thinning
    { (s.bus.get g).addrs.get a with quiet := min 8 (((s.bus.get g).addrs.get a).quiet + 1) }

/-- R23's first row: HIGH pressure and no entry to collect. -/
abbrev State.rowPressure (s : State) (p : Pos) : Prop := s.intake.pressure = .high ∧ s.collecting p = false

/-- R23's second row: a CLOSED position or a keypad not ONLINE. -/
abbrev State.rowAbsent (s : State) (g : Group) (a : Addr) : Prop :=
  (s.pos.get (posAt g a)).state = .closed ∨ ((s.bus.get g).addrs.get a).presence ≠ .online

theorem not_isOpen_eq (s : State) (p : Pos) : (!s.isOpen p) = true ↔ (s.pos.get p).state = .closed := by
  rw [Bool.not_eq_true', ← Bool.not_eq_true, not_isOpen_iff]

theorem decision_pressure {a : Addr} (h : s.rowPressure (posAt g a)) : s.decision g a = .skip := if_pos h

theorem decision_absent {a : Addr} (h1 : ¬ s.rowPressure (posAt g a)) (h2 : s.rowAbsent g a) :
    s.decision g a = if (s.bus.get g).roundCounter.toNat % 16 = 0 then .poll else .skip := by
  refine (if_neg h1).trans (if_pos ?_)
  rwa [not_isOpen_eq]

theorem decision_present {a : Addr} (h1 : ¬ s.rowPressure (posAt g a)) (h2 : ¬ s.rowAbsent g a) :
    s.decision g a =
      if s.collecting (posAt g a) = true ∨ ((s.bus.get g).addrs.get a).quiet < 7 ∨
        (s.bus.get g).settings.thinning ≤ ((s.bus.get g).addrs.get a).thinning then .poll else .skipThinning := by
  have h2' : ¬ ((!s.isOpen (posAt g a)) = true ∨ ((s.bus.get g).addrs.get a).presence ≠ .online) := by
    rwa [not_isOpen_eq]
  unfold State.decision whomToPoll
  rw [if_neg h1, if_neg h2']
  by_cases hc : s.collecting (posAt g a) = true
  · rw [if_pos hc, if_pos (.inl hc)]
  · rw [if_neg hc]
    by_cases hq : ((s.bus.get g).addrs.get a).quiet < 7
    · rw [if_pos (by simp only []; omega), if_pos (.inr (.inl hq))]
    · rw [if_neg (by simp only []; omega)]
      by_cases ht : (s.bus.get g).settings.thinning ≤ ((s.bus.get g).addrs.get a).thinning
      · rw [if_pos ht, if_pos (.inr (.inr ht))]
      · rw [if_neg ht, if_neg (by tauto)]

/-- A collecting position's ONLINE keypad is polled (R23). -/
theorem decision_collecting {a : Addr} (hc : s.collecting (posAt g a) = true)
    (hp : ((s.bus.get g).addrs.get a).presence = .online) : s.decision g a = .poll := by
  have hopen : (s.pos.get (posAt g a)).state = .opened := by
    simp only [State.collecting, Bool.and_eq_true] at hc
    exact isOpen_iff.1 hc.1
  rw [decision_present (by rintro ⟨_, h⟩; exact nomatch h.symm.trans hc) (by
    rintro (h | h)
    · exact nomatch h.symm.trans hopen
    · exact h hp), if_pos (.inl hc)]

/-! ### What a visit does -/

/-- The quiet counter of a visited address (R24). -/
def AddrState.risen (d : AddrState) : AddrState := { d with quiet := min 8 (d.quiet + 1) }

theorem visit_skips {a : Addr} (h : s.decision g a = .skip) : visit g a s = s.onAddr g a AddrState.risen := by
  have hw : whomToPoll s.intake.pressure (s.collecting (posAt g a)) (!s.isOpen (posAt g a)) (s.bus.get g).roundCounter
      (s.bus.get g).settings.thinning ((s.bus.get g).addrs.get a).risen = .skip := h
  unfold visit
  simp only [State.onAddr, State.onBus_bus, Quad.get_modify_same]
  exact (by
    split
    · rfl
    · next hd => exact nomatch (hd.symm.trans hw)
    · next hd => exact nomatch (hd.symm.trans hw))

theorem visit_thins {a : Addr} (h : s.decision g a = .skipThinning) :
    visit g a s = s.onAddr g a fun d => { d.risen with thinning := min 15 (d.thinning + 1) } := by
  have hw : whomToPoll s.intake.pressure (s.collecting (posAt g a)) (!s.isOpen (posAt g a)) (s.bus.get g).roundCounter
      (s.bus.get g).settings.thinning ((s.bus.get g).addrs.get a).risen = .skipThinning := h
  unfold visit
  simp only [State.onAddr, State.onBus_bus, Quad.get_modify_same]
  split
  · next hd => exact nomatch (hd.symm.trans hw)
  · simp only [State.onBus, Quad.modify_modify_same]
    rfl
  · next hd => exact nomatch (hd.symm.trans hw)

/-- The poll that a visit sends (R28). -/
def State.pollSent (s : State) (g : Group) (a : Addr) : Poll :=
  { addr := a, taken := ((s.bus.get g).addrs.get a).lastSeq.getD true, beep := (s.pu.get (posAt g a)).beep,
    carried := if (s.pu.get (posAt g a)).dirty then
      .some ((s.pu.get (posAt g a)).number, (s.pu.get (posAt g a)).content) else .none,
    reserved := 5, rate := (s.bus.get g).settings.rate, window := (s.bus.get g).settings.window, phase := .sending,
    disowned := false }

/-- The state after a visit that sends a poll (R25, R27, R28). -/
def State.polled (s : State) (g : Group) (a : Addr) : State :=
  { s with
    bus := s.bus.modify g fun b =>
      { b with
        addrs := b.addrs.modify a fun d => { d with quiet := min 8 (d.quiet + 1), thinning := 0 }
        poll := .some (s.pollSent g a) }
    pu := s.pu.modify (posAt g a) fun u => { u with beep := .none }
    intake := { s.intake with reserved := s.intake.reserved + 5 } }

theorem visit_polls {a : Addr} (h : s.decision g a = .poll) :
    visit g a s = if 5 + s.intake.flagCount ≤ s.intake.free then s.polled g a else s.onAddr g a AddrState.risen := by
  have hw : whomToPoll s.intake.pressure (s.collecting (posAt g a)) (!s.isOpen (posAt g a)) (s.bus.get g).roundCounter
      (s.bus.get g).settings.thinning ((s.bus.get g).addrs.get a).risen = .poll := h
  have hsend : sendPoll g a (s.onAddr g a AddrState.risen) = s.polled g a := by
    simp only [sendPoll, newPoll, State.onAddr, State.onBus, State.onPu, State.onIntake, Quad.modify_modify_same,
      Quad.get_modify_same]
    rfl
  have hadm : admitsPoll (s.onAddr g a AddrState.risen).intake = true ↔ 5 + s.intake.flagCount ≤ s.intake.free :=
    decide_eq_true_iff
  have hv : visit g a s = if admitsPoll (s.onAddr g a AddrState.risen).intake then
      sendPoll g a (s.onAddr g a AddrState.risen) else s.onAddr g a AddrState.risen := by
    unfold visit
    simp only [State.onAddr, State.onBus_bus, Quad.get_modify_same]
    exact (by
      split
      · next hd => exact nomatch (hd.symm.trans hw)
      · next hd => exact nomatch (hd.symm.trans hw)
      · rfl)
  rw [hv, hsend]
  by_cases ha : 5 + s.intake.flagCount ≤ s.intake.free
  · rw [if_pos ha, if_pos (hadm.2 ha)]
  · rw [if_neg ha, if_neg fun h => ha (hadm.1 h)]

end Sys2Proof.Machine

open Sys2Proof Sys2Proof.Machine

/-- Settles O16: the decision of each row, and what the visit makes of it. -/
theorem visitFollowsThePollingTable : Obligations.VisitFollowsThePollingTable := by
  intro s g a b d p row1 row2 skipped
  refine ⟨fun h1 => ?_, fun h1 h2 hn => ?_, fun h1 h2 hc hq ht => ?_, fun h1 h2 => ?_⟩
  · exact visit_skips (decision_pressure h1)
  · exact visit_skips ((decision_absent h1 h2).trans (if_neg hn))
  · refine visit_thins ((decision_present h1 h2).trans (if_neg ?_))
    rintro (h | h | h)
    · exact nomatch h.symm.trans hc
    · exact absurd h (Nat.not_lt.2 hq)
    · exact absurd h (Nat.not_le.2 ht)
  · have hpoll : s.decision g a = .poll := by
      rcases h2 with ⟨h2, hn⟩ | ⟨h2, h3⟩
      · exact (decision_absent h1 h2).trans (if_pos hn)
      · exact (decision_present h1 h2).trans (if_pos h3)
    refine ⟨fun hf => ?_, fun hf => ?_⟩
    · exact (visit_polls hpoll).trans (if_neg (Nat.not_le.2 hf))
    · exact (visit_polls hpoll).trans (if_pos hf)

end

section
/-! SUPPORT. The end of a poll, block by block: a miss (R31, R38) and a valid reply (R30, R32 to R39). -/

namespace Sys2Proof.Machine

open Sys2Proof

variable {s t u w : State} {g : Group} {q : Poll}

/-- Two updates that agree on the thing updated are one. -/
theorem Quad.modify_congr {α : Type} (l : Quad α) (i : Fin 4) {f h : α → α} (hf : f (l.get i) = h (l.get i)) :
    l.modify i f = l.modify i h := by
  rw [Quad.modify, Quad.modify, hf]

theorem PerPos.modify_congr {α : Type} (l : PerPos α) (p : Pos) {f h : α → α} (hf : f (l.get p) = h (l.get p)) :
    l.modify p f = l.modify p h := by
  rw [PerPos.modify, PerPos.modify, hf]

/-! ### Admission at the IF -/

/-- Synthetic admission as a change of the IF (R48). -/
def Intake.admitCode (p : Pos) (k : Synth) (st : PosState) (f : Intake) : Intake :=
  match st with
  | .closed => f
  | .opened =>
    if (f.flags.get p).get k then f
    else if 1 ≤ f.free then f.enter p k.code .synthetic
    else f.putFlag p k true

theorem admitSynth_intake (p : Pos) (k : Synth) (s : State) :
    (admitSynth p k s).intake = s.intake.admitCode p k (s.pos.get p).state := by
  unfold admitSynth Intake.admitCode
  cases (s.pos.get p).state with
  | closed => rfl
  | opened =>
    dsimp only
    split
    · rfl
    · split <;> rfl

@[simp] theorem Intake.admitCode_pressure (p : Pos) (k : Synth) (st : PosState) (f : Intake) :
    (f.admitCode p k st).pressure = f.pressure := by
  unfold Intake.admitCode
  cases st with
  | closed => rfl
  | opened =>
    dsimp only
    split
    · rfl
    · split <;> rfl

/-- With no flag set and a place free, the code of an OPEN position enters. -/
theorem Intake.admitCode_free {f : Intake} (p : Pos) (k : Synth) (st : PosState) (h : f.flagCount = 0) (hf : 1 ≤ f.free) :
    f.admitCode p k st = if st = .opened then f.enter p k.code .synthetic else f := by
  have hclear := (Intake.flagCount_eq_zero_iff f).1 h p k
  cases st with
  | closed => rfl
  | opened => simp only [Intake.admitCode, hclear, Bool.false_eq_true, if_false, hf, if_true]

@[simp] theorem Intake.enter_flagCount (f : Intake) (p : Pos) (c : Code) (o : Origin) :
    (f.enter p c o).flagCount = f.flagCount := Intake.flagCount_congr rfl

theorem Intake.release_pressure (f : Intake) (n : Nat) : (f.release n).pressure = f.pressure :=
  (Intake.serveFlags_served _).pressure

theorem Intake.serveOwn_pressure (p : Pos) (l : List Synth) (n : Nat) (f : Intake) :
    (f.serveOwn p l n).pressure = f.pressure := by
  induction l generalizing n f with
  | nil => cases n <;> rfl
  | cons k rest ih =>
    cases n with
    | zero => rfl
    | succ n =>
      rw [Intake.serveOwn]
      split
      · exact (ih n _).trans rfl
      · exact ih (n + 1) f

theorem Intake.enterBatch_pressure (f : Intake) (p : Pos) (codes : List Code) (n : Nat) :
    (f.enterBatch p codes n).pressure = f.pressure :=
  (Intake.serveFlags_served _).pressure.trans (Intake.serveOwn_pressure p _ _ _)

/-! ### What the end of a poll leaves of its bus -/

/-- The bus with its poll ended and the address polled changed by `f`. -/
def Bus.pollEnded (a : Addr) (f : AddrState → AddrState) (b : Bus) : Bus :=
  { b with poll := .none, windowTimer := .stopped, addrs := b.addrs.modify a f }

/-- Nothing of the poll in flight is left. -/
theorem Bus.pollEnded_loadWindow (a : Addr) (f : AddrState → AddrState) (x : Poll) (b : Bus) :
    (b.loadWindow x).pollEnded a f = b.pollEnded a f := rfl

/-! ### A miss (R31, R38) -/

/-- Whether a miss takes an ONLINE keypad OFFLINE: the third in a row (R38). -/
abbrev AddrState.lostByMiss (d : AddrState) : Prop := d.presence = .online ∧ 2 ≤ d.misses

/-- The address after a miss. -/
def AddrState.missed (d : AddrState) : AddrState :=
  if d.lostByMiss then { d with misses := min 3 (d.misses + 1), presence := .offline, lastSeq := .none, alarm := false }
  else { d with misses := min 3 (d.misses + 1) }

/-- The state with a miss counted, before the poll ends. -/
def State.missCounted (s : State) (g : Group) (q : Poll) (checkFailed : Bool) : State :=
  (s.onPos (posAt g q.addr) fun r =>
      { r with misses := sat16 r.misses, checkErrors := if checkFailed then sat16 r.checkErrors else r.checkErrors }).onAddr
    g q.addr fun d => { d with misses := min 3 (d.misses + 1) }

theorem lost_eq (d : AddrState) :
    decide (d.presence = .online ∧ min 3 (d.misses + 1) = 3) = decide d.lostByMiss := by
  rw [decide_eq_decide]
  have : min 3 (d.misses + 1) = 3 ↔ 2 ≤ d.misses := by omega
  rw [this]

theorem missPoll_lost (c : Bool) (h : ((s.bus.get g).addrs.get q.addr).lostByMiss) :
    missPoll g q c s = admitSynth (posAt g q.addr) .keypadLost
      (((postKeypadState (posAt g q.addr) .offline ((s.missCounted g q c).onAddr g q.addr AddrState.goOffline)).onIntake
        fun f => f.release q.reserved).onBus g Bus.endPoll) := by
  have hl : decide ((((s.missCounted g q c).bus.get g).addrs.get q.addr).presence = .online ∧
      (((s.missCounted g q c).bus.get g).addrs.get q.addr).misses = 3) = true := by
    simp only [State.missCounted, State.onAddr, State.onBus_bus, Quad.get_modify_same, State.onPos_bus]
    rw [lost_eq]
    exact decide_eq_true h
  unfold missPoll
  change (if decide ((((s.missCounted g q c).bus.get g).addrs.get q.addr).presence = .online ∧
      (((s.missCounted g q c).bus.get g).addrs.get q.addr).misses = 3) = true then _ else _) = _
  rw [if_pos hl]
  change admitSynth _ _ ((State.onIntake _ (if decide ((((s.missCounted g q c).bus.get g).addrs.get q.addr).presence = .online ∧
      (((s.missCounted g q c).bus.get g).addrs.get q.addr).misses = 3) = true then _ else _)).onBus _ _) = _
  rw [if_pos hl]
  rfl

theorem missPoll_kept (c : Bool) (h : ¬ ((s.bus.get g).addrs.get q.addr).lostByMiss) :
    missPoll g q c s = ((s.missCounted g q c).onIntake fun f => f.release q.reserved).onBus g Bus.endPoll := by
  have hl : ¬ decide ((((s.missCounted g q c).bus.get g).addrs.get q.addr).presence = .online ∧
      (((s.missCounted g q c).bus.get g).addrs.get q.addr).misses = 3) = true := by
    simp only [State.missCounted, State.onAddr, State.onBus_bus, Quad.get_modify_same, State.onPos_bus]
    rw [lost_eq]
    simpa using h
  unfold missPoll
  change (if decide ((((s.missCounted g q c).bus.get g).addrs.get q.addr).presence = .online ∧
      (((s.missCounted g q c).bus.get g).addrs.get q.addr).misses = 3) = true then _ else _) = _
  rw [if_neg hl]
  change (State.onIntake _ (if decide ((((s.missCounted g q c).bus.get g).addrs.get q.addr).presence = .online ∧
      (((s.missCounted g q c).bus.get g).addrs.get q.addr).misses = 3) = true then _ else _)).onBus _ _ = _
  rw [if_neg hl]
  rfl

/-- What every end of a poll that holds `n` places leaves: the blocks it does not reach, and those of the other buses and positions. -/
structure PollEnd (g : Group) (a : Addr) (n : Nat) (s w : State) : Prop where
  pending : w.pending = s.pending
  timeCount : w.timeCount = s.timeCount
  link : w.link = s.link
  tables : w.tables = s.tables
  attn : w.attn = s.attn
  bus : ∃ f, w.bus = s.bus.modify g (Bus.pollEnded a f)
  state : ∀ p, (w.pos.get p).state = (s.pos.get p).state
  collecting : ∀ p, w.collecting p = s.collecting p
  pu : ∀ p, p ≠ posAt g a → w.pu.get p = s.pu.get p
  pressure : w.intake.pressure = s.intake.pressure
  room : s.intake.flagCount = 0 → n = 5 → 5 ≤ s.intake.reserved → 6 ≤ s.intake.free →
    w.intake.flagCount = 0 ∧ w.intake.reserved + 5 = s.intake.reserved ∧ 5 ≤ w.intake.free

section Miss

variable (g q) (c : Bool) (s)

theorem missPoll_bus : (missPoll g q c s).bus = s.bus.modify g (Bus.pollEnded q.addr AddrState.missed) := by
  by_cases h : ((s.bus.get g).addrs.get q.addr).lostByMiss
  · rw [missPoll_lost c h, admitSynth_bus, State.onBus_bus, State.onIntake_bus, postKeypadState_bus]
    simp only [State.missCounted, State.onAddr, State.onBus_bus, State.onPos_bus, Quad.modify_modify_same]
    refine Quad.modify_congr _ _ ?_
    simp only [Bus.pollEnded, Bus.endPoll]
    rw [Quad.modify_congr _ _ (h := AddrState.missed) (by rw [AddrState.missed, if_pos h]; rfl)]
  · rw [missPoll_kept c h]
    simp only [State.missCounted, State.onAddr, State.onBus_bus, State.onPos_bus, State.onIntake_bus,
      Quad.modify_modify_same]
    refine Quad.modify_congr _ _ ?_
    simp only [Bus.pollEnded, Bus.endPoll]
    rw [Quad.modify_congr _ _ (h := AddrState.missed) (by rw [AddrState.missed, if_neg h])]

/-- Every block that a miss changes by the record of its position alone. -/
theorem missPoll_frame : (missPoll g q c s).pos = (s.missCounted g q c).pos ∧ (missPoll g q c s).entry = s.entry ∧
    (missPoll g q c s).pu = s.pu ∧ (missPoll g q c s).tables = s.tables ∧ (missPoll g q c s).attn = s.attn ∧
    (missPoll g q c s).link = s.link ∧ (missPoll g q c s).timeCount = s.timeCount ∧
    (missPoll g q c s).pending = s.pending := by
  by_cases h : ((s.bus.get g).addrs.get q.addr).lostByMiss
  · rw [missPoll_lost c h]
    refine ⟨?_, ?_, ?_, ?_, ?_, ?_, ?_, ?_⟩
    · rw [admitSynth_pos, State.onBus_pos, State.onIntake_pos, postKeypadState_pos]; rfl
    · rw [admitSynth_entry, State.onBus_entry, State.onIntake_entry, postKeypadState_entry]; rfl
    · rw [admitSynth_pu, State.onBus_pu, State.onIntake_pu, postKeypadState_pu]; rfl
    · rw [admitSynth_tables, State.onBus_tables, State.onIntake_tables, postKeypadState_tables]; rfl
    · rw [admitSynth_attn, State.onBus_attn, State.onIntake_attn, postKeypadState_attn]; rfl
    · rw [admitSynth_link, State.onBus_link, State.onIntake_link, postKeypadState_link]; rfl
    · rw [admitSynth_timeCount, State.onBus_timeCount, State.onIntake_timeCount, postKeypadState_timeCount]; rfl
    · rw [admitSynth_pending, State.onBus_pending, State.onIntake_pending, postKeypadState_pending]; rfl
  · rw [missPoll_kept c h]
    exact ⟨rfl, rfl, rfl, rfl, rfl, rfl, rfl, rfl⟩

theorem missCounted_state (p : Pos) : ((s.missCounted g q c).pos.get p).state = (s.pos.get p).state := by
  simp only [State.missCounted, State.onAddr, State.onBus_pos, State.onPos_pos, PerPos.get_modify]
  split <;> rfl

theorem missCounted_intake : (s.missCounted g q c).intake = s.intake := rfl

theorem missPoll_intake : (missPoll g q c s).intake =
    if ((s.bus.get g).addrs.get q.addr).lostByMiss then
      (s.intake.release q.reserved).admitCode (posAt g q.addr) .keypadLost (s.pos.get (posAt g q.addr)).state
    else s.intake.release q.reserved := by
  by_cases h : ((s.bus.get g).addrs.get q.addr).lostByMiss
  · rw [missPoll_lost c h, if_pos h, admitSynth_intake, State.onBus_intake, State.onIntake_intake, postKeypadState_intake,
      State.onBus_pos, State.onIntake_pos, postKeypadState_pos]
    simp only [State.onAddr, State.onBus_intake, State.onBus_pos, missCounted_intake, missCounted_state]
  · rw [missPoll_kept c h, if_neg h, State.onBus_intake, State.onIntake_intake, missCounted_intake]

end Miss

end Sys2Proof.Machine
end

section
/-! SUPPORT. A valid reply, block by block (R30, R32 to R39). -/

namespace Sys2Proof.Machine

open Sys2Proof

variable {s t u w : State} {g : Group} {q : Poll}

/-- The KEYPAD_STATE of a change of presence goes straight to the queue when nothing is owed and a slot is free (R39). -/
theorem postKeypadState_free (p : Pos) (pr : Presence) (h : anyOwed s = false) (hf : 0 < s.oq.freeSlots) :
    postKeypadState p pr s = s.enqueue (.notice (.keypadState p pr)) := by
  have hnone : s.oq.keypads.get p = .none := ((anyOwed_false_iff s).1 h).2.2.2.1 p
  have ht : takeOwed (.keypad p) (s.onOq fun q => { q with keypads := q.keypads.set p (.some pr) }) =
      .some (.keypadState p pr, s) := by
    simp only [takeOwed, State.onOq_oq, PerPos.get_set_same]
    simp only [State.onOq, PerPos.set_set_none _ _ _ hnone]
  rw [postKeypadState]
  refine serveOwed_only ht (fun j hj => ?_) hf
  have hj' := isOwed_of_anyOwed h j
  cases j with
  | result r => rw [isOwed_result] at hj' ⊢; exact hj'
  | expired r => rw [isOwed_expired] at hj' ⊢; exact hj'
  | card r => rw [isOwed_card] at hj' ⊢; exact hj'
  | keypad r =>
    have hr : r ≠ p := fun e => hj (by rw [e])
    rw [isOwed_keypad] at hj' ⊢
    rw [State.onOq_oq, PerPos.get_set_ne _ _ hr]
    exact hj'
  | pressure => rw [isOwed_pressure] at hj' ⊢; exact hj'

/-- With the queue as a reader sees it: the post's notice at the tail. -/
theorem postKeypadState_queue (p : Pos) (pr : Presence) (h : s.slotsFree 1) :
    (postKeypadState p pr s).oq.queue = s.oq.queue ++ [.notice (.keypadState p pr)] := by
  rw [postKeypadState_free p pr h.1 h.2, enqueue_oq]

theorem slotsFree_congr {n : Nat} (ho : t.oq = s.oq) (hx : t.xs = s.xs) (h : s.slotsFree n) : t.slotsFree n := by
  obtain ⟨ha, hf⟩ := h
  exact ⟨anyOwed_false_congr s t hx (by rw [ho]) (by rw [ho]) (by rw [ho]) (by rw [ho]) ha, by rw [ho]; exact hf⟩

theorem missPoll_queue (c : Bool) (h : s.slotsFree 1) : (missPoll g q c s).oq.queue = s.oq.queue ++
    if ((s.bus.get g).addrs.get q.addr).lostByMiss then [.notice (.keypadState (posAt g q.addr) .offline)] else [] := by
  by_cases hl : ((s.bus.get g).addrs.get q.addr).lostByMiss
  · rw [missPoll_lost c hl, if_pos hl, admitSynth_oq, State.onBus_oq, State.onIntake_oq]
    exact postKeypadState_queue _ _ (slotsFree_congr (s := s) rfl rfl h)
  · rw [missPoll_kept c hl, if_neg hl, List.append_nil]
    rfl

/-! ### The stages of a valid reply (R37) -/

/-- R32's judgement of a reply to the poll of an address. -/
abbrev AddrState.judges (d : AddrState) (r : Reply) : BatchJudgement := judgeBatch r d.lastSeq

/-- Steps 1 and 2 of R37: the misses clear, and an UNHEARD or OFFLINE keypad comes ONLINE. -/
def State.keypadHeard (s : State) (g : Group) (a : Addr) : State :=
  if ((s.bus.get g).addrs.get a).presence ≠ .online then
    postKeypadState (posAt g a) .online
      ((s.onAddr g a fun d => { d with misses := 0 }).onAddr g a fun d => { d with presence := .online })
  else s.onAddr g a fun d => { d with misses := 0 }

/-- Steps 1 to 5 of R37: with the keypad heard, the batch is judged and taken, and the poll ends. -/
def State.batchTaken (s : State) (g : Group) (q : Poll) (r : Reply) : State :=
  takeBatch g q r (((s.bus.get g).addrs.get q.addr).judges r)
    (noteBatch g q.addr r (((s.bus.get g).addrs.get q.addr).judges r) (s.keypadHeard g q.addr))

/-- Steps 1 to 6 of R37: with KEYPAD_BACK behind the batch. -/
def State.keypadReturned (s : State) (g : Group) (q : Poll) (r : Reply) : State :=
  if ((s.bus.get g).addrs.get q.addr).presence ≠ .online then
    admitSynth (posAt g q.addr) .keypadBack (s.batchTaken g q r)
  else s.batchTaken g q r

theorem keypadHeard_bus (s : State) (g : Group) (a : Addr) : (s.keypadHeard g a).bus =
    s.bus.modify g fun b => { b with addrs := b.addrs.modify a fun d => { d with misses := 0, presence := .online } } := by
  unfold State.keypadHeard
  split
  · rw [postKeypadState_bus]
    simp only [State.onAddr, State.onBus_bus, Quad.modify_modify_same]
  · next h =>
    simp only [State.onAddr, State.onBus_bus]
    refine Quad.modify_congr _ _ ?_
    rw [Quad.modify_congr (h := fun d => { d with misses := 0, presence := .online })]
    simp only [not_not.1 h]

theorem validReply_eq (r : Reply) : validReply g q r s =
    noteDisplay (posAt g q.addr) q r.applied (noteAlarm g q.addr r.alarm (s.keypadReturned g q r)) := by
  have hseq : (((s.keypadHeard g q.addr).bus.get g).addrs.get q.addr).lastSeq =
      ((s.bus.get g).addrs.get q.addr).lastSeq := by
    simp [keypadHeard_bus]
  have hheard : (if decide (((s.bus.get g).addrs.get q.addr).presence ≠ .online) = true then
      postKeypadState (posAt g q.addr) .online
        ((s.onAddr g q.addr fun d => { d with misses := 0 }).onAddr g q.addr fun d => { d with presence := .online })
      else s.onAddr g q.addr fun d => { d with misses := 0 }) = s.keypadHeard g q.addr := by
    simp only [decide_eq_true_eq, State.keypadHeard]
  unfold validReply
  simp only [hheard, hseq]
  simp only [State.keypadReturned, State.batchTaken, AddrState.judges, decide_eq_true_eq]

theorem noteBatch_bus (g : Group) (a : Addr) (r : Reply) (j : BatchJudgement) (s : State) : (noteBatch g a r j s).bus =
    s.bus.modify g fun b => { b with addrs := b.addrs.modify a fun d =>
      if j = .accepted then { d with lastSeq := .some r.seq, quiet := 0 } else d } := by
  have hid : ∀ b : Bus, ({ b with addrs := b.addrs.modify a fun d => d } : Bus) = b := fun b => by
    simp [Quad.modify]
  cases j with
  | accepted => rfl
  | resend | empty =>
    simp only [noteBatch, reduceCtorEq, if_false, hid, State.onPos_bus]
    exact (Quad.set_get_same _ _).symm

theorem takeBatch_bus (g : Group) (q : Poll) (r : Reply) (j : BatchJudgement) (s : State) :
    (takeBatch g q r j s).bus = s.bus.modify g Bus.endPoll := by
  unfold takeBatch
  dsimp only
  rw [State.onBus_bus]
  split
  · rw [(foldl_countKey _ _ _).2, State.onIntake_bus]
  · rw [State.onIntake_bus]

theorem takeBatch_intake (g : Group) (q : Poll) (r : Reply) (j : BatchJudgement) (s : State) :
    (takeBatch g q r j s).intake = if s.isOpen (posAt g q.addr) = true ∧ j = .accepted then
      s.intake.enterBatch (posAt g q.addr) r.keys q.reserved else s.intake.release q.reserved := by
  unfold takeBatch
  dsimp only
  rw [State.onBus_intake]
  split
  · rw [(foldl_countKey _ _ _).1, State.onIntake_intake]
  · rw [State.onIntake_intake]

theorem noteAlarm_bus (g : Group) (a : Addr) (alarm : Bool) (s : State) : (noteAlarm g a alarm s).bus =
    s.bus.modify g fun b => { b with addrs := b.addrs.modify a fun d => { d with alarm := alarm } } := by
  unfold noteAlarm
  dsimp only
  split
  · rw [admitSynth_bus]; rfl
  · rfl

theorem noteAlarm_intake (g : Group) (a : Addr) (alarm : Bool) (s : State) : (noteAlarm g a alarm s).intake =
    if alarm = true ∧ ((s.bus.get g).addrs.get a).alarm = false then
      s.intake.admitCode (posAt g a) .keypadAlarm (s.pos.get (posAt g a)).state else s.intake := by
  unfold noteAlarm
  dsimp only
  split
  · rw [admitSynth_intake]; rfl
  · rfl

/-- A stage of a reply that leaves everything but the bus and the IF. -/
theorem noteAlarm_frame (g : Group) (a : Addr) (alarm : Bool) (s : State) :
    (noteAlarm g a alarm s).pos = s.pos ∧ (noteAlarm g a alarm s).entry = s.entry ∧ (noteAlarm g a alarm s).pu = s.pu ∧
      (noteAlarm g a alarm s).oq = s.oq := by
  unfold noteAlarm
  dsimp only
  split
  · rw [admitSynth_pos, admitSynth_entry, admitSynth_pu, admitSynth_oq]
    exact ⟨rfl, rfl, rfl, rfl⟩
  · exact ⟨rfl, rfl, rfl, rfl⟩

theorem noteDisplay_frame (p : Pos) (q : Poll) (applied : Bool) (s : State) :
    (noteDisplay p q applied s).pos = s.pos ∧ (noteDisplay p q applied s).entry = s.entry ∧
      (noteDisplay p q applied s).bus = s.bus ∧ (noteDisplay p q applied s).intake = s.intake ∧
      (noteDisplay p q applied s).oq = s.oq := by
  unfold noteDisplay
  split
  · exact ⟨rfl, rfl, rfl, rfl, rfl⟩
  · split
    · exact ⟨rfl, rfl, rfl, rfl, rfl⟩
    · exact ⟨rfl, rfl, rfl, rfl, rfl⟩

/-! ### The keys of a batch at the record and the entry (R33, R115) -/

theorem countKey_pos (p : Pos) (s : State) (c : Code) :
    (countKey p s c).pos = s.pos.modify p fun r => { r with keysEntered := sat16 r.keysEntered } := by
  unfold countKey keyEntered
  split
  · rfl
  · split <;> rfl

theorem foldl_countKey_pos (p : Pos) (l : List Code) (hl : l ≠ []) (s : State) : (l.foldl (countKey p) s).pos =
    s.pos.modify p fun r => { r with keysEntered := min 65535 (r.keysEntered + l.length) } := by
  induction l generalizing s with
  | nil => exact absurd rfl hl
  | cons c rest ih =>
    rw [List.foldl_cons]
    cases rest with
    | nil => exact countKey_pos p s c
    | cons d more =>
      rw [ih (List.cons_ne_nil _ _), countKey_pos, PerPos.modify_modify_same]
      refine PerPos.modify_congr _ _ ?_
      simp only [sat16, holdAt, List.length_cons, PosRecord.mk.injEq, true_and, and_true]
      omega

/-- The inter-key timer of an entry that a keypad code reaches (R115). -/
def Entry.keyed (e : Entry) : Entry :=
  match e.state, e.interkeyTimeout with
  | .collecting, .some t => { e with interkeyTimer := .running (t * 100) }
  | _, _ => e

theorem Entry.keyed_collecting {e : Entry} {t : Nat} (hs : e.state = .collecting) (ht : e.interkeyTimeout = .some t) :
    e.keyed = { e with interkeyTimer := .running (t * 100) } := by
  simp only [Entry.keyed, hs, ht]

theorem Entry.keyed_other {e : Entry} (h : ∀ t, e.state = .collecting → e.interkeyTimeout = .some t → False) :
    e.keyed = e := by
  unfold Entry.keyed
  split
  · next t hs ht => exact (h t hs ht).elim
  · rfl

theorem Entry.keyed_keyed (e : Entry) : e.keyed.keyed = e.keyed := by
  by_cases h : ∃ t, e.state = .collecting ∧ e.interkeyTimeout = .some t
  · obtain ⟨t, hs, ht⟩ := h
    rw [Entry.keyed_collecting hs ht]
    exact Entry.keyed_collecting hs ht
  · have he : e.keyed = e := Entry.keyed_other fun t hs ht => h ⟨t, hs, ht⟩
    rw [he, he]

theorem keyEntered_entry (p : Pos) (s : State) :
    (keyEntered p s).entry = s.entry.set p ((s.entry.get p).map Entry.keyed) := by
  unfold keyEntered
  split
  · next he => rw [he, Option.map_none, ← he, PerPos.set_get_same]
  · next e he =>
    rw [he, Option.map_some]
    split
    · next t hs ht =>
      rw [Entry.keyed_collecting hs ht]
      rfl
    · next hn => rw [Entry.keyed_other hn, ← he, PerPos.set_get_same]

theorem countKey_entry (p : Pos) (s : State) (c : Code) :
    (countKey p s c).entry = s.entry.set p ((s.entry.get p).map Entry.keyed) := by
  unfold countKey
  rw [keyEntered_entry]
  rfl

theorem foldl_countKey_entry (p : Pos) (l : List Code) (hl : l ≠ []) (s : State) :
    (l.foldl (countKey p) s).entry = s.entry.set p ((s.entry.get p).map Entry.keyed) := by
  induction l generalizing s with
  | nil => exact absurd rfl hl
  | cons c rest ih =>
    rw [List.foldl_cons]
    cases rest with
    | nil => exact countKey_entry p s c
    | cons d more =>
      rw [ih (List.cons_ne_nil _ _), countKey_entry, PerPos.get_set_same, PerPos.set_set_same, Option.map_map]
      congr 2
      exact funext Entry.keyed_keyed

theorem foldl_countKey_frame (p : Pos) (l : List Code) (s : State) :
    (l.foldl (countKey p) s).pu = s.pu ∧ (l.foldl (countKey p) s).oq = s.oq := by
  refine foldl_keeps (P := fun t => t.pu = s.pu ∧ t.oq = s.oq) (countKey p) (fun v c hv => ?_) l s ⟨rfl, rfl⟩
  have : (countKey p v c).pu = v.pu ∧ (countKey p v c).oq = v.oq := by
    unfold countKey keyEntered
    split
    · exact ⟨rfl, rfl⟩
    · split
      · exact ⟨rfl, rfl⟩
      · exact ⟨rfl, rfl⟩
  exact ⟨this.1.trans hv.1, this.2.trans hv.2⟩

/-- The codes of a batch that a keypad sent, as the reply brings them. -/
theorem keys_ne_nil {r : Reply} (h : r.codes ≠ []) (hv : r.valid q.addr = true) : r.keys ≠ [] := by
  obtain ⟨c, rest, hc⟩ := List.exists_cons_of_ne_nil h
  simp only [Reply.valid, Bool.and_eq_true, List.all_eq_true, decide_eq_true_eq] at hv
  have hlt : c.toNat < 64 := by have := hv.2 c (by simp [hc]); omega
  rw [Reply.keys, hc]
  simp [below, hlt]

/-! ### The blocks of a valid reply -/

/-- The address after a valid reply (R32, R35, R37). -/
def AddrState.answered (r : Reply) (d : AddrState) : AddrState :=
  { presence := .online, lastSeq := if d.judges r = .accepted then .some r.seq else d.lastSeq, misses := 0,
    quiet := if d.judges r = .accepted then 0 else d.quiet, thinning := d.thinning, alarm := r.alarm }

section Valid

variable (s g q) (r : Reply)

theorem batchTaken_bus : (s.batchTaken g q r).bus = s.bus.modify g (Bus.pollEnded q.addr fun d =>
    { d.answered r with alarm := d.alarm }) := by
  rw [State.batchTaken, takeBatch_bus, noteBatch_bus, keypadHeard_bus]
  simp only [Quad.modify_modify_same]
  refine Quad.modify_congr _ _ ?_
  simp only [Bus.pollEnded, Bus.endPoll]
  rw [Quad.modify_congr]
  simp only [AddrState.answered]
  split <;> rfl

theorem keypadReturned_bus : (s.keypadReturned g q r).bus = (s.batchTaken g q r).bus := by
  unfold State.keypadReturned
  split
  · rw [admitSynth_bus]
  · rfl

theorem validReply_bus : (validReply g q r s).bus = s.bus.modify g (Bus.pollEnded q.addr (AddrState.answered r)) := by
  rw [validReply_eq, (noteDisplay_frame _ _ _ _).2.2.1, noteAlarm_bus, keypadReturned_bus, batchTaken_bus]
  simp only [Quad.modify_modify_same, Bus.pollEnded]
  rfl

/-- Whether the batch of a reply enters: accepted, and of an OPEN position (R10, R33). -/
abbrev State.batchEnters : Prop :=
  (s.pos.get (posAt g q.addr)).state = .opened ∧ ((s.bus.get g).addrs.get q.addr).judges r = .accepted

theorem keypadHeard_frame (a : Addr) : (s.keypadHeard g a).pos = s.pos ∧ (s.keypadHeard g a).entry = s.entry ∧
    (s.keypadHeard g a).pu = s.pu ∧ (s.keypadHeard g a).intake = s.intake := by
  unfold State.keypadHeard
  split
  · rw [postKeypadState_pos, postKeypadState_entry, postKeypadState_pu, postKeypadState_intake]
    exact ⟨rfl, rfl, rfl, rfl⟩
  · exact ⟨rfl, rfl, rfl, rfl⟩

/-- A batch noted: the duplicates of a resend are counted (R32). -/
theorem noteBatch_pos (a : Addr) (j : BatchJudgement) : (noteBatch g a r j s).pos = s.pos.modify (posAt g a) fun x =>
    { x with duplicates := if j = .resend then min 65535 (x.duplicates + 1) else x.duplicates } := by
  cases j with
  | resend => rfl
  | accepted | empty => exact (PerPos.set_get_same _ _).symm

theorem noteBatch_frame (a : Addr) (j : BatchJudgement) : (noteBatch g a r j s).entry = s.entry ∧
    (noteBatch g a r j s).pu = s.pu ∧ (noteBatch g a r j s).intake = s.intake ∧ (noteBatch g a r j s).oq = s.oq := by
  cases j <;> exact ⟨rfl, rfl, rfl, rfl⟩

/-- Where a batch is judged and noted, the position is OPEN or CLOSED as it was. -/
theorem noted_isOpen (j : BatchJudgement) (p : Pos) :
    (noteBatch g q.addr r j (s.keypadHeard g q.addr)).isOpen p = s.isOpen p := by
  unfold State.isOpen
  rw [noteBatch_pos, (keypadHeard_frame s g q.addr).1, PerPos.get_modify]
  split <;> rfl

theorem batchEnters_iff : (noteBatch g q.addr r (((s.bus.get g).addrs.get q.addr).judges r)
      (s.keypadHeard g q.addr)).isOpen (posAt g q.addr) = true ∧ ((s.bus.get g).addrs.get q.addr).judges r = .accepted ↔
    s.batchEnters g q r := by
  rw [noted_isOpen, isOpen_iff]

theorem batchTaken_intake : (s.batchTaken g q r).intake =
    if s.batchEnters g q r then s.intake.enterBatch (posAt g q.addr) r.keys q.reserved
    else s.intake.release q.reserved := by
  rw [State.batchTaken, takeBatch_intake, (noteBatch_frame _ _ _ _ _).2.2.1, (keypadHeard_frame _ _ _).2.2.2]
  simp only [batchEnters_iff]

/-- The position's record after the batch: its keys counted when they enter, a resend counted (R32, R33). -/
theorem batchTaken_pos (hk : ((s.bus.get g).addrs.get q.addr).judges r = .accepted → r.keys ≠ []) :
    (s.batchTaken g q r).pos = s.pos.modify (posAt g q.addr) fun x => { x with
      duplicates := if ((s.bus.get g).addrs.get q.addr).judges r = .resend then min 65535 (x.duplicates + 1)
        else x.duplicates
      keysEntered := if s.batchEnters g q r then min 65535 (x.keysEntered + r.keys.length) else x.keysEntered } := by
  unfold State.batchTaken takeBatch
  simp only [batchEnters_iff, State.onBus_pos]
  split
  · next h =>
    rw [foldl_countKey_pos _ _ (hk h.2), State.onIntake_pos, noteBatch_pos, (keypadHeard_frame s g q.addr).1,
      PerPos.modify_modify_same]
  · rw [State.onIntake_pos, noteBatch_pos, (keypadHeard_frame s g q.addr).1]

theorem batchTaken_entry (hk : ((s.bus.get g).addrs.get q.addr).judges r = .accepted → r.keys ≠ []) :
    (s.batchTaken g q r).entry = if s.batchEnters g q r then
      s.entry.set (posAt g q.addr) ((s.entry.get (posAt g q.addr)).map Entry.keyed) else s.entry := by
  unfold State.batchTaken takeBatch
  simp only [batchEnters_iff, State.onBus_entry]
  split
  · next h =>
    rw [foldl_countKey_entry _ _ (hk h.2), State.onIntake_entry, (noteBatch_frame _ _ _ _ _).1,
      (keypadHeard_frame s g q.addr).2.1]
  · rw [State.onIntake_entry, (noteBatch_frame _ _ _ _ _).1, (keypadHeard_frame s g q.addr).2.1]

theorem batchTaken_frame : (s.batchTaken g q r).pu = s.pu ∧ (s.batchTaken g q r).oq = (s.keypadHeard g q.addr).oq := by
  unfold State.batchTaken takeBatch
  simp only [State.onBus_pu, State.onBus_oq]
  obtain ⟨_, hpu, _, hoq⟩ := noteBatch_frame (s.keypadHeard g q.addr) g r q.addr
    (((s.bus.get g).addrs.get q.addr).judges r)
  split
  · rw [(foldl_countKey_frame _ _ _).1, (foldl_countKey_frame _ _ _).2, State.onIntake_pu, State.onIntake_oq, hpu, hoq,
      (keypadHeard_frame s g q.addr).2.2.1]
    exact ⟨rfl, rfl⟩
  · rw [State.onIntake_pu, State.onIntake_oq, hpu, hoq, (keypadHeard_frame s g q.addr).2.2.1]
    exact ⟨rfl, rfl⟩

theorem keypadReturned_frame : (s.keypadReturned g q r).pos = (s.batchTaken g q r).pos ∧
    (s.keypadReturned g q r).entry = (s.batchTaken g q r).entry ∧
    (s.keypadReturned g q r).pu = (s.batchTaken g q r).pu ∧ (s.keypadReturned g q r).oq = (s.batchTaken g q r).oq := by
  unfold State.keypadReturned
  split
  · rw [admitSynth_pos, admitSynth_entry, admitSynth_pu, admitSynth_oq]
    exact ⟨rfl, rfl, rfl, rfl⟩
  · exact ⟨rfl, rfl, rfl, rfl⟩

theorem validReply_pos : (validReply g q r s).pos = (s.batchTaken g q r).pos := by
  rw [validReply_eq, (noteDisplay_frame _ _ _ _).1, (noteAlarm_frame _ _ _ _).1, (keypadReturned_frame _ _ _ _).1]

theorem validReply_entry : (validReply g q r s).entry = (s.batchTaken g q r).entry := by
  rw [validReply_eq, (noteDisplay_frame _ _ _ _).2.1, (noteAlarm_frame _ _ _ _).2.1, (keypadReturned_frame _ _ _ _).2.1]

theorem validReply_oq : (validReply g q r s).oq = (s.keypadHeard g q.addr).oq := by
  rw [validReply_eq, (noteDisplay_frame _ _ _ _).2.2.2.2, (noteAlarm_frame _ _ _ _).2.2.2,
    (keypadReturned_frame _ _ _ _).2.2.2, (batchTaken_frame _ _ _ _).2]

theorem batchTaken_state (hk : ((s.bus.get g).addrs.get q.addr).judges r = .accepted → r.keys ≠ []) (p : Pos) :
    ((s.batchTaken g q r).pos.get p).state = (s.pos.get p).state := by
  rw [batchTaken_pos s g q r hk, PerPos.get_modify]
  split <;> rfl

/-- The IF after a valid reply: the batch or the places released, KEYPAD_BACK behind it, KEYPAD_ALARM last (R37). -/
theorem validReply_intake (hk : ((s.bus.get g).addrs.get q.addr).judges r = .accepted → r.keys ≠ []) :
    (validReply g q r s).intake =
      let p := posAt g q.addr
      let d := (s.bus.get g).addrs.get q.addr
      let taken := if s.batchEnters g q r then s.intake.enterBatch p r.keys q.reserved
        else s.intake.release q.reserved
      let back := if d.presence ≠ .online then taken.admitCode p .keypadBack (s.pos.get p).state else taken
      if r.alarm = true ∧ d.alarm = false then back.admitCode p .keypadAlarm (s.pos.get p).state else back := by
  have halarm : (((s.keypadReturned g q r).bus.get g).addrs.get q.addr).alarm =
      ((s.bus.get g).addrs.get q.addr).alarm := by
    rw [keypadReturned_bus, batchTaken_bus]
    simp [Bus.pollEnded]
  have hreturned : (s.keypadReturned g q r).intake = if ((s.bus.get g).addrs.get q.addr).presence ≠ .online then
      (s.batchTaken g q r).intake.admitCode (posAt g q.addr) .keypadBack (s.pos.get (posAt g q.addr)).state
      else (s.batchTaken g q r).intake := by
    unfold State.keypadReturned
    split
    · rw [admitSynth_intake, batchTaken_state s g q r hk]
    · rfl
  rw [validReply_eq, (noteDisplay_frame _ _ _ _).2.2.2.1, noteAlarm_intake, halarm, (keypadReturned_frame _ _ _ _).1,
    batchTaken_state s g q r hk, hreturned, batchTaken_intake]

/-- The prompt unit that a valid reply reaches (R36, R130). -/
theorem validReply_pu : (validReply g q r s).pu = s.pu ∧
      ¬ (r.applied = true ∧ q.carried.map Prod.fst = .some (s.pu.get (posAt g q.addr)).number) ∨
    (validReply g q r s).pu = s.pu.modify (posAt g q.addr) PromptUnit.applied ∧
      (r.applied = true ∧ q.carried.map Prod.fst = .some (s.pu.get (posAt g q.addr)).number) := by
  have hpu : (noteAlarm g q.addr r.alarm (s.keypadReturned g q r)).pu = s.pu := by
    rw [(noteAlarm_frame _ _ _ _).2.2.1, (keypadReturned_frame _ _ _ _).2.2.1, (batchTaken_frame _ _ _ _).1]
  rw [validReply_eq]
  unfold noteDisplay
  split
  · next hc => exact .inl ⟨hpu, fun h => by simp [hc] at h⟩
  · next n _ hc =>
    rw [hc, hpu]
    split
    · next h =>
      refine .inr ⟨?_, h.1, by rw [h.2]; rfl⟩
      rw [State.onPu_pu, hpu]
    · next h => exact .inl ⟨hpu, fun hx => h ⟨hx.1, (Option.some.inj hx.2).symm⟩⟩

end Valid

end Sys2Proof.Machine
end

section
/-! SUPPORT. The visits behind a poll's end and behind the round timer's expiry (R21, R22). -/

namespace Sys2Proof.Machine

open Sys2Proof

variable {s t u w : State} {g : Group} {q : Poll}

/-! ### The end of a poll, for the visits behind it -/

/-- Admission with no flag set and a place free takes one place at most. -/
theorem Intake.admitCode_counts {f : Intake} (p : Pos) (k : Synth) (st : PosState) (h : f.flagCount = 0)
    (hf : f.occupied + f.reserved < 128) :
    (f.admitCode p k st).flagCount = 0 ∧ (f.admitCode p k st).reserved = f.reserved ∧
      (f.admitCode p k st).occupied ≤ f.occupied + 1 := by
  have hfree : 1 ≤ f.free := by simp only [Intake.free, Config.fifoPlaces]; omega
  rw [Intake.admitCode_free p k st h hfree]
  split
  · exact ⟨by rw [Intake.enter_flagCount]; exact h, rfl, le_of_eq (occupied_enter _ _ _ _)⟩
  · exact ⟨h, rfl, Nat.le_add_right _ _⟩

theorem Intake.release_counts {f : Intake} (n : Nat) (h : f.flagCount = 0) :
    (f.release n).flagCount = 0 ∧ (f.release n).reserved = f.reserved - n ∧ (f.release n).occupied = f.occupied := by
  rw [Intake.release_of_clear _ _ h]
  exact ⟨(Intake.flagCount_congr rfl).trans h, rfl, rfl⟩

theorem Intake.enterBatch_counts {f : Intake} (p : Pos) (codes : List Code) (n : Nat) (h : f.flagCount = 0) :
    (f.enterBatch p codes n).flagCount = 0 ∧ (f.enterBatch p codes n).reserved = f.reserved - n ∧
      (f.enterBatch p codes n).occupied = f.occupied + codes.length := by
  rw [Intake.enterBatch_of_clear _ _ _ _ h]
  exact ⟨(Intake.flagCount_congr rfl).trans h, rfl, by simp [Intake.occupied]⟩

theorem Intake.free_of_counts {f : Intake} : f.free = 128 - (f.occupied + f.reserved) := rfl

theorem collecting_congr {p : Pos} (h : (w.pos.get p).state = (s.pos.get p).state)
    (he : EntryRan (s.entry.get p) (w.entry.get p)) : w.collecting p = s.collecting p := by
  obtain ⟨f, hf⟩ := he
  simp only [State.collecting, State.isOpen, h, State.entryCollecting, hf]
  cases s.entry.get p <;> rfl

theorem missPoll_end (c : Bool) (s : State) : PollEnd g q.addr q.reserved s (missPoll g q c s) := by
  have hp := missPoll_polled g q c s
  refine ⟨hp.pending, hp.timeCount, hp.link, hp.tables, hp.attn, ⟨_, missPoll_bus s g q c⟩, fun p => (hp.pos p).1,
    fun p => collecting_congr (hp.pos p).1 (hp.entry p), fun p _ => ?_, ?_, fun hf hn hr hfree => ?_⟩
  · rw [(missPoll_frame s g q c).2.2.1]
  · rw [missPoll_intake]
    split
    · rw [Intake.admitCode_pressure, Intake.release_pressure]
    · exact Intake.release_pressure _ _
  · obtain ⟨h1, h2, h3⟩ := Intake.release_counts (f := s.intake) q.reserved hf
    rw [Intake.free_of_counts] at hfree ⊢
    rw [missPoll_intake]
    split
    · obtain ⟨k1, k2, k3⟩ := Intake.admitCode_counts (posAt g q.addr) .keypadLost (s.pos.get (posAt g q.addr)).state h1
        (by omega)
      exact ⟨k1, by omega, by omega⟩
    · exact ⟨h1, by omega, by omega⟩

theorem judges_accepted {d : AddrState} {r : Reply} (h : d.judges r = .accepted) : r.codes ≠ [] := by
  unfold AddrState.judges judgeBatch at h
  split at h
  · cases h
  · assumption

theorem keys_of_accepted {r : Reply} (hv : r.valid q.addr = true) {d : AddrState} (h : d.judges r = .accepted) :
    r.keys ≠ [] := keys_ne_nil (judges_accepted h) hv

theorem validReply_end {r : Reply} (hv : r.valid q.addr = true) (hlen : r.codes.length ≤ 4) (s : State) :
    PollEnd g q.addr q.reserved s (validReply g q r s) := by
  have hp := validReply_polled g q r s
  have hk : ((s.bus.get g).addrs.get q.addr).judges r = .accepted → r.keys ≠ [] := keys_of_accepted hv
  refine ⟨hp.pending, hp.timeCount, hp.link, hp.tables, hp.attn, ⟨_, validReply_bus s g q r⟩, fun p => (hp.pos p).1,
    fun p => collecting_congr (hp.pos p).1 (hp.entry p), fun p hpne => ?_, ?_, fun hf hn hr hfree => ?_⟩
  · rcases validReply_pu s g q r with ⟨h, _⟩ | ⟨h, _⟩
    · rw [h]
    · rw [h, PerPos.get_modify_ne _ _ hpne]
  · have htaken : (if s.batchEnters g q r then s.intake.enterBatch (posAt g q.addr) r.keys q.reserved
        else s.intake.release q.reserved).pressure = s.intake.pressure := by
      split
      · exact Intake.enterBatch_pressure _ _ _ _
      · exact Intake.release_pressure _ _
    rw [validReply_intake s g q r hk]
    dsimp only
    split
    · rw [Intake.admitCode_pressure]
      split
      · rw [Intake.admitCode_pressure, htaken]
      · exact htaken
    · split
      · rw [Intake.admitCode_pressure, htaken]
      · exact htaken
  · rw [Intake.free_of_counts] at hfree ⊢
    have hkeys : r.keys.length ≤ 4 := (List.length_filterMap_le _ _).trans hlen
    obtain ⟨taken, htaken, h1, h2, h3⟩ : ∃ f : Intake, (if s.batchEnters g q r then
        s.intake.enterBatch (posAt g q.addr) r.keys q.reserved else s.intake.release q.reserved) = f ∧
        f.flagCount = 0 ∧ f.reserved = s.intake.reserved - q.reserved ∧ f.occupied ≤ s.intake.occupied + 4 := by
      refine ⟨_, rfl, ?_⟩
      split
      · obtain ⟨h1, h2, h3⟩ := Intake.enterBatch_counts (f := s.intake) (posAt g q.addr) r.keys q.reserved hf
        exact ⟨h1, h2, by omega⟩
      · obtain ⟨h1, h2, h3⟩ := Intake.release_counts (f := s.intake) q.reserved hf
        exact ⟨h1, h2, by omega⟩
    obtain ⟨back, hback, k1, k2, k3⟩ : ∃ f : Intake, (if ((s.bus.get g).addrs.get q.addr).presence ≠ .online then
        taken.admitCode (posAt g q.addr) .keypadBack (s.pos.get (posAt g q.addr)).state else taken) = f ∧
        f.flagCount = 0 ∧ f.reserved = taken.reserved ∧ f.occupied ≤ taken.occupied + 1 := by
      refine ⟨_, rfl, ?_⟩
      split
      · exact Intake.admitCode_counts _ _ _ h1 (by omega)
      · exact ⟨h1, rfl, Nat.le_add_right _ _⟩
    rw [validReply_intake s g q r hk]
    dsimp only
    rw [htaken, hback]
    split
    · obtain ⟨j1, j2, j3⟩ := Intake.admitCode_counts (f := back) (posAt g q.addr) .keypadAlarm
        (s.pos.get (posAt g q.addr)).state k1 (by omega)
      exact ⟨j1, by omega, by omega⟩
    · exact ⟨k1, by omega, by omega⟩

/-! ### The commands that end a poll -/

/-- The judgement of pressure reads of the state before the event its IF alone. -/
theorem judgePressure_before (h : u.intake = t.intake) (s : State) : judgePressure u s = judgePressure t s := by
  simp only [judgePressure, h]

/-- The window loaded as a reply arrives is nothing to the end of the poll. -/
theorem PollEnd.of_loadWindow {a : Addr} {n : Nat} (x : Poll) (h : PollEnd g a n (s.onBus g (Bus.loadWindow x)) w) :
    PollEnd g a n s w := by
  refine { h with bus := ?_ }
  obtain ⟨f, hf⟩ := h.bus
  exact ⟨f, by rw [hf, State.onBus_bus, Quad.modify_modify_same]; rfl⟩

/-- The window's expiry or a complete reply: a command that ends the poll in flight. -/
abbrev State.endsPoll (s : State) (g : Group) (q : Poll) (c : Instr) : Prop :=
  c = .responseWindowExpiry g ∧ (s.bus.get g).windowTimer = .running 0 ∨
    ∃ bytes r, c = .keypadReply g bytes ∧ q.answerable ∧ readReply bytes = .some r

theorem exec_windowExpiry (hq : (s.bus.get g).poll = .some q) (hd : q.disowned = false)
    (ht : (s.bus.get g).windowTimer = .running 0) :
    exec (.responseWindowExpiry g) s = .next (judgePressure s (nextVisit g (missPoll g q false s))) := by
  simp only [exec, execResponseWindowExpiry, hq, ht, Timer.due_running_zero, hd, if_true, Bool.false_eq_true, if_false]

theorem exec_validReply {bytes : List Byte} {r : Reply} (hq : (s.bus.get g).poll = .some q) (hd : q.disowned = false)
    (ha : q.answerable) (hr : readReply bytes = .some r) (hv : r.valid q.addr = true) :
    ∃ got x, exec (.keypadReply g bytes) s = .next (judgePressure s (nextVisit g
      (validReply g { q with phase := got } r (s.onBus g (Bus.loadWindow x))))) := by
  obtain ⟨got, he⟩ := execKeypadReply_complete hq ha hr
  refine ⟨.receiving got, { q with phase := .receiving bytes }, (show exec (.keypadReply g bytes) s = _ from he).trans ?_⟩
  rw [judgePressure_before (t := s) rfl, replyEnds, if_neg (by simp [hd]), if_pos hv]
  rfl

theorem exec_invalidReply {bytes : List Byte} {r : Reply} (hq : (s.bus.get g).poll = .some q) (hd : q.disowned = false)
    (ha : q.answerable) (hr : readReply bytes = .some r) (hv : r.valid q.addr = false) :
    ∃ got x, exec (.keypadReply g bytes) s = .next (judgePressure s (nextVisit g
      (missPoll g { q with phase := got } (!r.checkOk) (s.onBus g (Bus.loadWindow x))))) := by
  obtain ⟨got, he⟩ := execKeypadReply_complete hq ha hr
  refine ⟨.receiving got, { q with phase := .receiving bytes }, (show exec (.keypadReply g bytes) s = _ from he).trans ?_⟩
  rw [judgePressure_before (t := s) rfl, replyEnds, if_neg (by simp [hd]), if_neg (by simp [hv])]
  rfl

theorem exec_pollEnds {c : Instr} (hq : (s.bus.get g).poll = .some q) (hd : q.disowned = false)
    (hc : s.endsPoll g q c) :
    ∃ w, PollEnd g q.addr q.reserved s w ∧ exec c s = .next (judgePressure s (nextVisit g w)) := by
  rcases hc with ⟨rfl, ht⟩ | ⟨bytes, r, rfl, ha, hr⟩
  · exact ⟨_, missPoll_end false s, exec_windowExpiry hq hd ht⟩
  · cases hv : r.valid q.addr with
    | true =>
      obtain ⟨got, x, he⟩ := exec_validReply hq hd ha hr hv
      exact ⟨_, (validReply_end (q := { q with phase := got }) hv (readReply_codes hr) _).of_loadWindow x, he⟩
    | false =>
      obtain ⟨got, x, he⟩ := exec_invalidReply hq hd ha hr hv
      exact ⟨_, (missPoll_end (q := { q with phase := got }) _ _).of_loadWindow x, he⟩

end Sys2Proof.Machine
end

section
/-! SUPPORT. The rounds of a bus (R20 to R23), with a poll at the first address visited and with none. -/

namespace Sys2Proof.Machine

open Sys2Proof

variable {s t u w : State} {g : Group} {q : Poll}

/-! ### The start of a round (R20, R21) -/

theorem Bus.startRound_eq (b : Bus) : b.startRound false =
    { b with
      settings := b.pending.getD b.settings, pending := .none, roundCounter := b.roundCounter + 1, round := .inProgress 4,
      roundTimer := if b.pending = .none then b.roundTimer else .running (b.pending.getD b.settings).period } := by
  unfold Bus.startRound
  cases h : b.pending with
  | none => simp
  | some ps => simp

/-! ### A round whose first visit sends a poll (R22, R25) -/

/-- When the polling table has the next address polled and there is room, its poll is sent. -/
theorem runVisits_of_decision {a : Addr}
    (hd : (s.onBus g fun b => { b with round := .inProgress a.val }).decision g a = .poll)
    (hf : 5 + s.intake.flagCount ≤ s.intake.free) :
    runVisits g (a.val + 1) s = (s.onBus g fun b => { b with round := .inProgress a.val }).polled g a := by
  have ha : (⟨a.val % 4, Nat.mod_lt _ (by decide)⟩ : Addr) = a := Fin.ext (Nat.mod_eq_of_lt a.isLt)
  have hv := (visit_polls hd).trans (if_pos hf)
  rw [runVisits, ha, hv]
  simp only [State.polled, Quad.get_modify_same]

theorem continueRound_of_decision {a : Addr}
    (hd : (s.onBus g fun b => { b with round := .inProgress a.val }).decision g a = .poll)
    (hf : 5 + s.intake.flagCount ≤ s.intake.free) :
    continueRound g (a.val + 1) s = (s.onBus g fun b => { b with round := .inProgress a.val }).polled g a := by
  have hround : (((s.onBus g fun b => { b with round := .inProgress a.val }).polled g a).bus.get g).round ≠ .finished := by
    simp [State.polled]
  unfold continueRound
  rw [runVisits_of_decision hd hf]
  exact if_neg fun h => hround h.1

/-- With the position of the next address collecting on an ONLINE keypad and room for a poll, the poll is sent. -/
theorem runVisits_polls {a : Addr} (hc : s.collecting (posAt g a) = true)
    (hp : ((s.bus.get g).addrs.get a).presence = .online) (hf : 5 + s.intake.flagCount ≤ s.intake.free) :
    runVisits g (a.val + 1) s = (s.onBus g fun b => { b with round := .inProgress a.val }).polled g a :=
  runVisits_of_decision (decision_collecting hc (by rw [State.onBus_bus, Quad.get_modify_same]; exact hp)) hf

theorem continueRound_polls {a : Addr} (hc : s.collecting (posAt g a) = true)
    (hp : ((s.bus.get g).addrs.get a).presence = .online) (hf : 5 + s.intake.flagCount ≤ s.intake.free) :
    continueRound g (a.val + 1) s = (s.onBus g fun b => { b with round := .inProgress a.val }).polled g a :=
  continueRound_of_decision (decision_collecting hc (by rw [State.onBus_bus, Quad.get_modify_same]; exact hp)) hf

/-! ### A round with no poll wanted (R22, R23) -/

/-- The addresses below `n` with their quiet counters risen. -/
def risenBelow (n : Nat) (l : Quad AddrState) : Quad AddrState :=
  ⟨if 0 < n then (l.get 0).risen else l.get 0, if 1 < n then (l.get 1).risen else l.get 1,
    if 2 < n then (l.get 2).risen else l.get 2, if 3 < n then (l.get 3).risen else l.get 3⟩

theorem risenBelow_get (n : Nat) (l : Quad AddrState) (a : Addr) :
    (risenBelow n l).get a = if a.val < n then (l.get a).risen else l.get a := by
  revert a
  exact fin4_cases rfl rfl rfl rfl

theorem risenBelow_succ {n : Nat} (a : Addr) (ha : a.val = n) (l : Quad AddrState) :
    risenBelow n (l.modify a AddrState.risen) = risenBelow (n + 1) l := by
  refine Quad.ext_get fun i => ?_
  rw [risenBelow_get, risenBelow_get, Quad.get_modify]
  by_cases hi : i = a
  · rw [if_pos hi, if_neg (by omega), if_pos (by omega)]
  · have hne : i.val ≠ n := fun h => hi (Fin.ext (h.trans ha.symm))
    rw [if_neg hi]
    by_cases hlt : i.val < n
    · rw [if_pos hlt, if_pos (by omega)]
    · rw [if_neg hlt, if_neg (by omega)]

/-- Under HIGH pressure with no position below collecting, the round runs to its end. -/
theorem runVisits_skips {n : Nat} (hn : n ≤ 4) (hpoll : (s.bus.get g).poll = .none) (hp : s.intake.pressure = .high)
    (hc : ∀ a : Addr, a.val < n → s.collecting (posAt g a) = false) :
    runVisits g n s = s.onBus g fun b => { b with round := .finished, addrs := risenBelow n b.addrs } := by
  induction n generalizing s with
  | zero => rfl
  | succ n ih =>
    have hlt : n < 4 := by omega
    have ha : (⟨n % 4, Nat.mod_lt _ (by decide)⟩ : Addr) = ⟨n, hlt⟩ := Fin.ext (Nat.mod_eq_of_lt hlt)
    have hv : visit g ⟨n, hlt⟩ (s.onBus g fun b => { b with round := .inProgress n }) =
        s.onBus g fun b => { b with round := .inProgress n, addrs := b.addrs.modify ⟨n, hlt⟩ AddrState.risen } := by
      have hd : (s.onBus g fun b => { b with round := .inProgress n }).decision g ⟨n, hlt⟩ = .skip :=
        decision_pressure ⟨hp, hc ⟨n, hlt⟩ (Nat.lt_succ_self n)⟩
      rw [visit_skips hd]
      simp only [State.onAddr, State.onBus, Quad.modify_modify_same]
    have hnone : ((s.onBus g fun b => { b with
        round := .inProgress n, addrs := b.addrs.modify ⟨n, hlt⟩ AddrState.risen }).bus.get g).poll = .none := by
      rw [State.onBus_bus, Quad.get_modify_same]
      exact hpoll
    rw [runVisits, ha, hv]
    simp only [hnone]
    rw [ih (by omega) hnone hp fun a h => hc a (by omega)]
    simp only [State.onBus, Quad.modify_modify_same]
    congr 1
    exact Quad.modify_congr _ _ (by simp only [risenBelow_succ ⟨n, hlt⟩ rfl])

theorem continueRound_skips {n : Nat} (hn : n ≤ 4) (hpoll : (s.bus.get g).poll = .none)
    (hp : s.intake.pressure = .high) (hc : ∀ a : Addr, a.val < n → s.collecting (posAt g a) = false)
    (hdue : (s.bus.get g).roundDue = false) :
    continueRound g n s = s.onBus g fun b => { b with round := .finished, addrs := risenBelow n b.addrs } := by
  unfold continueRound
  rw [runVisits_skips hn hpoll hp hc]
  refine if_neg fun h => ?_
  obtain ⟨_, h⟩ := h
  rw [State.onBus_bus, Quad.get_modify_same] at h
  exact nomatch h.symm.trans hdue

/-! ### What the visits leave of the round (R20) -/

/-- The settings, the counter and the timer of a round stand while it runs. -/
structure RoundKept (b c : Bus) : Prop where
  settings : c.settings = b.settings
  pending : c.pending = b.pending
  roundCounter : c.roundCounter = b.roundCounter
  roundDue : c.roundDue = b.roundDue
  roundTimer : c.roundTimer = b.roundTimer

theorem RoundKept.trans {b c d : Bus} (h : RoundKept b c) (k : RoundKept c d) : RoundKept b d :=
  ⟨k.settings.trans h.settings, k.pending.trans h.pending, k.roundCounter.trans h.roundCounter,
    k.roundDue.trans h.roundDue, k.roundTimer.trans h.roundTimer⟩

theorem visit_roundKept (g : Group) (a : Addr) (s : State) : RoundKept (s.bus.get g) ((visit g a s).bus.get g) := by
  have onAddr : ∀ f, RoundKept (s.bus.get g) ((s.onAddr g a f).bus.get g) := fun f => by
    rw [State.onAddr, State.onBus_bus, Quad.get_modify_same]
    exact ⟨rfl, rfl, rfl, rfl, rfl⟩
  cases h : s.decision g a with
  | skip => rw [visit_skips h]; exact onAddr _
  | skipThinning => rw [visit_thins h]; exact onAddr _
  | poll =>
    rw [visit_polls h]
    split
    · simp only [State.polled, Quad.get_modify_same]
      exact ⟨rfl, rfl, rfl, rfl, rfl⟩
    · exact onAddr _

theorem runVisits_roundKept (g : Group) (n : Nat) (s : State) :
    RoundKept (s.bus.get g) ((runVisits g n s).bus.get g) := by
  have onRound : ∀ (v : State) (r : Round), RoundKept (v.bus.get g) ((v.onBus g fun b => { b with round := r }).bus.get g) :=
    fun v r => by
      rw [State.onBus_bus, Quad.get_modify_same]
      exact ⟨rfl, rfl, rfl, rfl, rfl⟩
  induction n generalizing s with
  | zero => exact onRound s .finished
  | succ n ih =>
    have h := (onRound s (.inProgress n)).trans (visit_roundKept g ⟨n % 4, Nat.mod_lt n (by decide)⟩ _)
    rw [runVisits]
    split
    · exact h
    · exact h.trans (ih _)

/-! ### The round behind a poll's end -/

theorem PollEnd.busGet {a : Addr} {n : Nat} (h : PollEnd g a n s w) :
    ∃ f, w.bus.get g = (s.bus.get g).pollEnded a f := by
  obtain ⟨f, hf⟩ := h.bus
  exact ⟨f, by rw [hf, Quad.get_modify_same]⟩

theorem PollEnd.busOther {a : Addr} {n : Nat} (h : PollEnd g a n s w) {i : Group} (hi : i ≠ g) :
    w.bus.get i = s.bus.get i := by
  obtain ⟨f, hf⟩ := h.bus
  rw [hf, Quad.get_modify_ne _ _ hi]

theorem PollEnd.addr {a b : Addr} {n : Nat} (h : PollEnd g a n s w) (hb : b ≠ a) :
    (w.bus.get g).addrs.get b = (s.bus.get g).addrs.get b := by
  obtain ⟨f, hf⟩ := h.busGet
  rw [hf]
  exact Quad.get_modify_ne _ _ hb

theorem posAt_ne {a b : Addr} (h : b ≠ a) : posAt g b ≠ posAt g a := by
  intro he
  have hval := congrArg Fin.val he
  simp only [posAt] at hval
  exact h (Fin.ext (by omega))

/-- At the end of a poll the round goes on. -/
theorem nextVisit_inProgress {n : Nat} (h : (s.bus.get g).round = .inProgress n) : nextVisit g s = continueRound g n s := by
  simp only [nextVisit, h]

/-- The round that is due starts as the round finishes (R21). -/
theorem continueRound_due (hdue : (s.bus.get g).roundDue = true) :
    continueRound g 0 s =
      runVisits g 4 (s.onBus g fun b => { b with round := .finished, roundDue := false }.startRound false) := by
  have h : ((runVisits g 0 s).bus.get g).round = .finished ∧ ((runVisits g 0 s).bus.get g).roundDue = true := by
    simp only [runVisits, State.onBus_bus, Quad.get_modify_same]
    exact ⟨trivial, hdue⟩
  unfold continueRound
  refine (if_pos h).trans ?_
  simp only [runVisits, State.onBus, Quad.modify_modify_same]

/-! ### The round timer (R21) -/

theorem exec_roundTimer_inProgress {n : Nat} (ht : (s.bus.get g).roundTimer = .running 0)
    (hr : (s.bus.get g).round = .inProgress n) :
    exec (.roundTimerExpiry g) s = .next (s.onBus g fun b =>
      { b with roundTimer := .running b.settings.period, roundDue := true }) := by
  simp only [exec, execRoundTimerExpiry, ht, Timer.due_running_zero, if_true, State.onBus, Quad.get_modify_same, hr,
    Quad.modify_modify_same]

theorem exec_roundTimer_finished (ht : (s.bus.get g).roundTimer = .running 0) (hr : (s.bus.get g).round = .finished) :
    exec (.roundTimerExpiry g) s = .next (judgePressure s (continueRound g 4 (s.onBus g fun b =>
      { b with roundTimer := .running b.settings.period }.startRound false))) := by
  simp only [exec, execRoundTimerExpiry, ht, Timer.due_running_zero, if_true, State.onBus, Quad.get_modify_same, hr,
    Quad.modify_modify_same]

/-- The round timer as a round that it starts leaves it (R20, R21). -/
theorem timerStarted_eq (b : Bus) : ({ b with roundTimer := .running b.settings.period } : Bus).startRound false =
    { b with
      settings := b.pending.getD b.settings, pending := .none, roundCounter := b.roundCounter + 1, round := .inProgress 4,
      roundTimer := .running (b.pending.getD b.settings).period } := by
  rw [Bus.startRound_eq]
  cases h : b.pending with
  | none => simp
  | some ps => simp

end Sys2Proof.Machine
end

section
/-! SUPPORT. The rounds of a bus (R20 to R23): ROUND_TIMER_EXPIRY, and the visits behind a poll's end. -/

namespace Sys2Proof.Machine

open Sys2Proof

variable {s t u w : State} {g : Group} {q : Poll}

theorem pollSent_eq {a : Addr} {b : Option Bool} {x : PromptUnit} {set : BusSettings}
    (hb : ((s.bus.get g).addrs.get a).lastSeq = b) (hx : s.pu.get (posAt g a) = x)
    (hset : (s.bus.get g).settings = set) : s.pollSent g a =
      { addr := a, taken := b.getD true, beep := x.beep,
        carried := if x.dirty then .some (x.number, x.content) else .none, reserved := 5, rate := set.rate,
        window := set.window, phase := .sending, disowned := false } := by
  subst hb hx hset
  rfl

theorem polled_bus_get {a : Addr} : ((s.polled g a).bus.get g) =
    { s.bus.get g with
      addrs := (s.bus.get g).addrs.modify a fun d => { d with quiet := min 8 (d.quiet + 1), thinning := 0 }
      poll := .some (s.pollSent g a) } := Quad.get_modify_same _ _ _

theorem polled_bus_ne {a : Addr} {h : Group} (hh : h ≠ g) : (s.polled g a).bus.get h = s.bus.get h :=
  Quad.get_modify_ne _ _ hh

/-- The rows below the number of addresses are all of them. -/
theorem risenBelow_four (l : Quad AddrState) : risenBelow 4 l = l.map AddrState.risen :=
  Quad.ext_get fun a => by rw [risenBelow_get, if_pos a.isLt, Quad.get_map]

theorem judgePressure_of_intake (h : t.intake = s.intake) : judgePressure s t = t :=
  judgePressure_of_counts (by rw [h]) (by rw [h])

/-! ### ROUND_TIMER_EXPIRY -/

/-- The state as the round timer's expiry starts a round (R20, R21). -/
def State.roundStarted (s : State) (g : Group) (r : Round) : State :=
  s.onBus g fun b => { b with
    settings := b.pending.getD b.settings, pending := .none, roundCounter := b.roundCounter + 1, round := r,
    roundTimer := .running (b.pending.getD b.settings).period }

theorem roundStarted_bus (r : Round) : (s.roundStarted g r).bus.get g = { s.bus.get g with
    settings := (s.bus.get g).pending.getD (s.bus.get g).settings, pending := .none,
    roundCounter := (s.bus.get g).roundCounter + 1, round := r,
    roundTimer := .running ((s.bus.get g).pending.getD (s.bus.get g).settings).period } :=
  Quad.get_modify_same _ _ _

theorem exec_roundTimer_starts (ht : (s.bus.get g).roundTimer = .running 0) (hr : (s.bus.get g).round = .finished) :
    exec (.roundTimerExpiry g) s =
      .next (judgePressure s (continueRound g 4 (s.roundStarted g (.inProgress 4)))) := by
  rw [exec_roundTimer_finished ht hr]
  simp only [timerStarted_eq]
  rfl

/-- With no poll wanted the round finishes at once (R22, R23). -/
theorem exec_roundTimer_skips (ht : (s.bus.get g).roundTimer = .running 0) (hr : (s.bus.get g).round = .finished)
    (hdue : (s.bus.get g).roundDue = false) (hq : (s.bus.get g).poll = .none) (hp : s.intake.pressure = .high)
    (hc : ∀ a, s.collecting (posAt g a) = false) :
    exec (.roundTimerExpiry g) s = .next { s with bus := s.bus.modify g fun b =>
      { b with settings := b.pending.getD b.settings, pending := .none,
               roundTimer := .running (b.pending.getD b.settings).period, roundCounter := b.roundCounter + 1,
               round := .finished, addrs := b.addrs.map fun d => { d with quiet := min 8 (d.quiet + 1) } } } := by
  rw [exec_roundTimer_starts ht hr, continueRound_skips (s := s.roundStarted g (.inProgress 4)) (Nat.le_refl 4)
    (by rw [roundStarted_bus]; exact hq) hp (fun a _ => hc a) (by rw [roundStarted_bus]; exact hdue),
    judgePressure_of_intake]
  · simp only [State.roundStarted, State.onBus, Quad.modify_modify_same, risenBelow_four]
    rfl
  · rfl

/-- With a poll wanted at address 3 and room for it, that poll is sent (R22, R23, R26). -/
theorem exec_roundTimer_polls (ht : (s.bus.get g).roundTimer = .running 0) (hr : (s.bus.get g).round = .finished)
    (hc : s.collecting (posAt g 3) = true) (hp : ((s.bus.get g).addrs.get 3).presence = .online)
    (hf : 5 + s.intake.flagCount ≤ s.intake.free) :
    exec (.roundTimerExpiry g) s = .next (judgePressure s ((s.roundStarted g (.inProgress 3)).polled g 3)) := by
  have h := continueRound_polls (a := 3) (g := g) (s := s.roundStarted g (.inProgress 4)) hc
    (by rw [roundStarted_bus]; exact hp) hf
  rw [exec_roundTimer_starts ht hr]
  refine congrArg (fun v => Host.Outcome.next (judgePressure s v)) (h.trans ?_)
  simp only [State.roundStarted, State.onBus, Quad.modify_modify_same]
  rfl

/-! ### The round due at a poll's end (R21) -/

/-- The state as the round that is due starts behind the last poll of a round. -/
def State.dueStarted (w : State) (g : Group) : State :=
  w.onBus g fun b => { b with round := .finished, roundDue := false }.startRound false

theorem dueStarted_bus : (w.dueStarted g).bus.get g = { w.bus.get g with
    settings := (w.bus.get g).pending.getD (w.bus.get g).settings, pending := .none,
    roundCounter := (w.bus.get g).roundCounter + 1, round := .inProgress 4, roundDue := false,
    roundTimer := if (w.bus.get g).pending = .none then (w.bus.get g).roundTimer
      else .running ((w.bus.get g).pending.getD (w.bus.get g).settings).period } := by
  rw [State.dueStarted, State.onBus_bus, Quad.get_modify_same, Bus.startRound_eq]

/-- At the end of the round's last poll the round that is due starts (R21). -/
theorem PollEnd.startsDue {a : Addr} {n : Nat} (h : PollEnd g a n s w) (hr : (s.bus.get g).round = .inProgress 0)
    (hdue : (s.bus.get g).roundDue = true) : nextVisit g w = runVisits g 4 (w.dueStarted g) := by
  obtain ⟨f, hf⟩ := h.busGet
  rw [nextVisit_inProgress (n := 0) (by rw [hf]; exact hr), continueRound_due (by rw [hf]; exact hdue)]
  rfl

end Sys2Proof.Machine

open Sys2Proof Sys2Proof.Machine

/-- The round that is due, at the end of the poll that finishes the round (R21, R22). -/
theorem roundDue_starts (s : State) (g : Group) (q : Poll) (c : Instr) (hq : (s.bus.get g).poll = .some q)
    (hd : q.disowned = false) (ha : q.addr = 0) (hr : (s.bus.get g).round = .inProgress 0)
    (hdue : (s.bus.get g).roundDue = true) (hflags : s.intake.flagCount = 0) (hc : s.endsPoll g q c) :
    let set := (s.bus.get g).pending.getD (s.bus.get g).settings
    ∃ t, exec c s = .next t ∧ (t.bus.get g).roundDue = false ∧
      (t.bus.get g).roundCounter = (s.bus.get g).roundCounter + 1 ∧ (t.bus.get g).settings = set ∧
      (t.bus.get g).pending = .none ∧
      (t.bus.get g).roundTimer =
        (if (s.bus.get g).pending = .none then (s.bus.get g).roundTimer else .running set.period) ∧
      (∀ h, h ≠ g → t.bus.get h = s.bus.get h) ∧
      (s.intake.pressure = .high → (∀ a, s.collecting (posAt g a) = false) →
        (t.bus.get g).round = .finished ∧ (t.bus.get g).poll = .none) ∧
      (s.collecting (posAt g 3) = true → ((s.bus.get g).addrs.get 3).presence = .online → q.reserved = 5 →
        5 ≤ s.intake.reserved → 6 ≤ s.intake.free →
        (t.bus.get g).round = .inProgress 3 ∧
          (t.bus.get g).poll = .some
            { addr := 3, taken := ((s.bus.get g).addrs.get 3).lastSeq.getD true, beep := (s.pu.get (posAt g 3)).beep,
              carried := if (s.pu.get (posAt g 3)).dirty then
                .some ((s.pu.get (posAt g 3)).number, (s.pu.get (posAt g 3)).content) else .none,
              reserved := 5, rate := set.rate, window := set.window, phase := .sending, disowned := false }) := by
  intro set
  obtain ⟨w, hw, he⟩ := exec_pollEnds hq hd hc
  rw [hw.startsDue hr hdue] at he
  refine ⟨_, he, ?_⟩
  obtain ⟨f, hf⟩ := hw.busGet
  have hkept := runVisits_roundKept g 4 (w.dueStarted g)
  have hset : ((w.dueStarted g).bus.get g).settings = set := by rw [dueStarted_bus, hf]; rfl
  have hpoll : ((w.dueStarted g).bus.get g).poll = .none := by rw [dueStarted_bus, hf]; rfl
  have haddr : ((w.dueStarted g).bus.get g).addrs.get 3 = (s.bus.get g).addrs.get 3 := by
    rw [dueStarted_bus]
    exact hw.addr (by rw [ha]; decide)
  have hpu : (w.dueStarted g).pu.get (posAt g 3) = s.pu.get (posAt g 3) :=
    hw.pu _ (posAt_ne (by rw [ha]; decide))
  simp only [judgePressure_bus]
  refine ⟨?_, ?_, ?_, ?_, ?_, fun h hh => ?_, fun hp hn => ?_, fun hcol hon hres h5 h6 => ?_⟩
  · rw [hkept.roundDue, dueStarted_bus]
  · rw [hkept.roundCounter, dueStarted_bus, hf]; rfl
  · rw [hkept.settings, hset]
  · rw [hkept.pending, dueStarted_bus]
  · rw [hkept.roundTimer, dueStarted_bus, hf]; rfl
  · rw [(runVisits_visited g 4 _).bus h hh]
    exact (Quad.get_modify_ne _ _ hh).trans (hw.busOther hh)
  · rw [runVisits_skips (Nat.le_refl 4) hpoll (hw.pressure.trans hp)
      fun a _ => (hw.collecting (posAt g a)).trans (hn a), State.onBus_bus, Quad.get_modify_same]
    exact ⟨rfl, hpoll⟩
  · obtain ⟨k1, _, k3⟩ := hw.room hflags hres h5 h6
    have hroom : 5 + (w.dueStarted g).intake.flagCount ≤ (w.dueStarted g).intake.free := by
      change 5 + w.intake.flagCount ≤ w.intake.free
      omega
    have hv : runVisits g 4 (w.dueStarted g) = _ := runVisits_polls (a := 3) ((hw.collecting _).trans hcol)
      (by rw [haddr]; exact hon) hroom
    rw [hv, polled_bus_get, State.onBus_bus, Quad.get_modify_same]
    refine ⟨rfl, congrArg some (pollSent_eq ?_ hpu ?_)⟩
    · rw [State.onBus_bus, Quad.get_modify_same, ← haddr]
    · rw [State.onBus_bus, Quad.get_modify_same]
      exact hset

/-- The visit of the next address at the end of a poll sends a poll there (R22, R37). -/
theorem nextAddress_polled (s : State) (g : Group) (q : Poll) (c : Instr) (a : Addr) (hq : (s.bus.get g).poll = .some q)
    (hd : q.disowned = false) (ha : q.addr.val = a.val + 1) (hr : (s.bus.get g).round = .inProgress (a.val + 1))
    (hflags : s.intake.flagCount = 0) (hc : s.endsPoll g q c) (hcol : s.collecting (posAt g a) = true)
    (hon : ((s.bus.get g).addrs.get a).presence = .online) (hres : q.reserved = 5) (h5 : 5 ≤ s.intake.reserved)
    (h6 : 6 ≤ s.intake.free) :
      ∃ t, exec c s = .next t ∧ (t.bus.get g).round = .inProgress a.val ∧
        (t.bus.get g).roundDue = (s.bus.get g).roundDue ∧ (t.bus.get g).roundCounter = (s.bus.get g).roundCounter ∧
        (t.bus.get g).roundTimer = (s.bus.get g).roundTimer ∧ (t.bus.get g).settings = (s.bus.get g).settings ∧
        (t.bus.get g).pending = (s.bus.get g).pending ∧ (∀ h, h ≠ g → t.bus.get h = s.bus.get h) ∧
        (t.bus.get g).addrs.get a = { (s.bus.get g).addrs.get a with
          quiet := min 8 (((s.bus.get g).addrs.get a).quiet + 1), thinning := 0 } ∧
        (t.pu.get (posAt g a)).beep = .none ∧ t.intake.reserved = s.intake.reserved ∧
        (t.bus.get g).poll = .some
          { addr := a, taken := ((s.bus.get g).addrs.get a).lastSeq.getD true, beep := (s.pu.get (posAt g a)).beep,
            carried := if (s.pu.get (posAt g a)).dirty then
              .some ((s.pu.get (posAt g a)).number, (s.pu.get (posAt g a)).content) else .none,
            reserved := 5, rate := (s.bus.get g).settings.rate, window := (s.bus.get g).settings.window,
            phase := .sending, disowned := false } := by
  obtain ⟨w, hw, he⟩ := exec_pollEnds hq hd hc
  have hne : a ≠ q.addr := fun h => by rw [← h] at ha; omega
  obtain ⟨f, hf⟩ := hw.busGet
  have haddr := hw.addr hne
  obtain ⟨k1, k2, k3⟩ := hw.room hflags hres h5 h6
  rw [nextVisit_inProgress (by rw [hf]; exact hr), continueRound_polls ((hw.collecting _).trans hcol)
    (by rw [haddr]; exact hon) (by omega)] at he
  refine ⟨_, he, ?_⟩
  simp only [judgePressure_bus, judgePressure_pu, judgePressure_reserved, polled_bus_get]
  have hset : ((w.onBus g fun b => { b with round := .inProgress a.val }).bus.get g).settings =
      (s.bus.get g).settings := by
    rw [State.onBus_bus, Quad.get_modify_same, hf]
    rfl
  refine ⟨?_, ?_, ?_, ?_, hset, ?_, fun h hh => ?_, ?_, ?_, k2, congrArg some (pollSent_eq ?_ ?_ hset)⟩
  · rw [State.onBus_bus, Quad.get_modify_same]
  · rw [State.onBus_bus, Quad.get_modify_same, hf]; rfl
  · rw [State.onBus_bus, Quad.get_modify_same, hf]; rfl
  · rw [State.onBus_bus, Quad.get_modify_same, hf]; rfl
  · rw [State.onBus_bus, Quad.get_modify_same, hf]; rfl
  · rw [polled_bus_ne hh, State.onBus_bus, Quad.get_modify_ne _ _ hh, hw.busOther hh]
  · rw [Quad.get_modify_same, State.onBus_bus, Quad.get_modify_same, haddr]
  · simp only [State.polled, PerPos.get_modify_same]
  · rw [State.onBus_bus, Quad.get_modify_same, ← haddr]
  · exact hw.pu _ (posAt_ne hne)

/-- Under HIGH pressure with none collecting the round runs to its end (R22, R23). -/
theorem nextAddress_skipped (s : State) (g : Group) (q : Poll) (c : Instr) (a : Addr) (hq : (s.bus.get g).poll = .some q)
    (hd : q.disowned = false) (ha : q.addr.val = a.val + 1) (hr : (s.bus.get g).round = .inProgress (a.val + 1))
    (hc : s.endsPoll g q c) (hp : s.intake.pressure = .high) (hdue : (s.bus.get g).roundDue = false)
    (hn : ∀ b : Addr, b.val ≤ a.val → s.collecting (posAt g b) = false) :
      ∃ t, exec c s = .next t ∧ (t.bus.get g).round = .finished ∧ (t.bus.get g).poll = .none ∧
        (∀ h, h ≠ g → t.bus.get h = s.bus.get h) ∧
        ∀ b : Addr, b.val ≤ a.val → (t.bus.get g).addrs.get b = { (s.bus.get g).addrs.get b with
          quiet := min 8 (((s.bus.get g).addrs.get b).quiet + 1) } := by
  obtain ⟨w, hw, he⟩ := exec_pollEnds hq hd hc
  obtain ⟨f, hf⟩ := hw.busGet
  have hpoll : (w.bus.get g).poll = .none := by rw [hf]; rfl
  rw [nextVisit_inProgress (by rw [hf]; exact hr), continueRound_skips (by omega) hpoll (hw.pressure.trans hp)
    (fun b hb => (hw.collecting _).trans (hn b (by omega))) (by rw [hf]; exact hdue)] at he
  refine ⟨_, he, ?_⟩
  simp only [judgePressure_bus, State.onBus_bus, Quad.get_modify_same]
  refine ⟨trivial, hpoll, fun h hh => ?_, fun b hb => ?_⟩
  · rw [Quad.get_modify_ne _ _ hh, hw.busOther hh]
  · have hne : b ≠ q.addr := fun h => by rw [← h] at ha; omega
    rw [risenBelow_get, if_pos (by omega), hw.addr hne]
    rfl

/-- Settles O15: the round timer by its two rounds, and a poll's end by the visits behind it. -/
theorem roundTimerExpiryStartsTheNextRound : Obligations.RoundTimerExpiryStartsTheNextRound := by
  refine ⟨fun s g n ht hr => exec_roundTimer_inProgress ht hr,
    fun s g ht hr hdue hq hp hc => exec_roundTimer_skips ht hr hdue hq hp hc, fun s g ht hr hc hp hf => ?_,
    fun s g q c hq hd ha hr hdue hflags hc => roundDue_starts s g q c hq hd ha hr hdue hflags hc,
    fun s g q c a hq hd ha hr hflags hc => ⟨fun hcol hon hres h5 h6 =>
      nextAddress_polled s g q c a hq hd ha hr hflags hc hcol hon hres h5 h6,
      fun hp hdue hn => nextAddress_skipped s g q c a hq hd ha hr hc hp hdue hn⟩, fun s g ht => ?_⟩
  · refine ⟨_, exec_roundTimer_polls ht hr hc hp hf, ?_⟩
    simp only [judgePressure_bus, judgePressure_pu, judgePressure_reserved, judgePressure_entries, judgePressure_pos,
      judgePressure_entry, judgePressure_tables, judgePressure_attn, judgePressure_link, judgePressure_timeCount,
      polled_bus_get, roundStarted_bus]
    refine ⟨trivial, trivial, trivial, trivial, trivial, trivial,
      congrArg some (pollSent_eq (by rw [roundStarted_bus]) rfl (by rw [roundStarted_bus])), rfl, rfl, rfl, fun h hh => ?_, rfl, rfl, rfl, rfl, rfl, rfl⟩
    rw [polled_bus_ne hh]
    exact Quad.get_modify_ne _ _ hh
  · simp only [exec, execRoundTimerExpiry, Timer.not_due ht, Bool.false_eq_true, if_false]

end

section
/-! SUPPORT. The bytes of a reply at the receiver (R29). -/

namespace Sys2Proof.Machine

open Sys2Proof

variable {s t u w : State} {g : Group} {q : Poll}

theorem withPoll_receiving (g : Group) (q : Poll) (got : List Byte) (s : State) :
    s.withPoll g q (.receiving got) = receivingAt g q got s := rfl

/-! ### One byte -/

theorem replyByte_sync (hq : (s.bus.get g).poll = .some q) (hp : q.phase = .awaiting) :
    replyByte g s 0x69 = s.withPoll g q (.receiving []) := by
  simp only [replyByte, hq, hp, keypadSync, if_true]
  rfl

theorem replyByte_ahead {byte : Byte} (hq : (s.bus.get g).poll = .some q) (hp : q.phase = .awaiting)
    (hb : byte ≠ 0x69) : replyByte g s byte = s := by
  simp only [replyByte, hq, hp, keypadSync, hb, if_false]

/-- A byte that leaves the reply incomplete. -/
theorem replyByte_more {got : List Byte} {byte : Byte} (hq : (s.bus.get g).poll = .some q)
    (hp : q.phase = .receiving got) (hr : readReply (got ++ [byte]) = .none) :
    replyByte g s byte = s.withPoll g q (replyPhase (got ++ [byte])) := by
  simp only [replyByte, hq, hp, hr]
  rfl

theorem replyByte_overlong (byte : Byte) (hq : (s.bus.get g).poll = .some q) (hp : q.phase = .overlong) :
    replyByte g s byte = s.withPoll g q .overlong := by
  have hself : ({ q with phase := .overlong } : Poll) = q := by rw [← hp]
  simp only [replyByte, hq, hp, State.withPoll, hself]
  rfl

theorem replyByte_deaf (byte : Byte) (h : ∀ q, (s.bus.get g).poll = .some q → q.phase = .sending) :
    replyByte g s byte = s := by
  unfold replyByte
  cases hq : (s.bus.get g).poll with
  | none => rfl
  | some q => simp only [h q hq]

/-- The byte that completes a reply finds the state that its beginning left. -/
theorem replyByte_completes {got : List Byte} {byte : Byte} (hq : (s.bus.get g).poll = .some q)
    (hp : q.phase = .receiving got) : replyByte g s byte = replyByte g (receivingAt g q got s) byte := by
  have hself : ({ q with phase := .receiving got } : Poll) = q := by rw [← hp]
  simp only [replyByte, hq, hp, receivingAt_poll, receivingAt_loadWindow, hself]

/-! ### The bytes of a reply together -/

theorem foldl_replyByte_prefix {r : Reply} (byte : Byte) (rest : List Byte) : ∀ (got : List Byte) (s : State),
    readReply (got ++ rest ++ [byte]) = .some r →
      rest.foldl (replyByte g) (receivingAt g q got s) = receivingAt g q (got ++ rest) s := by
  induction rest with
  | nil => intro got s _; rw [List.append_nil]; rfl
  | cons b rest ih =>
    intro got s h
    obtain ⟨h1, h2⟩ := reply_prefix (got := got) (byte := b) (rest := rest ++ [byte]) (by simpa using h) (by simp)
    have e : replyByte g (receivingAt g q got s) b = receivingAt g q (got ++ [b]) s := by
      rw [replyByte_more (receivingAt_poll _ _ _ _) rfl h1, h2]
      exact receivingAt_loadWindow g q { q with phase := .receiving (got ++ [b]) } got s
    rw [List.foldl_cons, e, ih (got ++ [b]) s (by simpa using h)]
    simp

/-- Bytes of which each leaves the receiver as it is. -/
theorem replyArrives_of_fixed (h : ∀ byte, replyByte g s byte = s) (bytes : List Byte) : replyArrives g bytes s = s :=
  foldl_keeps (P := fun v => v = s) _ (fun _ b hv => by rw [hv, h]) _ s rfl

theorem replyArrives_receiving (bytes : List Byte) (hq : (s.bus.get g).poll = .some q) (hp : q.phase = .receiving []) :
    replyArrives g bytes s = bytes.foldl (replyByte g) s := by
  simp [replyArrives, hq, hp]

theorem replyArrives_awaiting (bytes : List Byte) (hq : (s.bus.get g).poll = .some q) (hp : q.phase = .awaiting) :
    replyArrives g bytes s = replyArrives g bytes (s.withPoll g q (.receiving [])) := by
  rw [replyArrives_receiving (s := s.withPoll g q (.receiving [])) bytes (receivingAt_poll g q [] s) rfl, replyArrives,
    hq, Option.map_some, hp, if_neg (by simp), List.foldl_cons]
  rw [show keypadSync = 0x69 from rfl, replyByte_sync hq hp]

/-- A key count above 4 makes every byte behind it no reply. -/
theorem replyArrives_overlong (bytes : List Byte) (hq : (s.bus.get g).poll = .some q) (hp : q.phase = .overlong) :
    replyArrives g bytes s = s.withPoll g q .overlong := by
  have hpoll : ((s.withPoll g q .overlong).bus.get g).poll = .some { q with phase := .overlong } := by
    simp [State.withPoll]
  have hstep : ∀ byte, replyByte g (s.withPoll g q .overlong) byte = s.withPoll g q .overlong := fun byte => by
    rw [replyByte_overlong byte hpoll rfl]
    simp only [State.withPoll, Quad.modify_modify_same]
  rw [replyArrives, hq, Option.map_some, hp, if_neg (by simp), List.foldl_cons, replyByte_overlong _ hq hp]
  exact foldl_keeps (P := fun v => v = s.withPoll g q .overlong) _ (fun _ b hv => by rw [hv, hstep]) bytes _ rfl

theorem execPollLastByteLeaves_sending (hq : (s.bus.get g).poll = .some q) (hp : q.phase = .sending) :
    exec (.pollLastByteLeaves g) s = .next (s.withPoll g q .awaiting) := by
  simp only [exec, execPollLastByteLeaves, hq, hp]
  rfl

theorem execPollLastByteLeaves_other (h : ∀ q, (s.bus.get g).poll = .some q → q.phase ≠ .sending) :
    exec (.pollLastByteLeaves g) s = .next s := by
  simp only [exec, execPollLastByteLeaves]
  cases hq : (s.bus.get g).poll with
  | none => rfl
  | some q =>
    have hp := h q hq
    cases hph : q.phase with
    | sending => exact absurd hph hp
    | awaiting | receiving got | overlong => simp only [hph]

/-- The bytes behind the status byte, until the last check byte. -/
theorem replyPhase_receiving {status : Byte} {rest : List Byte} (h : status.toNat % 8 ≤ 4) :
    replyPhase (status :: rest) = .receiving (status :: rest) := if_neg (Nat.not_lt.2 h)

theorem readReply_short {status : Byte} {rest : List Byte} (h : rest.length ≠ status.toNat % 8 + 2) :
    readReply (status :: rest) = .none := if_neg fun hx => h hx.2

theorem readReply_whole {status : Byte} {rest : List Byte} (hs : status.toNat % 8 ≤ 4)
    (h : rest.length = status.toNat % 8 + 2) : ∃ r, readReply (status :: rest) = .some r := ⟨_, if_pos ⟨hs, h⟩⟩

/-- The last check byte has the reply judged on the bytes received, as KEYPAD_REPLY with those bytes does. -/
theorem exec_lastByte {status byte : Byte} {rest : List Byte} (hq : (s.bus.get g).poll = .some q)
    (hp : q.phase = .receiving (status :: rest)) (hs : status.toNat % 8 ≤ 4)
    (hl : rest.length = status.toNat % 8 + 1) : exec (.keypadReplyByte g byte) s =
      exec (.keypadReply g (status :: rest ++ [byte])) (s.withPoll g q (.receiving [])) := by
  obtain ⟨r, hr⟩ := readReply_whole (rest := rest ++ [byte]) hs (by simp [hl])
  change Host.Outcome.next (replyByte g s byte) = .next (replyArrives g _ _)
  rw [replyByte_completes hq hp, replyArrives_receiving (s := s.withPoll g q (.receiving [])) _
    (receivingAt_poll g q [] s) rfl, List.foldl_append, withPoll_receiving,
    foldl_replyByte_prefix (r := r) byte (status :: rest) [] s hr]
  rfl

end Sys2Proof.Machine

open Sys2Proof Sys2Proof.Machine

/-- Settles O17: the receiver by its phase. -/
theorem pollAndReplyBytesLoadTheWindow : Obligations.PollAndReplyBytesLoadTheWindow := by
  refine ⟨fun s g q hq hp => execPollLastByteLeaves_sending hq hp, fun s g h => execPollLastByteLeaves_other h,
    fun s g q hq hp => ⟨?_, fun byte hb => ?_, fun bytes => ?_⟩, fun s g q byte hq hp => ?_,
    fun s g q status byte rest hq hp hs => ⟨fun hl => ?_, fun hl => exec_lastByte hq hp hs hl⟩,
    fun s g q hq hp => ⟨fun byte => ?_, fun bytes => ?_⟩, fun s g h => ⟨fun byte => ?_, fun bytes => ?_⟩⟩
  · exact congrArg Host.Outcome.next (replyByte_sync hq hp)
  · exact congrArg Host.Outcome.next (replyByte_ahead hq hp hb)
  · exact congrArg Host.Outcome.next (replyArrives_awaiting bytes hq hp)
  · refine congrArg Host.Outcome.next ((replyByte_more hq hp (readReply_short (by simp))).trans ?_)
    by_cases hb : byte.toNat % 8 ≤ 4
    · rw [if_pos hb, List.nil_append, replyPhase_receiving hb]
    · rw [if_neg hb, List.nil_append]
      exact congrArg (s.withPoll g q) (if_pos (Nat.lt_of_not_le hb))
  · refine congrArg Host.Outcome.next ((replyByte_more hq hp (readReply_short (rest := rest ++ [byte]) ?_)).trans ?_)
    · simp only [List.length_append, List.length_singleton]
      omega
    · exact congrArg (s.withPoll g q) (replyPhase_receiving hs)
  · exact congrArg Host.Outcome.next (replyByte_overlong byte hq hp)
  · exact congrArg Host.Outcome.next (replyArrives_overlong bytes hq hp)
  · exact congrArg Host.Outcome.next (replyByte_deaf byte h)
  · exact congrArg Host.Outcome.next (replyArrives_of_fixed (fun b => replyByte_deaf b h) bytes)

end

section
/-! SUPPORT. The bytes of a keypad's reply as the receiver reads them, and what goes on behind a poll's end (R22, R30). -/

namespace Sys2Proof.Machine

open Sys2Proof

variable {s t u v w : State} {g : Group} {q : Poll} {a : Addr}

/-! ### The bytes of a reply (section 12.4) -/

/-- The reply that a keypad's bytes bring. -/
def replyOf (a : Addr) (seq applied alarm : Bool) (codes : List Code) : Reply :=
  { addr := a.val, seq := seq, applied := applied, alarm := alarm, codes := codes.map codeByte, checkOk := true }

/-- The bits of a status byte (section 12.4). -/
theorem statusBits {status : Nat} (a : Addr) (seq applied alarm : Bool) {n : Nat} (h : n ≤ 4)
    (hs : status = 64 * a.val + (if seq then 32 else 0) + (if applied then 16 else 0) + (if alarm then 8 else 0) + n) :
    status < 256 ∧ status / 64 = a.val ∧ decide (status / 32 % 2 = 1) = seq ∧
      decide (status / 16 % 2 = 1) = applied ∧ decide (status / 8 % 2 = 1) = alarm ∧ status % 8 = n := by
  have ha := a.isLt
  have hq := seq.toNat_le
  have bit : ∀ (b : Bool) (k : Nat), (if b then k else 0) = b.toNat * k := fun b k => by cases b <;> simp
  have known : ∀ (b : Bool) (k : Nat), k = b.toNat → decide (k = 1) = b := fun b k hk => by subst hk; cases b <;> rfl
  rw [bit, bit, bit] at hs
  have hp := applied.toNat_le
  have hl := alarm.toNat_le
  exact ⟨by omega, by omega, known _ _ (by omega), known _ _ (by omega), known _ _ (by omega), by omega⟩

theorem readReply_keypadReplyBytes (a : Addr) (seq applied alarm : Bool) (codes : List Code) (h : codes.length ≤ 4) :
    readReply (keypadReplyBytes a seq applied alarm codes) = .some (replyOf a seq applied alarm codes) := by
  obtain ⟨hlt, h64, h32, h16, h8, hlen⟩ := statusBits a seq applied alarm h rfl
  unfold keypadReplyBytes
  generalize 64 * a.val + (if seq then 32 else 0) + (if applied then 16 else 0) + (if alarm then 8 else 0) +
    codes.length = status at *
  obtain ⟨c2, c1, hc, _, _⟩ := checkBytes_toNat (BitVec.ofNat 8 status :: codes.map codeByte)
  have hnat : (BitVec.ofNat 8 status).toNat = status := by rw [BitVec.toNat_ofNat]; omega
  have hpass := passesCheck_checkBytes (BitVec.ofNat 8 status :: codes.map codeByte)
  rw [hc] at hpass
  simp only [hc, List.cons_append, readReply, hnat, hlen]
  rw [if_pos ⟨h, by simp⟩, h64, h32, h16, h8, List.take_left' (by simp), List.drop_left' (by simp), hpass]
  rfl

theorem codeByte_toNat (c : Code) : (codeByte c).toNat = c.val := by
  have := c.isLt
  rw [codeByte, BitVec.toNat_ofNat]
  omega

theorem replyOf_valid (a : Addr) (seq applied alarm : Bool) (codes : List Code) (h : ∀ c ∈ codes, c.val ≤ 0x37) :
    (replyOf a seq applied alarm codes).valid a = true := by
  simpa [replyOf, Reply.valid, codeByte_toNat] using h

theorem replyOf_keys (a : Addr) (seq applied alarm : Bool) (codes : List Code) :
    (replyOf a seq applied alarm codes).keys = codes := by
  have hread : ∀ c : Code, below 64 (codeByte c) = .some c := fun c => by
    have := c.isLt
    simp [below, codeByte_toNat]
  rw [Reply.keys, replyOf, List.filterMap_map]
  exact (congrArg (fun f => codes.filterMap f) (funext hread)).trans List.filterMap_some

theorem replyOf_judged (d : AddrState) (a : Addr) (seq applied alarm : Bool) (codes : List Code) :
    d.judges (replyOf a seq applied alarm codes) =
      if codes = [] then .empty else if d.lastSeq = .some seq then .resend else .accepted := by
  by_cases h : codes = []
  · simp [AddrState.judges, judgeBatch, replyOf, h]
  · by_cases hd : d.lastSeq = .some seq
    · simp [AddrState.judges, judgeBatch, replyOf, h, hd]
    · simp [AddrState.judges, judgeBatch, replyOf, h, hd]

/-! ### A poll that leaves its address behind -/

theorem visit_other {b : Addr} (h : a ≠ b) (s : State) :
    ((visit g b s).bus.get g).addrs.get a = (s.bus.get g).addrs.get a := by
  have onAddr : ∀ f, ((s.onAddr g b f).bus.get g).addrs.get a = (s.bus.get g).addrs.get a := fun f => by
    rw [State.onAddr, State.onBus_bus, Quad.get_modify_same]
    exact Quad.get_modify_ne _ _ h
  cases hd : s.decision g b with
  | skip => rw [visit_skips hd]; exact onAddr _
  | skipThinning => rw [visit_thins hd]; exact onAddr _
  | poll =>
    rw [visit_polls hd]
    split
    · rw [polled_bus_get]
      exact Quad.get_modify_ne _ _ h
    · exact onAddr _

/-- The visits below an address leave it as it is (R22). -/
theorem runVisits_behind {n : Nat} (h : n ≤ a.val) (s : State) :
    ((runVisits g n s).bus.get g).addrs.get a = (s.bus.get g).addrs.get a := by
  have onRound : ∀ (v : State) (r : Round), ((v.onBus g fun b => { b with round := r }).bus.get g).addrs.get a =
      (v.bus.get g).addrs.get a := fun v r => by rw [State.onBus_bus, Quad.get_modify_same]
  induction n generalizing s with
  | zero => exact onRound s .finished
  | succ n ih =>
    have hne : a ≠ ⟨n % 4, Nat.mod_lt n (by decide)⟩ := fun he => by
      have := congrArg Fin.val he
      have ha := a.isLt
      simp only at this
      omega
    have hv := (visit_other (g := g) hne (s.onBus g fun b => { b with round := .inProgress n })).trans (onRound s _)
    rw [runVisits]
    split
    · exact hv
    · exact (ih (by omega) _).trans hv

theorem nextVisit_behind (h : w.leavesBehind g a) :
    ((nextVisit g w).bus.get g).addrs.get a = (w.bus.get g).addrs.get a := by
  cases hr : (w.bus.get g).round with
  | finished => simp only [nextVisit, hr]
  | inProgress n =>
    obtain ⟨hn, hdue⟩ := h n hr
    have hkept := (runVisits_roundKept g n w).roundDue
    rw [nextVisit_inProgress hr, continueRound, if_neg]
    · exact runVisits_behind hn w
    · rintro ⟨_, hx⟩
      exact nomatch hx.symm.trans (hkept.trans hdue)

/-- What goes on behind a poll's end leaves all but the bus's own visits, the beeps that the next poll takes, the places
that it reserves and the pressure. -/
structure WentOn (g : Group) (a : Addr) (w t : State) : Prop where
  timeCount : t.timeCount = w.timeCount
  link : t.link = w.link
  pos : t.pos = w.pos
  tables : t.tables = w.tables
  attn : t.attn = w.attn
  entry : t.entry = w.entry
  buses : ∀ h, h ≠ g → t.bus.get h = w.bus.get h
  addr : ((t.bus.get g).addrs.get a).presence = ((w.bus.get g).addrs.get a).presence ∧
    ((t.bus.get g).addrs.get a).lastSeq = ((w.bus.get g).addrs.get a).lastSeq ∧
    ((t.bus.get g).addrs.get a).misses = ((w.bus.get g).addrs.get a).misses ∧
    ((t.bus.get g).addrs.get a).alarm = ((w.bus.get g).addrs.get a).alarm
  quiet : w.leavesBehind g a → ((t.bus.get g).addrs.get a).quiet = ((w.bus.get g).addrs.get a).quiet
  pu : ∀ p, t.pu.get p = { w.pu.get p with beep := (t.pu.get p).beep }
  entries : t.intake.entries = w.intake.entries
  flags : t.intake.flags = w.intake.flags
  queue : ∃ more, t.oq.queue = w.oq.queue ++ more

theorem goesOn (g : Group) (a : Addr) (u w : State) : WentOn g a w (judgePressure u (nextVisit g w)) := by
  have h := nextVisit_visited g w
  refine ⟨?_, ?_, ?_, ?_, ?_, ?_, ?_, ?_, fun hb => ?_, fun p => ?_, ?_, ?_, ?_⟩
  · rw [judgePressure_timeCount, h.timeCount]
  · rw [judgePressure_link, h.link]
  · rw [judgePressure_pos, h.pos]
  · rw [judgePressure_tables, h.tables]
  · rw [judgePressure_attn, h.attn]
  · rw [judgePressure_entry, h.entry]
  · rw [judgePressure_bus]; exact h.bus
  · rw [judgePressure_bus]; exact h.addrs a
  · rw [judgePressure_bus, nextVisit_behind hb]
  · obtain ⟨b, hb⟩ := h.pu p
    rw [judgePressure_pu, hb]
  · rw [judgePressure_entries, h.entries]
  · rw [judgePressure_flags, h.flags]
  · obtain ⟨more, hm, _⟩ := judgePressure_queued u (nextVisit g w)
    exact ⟨more.map .notice, by rw [hm, h.oq]⟩

theorem WentOn.flagCount (h : WentOn g a w t) : t.intake.flagCount = w.intake.flagCount := Intake.flagCount_congr h.flags

/-- Content of a prompt unit heard of, whatever beep its next poll takes. -/
theorem PromptUnit.heard_beep {x y z : PromptUnit} {applied : Bool} (h : x.heard y q applied)
    (hz : z = { y with beep := z.beep }) : x.heard z q applied := by
  unfold PromptUnit.heard at h ⊢
  rw [h] at hz
  exact hz

end Sys2Proof.Machine
end

section
/-! SUPPORT. The ends of a poll as a reader of the IF, the records and the queue sees them (R30 to R39). -/

namespace Sys2Proof.Machine

open Sys2Proof

variable {s t u v w : State} {g : Group} {q : Poll} {a : Addr} {r : Reply} {d : AddrState}

/-! ### The IF after a valid reply -/

/-- The IF with the batch entered or the places released, as the codes of the reply find it (R33, R37, R46). -/
def Intake.batchOf (p : Pos) (st : PosState) (d : AddrState) (r : Reply) (n : Nat) (f : Intake) : Intake :=
  if st = .opened ∧ d.judges r = .accepted then f.enterBatch p r.keys n else f.release n

/-- The IF with KEYPAD_BACK, and KEYPAD_ALARM behind it, where the reply brings them (R35, R37, R39). -/
def Intake.withCodes (p : Pos) (st : PosState) (d : AddrState) (r : Reply) (f : Intake) : Intake :=
  let back := if d.presence ≠ .online then f.admitCode p .keypadBack st else f
  if r.alarm = true ∧ d.alarm = false then back.admitCode p .keypadAlarm st else back

/-- One code admitted where its condition holds and the position is OPEN, with a place free for it. -/
theorem Intake.admitCode_if {f : Intake} (p : Pos) (k : Synth) (st : PosState) (c : Prop) [Decidable c]
    (hf : f.flagCount = 0) (hroom : st = .opened → c → f.occupied + f.reserved ≤ 127) :
    (if c then f.admitCode p k st else f).entries = f.entries ++
        (if st = .opened ∧ c then [⟨p, k.code, .synthetic, false⟩] else []) ∧
      (if c then f.admitCode p k st else f).flagCount = 0 ∧
      (if c then f.admitCode p k st else f).reserved = f.reserved ∧
      (if c then f.admitCode p k st else f).occupied ≤ f.occupied + 1 := by
  by_cases hc : c
  · rw [if_pos hc]
    cases st with
    | closed => exact ⟨by simp [Intake.admitCode], hf, rfl, Nat.le_succ _⟩
    | opened =>
      have hlt := hroom rfl hc
      have hfree : 1 ≤ f.free := by rw [Intake.free_of_counts]; omega
      obtain ⟨h1, h2, h3⟩ := Intake.admitCode_counts p k .opened hf (by omega)
      refine ⟨?_, h1, h2, h3⟩
      rw [Intake.admitCode_free p k _ hf hfree, if_pos rfl, if_pos ⟨rfl, hc⟩]
      rfl
  · rw [if_neg hc, if_neg fun h => hc h.2]
    exact ⟨(List.append_nil _).symm, hf, rfl, Nat.le_succ _⟩

theorem Intake.withCodes_entries {f : Intake} (p : Pos) (st : PosState) (d : AddrState) (r : Reply)
    (hf : f.flagCount = 0)
    (hroom : st = .opened → (d.presence ≠ .online ∨ r.alarm = true ∧ d.alarm = false) → f.occupied + f.reserved ≤ 126) :
    (f.withCodes p st d r).entries = f.entries ++
        (if st = .opened ∧ d.presence ≠ .online then [⟨p, 0x3D, .synthetic, false⟩] else []) ++
        (if st = .opened ∧ r.alarm = true ∧ d.alarm = false then [⟨p, 0x3F, .synthetic, false⟩] else []) ∧
      (f.withCodes p st d r).flagCount = 0 := by
  obtain ⟨back, hback, h1, h2, h3, h4⟩ : ∃ x : Intake,
      (if d.presence ≠ .online then f.admitCode p .keypadBack st else f) = x ∧
      x.entries = f.entries ++ (if st = .opened ∧ d.presence ≠ .online then [⟨p, 0x3D, .synthetic, false⟩] else []) ∧
      x.flagCount = 0 ∧ x.reserved = f.reserved ∧ x.occupied ≤ f.occupied + 1 :=
    ⟨_, rfl, Intake.admitCode_if p .keypadBack st (d.presence ≠ .online) hf
      fun ho hc => Nat.le_succ_of_le (hroom ho (.inl hc))⟩
  obtain ⟨k1, k2, _, _⟩ := Intake.admitCode_if (f := back) p .keypadAlarm st (r.alarm = true ∧ d.alarm = false) h2
    fun ho hc => by
      have := hroom ho (.inr hc)
      omega
  unfold Intake.withCodes
  dsimp only
  rw [hback]
  exact ⟨by rw [k1, h1]; rfl, k2⟩

/-! ### A valid reply -/

/-- What a valid reply to the poll `q` of an address in the state `d` leaves, before the visits behind it. -/
structure Answered (g : Group) (q : Poll) (r : Reply) (d : AddrState) (s w : State) : Prop where
  timeCount : w.timeCount = s.timeCount
  link : w.link = s.link
  tables : w.tables = s.tables
  attn : w.attn = s.attn
  bus : w.bus = s.bus.modify g (Bus.pollEnded q.addr (AddrState.answered r))
  pos : w.pos = s.pos.modify (posAt g q.addr) fun x => { x with
    duplicates := if d.judges r = .resend then min 65535 (x.duplicates + 1) else x.duplicates
    keysEntered := if (s.pos.get (posAt g q.addr)).state = .opened ∧ d.judges r = .accepted then
      min 65535 (x.keysEntered + r.keys.length) else x.keysEntered }
  entry : w.entry = if (s.pos.get (posAt g q.addr)).state = .opened ∧ d.judges r = .accepted then
    s.entry.set (posAt g q.addr) ((s.entry.get (posAt g q.addr)).map Entry.keyed) else s.entry
  intake : w.intake = (s.intake.batchOf (posAt g q.addr) (s.pos.get (posAt g q.addr)).state d r q.reserved).withCodes
    (posAt g q.addr) (s.pos.get (posAt g q.addr)).state d r
  heard : (s.pu.get (posAt g q.addr)).heard (w.pu.get (posAt g q.addr)) q r.applied
  displays : ∀ p, p ≠ posAt g q.addr → w.pu.get p = s.pu.get p
  queue : s.slotsFree 1 → w.oq.queue = s.oq.queue ++
    if d.presence = .online then [] else [.notice (.keypadState (posAt g q.addr) .online)]

/-- The prompt unit whose applied content is current (R36, R130). -/
theorem heard_applied (u : PromptUnit) (h : q.carried.map Prod.fst = .some u.number) : u.heard u.applied q true := by
  unfold PromptUnit.heard PromptUnit.applied
  simp only [h, and_self, decide_true, Bool.not_true, Bool.and_false, true_and]
  cases hc : u.current with
  | none => simp
  | some pr =>
    cases hp : u.phase with
    | notStarted => by_cases hh : pr.hold = 0 <;> simp [hh]
    | running | shown | ended => simp

theorem heard_unchanged {u : PromptUnit} {applied : Bool}
    (h : ¬ (applied = true ∧ q.carried.map Prod.fst = .some u.number)) : u.heard u q applied := by
  simp only [PromptUnit.heard, h, decide_false, false_and, if_false, Bool.not_false, Bool.and_true]

theorem keypadHeard_queue (h : s.slotsFree 1) : (s.keypadHeard g a).oq.queue = s.oq.queue ++
    if ((s.bus.get g).addrs.get a).presence = .online then [] else [.notice (.keypadState (posAt g a) .online)] := by
  unfold State.keypadHeard
  by_cases hp : ((s.bus.get g).addrs.get a).presence = .online
  · rw [if_neg (not_not.2 hp), if_pos hp, List.append_nil]
    rfl
  · rw [if_pos hp, if_neg hp]
    exact postKeypadState_queue _ _ (slotsFree_congr (s := s) rfl rfl h)

theorem validReply_answered (hk : ((s.bus.get g).addrs.get q.addr).judges r = .accepted → r.keys ≠ []) :
    Answered g q r ((s.bus.get g).addrs.get q.addr) s (validReply g q r s) := by
  have hp := validReply_polled g q r s
  refine ⟨hp.timeCount, hp.link, hp.tables, hp.attn, validReply_bus s g q r, ?_, ?_, validReply_intake s g q r hk, ?_,
    fun p hne => ?_, fun h => ?_⟩
  · rw [validReply_pos]
    exact batchTaken_pos s g q r hk
  · rw [validReply_entry]
    exact batchTaken_entry s g q r hk
  · rcases validReply_pu s g q r with ⟨h, hn⟩ | ⟨h, ha, hn⟩
    · rw [h]
      exact heard_unchanged hn
    · rw [h, PerPos.get_modify_same, ha]
      exact heard_applied _ hn
  · rcases validReply_pu s g q r with ⟨h, _⟩ | ⟨h, _⟩
    · rw [h]
    · rw [h, PerPos.get_modify_ne _ _ hne]
  · rw [validReply_oq]
    exact keypadHeard_queue h

/-- The window loaded as a reply arrives is nothing to the end of the poll. -/
theorem Answered.of_loadWindow (x : Poll) (h : Answered g q r d (s.onBus g (Bus.loadWindow x)) w) :
    Answered g q r d s w where
  timeCount := h.timeCount
  link := h.link
  tables := h.tables
  attn := h.attn
  bus := by rw [h.bus, State.onBus_bus, Quad.modify_modify_same]; rfl
  pos := h.pos
  entry := h.entry
  intake := h.intake
  heard := h.heard
  displays := h.displays
  queue := fun hs => h.queue (slotsFree_congr (s := s) rfl rfl hs)

theorem Answered.addr (h : Answered g q r d s w) :
    (w.bus.get g).addrs.get q.addr = ((s.bus.get g).addrs.get q.addr).answered r := by
  rw [h.bus, Quad.get_modify_same]
  exact Quad.get_modify_same _ _ _

theorem Answered.buses (h : Answered g q r d s w) (i : Group) (hi : i ≠ g) : w.bus.get i = s.bus.get i := by
  rw [h.bus, Quad.get_modify_ne _ _ hi]

theorem leavesBehind_of_ended {f : AddrState → AddrState} {b : Addr} (h : w.bus = s.bus.modify g (Bus.pollEnded a f))
    (hs : s.leavesBehind g b) : w.leavesBehind g b := by
  intro n hn
  have hb : w.bus.get g = (s.bus.get g).pollEnded a f := by rw [h, Quad.get_modify_same]
  rw [hb] at hn ⊢
  exact hs n hn

/-- KEYPAD_REPLY with the bytes of a keypad's reply: the poll ends with that reply, and the bus goes on. -/
theorem exec_keypadReplyBytes {seq applied alarm : Bool} {codes : List Code} (hq : (s.bus.get g).poll = .some q)
    (ha : q.answerable) (hd : q.disowned = false) (hlen : codes.length ≤ 4) (hc : ∀ c ∈ codes, c.val ≤ 0x37) :
    ∃ w, Answered g q (replyOf q.addr seq applied alarm codes) ((s.bus.get g).addrs.get q.addr) s w ∧
      exec (.keypadReply g (keypadReplyBytes q.addr seq applied alarm codes)) s =
        .next (judgePressure s (nextVisit g w)) := by
  have hv := replyOf_valid q.addr seq applied alarm codes hc
  obtain ⟨got, x, he⟩ := exec_validReply hq hd ha (readReply_keypadReplyBytes q.addr seq applied alarm codes hlen) hv
  refine ⟨_, ?_, he⟩
  have h := validReply_answered (g := g) (q := { q with phase := got }) (r := replyOf q.addr seq applied alarm codes)
    (s := s.onBus g (Bus.loadWindow x)) (keys_of_accepted hv)
  have hsame : ((s.onBus g (Bus.loadWindow x)).bus.get g).addrs.get q.addr = (s.bus.get g).addrs.get q.addr := by
    rw [State.onBus_bus, Quad.get_modify_same]
    rfl
  rw [hsame] at h
  exact { h.of_loadWindow x with heard := h.heard }

/-! ### A miss -/

/-- What a miss of the poll `q` of an address in the state `d` leaves, before the visits behind it. -/
structure Missed (g : Group) (q : Poll) (c : Bool) (d : AddrState) (s w : State) : Prop where
  timeCount : w.timeCount = s.timeCount
  link : w.link = s.link
  tables : w.tables = s.tables
  attn : w.attn = s.attn
  entry : w.entry = s.entry
  pu : w.pu = s.pu
  bus : w.bus = s.bus.modify g (Bus.pollEnded q.addr AddrState.missed)
  pos : w.pos = s.pos.modify (posAt g q.addr) fun x => { x with
    misses := min 65535 (x.misses + 1), checkErrors := if c then min 65535 (x.checkErrors + 1) else x.checkErrors }
  intake : w.intake = if d.lostByMiss then
      (s.intake.release q.reserved).admitCode (posAt g q.addr) .keypadLost (s.pos.get (posAt g q.addr)).state
    else s.intake.release q.reserved
  queue : s.slotsFree 1 → w.oq.queue = s.oq.queue ++
    if d.lostByMiss then [.notice (.keypadState (posAt g q.addr) .offline)] else []

theorem missPoll_missed (c : Bool) : Missed g q c ((s.bus.get g).addrs.get q.addr) s (missPoll g q c s) := by
  obtain ⟨hpos, hentry, hpu, htables, hattn, hlink, htime, _⟩ := missPoll_frame s g q c
  exact ⟨htime, hlink, htables, hattn, hentry, hpu, missPoll_bus s g q c, hpos, missPoll_intake s g q c,
    fun h => missPoll_queue c h⟩

theorem Missed.of_loadWindow {c : Bool} (x : Poll) (h : Missed g q c d (s.onBus g (Bus.loadWindow x)) w) :
    Missed g q c d s w where
  timeCount := h.timeCount
  link := h.link
  tables := h.tables
  attn := h.attn
  entry := h.entry
  pu := h.pu
  bus := by rw [h.bus, State.onBus_bus, Quad.modify_modify_same]; rfl
  pos := h.pos
  intake := h.intake
  queue := fun hs => h.queue (slotsFree_congr (s := s) rfl rfl hs)

theorem Missed.addr {c : Bool} (h : Missed g q c d s w) :
    (w.bus.get g).addrs.get q.addr = ((s.bus.get g).addrs.get q.addr).missed := by
  rw [h.bus, Quad.get_modify_same]
  exact Quad.get_modify_same _ _ _

/-- A command that ends a poll as a miss. -/
abbrev State.missesPoll (s : State) (g : Group) (q : Poll) (c : Instr) (checkFailed : Bool) : Prop :=
  c = .responseWindowExpiry g ∧ (s.bus.get g).windowTimer = .running 0 ∧ checkFailed = false ∨
    ∃ bytes r, c = .keypadReply g bytes ∧ q.answerable ∧ readReply bytes = .some r ∧ r.valid q.addr = false ∧
      checkFailed = !r.checkOk

theorem exec_missesPoll {c : Instr} {checkFailed : Bool} (hq : (s.bus.get g).poll = .some q) (hd : q.disowned = false)
    (hc : s.missesPoll g q c checkFailed) : ∃ w, Missed g q checkFailed ((s.bus.get g).addrs.get q.addr) s w ∧
      exec c s = .next (judgePressure s (nextVisit g w)) := by
  rcases hc with ⟨rfl, ht, rfl⟩ | ⟨bytes, r, rfl, ha, hr, hv, rfl⟩
  · exact ⟨_, missPoll_missed false, exec_windowExpiry hq hd ht⟩
  · obtain ⟨got, x, he⟩ := exec_invalidReply hq hd ha hr hv
    refine ⟨_, ?_, he⟩
    have h := missPoll_missed (g := g) (q := { q with phase := got }) (s := s.onBus g (Bus.loadWindow x)) (!r.checkOk)
    have hsame : ((s.onBus g (Bus.loadWindow x)).bus.get g).addrs.get q.addr = (s.bus.get g).addrs.get q.addr := by
      rw [State.onBus_bus, Quad.get_modify_same]
      rfl
    rw [hsame] at h
    exact { h.of_loadWindow x with }

end Sys2Proof.Machine
end

section
/-! SUPPORT. KEYPAD_REPLY and RESPONSE_WINDOW_EXPIRY at the records, the IF and the queue (R30 to R39, R46). -/

namespace Sys2Proof.Machine

open Sys2Proof

variable {s t u v w : State} {g : Group} {q : Poll} {a : Addr} {r : Reply} {d : AddrState}

/-! ### The judgements of a batch -/

theorem judged_accepted {seq : Bool} {codes : List Code} (h1 : 1 ≤ codes.length) (hs : d.lastSeq ≠ .some seq) (a : Addr)
    (applied alarm : Bool) : d.judges (replyOf a seq applied alarm codes) = .accepted := by
  have hne : codes ≠ [] := fun h => by rw [h] at h1; cases h1
  rw [replyOf_judged, if_neg hne, if_neg hs]

theorem judged_not_accepted {seq : Bool} {codes : List Code} (h : codes = [] ∨ d.lastSeq = .some seq) (a : Addr)
    (applied alarm : Bool) : d.judges (replyOf a seq applied alarm codes) ≠ .accepted := by
  rw [replyOf_judged]
  by_cases hne : codes = []
  · simp [hne]
  · simp [hne, h.resolve_left hne]

theorem judged_resend {seq : Bool} {codes : List Code} (h : codes = [] ∨ d.lastSeq = .some seq) (a : Addr)
    (applied alarm : Bool) : d.judges (replyOf a seq applied alarm codes) = .resend ↔ codes ≠ [] := by
  rw [replyOf_judged]
  by_cases hne : codes = []
  · simp [hne]
  · simp [hne, h.resolve_left hne]

/-! ### The blocks behind a valid reply -/

theorem Answered.intake_kept (h : Answered g q r d s w)
    (hn : ¬ ((s.pos.get (posAt g q.addr)).state = .opened ∧ d.judges r = .accepted)) :
    w.intake = (s.intake.release q.reserved).withCodes (posAt g q.addr) (s.pos.get (posAt g q.addr)).state d r := by
  rw [h.intake, Intake.batchOf, if_neg hn]

theorem Answered.entry_kept (h : Answered g q r d s w)
    (hn : ¬ ((s.pos.get (posAt g q.addr)).state = .opened ∧ d.judges r = .accepted)) : w.entry = s.entry := by
  rw [h.entry, if_neg hn]

/-- Where nothing enters, the record of the position counts a resend alone. -/
theorem Answered.pos_kept (h : Answered g q r d s w)
    (hn : ¬ ((s.pos.get (posAt g q.addr)).state = .opened ∧ d.judges r = .accepted)) :
    w.pos = s.pos.modify (posAt g q.addr) fun x => { x with
      duplicates := if d.judges r = .resend then min 65535 (x.duplicates + 1) else x.duplicates } := by
  rw [h.pos]
  simp only [if_neg hn]

/-- What the visits behind a reply leave of the displays. -/
theorem Answered.displays_behind (h : Answered g q r d s w) (k : WentOn g a w t) :
    (s.pu.get (posAt g q.addr)).heard (t.pu.get (posAt g q.addr)) q r.applied ∧
      ∀ p, p ≠ posAt g q.addr → t.pu.get p = { s.pu.get p with beep := (t.pu.get p).beep } :=
  ⟨PromptUnit.heard_beep h.heard (k.pu _), fun p hp => by rw [← h.displays p hp]; exact k.pu p⟩

/-- What the visits behind a reply leave of the address. -/
theorem Answered.addr_behind (h : Answered g q r ((s.bus.get g).addrs.get q.addr) s w) (k : WentOn g q.addr w t) :
    ((t.bus.get g).addrs.get q.addr).lastSeq =
        (if ((s.bus.get g).addrs.get q.addr).judges r = .accepted then .some r.seq
          else ((s.bus.get g).addrs.get q.addr).lastSeq) ∧
      ((t.bus.get g).addrs.get q.addr).presence = .online ∧ ((t.bus.get g).addrs.get q.addr).misses = 0 ∧
      ((t.bus.get g).addrs.get q.addr).alarm = r.alarm ∧
      (s.leavesBehind g q.addr → ((t.bus.get g).addrs.get q.addr).quiet =
        if ((s.bus.get g).addrs.get q.addr).judges r = .accepted then 0
        else ((s.bus.get g).addrs.get q.addr).quiet) := by
  obtain ⟨k1, k2, k3, k4⟩ := k.addr
  refine ⟨?_, ?_, ?_, ?_, fun hl => ?_⟩
  · rw [k2, h.addr]; rfl
  · rw [k1, h.addr]; rfl
  · rw [k3, h.addr]; rfl
  · rw [k4, h.addr]; rfl
  · rw [k.quiet (leavesBehind_of_ended h.bus hl), h.addr]; rfl

theorem Answered.buses_behind (h : Answered g q r d s w) (k : WentOn g a w t) (i : Group) (hi : i ≠ g) :
    t.bus.get i = s.bus.get i := (k.buses i hi).trans (h.buses i hi)

theorem Answered.queue_behind (h : Answered g q r d s w) (k : WentOn g a w t) (hs : s.slotsFree 1) :
    ∃ more, t.oq.queue = s.oq.queue ++
      (if d.presence = .online then [] else [.notice (.keypadState (posAt g q.addr) .online)]) ++ more := by
  obtain ⟨more, hm⟩ := k.queue
  exact ⟨more, by rw [hm, h.queue hs]⟩

end Sys2Proof.Machine

open Sys2Proof Sys2Proof.Machine

/-- Settles O18: the accepted batch of an OPEN position, with room for the codes that its reply brings behind it. -/
theorem acceptedBatchEntersTheIntake : Obligations.AcceptedBatchEntersTheIntake := by
  intro s g q seq applied alarm codes hq ha hd hres h5 h1 h4 hc hopen hseq hflags hroom p d
  obtain ⟨w, hw, he⟩ := exec_keypadReplyBytes (applied := applied) (alarm := alarm) (seq := seq) hq ha hd h4 hc
  have ht := goesOn g q.addr s w
  have hj := judged_accepted h1 hseq q.addr applied alarm
  have hin := And.intro hopen hj
  obtain ⟨b1, b2, b3⟩ := Intake.enterBatch_counts (f := s.intake) p codes q.reserved hflags
  have hclear := Intake.enterBatch_of_clear s.intake p codes q.reserved hflags
  obtain ⟨a1, a2, a3, a4, a5⟩ := hw.addr_behind ht
  rw [if_pos hj] at a1 a5
  have hint := hw.intake
  rw [Intake.batchOf, if_pos hin, replyOf_keys] at hint
  obtain ⟨c1, c2⟩ := Intake.withCodes_entries (f := s.intake.enterBatch p codes q.reserved) p .opened d
    (replyOf q.addr seq applied alarm codes) b1 fun _ _ => by omega
  rw [hopen] at hint
  obtain ⟨hheard, hothers⟩ := hw.displays_behind ht
  refine ⟨_, he, ?_, ?_, ?_, a1, a2, a3, a4, ?_, hheard, hothers, a5, hw.buses_behind ht,
    ht.tables.trans hw.tables, ht.attn.trans hw.attn, ht.link.trans hw.link, ht.timeCount.trans hw.timeCount,
    hw.queue_behind ht⟩
  · rw [ht.entries, hint]
    refine c1.trans ?_
    rw [hclear]
    by_cases hp : d.presence = .online
    · simp [hp, replyOf]
    · simp [hp, replyOf]
  · rw [ht.flagCount, hint]
    exact c2
  · rw [ht.pos, hw.pos]
    simp only [hopen, hj, reduceCtorEq, if_false, and_self, if_true, replyOf_keys]
    rfl
  · rw [ht.entry, hw.entry, if_pos hin]
    rfl

namespace Sys2Proof.Machine

variable {s t w : State} {g : Group} {q : Poll} {d : AddrState}

theorem missed_fields (d : AddrState) : d.missed.misses = min 3 (d.misses + 1) ∧
    d.missed.presence = (if d.lostByMiss then .offline else d.presence) ∧
    d.missed.lastSeq = (if d.lostByMiss then .none else d.lastSeq) ∧
    d.missed.alarm = (if d.lostByMiss then false else d.alarm) ∧ d.missed.quiet = d.quiet := by
  unfold AddrState.missed
  split
  · exact ⟨rfl, rfl, rfl, rfl, rfl⟩
  · exact ⟨rfl, rfl, rfl, rfl, rfl⟩

/-- The places of a missed poll released, and KEYPAD_LOST entered where the keypad is lost (R38, R45). -/
theorem Missed.intake_entries {c : Bool} (h : Missed g q c d s w) (hf : s.intake.flagCount = 0) (hn : q.reserved = 5)
    (h5 : 5 ≤ s.intake.reserved) (hr : s.intake.occupied + s.intake.reserved ≤ 128) :
    w.intake.entries = s.intake.entries ++ (if d.lostByMiss ∧ (s.pos.get (posAt g q.addr)).state = .opened then
        [⟨posAt g q.addr, 0x3C, .synthetic, false⟩] else []) ∧ w.intake.flagCount = 0 := by
  obtain ⟨r1, r2, r3⟩ := Intake.release_counts (f := s.intake) q.reserved hf
  obtain ⟨k1, k2, _, _⟩ := Intake.admitCode_if (f := s.intake.release q.reserved) (posAt g q.addr) .keypadLost
    (s.pos.get (posAt g q.addr)).state d.lostByMiss r1 fun _ _ => by omega
  rw [h.intake]
  refine ⟨k1.trans ?_, k2⟩
  rw [Intake.release_of_clear _ _ hf]
  simp only [and_comm]
  rfl

/-! ### The visits behind a miss (R22) -/

theorem visit_round (g : Group) (a : Addr) (s : State) : ((visit g a s).bus.get g).round = (s.bus.get g).round := by
  have onAddr : ∀ f, ((s.onAddr g a f).bus.get g).round = (s.bus.get g).round := fun f => by
    rw [State.onAddr, State.onBus_bus, Quad.get_modify_same]
  cases hd : s.decision g a with
  | skip => rw [visit_skips hd]; exact onAddr _
  | skipThinning => rw [visit_thins hd]; exact onAddr _
  | poll =>
    rw [visit_polls hd]
    split
    · rw [polled_bus_get]
    · exact onAddr _

/-- The state with an address next to visit. -/
abbrev State.atAddress (s : State) (g : Group) (a : Addr) : State :=
  s.onBus g fun b => { b with round := .inProgress a.val }

theorem runVisits_sent {a : Addr} (h : ((visit g a (s.atAddress g a)).bus.get g).poll ≠ .none) :
    runVisits g (a.val + 1) s = visit g a (s.atAddress g a) := by
  have ha : (⟨a.val % 4, Nat.mod_lt _ (by decide)⟩ : Addr) = a := Fin.ext (Nat.mod_eq_of_lt a.isLt)
  rw [runVisits, ha]
  cases hp : ((visit g a (s.atAddress g a)).bus.get g).poll with
  | none => exact absurd hp h
  | some x => rfl

theorem runVisits_unsent {a : Addr} (h : ((visit g a (s.atAddress g a)).bus.get g).poll = .none) :
    runVisits g (a.val + 1) s = runVisits g a.val (visit g a (s.atAddress g a)) := by
  have ha : (⟨a.val % 4, Nat.mod_lt _ (by decide)⟩ : Addr) = a := Fin.ext (Nat.mod_eq_of_lt a.isLt)
  rw [runVisits, ha]
  simp only [h]

/-- A round that a poll holds up starts no other. -/
theorem continueRound_of_round {n : Nat} (h : ((runVisits g n s).bus.get g).round ≠ .finished) :
    continueRound g n s = runVisits g n s := if_neg fun hx => h hx.1

theorem atAddress_round (g : Group) (a : Addr) (s : State) :
    ((visit g a (s.atAddress g a)).bus.get g).round = .inProgress a.val := by
  rw [visit_round, State.onBus_bus, Quad.get_modify_same]

theorem continueRound_sent {a : Addr} (h : ((visit g a (s.atAddress g a)).bus.get g).poll ≠ .none) :
    continueRound g (a.val + 1) s = visit g a (s.atAddress g a) := by
  rw [continueRound_of_round, runVisits_sent h]
  rw [runVisits_sent h, atAddress_round]
  exact nofun

/-- Behind the last visit, with none due, the round finishes. -/
theorem continueRound_ends {a : Addr} (h : ((visit g a (s.atAddress g a)).bus.get g).poll = .none) (ha : a = 0)
    (hdue : (s.bus.get g).roundDue = false) : continueRound g (a.val + 1) s =
      (visit g a (s.atAddress g a)).onBus g fun b => { b with round := .finished } := by
  have hkept := (runVisits_roundKept g (a.val + 1) s).roundDue
  rw [continueRound, if_neg, runVisits_unsent h, ha]
  · rfl
  · rintro ⟨_, hx⟩
    exact nomatch hx.symm.trans (hkept.trans hdue)

/-- A visit that sends no poll has the next address visited in the same event. -/
theorem continueRound_second {a b : Addr} (h : ((visit g a (s.atAddress g a)).bus.get g).poll = .none)
    (hb : b.val + 1 = a.val)
    (hs : ((visit g b ((visit g a (s.atAddress g a)).atAddress g b)).bus.get g).poll ≠ .none) :
    continueRound g (a.val + 1) s = visit g b ((visit g a (s.atAddress g a)).atAddress g b) := by
  have hrun : runVisits g (a.val + 1) s = visit g b ((visit g a (s.atAddress g a)).atAddress g b) := by
    rw [runVisits_unsent h, ← hb, runVisits_sent hs]
  rw [continueRound_of_round, hrun]
  rw [hrun, atAddress_round]
  exact nofun

/-- The state that a miss of an address that is not lost leaves for the next visit. -/
theorem missPoll_atAddress {a : Addr} (h : ¬ ((s.bus.get g).addrs.get q.addr).lostByMiss) :
    (missPoll g q false s).atAddress g a = { s with
      pos := s.pos.modify (posAt g q.addr) fun r => { r with misses := min 65535 (r.misses + 1) }
      bus := s.bus.modify g fun b => { b with
        poll := .none, windowTimer := .stopped, round := .inProgress a.val,
        addrs := b.addrs.modify q.addr fun d => { d with misses := min 3 (d.misses + 1) } }
      intake := s.intake.release q.reserved } := by
  rw [missPoll_kept false h]
  simp only [State.atAddress, State.missCounted, State.onAddr, State.onPos, State.onIntake, State.onBus,
    Quad.modify_modify_same]
  rfl

end Sys2Proof.Machine

open Sys2Proof Sys2Proof.Machine

/-- Settles O19: a miss of any kind at the records, and the visits behind one that the window's expiry counts. -/
theorem missedPollsTakeTheKeypadOffline : Obligations.MissedPollsTakeTheKeypadOffline := by
  refine ⟨fun s g q c checkFailed hq hd hres h5 hroom hflags hc => ?_, fun s g q a hq hd ht hr hkeep => ?_⟩
  · intro p d lost
    obtain ⟨w, hw, he⟩ := exec_missesPoll hq hd hc
    have ht := goesOn g q.addr s w
    obtain ⟨f1, f2, f3, f4, f5⟩ := missed_fields d
    obtain ⟨k1, k2, k3, k4⟩ := ht.addr
    obtain ⟨i1, i2⟩ := hw.intake_entries hflags hres h5 hroom
    rw [hw.addr] at k1 k2 k3 k4
    refine ⟨_, he, ?_, k3.trans f1, k1.trans f2, k2.trans f3, k4.trans f4, ?_, ?_, ht.entry.trans hw.entry,
      ht.tables.trans hw.tables, ht.attn.trans hw.attn, ht.link.trans hw.link, ht.timeCount.trans hw.timeCount,
      fun i hi => ?_, fun r => ?_, fun hl => ?_, fun hs => ?_⟩
    · rw [ht.pos, hw.pos]
    · rw [ht.entries, i1]
    · rw [ht.flagCount, i2]
    · rw [ht.buses i hi, hw.bus, Quad.get_modify_ne _ _ hi]
    · rw [← hw.pu]
      exact ht.pu r
    · rw [ht.quiet (leavesBehind_of_ended hw.bus hl), hw.addr]
      exact f5
    · obtain ⟨more, hm⟩ := ht.queue
      exact ⟨more, by rw [hm, hw.queue hs]⟩
  · intro u v
    have hlost : ¬ ((s.bus.get g).addrs.get q.addr).lostByMiss := by
      rintro ⟨h1, h2⟩
      rcases hkeep with h | h
      · exact h h1
      · omega
    have hu : (missPoll g q false s).atAddress g a = u := missPoll_atAddress hlost
    have hv : visit g a ((missPoll g q false s).atAddress g a) = v := by rw [hu]
    have hb : (missPoll g q false s).bus.get g = (s.bus.get g).pollEnded q.addr AddrState.missed := by
      rw [missPoll_bus, Quad.get_modify_same]
    rw [exec_windowExpiry hq hd ht, nextVisit_inProgress (n := a.val + 1) (by rw [hb]; exact hr)]
    refine ⟨fun hp => ?_, fun hp ha hdue => ?_, fun b hp hb => ?_⟩
    · rw [continueRound_sent (by rw [hv]; exact hp), hv]
    · rw [continueRound_ends (by rw [hv]; exact hp) ha (by rw [hb]; exact hdue), hv]
      rfl
    · intro w hs
      rw [continueRound_second (b := b) (by rw [hv]; exact hp) hb (by rw [hv]; exact hs), hv]
      rfl

end

section
/-! SUPPORT. The flags that freed places serve, the notice of a change of pressure, and the end of a disowned poll (R40, R45 to R49, R53). -/

namespace Sys2Proof.Machine

open Sys2Proof

variable {s t u v w : State} {g : Group} {q : Poll} {f h : Intake} {p : Pos}

/-! ### The service of flags (R45, R47, R49) -/

theorem flagOrder_nodup : flagOrder.Nodup :=
  (List.Nodup.product (l₂ := Synth.inOrder) allPositions_nodup (by decide) : (allPositions ×ˢ Synth.inOrder).Nodup)

theorem flagOrder_of_pos (p : Pos) : (flagOrder.filter fun x => decide (x.1 = p)) = Synth.inOrder.map fun k => (p, k) := by
  revert p
  decide

/-- The flags of a list that are set. -/
abbrev Intake.setIn (f : Intake) (l : List (Pos × Synth)) : List (Pos × Synth) := l.filter fun x => (f.flags.get x.1).get x.2

theorem serveFlag_get (f : Intake) (p r : Pos) (k j : Synth) : ((f.serveFlag p k).flags.get r).get j =
    ((f.flags.get r).get j && decide ((r, j) ≠ (p, k))) := by
  simp only [Intake.serveFlag, Intake.putFlag, Intake.enter, PerPos.get_modify]
  by_cases hr : r = p
  · subst hr
    rw [if_pos rfl, PendingFlags.get_put]
    by_cases hj : j = k
    · simp [hj]
    · simp [hj]
  · simp [hr]

/-- A flag of the list served leaves the others of the list as they are. -/
theorem setIn_serveFlag {l : List (Pos × Synth)} {k : Synth} (hn : (p, k) ∉ l) : (f.serveFlag p k).setIn l = f.setIn l := by
  refine List.filter_congr fun x hx => ?_
  have hne : x ≠ (p, k) := fun h => hn (h ▸ hx)
  rw [serveFlag_get]
  simp [hne]

theorem setIn_cons_set {l : List (Pos × Synth)} {x : Pos × Synth} (h : (f.flags.get x.1).get x.2 = true) :
    f.setIn (x :: l) = x :: f.setIn l :=
  List.filter_cons_of_pos (p := fun x : Pos × Synth => (f.flags.get x.1).get x.2) h

theorem setIn_cons_clear {l : List (Pos × Synth)} {x : Pos × Synth} (h : ¬ (f.flags.get x.1).get x.2 = true) :
    f.setIn (x :: l) = f.setIn l :=
  List.filter_cons_of_neg (p := fun x : Pos × Synth => (f.flags.get x.1).get x.2) h

theorem takesIn_refl (f : Intake) : f.takesIn f [] [] := by
  refine ⟨by simp, rfl, fun p k => ?_⟩
  simp

/-- One flag served ahead of others. -/
theorem takesIn_cons {k : Synth} {served : List (Pos × Synth)} {behind : List IntakeEntry}
    (hg : h.takesIn (f.serveFlag p k) served behind) : h.takesIn f ((p, k) :: served) behind := by
  obtain ⟨he, hp, hf⟩ := hg
  refine ⟨?_, hp, fun r j => ?_⟩
  · rw [he]
    simp [Intake.serveFlag, Intake.putFlag, Intake.enter]
  · rw [hf, serveFlag_get, Bool.and_assoc, ← Bool.decide_and]
    congr 1
    rw [decide_eq_decide, List.mem_cons, not_or]

theorem serveFlag_free (f : Intake) (p : Pos) (k : Synth) : (f.serveFlag p k).free = f.free - 1 := by
  simp only [Intake.free, Intake.occupied, Intake.serveFlag, Intake.putFlag, Intake.enter, List.length_append,
    List.length_singleton]
  omega

/-- The flags of a list serve from the free places in the order of the list, as far as these go (R49). -/
theorem foldl_serveIfFree_takesIn (l : List (Pos × Synth)) (hl : l.Nodup) (f : Intake) :
    (l.foldl Intake.serveIfFree f).takesIn f ((f.setIn l).take f.free) [] := by
  induction l generalizing f with
  | nil => simpa using takesIn_refl f
  | cons x rest ih =>
    obtain ⟨hx, hrest⟩ := List.nodup_cons.1 hl
    rw [List.foldl_cons, Intake.serveIfFree]
    by_cases hset : (f.flags.get x.1).get x.2 = true
    · rw [setIn_cons_set hset]
      by_cases hfree : 1 ≤ f.free
      · rw [if_pos ⟨hset, hfree⟩]
        obtain ⟨n, hn⟩ : ∃ n, f.free = n + 1 := ⟨f.free - 1, by omega⟩
        have h := ih hrest (f.serveFlag x.1 x.2)
        rw [setIn_serveFlag hx, serveFlag_free, hn, Nat.add_sub_cancel] at h
        rw [hn, List.take_succ_cons]
        exact takesIn_cons h
      · rw [if_neg fun h => hfree h.2]
        have hn : f.free = 0 := by omega
        have h := ih hrest f
        rw [hn, List.take_zero] at h ⊢
        exact h
    · rw [if_neg fun h => hset h.1, setIn_cons_clear hset]
      exact ih hrest f

theorem serveFlags_takesIn (f : Intake) : f.serveFlags.takesIn f (f.flagsSet.take f.free) [] :=
  foldl_serveIfFree_takesIn flagOrder flagOrder_nodup f

/-- The flags of a position serve from the places that its batch leaves over (R47). -/
theorem serveOwn_takesIn (p : Pos) (l : List Synth) (hl : l.Nodup) (n : Nat) (f : Intake) :
    (f.serveOwn p l n).takesIn f ((f.setIn (l.map fun k => (p, k))).take n) [] := by
  induction l generalizing n f with
  | nil =>
    have he : f.serveOwn p [] n = f := by cases n <;> rfl
    rw [he]
    simpa using takesIn_refl f
  | cons k rest ih =>
    obtain ⟨hk, hrest⟩ := List.nodup_cons.1 hl
    cases n with
    | zero =>
      rw [List.take_zero]
      exact takesIn_refl f
    | succ n =>
      rw [Intake.serveOwn, List.map_cons]
      by_cases hset : (f.flags.get p).get k = true
      · rw [if_pos hset, setIn_cons_set hset, List.take_succ_cons]
        have h := ih hrest n (f.serveFlag p k)
        rw [setIn_serveFlag (by simpa using hk)] at h
        exact takesIn_cons h
      · rw [if_neg hset, setIn_cons_clear hset]
        exact ih hrest (n + 1) f

/-- A batch enters behind its position's own flags, and what is left over serves the others (R46, R47). -/
theorem enterBatch_takesIn (f : Intake) (p : Pos) (codes : List Code) (n : Nat) : ∃ mid : Intake,
    mid.takesIn f ((f.flagsSet.filter fun x => decide (x.1 = p)).take (n - codes.length))
      (codes.map fun c => ⟨p, c, .keypad, false⟩) ∧
    mid.reserved = f.reserved - n ∧ f.enterBatch p codes n = mid.serveFlags := by
  obtain ⟨he, hp, hf⟩ := serveOwn_takesIn p Synth.inOrder (by decide) (n - codes.length)
    { f with reserved := f.reserved - n }
  have hset : f.flagsSet.filter (fun x => decide (x.1 = p)) = f.setIn (Synth.inOrder.map fun k => (p, k)) := by
    rw [← flagOrder_of_pos, Intake.flagsSet, Intake.setIn, List.filter_comm]
  obtain ⟨hreserved, _⟩ := Intake.serveOwn_counts p Synth.inOrder (n - codes.length) { f with reserved := f.reserved - n }
  refine ⟨{ Intake.serveOwn p Synth.inOrder (n - codes.length) { f with reserved := f.reserved - n } with
    entries := (Intake.serveOwn p Synth.inOrder (n - codes.length) { f with reserved := f.reserved - n }).entries ++
      codes.map fun c => ⟨p, c, .keypad, false⟩ }, ⟨?_, hp, ?_⟩, hreserved, rfl⟩
  · rw [hset, he, List.append_nil]
  · rw [hset]
    exact hf

/-! ### The judgement of pressure (R52, R53) -/

/-- FIFO_PRESSURE owed with nothing else owed and a slot free is queued at once (R53). -/
theorem postPressure_queue {x : OwedPressure} (hs : s.slotsFree 1) (y : Pressure) :
    (serveOwed ((s.onIntake fun f => { f with pressure := y }).onOq fun q => { q with pressure := .some x })).oq.queue =
      s.oq.queue ++ [.notice (.fifoPressure x.pressure x.occupied x.reserved)] := by
  obtain ⟨h, hf⟩ := hs
  have ht : takeOwed .pressure ((s.onIntake fun f => { f with pressure := y }).onOq fun q =>
      { q with pressure := .some x }) = .some (.fifoPressure x.pressure x.occupied x.reserved,
        (s.onIntake fun f => { f with pressure := y }).onOq fun q => { q with pressure := .none }) := rfl
  rw [serveOwed_only ht (fun j hj => ?_) hf, enqueue_oq]
  · rfl
  · have hj' := isOwed_of_anyOwed h j
    cases j with
    | result r => rw [isOwed_result] at hj' ⊢; exact hj'
    | expired r => rw [isOwed_expired] at hj' ⊢; exact hj'
    | card r => rw [isOwed_card] at hj' ⊢; exact hj'
    | keypad r => rw [isOwed_keypad] at hj' ⊢; exact hj'
    | pressure => exact absurd rfl hj

/-- Pressure as the test of R52 gives it. -/
theorem judgePressure_intake (before : State)
    (h : s.intake.occupied ≠ before.intake.occupied ∨ s.intake.reserved ≠ before.intake.reserved) :
    (judgePressure before s).intake = { s.intake with
      pressure := nextPressure s.intake.pressure (s.intake.occupied + s.intake.reserved) } := by
  rw [judgePressure, if_neg (by tauto)]
  dsimp only
  split
  · next he => rw [he]
  · rw [serveOwed_intake]
    rfl

theorem judgePressure_changed {before : State}
    (hc : ¬ (s.intake.occupied = before.intake.occupied ∧ s.intake.reserved = before.intake.reserved))
    (hp : nextPressure s.intake.pressure (s.intake.occupied + s.intake.reserved) ≠ s.intake.pressure) :
    judgePressure before s = serveOwed ((s.onIntake fun f => { f with
      pressure := nextPressure s.intake.pressure (s.intake.occupied + s.intake.reserved) }).onOq fun q =>
        { q with pressure := .some ⟨nextPressure s.intake.pressure (s.intake.occupied + s.intake.reserved),
          s.intake.occupied, s.intake.reserved⟩ }) := (if_neg hc).trans (if_neg hp)

theorem judgePressure_queue (before : State) (hs : s.slotsFree 1) : (judgePressure before s).oq.queue = s.oq.queue ++
    (if (judgePressure before s).intake.pressure = s.intake.pressure then []
     else [.notice (.fifoPressure (judgePressure before s).intake.pressure s.intake.occupied s.intake.reserved)]) := by
  by_cases hc : s.intake.occupied = before.intake.occupied ∧ s.intake.reserved = before.intake.reserved
  · rw [judgePressure_of_counts hc.1 hc.2, if_pos rfl, List.append_nil]
  · rw [judgePressure_intake before (by tauto)]
    by_cases hp : nextPressure s.intake.pressure (s.intake.occupied + s.intake.reserved) = s.intake.pressure
    · rw [judgePressure_of_same before s hp, if_pos hp, List.append_nil]
    · rw [judgePressure_changed hc hp, postPressure_queue hs, if_neg hp]

/-! ### WITHDRAWAL at the IF -/

theorem Intake.eq_of_fields (he : h.entries = f.entries) (hr : h.reserved = f.reserved) (hf : h.flags = f.flags) :
    h = { f with pressure := h.pressure } := by
  rw [← he, ← hr, ← hf]

theorem exec_withdrawal_intake {e : IntakeEntry} {rest : List IntakeEntry} (he : s.intake.entries = e :: rest)
    (hx : exec .withdrawal s = .next t) (hh : s.halted = false) (hg : grantable s = true) :
    t.intake = { Intake.serveFlags { s.intake with entries := rest } with pressure := t.intake.pressure } := by
  have hrun : exec .withdrawal s = .next (judgePressure s (Machine.withdraw e rest s)) := by
    simp only [exec, execWithdrawal, he, hh, hg, and_self, if_true]
  obtain rfl := Host.Outcome.next.inj (hrun.symm.trans hx)
  have hi : (Machine.withdraw e rest s).intake = Intake.serveFlags { s.intake with entries := rest } := by
    unfold Machine.withdraw
    rw [(processEntry_places e _).1, State.onIntake_intake, State.onOq_intake]
  have h1 := judgePressure_entries (u := s) (s := Machine.withdraw e rest s)
  have h2 := judgePressure_reserved (u := s) (s := Machine.withdraw e rest s)
  have h3 := judgePressure_flags (u := s) (s := Machine.withdraw e rest s)
  rw [hi] at h1 h2 h3
  exact Intake.eq_of_fields h1 h2 h3

end Sys2Proof.Machine
end

section
/-! SUPPORT. The replies that enter no code, the end of a disowned poll (R40), and the IF as the events make it. -/

namespace Sys2Proof.Machine

open Sys2Proof

variable {s t u v w : State} {g : Group} {q : Poll} {r : Reply} {d : AddrState} {f : Intake} {p : Pos}

/-! ### A disowned poll ends (R40) -/

/-- The state as round 0 starts at the end of a disowned poll. -/
def State.disownedEnds (s : State) (g : Group) : State :=
  s.onBus g fun b => { b with
    settings := b.pending.getD b.settings, pending := .none, round := .inProgress 4, poll := .none,
    windowTimer := .stopped, roundTimer := .running (b.pending.getD b.settings).period }

theorem disownedEnds_bus : (s.disownedEnds g).bus.get g = { s.bus.get g with
    settings := (s.bus.get g).pending.getD (s.bus.get g).settings, pending := .none, round := .inProgress 4,
    poll := .none, windowTimer := .stopped,
    roundTimer := .running ((s.bus.get g).pending.getD (s.bus.get g).settings).period } := Quad.get_modify_same _ _ _

theorem endDisowned_eq (g : Group) (s : State) : endDisowned g s = continueRound g 4 (s.disownedEnds g) := by
  have hbus : ∀ b : Bus, Bus.startRound true { b.endPoll with roundTimer := .running b.settings.period } =
      { b with
        settings := b.pending.getD b.settings, pending := .none, round := .inProgress 4, poll := .none,
        windowTimer := .stopped, roundTimer := .running (b.pending.getD b.settings).period } := fun b => by
    unfold Bus.startRound Bus.endPoll
    cases h : b.pending with
    | none => simp
    | some ps => simp
  simp only [endDisowned, firstRound, State.disownedEnds, State.onBus, Quad.modify_modify_same, hbus]

theorem endDisowned_loadWindow (x : Poll) : endDisowned g (s.onBus g (Bus.loadWindow x)) = endDisowned g s := by
  simp only [endDisowned, State.onBus, Quad.modify_modify_same]
  rfl

theorem exec_disownedEnds {c : Instr} (hq : (s.bus.get g).poll = .some q) (hd : q.disowned = true)
    (hc : s.endsPoll g q c) : exec c s = .next (judgePressure s (continueRound g 4 (s.disownedEnds g))) := by
  rw [← endDisowned_eq]
  rcases hc with ⟨rfl, ht⟩ | ⟨bytes, r, rfl, ha, hr⟩
  · simp only [exec, execResponseWindowExpiry, hq, ht, Timer.due_running_zero, hd, if_true]
  · obtain ⟨got, he⟩ := execKeypadReply_complete hq ha hr
    refine (show exec (.keypadReply g bytes) s = _ from he).trans ?_
    rw [replyEnds, if_pos hd, receivingAt, endDisowned_loadWindow]
    exact congrArg Host.Outcome.next (judgePressure_before rfl _)

/-- With no round due behind it the round runs alone. -/
theorem continueRound_alone {n : Nat} (h : (s.bus.get g).roundDue = false) :
    continueRound g n s = runVisits g n s := by
  refine if_neg ?_
  rintro ⟨_, hx⟩
  exact nomatch hx.symm.trans ((runVisits_roundKept g n s).roundDue.trans h)

/-- Round 0 polls address 3 of a keypad that is not ONLINE when the round counter asks for it (R23). -/
theorem disowned_polls (hp : s.intake.pressure = .normal) (hr : (s.bus.get g).roundCounter.toNat % 16 = 0)
    (ho : ((s.bus.get g).addrs.get 3).presence ≠ .online) (hf : 5 + s.intake.flagCount ≤ s.intake.free) :
    continueRound g 4 (s.disownedEnds g) = ((s.disownedEnds g).atAddress g 3).polled g 3 := by
  have hb : ((s.disownedEnds g).atAddress g 3).bus.get g = { (s.disownedEnds g).bus.get g with round := .inProgress 3 } :=
    Quad.get_modify_same _ _ _
  have hdec : ((s.disownedEnds g).atAddress g 3).decision g 3 = .poll := by
    rw [decision_absent (s := (s.disownedEnds g).atAddress g 3) (fun h => nomatch hp.symm.trans h.1)
      (.inr (by rw [hb, disownedEnds_bus]; exact ho)), hb, disownedEnds_bus, if_pos hr]
  have hv : visit g 3 ((s.disownedEnds g).atAddress g 3) = ((s.disownedEnds g).atAddress g 3).polled g 3 :=
    (visit_polls hdec).trans (if_pos hf)
  have hc := continueRound_sent (a := 3) (g := g) (s := s.disownedEnds g) (by rw [hv, polled_bus_get]; exact nofun)
  exact hc.trans hv

end Sys2Proof.Machine

open Sys2Proof Sys2Proof.Machine

/-- A reply with no key to enter, of a keypad whose presence and alarm it leaves as they were. -/
theorem reply_entersNothing (s : State) (g : Group) (q : Poll) (seq applied : Bool) (codes : List Code)
    (hq : (s.bus.get g).poll = .some q) (ha : q.answerable) (hd : q.disowned = false) (h4 : codes.length ≤ 4)
    (hc : ∀ c ∈ codes, c.val ≤ 0x37) (hon : ((s.bus.get g).addrs.get q.addr).presence = .online)
    (hno : codes = [] ∨ ((s.bus.get g).addrs.get q.addr).lastSeq = .some seq) (hflags : s.intake.flagCount = 0) :
    ∃ t, exec (.keypadReply g (keypadReplyBytes q.addr seq applied ((s.bus.get g).addrs.get q.addr).alarm codes)) s =
        .next t ∧
      t.intake.entries = s.intake.entries ∧ t.entry = s.entry ∧
      t.pos = s.pos.modify (posAt g q.addr) (fun r =>
        { r with duplicates := if codes = [] then r.duplicates else min 65535 (r.duplicates + 1) }) ∧
      ((t.bus.get g).addrs.get q.addr).lastSeq = ((s.bus.get g).addrs.get q.addr).lastSeq ∧
      ((t.bus.get g).addrs.get q.addr).misses = 0 ∧
      (s.pu.get (posAt g q.addr)).heard (t.pu.get (posAt g q.addr)) q applied ∧
      (s.leavesBehind g q.addr →
        ((t.bus.get g).addrs.get q.addr).quiet = ((s.bus.get g).addrs.get q.addr).quiet) := by
  obtain ⟨w, hw, he⟩ := exec_keypadReplyBytes (applied := applied) (seq := seq)
    (alarm := ((s.bus.get g).addrs.get q.addr).alarm) hq ha hd h4 hc
  have ht := goesOn g q.addr s w
  have hj := judged_not_accepted (d := (s.bus.get g).addrs.get q.addr) hno q.addr applied
    ((s.bus.get g).addrs.get q.addr).alarm
  have hn := fun h : (s.pos.get (posAt g q.addr)).state = .opened ∧ _ => hj h.2
  obtain ⟨a1, _, a3, _, a5⟩ := hw.addr_behind ht
  rw [if_neg hj] at a1 a5
  obtain ⟨hheard, _⟩ := hw.displays_behind ht
  refine ⟨_, he, ?_, ht.entry.trans (hw.entry_kept hn), ?_, a1, a3, hheard, a5⟩
  · obtain ⟨h1, _, _⟩ := Intake.release_counts (f := s.intake) q.reserved hflags
    have hstill : ¬ (((s.bus.get g).addrs.get q.addr).presence ≠ .online ∨
        (replyOf q.addr seq applied ((s.bus.get g).addrs.get q.addr).alarm codes).alarm = true ∧
          ((s.bus.get g).addrs.get q.addr).alarm = false) := by
      rintro (h | ⟨h, h'⟩)
      · exact h hon
      · exact nomatch h.symm.trans h'
    obtain ⟨c1, _⟩ := Intake.withCodes_entries (posAt g q.addr) (s.pos.get (posAt g q.addr)).state
      ((s.bus.get g).addrs.get q.addr) _ h1 fun _ hx => absurd hx hstill
    rw [ht.entries, hw.intake_kept hn, c1, if_neg fun h => hstill (.inl h.2), if_neg fun h => hstill (.inr h.2),
      Intake.release_of_clear _ _ hflags, List.append_nil, List.append_nil]
  · rw [ht.pos, hw.pos_kept hn]
    simp only [judged_resend hno, ne_eq, ite_not]

/-- A reply with no key to enter, with the keypad brought ONLINE and its alarm flag compared. -/
theorem reply_comparesAlarm (s : State) (g : Group) (q : Poll) (seq applied alarm : Bool) (codes : List Code)
    (hq : (s.bus.get g).poll = .some q) (ha : q.answerable) (hd : q.disowned = false) (hres : q.reserved = 5)
    (h5 : 5 ≤ s.intake.reserved) (h4 : codes.length ≤ 4) (hc : ∀ c ∈ codes, c.val ≤ 0x37)
    (hno : codes = [] ∨ ((s.bus.get g).addrs.get q.addr).lastSeq = .some seq) (hflags : s.intake.flagCount = 0)
    (hroom : s.intake.occupied + s.intake.reserved ≤ 131) :
    let p := posAt g q.addr
    let d := (s.bus.get g).addrs.get q.addr
    ∃ t, exec (.keypadReply g (keypadReplyBytes q.addr seq applied alarm codes)) s = .next t ∧
      t.intake.entries = s.intake.entries ++
        (if (s.pos.get p).state = .opened ∧ d.presence ≠ .online then [⟨p, 0x3D, .synthetic, false⟩] else []) ++
        (if (s.pos.get p).state = .opened ∧ alarm = true ∧ d.alarm = false then
          [⟨p, 0x3F, .synthetic, false⟩] else []) ∧
      t.intake.flagCount = 0 ∧ t.entry = s.entry ∧
      t.pos = s.pos.modify p (fun r =>
        { r with duplicates := if codes = [] then r.duplicates else min 65535 (r.duplicates + 1) }) ∧
      ((t.bus.get g).addrs.get q.addr).lastSeq = d.lastSeq ∧
      ((t.bus.get g).addrs.get q.addr).presence = .online ∧
      ((t.bus.get g).addrs.get q.addr).misses = 0 ∧ ((t.bus.get g).addrs.get q.addr).alarm = alarm ∧
      (s.pu.get p).heard (t.pu.get p) q applied ∧
      (∀ r, r ≠ p → t.pu.get r = { s.pu.get r with beep := (t.pu.get r).beep }) ∧
      (s.leavesBehind g q.addr → ((t.bus.get g).addrs.get q.addr).quiet = d.quiet) ∧
      (∀ h, h ≠ g → t.bus.get h = s.bus.get h) ∧ t.tables = s.tables ∧ t.attn = s.attn ∧ t.link = s.link ∧
      t.timeCount = s.timeCount ∧
      (s.slotsFree 1 → ∃ more, t.oq.queue = s.oq.queue ++
        (if d.presence = .online then [] else [.notice (.keypadState p .online)]) ++ more) := by
  intro p d
  obtain ⟨w, hw, he⟩ := exec_keypadReplyBytes (applied := applied) (alarm := alarm) (seq := seq) hq ha hd h4 hc
  have ht := goesOn g q.addr s w
  have hj := judged_not_accepted (d := (s.bus.get g).addrs.get q.addr) hno q.addr applied alarm
  have hn := fun h : (s.pos.get (posAt g q.addr)).state = .opened ∧ _ => hj h.2
  obtain ⟨a1, a2, a3, a4, a5⟩ := hw.addr_behind ht
  rw [if_neg hj] at a1 a5
  obtain ⟨hheard, hothers⟩ := hw.displays_behind ht
  obtain ⟨h1, h2, h3⟩ := Intake.release_counts (f := s.intake) q.reserved hflags
  obtain ⟨c1, c2⟩ := Intake.withCodes_entries (f := s.intake.release q.reserved) p (s.pos.get p).state d
    (replyOf q.addr seq applied alarm codes) h1 fun _ _ => by omega
  refine ⟨_, he, ?_, ?_, ht.entry.trans (hw.entry_kept hn), ?_, a1, a2, a3, a4, hheard, hothers, a5,
    hw.buses_behind ht, ht.tables.trans hw.tables, ht.attn.trans hw.attn, ht.link.trans hw.link,
    ht.timeCount.trans hw.timeCount, hw.queue_behind ht⟩
  · rw [ht.entries, hw.intake_kept hn]
    refine c1.trans ?_
    rw [Intake.release_of_clear _ _ hflags]
    rfl
  · rw [ht.flagCount, hw.intake_kept hn]
    exact c2
  · rw [ht.pos, hw.pos_kept hn]
    simp only [judged_resend hno, ne_eq, ite_not]
    rfl

/-- A batch for a CLOSED position: its keypad is kept in step and nothing enters. -/
theorem reply_ofClosed (s : State) (g : Group) (q : Poll) (seq applied alarm : Bool) (codes : List Code)
    (hq : (s.bus.get g).poll = .some q) (ha : q.answerable) (hd : q.disowned = false) (h1 : 1 ≤ codes.length)
    (h4 : codes.length ≤ 4) (hc : ∀ c ∈ codes, c.val ≤ 0x37) (hclosed : (s.pos.get (posAt g q.addr)).state = .closed)
    (hseq : ((s.bus.get g).addrs.get q.addr).lastSeq ≠ .some seq) (hflags : s.intake.flagCount = 0) :
    ∃ t, exec (.keypadReply g (keypadReplyBytes q.addr seq applied alarm codes)) s = .next t ∧
      t.intake.entries = s.intake.entries ∧ t.intake.flagCount = 0 ∧ t.entry = s.entry ∧ t.pos = s.pos ∧
      ((t.bus.get g).addrs.get q.addr).lastSeq = .some seq ∧
      ((t.bus.get g).addrs.get q.addr).presence = .online ∧
      ((t.bus.get g).addrs.get q.addr).misses = 0 ∧ ((t.bus.get g).addrs.get q.addr).alarm = alarm ∧
      (s.pu.get (posAt g q.addr)).heard (t.pu.get (posAt g q.addr)) q applied ∧
      (∀ r, r ≠ posAt g q.addr → t.pu.get r = { s.pu.get r with beep := (t.pu.get r).beep }) ∧
      (s.leavesBehind g q.addr → ((t.bus.get g).addrs.get q.addr).quiet = 0) ∧
      (∀ h, h ≠ g → t.bus.get h = s.bus.get h) ∧ t.tables = s.tables ∧ t.attn = s.attn ∧ t.link = s.link ∧
      t.timeCount = s.timeCount ∧
      (s.slotsFree 1 → ∃ more, t.oq.queue = s.oq.queue ++
        (if ((s.bus.get g).addrs.get q.addr).presence = .online then []
         else [.notice (.keypadState (posAt g q.addr) .online)]) ++ more) := by
  obtain ⟨w, hw, he⟩ := exec_keypadReplyBytes (applied := applied) (alarm := alarm) (seq := seq) hq ha hd h4 hc
  have ht := goesOn g q.addr s w
  have hj := judged_accepted h1 hseq q.addr applied alarm
  have hshut : (s.pos.get (posAt g q.addr)).state ≠ .opened := fun h => nomatch hclosed.symm.trans h
  have hn : ¬ ((s.pos.get (posAt g q.addr)).state = .opened ∧
      ((s.bus.get g).addrs.get q.addr).judges (replyOf q.addr seq applied alarm codes) = .accepted) := fun h => hshut h.1
  obtain ⟨a1, a2, a3, a4, a5⟩ := hw.addr_behind ht
  rw [if_pos hj] at a1 a5
  obtain ⟨hheard, hothers⟩ := hw.displays_behind ht
  obtain ⟨r1, r2, r3⟩ := Intake.release_counts (f := s.intake) q.reserved hflags
  obtain ⟨c1, c2⟩ := Intake.withCodes_entries (f := s.intake.release q.reserved) (posAt g q.addr)
    (s.pos.get (posAt g q.addr)).state ((s.bus.get g).addrs.get q.addr) (replyOf q.addr seq applied alarm codes) r1
    fun ho _ => absurd ho hshut
  refine ⟨_, he, ?_, ?_, ht.entry.trans (hw.entry_kept hn), ?_, a1, a2, a3, a4, hheard, hothers, a5,
    hw.buses_behind ht, ht.tables.trans hw.tables, ht.attn.trans hw.attn, ht.link.trans hw.link,
    ht.timeCount.trans hw.timeCount, hw.queue_behind ht⟩
  · rw [ht.entries, hw.intake_kept hn, c1, if_neg fun h => hshut h.1, if_neg fun h => hshut h.1, Intake.release_of_clear _ _ hflags, List.append_nil,
      List.append_nil]
  · rw [ht.flagCount, hw.intake_kept hn]
    exact c2
  · rw [ht.pos, hw.pos_kept hn]
    simp only [hj, reduceCtorEq, if_false]
    exact PerPos.set_get_same _ _

/-- The end of a disowned poll: round 0 under the settings pending then, with the visit of address 3 in that event. -/
theorem disowned_startsRoundZero (s : State) (g : Group) (q : Poll) (c : Instr) (hq : (s.bus.get g).poll = .some q)
    (hd : q.disowned = true) (hdue : (s.bus.get g).roundDue = false) (hc : s.endsPoll g q c) :
    let set := (s.bus.get g).pending.getD (s.bus.get g).settings
    let d := (s.bus.get g).addrs.get 3
    let u := s.pu.get (posAt g 3)
    ∃ t, exec c s = .next t ∧
      t.pos = s.pos ∧ t.entry = s.entry ∧ t.intake.entries = s.intake.entries ∧ t.intake.flags = s.intake.flags ∧
      t.tables = s.tables ∧ t.attn = s.attn ∧ t.link = s.link ∧
      (∀ a, ((t.bus.get g).addrs.get a).presence = ((s.bus.get g).addrs.get a).presence ∧
        ((t.bus.get g).addrs.get a).lastSeq = ((s.bus.get g).addrs.get a).lastSeq ∧
        ((t.bus.get g).addrs.get a).misses = ((s.bus.get g).addrs.get a).misses ∧
        ((t.bus.get g).addrs.get a).alarm = ((s.bus.get g).addrs.get a).alarm) ∧
      (∀ h, h ≠ g → t.bus.get h = s.bus.get h) ∧
      (t.bus.get g).roundCounter = (s.bus.get g).roundCounter ∧ (t.bus.get g).roundTimer = .running set.period ∧
      (t.bus.get g).roundDue = false ∧ (t.bus.get g).settings = set ∧ (t.bus.get g).pending = .none ∧
      (∀ r, t.pu.get r = { s.pu.get r with beep := (t.pu.get r).beep }) ∧
      (s.intake.pressure = .normal → (s.bus.get g).roundCounter.toNat % 16 = 0 → d.presence ≠ .online →
        5 + s.intake.flagCount ≤ s.intake.free →
        (t.bus.get g).round = .inProgress 3 ∧ (t.bus.get g).windowTimer = .stopped ∧
          (t.bus.get g).addrs.get 3 = { d with quiet := min 8 (d.quiet + 1), thinning := 0 } ∧
          (t.pu.get (posAt g 3)).beep = .none ∧ t.intake.reserved = s.intake.reserved + 5 ∧
          (t.bus.get g).poll = .some
            { addr := 3, taken := d.lastSeq.getD true, beep := u.beep,
              carried := if u.dirty then .some (u.number, u.content) else .none,
              reserved := 5, rate := set.rate, window := set.window, phase := .sending, disowned := false }) := by
  intro set d u
  have hduem : ((s.disownedEnds g).bus.get g).roundDue = false := by rw [disownedEnds_bus]; exact hdue
  have hv := continueRound_visited g 4 (s.disownedEnds g)
  have hk := runVisits_roundKept g 4 (s.disownedEnds g)
  rw [← continueRound_alone hduem] at hk
  refine ⟨_, exec_disownedEnds hq hd hc, ?_⟩
  simp only [judgePressure_pos, judgePressure_entry, judgePressure_entries, judgePressure_flags, judgePressure_tables,
    judgePressure_attn, judgePressure_link, judgePressure_bus, judgePressure_pu, judgePressure_reserved]
  refine ⟨hv.pos, hv.entry, hv.entries, hv.flags, hv.tables, hv.attn, hv.link, fun a => ?_, fun h hh => ?_, ?_, ?_, ?_, ?_,
    ?_, fun r => ?_, fun hp hr ho hf => ?_⟩
  · have ha := hv.addrs a
    rw [disownedEnds_bus] at ha
    exact ha
  · rw [hv.bus h hh]
    exact Quad.get_modify_ne _ _ hh
  · rw [hk.roundCounter, disownedEnds_bus]
  · rw [hk.roundTimer, disownedEnds_bus]
  · rw [hk.roundDue, hduem]
  · rw [hk.settings, disownedEnds_bus]
  · rw [hk.pending, disownedEnds_bus]
  · obtain ⟨b, hb⟩ := hv.pu r
    rw [hb]
    rfl
  · have hb : ((s.disownedEnds g).atAddress g 3).bus.get g =
        { (s.disownedEnds g).bus.get g with round := .inProgress 3 } := Quad.get_modify_same _ _ _
    rw [disowned_polls hp hr ho hf, polled_bus_get, hb, disownedEnds_bus]
    refine ⟨rfl, rfl, by rw [Quad.get_modify_same], ?_, rfl, congrArg some (pollSent_eq ?_ rfl ?_)⟩
    · simp only [State.polled, PerPos.get_modify_same]
    · rw [hb, disownedEnds_bus]
    · rw [hb, disownedEnds_bus]

/-- Settles O20: the four replies that enter no key code, each by the reply's own judgement. -/
theorem repliesThatEnterNothing : Obligations.RepliesThatEnterNothing :=
  ⟨reply_entersNothing, reply_comparesAlarm, reply_ofClosed, disowned_startsRoundZero⟩

/-- Settles O21: the operations at the IF, and the withdrawal, the batch and the miss that make them. -/
theorem intakeAdmitsCodesAndJudgesPressure : Obligations.IntakeAdmitsCodesAndJudgesPressure := by
  refine ⟨fun s p k h => admit_of_closed p k s h, fun s p k ho hf hr => ?_, fun s p k ho hf hr => ?_,
    fun s p k _ hf => admit_of_flagged p k s hf, fun before s h => ?_, fun before s ho hr => judgePressure_of_counts ho hr,
    fun before s hs => judgePressure_queue before hs, fun f => ⟨serveFlags_takesIn f, (Intake.serveFlags_served f).reserved⟩,
    fun f n => rfl, fun f p codes n => enterBatch_takesIn f p codes n, fun s t e rest he hh ho hf hx => ?_,
    fun s t g q seq applied codes hq ha hd h1 h4 hc hopen hon hseq hx => ?_, fun s t g q hq hd ht hkeep hx => ?_⟩
  · exact admit_of_free p k s ho hf (by rw [Intake.free_of_counts]; omega)
  · exact admit_of_full p k s ho hf (by rw [Intake.free_of_counts]; omega)
  · rw [judgePressure_intake before h]
    cases s.intake.pressure <;> rfl
  · exact exec_withdrawal_intake he hx hh (by rw [grantable, ho]; exact decide_eq_true hf)
  · obtain ⟨w, hw, he⟩ := exec_keypadReplyBytes (applied := applied) (seq := seq)
      (alarm := ((s.bus.get g).addrs.get q.addr).alarm) hq ha hd h4 hc
    have ht := goesOn g q.addr s w
    rw [Host.Outcome.next.inj (he.symm.trans hx)] at ht
    have hin := And.intro hopen (judged_accepted h1 hseq q.addr applied ((s.bus.get g).addrs.get q.addr).alarm)
    have hint : w.intake = s.intake.enterBatch (posAt g q.addr) codes q.reserved := by
      rw [hw.intake, Intake.batchOf, if_pos hin, replyOf_keys, Intake.withCodes]
      simp [hon, replyOf]
    rw [ht.entries, ht.flags, hint]
    exact ⟨rfl, rfl⟩
  · have ht' := goesOn g q.addr s (missPoll g q false s)
    rw [Host.Outcome.next.inj ((exec_windowExpiry hq hd ht).symm.trans hx)] at ht'
    have hkept : ¬ ((s.bus.get g).addrs.get q.addr).lostByMiss := by
      rintro ⟨h1, h2⟩
      rcases hkeep with h | h
      · exact h h1
      · omega
    have hint : (missPoll g q false s).intake = s.intake.release q.reserved := by
      rw [missPoll_intake, if_neg hkept]
    rw [ht'.entries, ht'.flags, hint]
    exact ⟨rfl, rfl⟩

end

section
/-! SUPPORT. The application of a disposition field by field (R77 to R89), and what the engine queues of it (R89, R178). -/

namespace Sys2Proof.Machine

open Sys2Proof

variable {s t u v w : State} {p : Pos} {c : Code} {d : Disposition}

/-! ### The action step -/

/-- An action reaches the entries and the prompt units alone. -/
theorem entryAction_shape (p : Pos) (c : Code) (sec : Bool) (a : Action) (s : State) :
    ∃ x y, (entryAction p c sec a s).1 = { s with entry := x, pu := y } := by
  cases a with
  | discard | forward => exact ⟨_, _, rfl⟩
  | hold | eraseLast | clearEntry | complete =>
    simp only [entryAction]
    split
    · split <;> exact ⟨_, _, rfl⟩
    · exact ⟨_, _, rfl⟩
  | cancel =>
    simp only [entryAction]
    split <;> exact ⟨_, _, rfl⟩

/-- The action step reads the entries and the prompt units alone. -/
theorem entryAction_congr (p : Pos) (c : Code) (sec : Bool) (a : Action) (he : t.entry = s.entry) (hu : t.pu = s.pu) :
    (entryAction p c sec a t).1.entry = (entryAction p c sec a s).1.entry ∧
      (entryAction p c sec a t).1.pu = (entryAction p c sec a s).1.pu ∧
      (entryAction p c sec a t).2 = (entryAction p c sec a s).2 := by
  cases a with
  | discard | forward => exact ⟨he, hu, rfl⟩
  | hold | eraseLast | complete =>
    simp only [entryAction, he]
    split
    · split
      · exact ⟨congrArg (fun x : PerPos (Option Entry) => x.set p _) he, hu, rfl⟩
      · exact ⟨he, hu, rfl⟩
    · exact ⟨he, hu, rfl⟩
  | clearEntry =>
    simp only [entryAction, he]
    split
    · split
      · exact ⟨congrArg (fun x : PerPos (Option Entry) => x.set p _) he,
          congrArg (fun x : PerPos PromptUnit => x.modify p PromptUnit.resetEcho) hu, rfl⟩
      · exact ⟨he, hu, rfl⟩
    · exact ⟨he, hu, rfl⟩
  | cancel =>
    simp only [entryAction, he]
    split
    · exact ⟨congrArg (fun x : PerPos (Option Entry) => x.set p _) he, hu, rfl⟩
    · exact ⟨he, hu, rfl⟩

theorem entryAction_forward (p : Pos) (c : Code) (sec : Bool) (s : State) :
    entryAction p c sec .forward s = (s, ⟨false, .none, .none, .none⟩) := rfl

/-! ### The application (R80) -/

/-- The action as the application makes it (R78). -/
abbrev State.clampedAction (s : State) (p : Pos) (c : Code) (d : Disposition) : Action :=
  clampAction (s.secretContext p) c d.action

/-- The action step of the application. -/
abbrev State.acted (s : State) (p : Pos) (c : Code) (d : Disposition) : State × ActionOutcome :=
  entryAction p c (s.descriptor p).secret (s.clampedAction p c d) s

/-- The record of a position after an application (R83, R84, R87). -/
def PosRecord.after (out : ActionOutcome) (next : Mode) (r : PosRecord) : PosRecord :=
  { r.tally out.tally with mode := out.newMode.getD next }

/-- The prompt unit of a position after the action of an application (R85, R86). -/
def PromptUnit.after (s : State) (p : Pos) (c : Code) (d : Disposition) (u : PromptUnit) : PromptUnit :=
  (u.echo (echoStep (s.acted p c d).2.refused (clampEcho (s.secretContext p) c d.echo)) c (s.descriptor p).mask).setBeep
    (beepStep (s.acted p c d).2.refused d.beep)

/-- An application changes the entries, the prompt units and the records, and nothing else. -/
theorem applyDisposition_eq (p : Pos) (c : Code) (d : Disposition) (s : State) : (applyDisposition p c d s).1 =
    { s with
      entry := (s.acted p c d).1.entry
      pu := (s.acted p c d).1.pu.modify p (PromptUnit.after s p c d)
      pos := s.pos.modify p (PosRecord.after (s.acted p c d).2 d.nextMode) } := by
  obtain ⟨x, y, h⟩ := entryAction_shape p c (s.descriptor p).secret (s.clampedAction p c d) s
  have he : (s.acted p c d).1 = { s with entry := x, pu := y } := h
  have hu : (s.acted p c d).1.pu = y := by rw [he]
  have hx : (s.acted p c d).1.entry = x := by rw [he]
  unfold applyDisposition
  dsimp only
  change (State.onPos p _ (State.onPu p _ (State.onPos p _ (s.acted p c d).1))) = _
  rw [he]
  simp only [State.onPos, State.onPu, PerPos.modify_modify_same]
  rfl

theorem applyDisposition_notice (p : Pos) (c : Code) (d : Disposition) (s : State) :
    (applyDisposition p c d s).2 =
      { action := s.clampedAction p c d, refused := (s.acted p c d).2.refused, secretContext := s.secretContext p,
        notice := applicationNotice p c (s.clampedAction p c d) d.report ((s.acted p c d).1.entryCollecting p)
          ((s.acted p c d).1.entrySecret p) (s.entryLength p) ((s.acted p c d).1.entryLength p)
          ((s.acted p c d).2.newMode.getD d.nextMode) (s.acted p c d).2.notice } := rfl

/-- Another state that agrees on what an application reads has the same one. -/
structure SameReading (s t : State) : Prop where
  entry : t.entry = s.entry
  pu : t.pu = s.pu
  pos : t.pos = s.pos
  tables : t.tables = s.tables

theorem SameReading.descriptor (h : SameReading s t) (p : Pos) : t.descriptor p = s.descriptor p := by
  simp only [State.descriptor, h.tables, h.pos]

theorem SameReading.secretContext (h : SameReading s t) (p : Pos) : t.secretContext p = s.secretContext p := by
  simp only [State.secretContext, h.descriptor, State.entrySecret, h.entry]

theorem SameReading.acted (h : SameReading s t) (p : Pos) (c : Code) (d : Disposition) :
    (t.acted p c d).1.entry = (s.acted p c d).1.entry ∧ (t.acted p c d).1.pu = (s.acted p c d).1.pu ∧
      (t.acted p c d).2 = (s.acted p c d).2 := by
  simp only [State.acted, State.clampedAction, h.descriptor, h.secretContext]
  exact entryAction_congr p c _ _ h.entry h.pu

/-- An application reads nothing of the outbound queue, and carries it along. -/
theorem applyDisposition_onOq (f : OutQueue → OutQueue) (p : Pos) (c : Code) (d : Disposition) (s : State) :
    applyDisposition p c d (s.onOq f) = ((applyDisposition p c d s).1.onOq f, (applyDisposition p c d s).2) := by
  have h : SameReading s (s.onOq f) := ⟨rfl, rfl, rfl, rfl⟩
  obtain ⟨he, hu, ho⟩ := h.acted p c d
  have hafter : PromptUnit.after (s.onOq f) p c d = PromptUnit.after s p c d := by
    funext x
    simp only [PromptUnit.after, ho, h.secretContext, h.descriptor]
  refine Prod.ext ?_ ?_
  · rw [applyDisposition_eq, applyDisposition_eq, he, hu, ho, hafter]
    rfl
  · rw [applyDisposition_notice, applyDisposition_notice]
    simp only [State.clampedAction, h.secretContext, ho, State.entryCollecting, State.entrySecret, State.entryLength, he,
      h.entry]

/-! ### What the engine queues -/

/-- With nothing owed, an application's notice is queued and the rest of the reservation released (R89, R178). -/
theorem release_postApplied (n : Option AppNotice) (h : anyOwed v = false) :
    releaseReservation (postApplied n v) = { v with oq := { v.oq with
      queue := v.oq.queue ++ (n.map fun n => OutRecord.notice (.app n)).toList
      begun := v.oq.begun || (n.isSome && v.link.up), reservation := 0 } } := by
  cases n with
  | none =>
    refine (releaseReservation_of_none_owed v h).trans ?_
    simp [State.onOq]
  | some a =>
    refine (releaseReservation_of_none_owed (postReserved (.app a) v)
      (anyOwed_false_congr v _ rfl rfl rfl rfl rfl h)).trans ?_
    simp only [State.onOq, postReserved, State.enqueue, Option.map_some, Option.toList_some, Option.isSome_some,
      Bool.true_and]

/-- With nothing owed, a notice takes a slot of the reservation and the rest of it is released. -/
theorem release_postReserved (n : Notice) (h : anyOwed v = false) :
    releaseReservation (postReserved n v) = { v with oq := { v.oq with
      queue := v.oq.queue ++ [.notice n], begun := v.oq.begun || v.link.up, reservation := 0 } } := by
  refine (releaseReservation_of_none_owed (postReserved n v) (anyOwed_false_congr v _ rfl rfl rfl rfl rfl h)).trans ?_
  simp only [State.onOq, postReserved, State.enqueue]

/-! ### WITHDRAWAL (R50, R73, R74) -/

/-- The state with the head entry withdrawn. -/
abbrev State.headGone (s : State) (rest : List IntakeEntry) : State :=
  { s with intake := { s.intake with entries := rest } }

/-- The engine ready to withdraw, with nothing pending at the IF that the withdrawal would serve or judge. -/
structure State.withdraws (s : State) (e : IntakeEntry) (rest : List IntakeEntry) : Prop where
  entries : s.intake.entries = e :: rest
  ready : s.attn.record = .none
  slots : s.slotsFree 2
  reservation : s.oq.reservation = 0
  flags : s.intake.flagCount = 0
  pressure : s.intake.pressure = .normal
  committed : s.intake.occupied + s.intake.reserved ≤ 64

theorem exec_withdrawal_of_grant {e : IntakeEntry} {rest : List IntakeEntry} (h : s.withdraws e rest) :
    exec .withdrawal s = .next (judgePressure s (processEntry e
      ((s.headGone rest).onOq fun q => { q with reservation := 2 }))) := by
  have hh : s.halted = false := by rw [State.halted, h.ready]; rfl
  have hg : grantable s = true := by rw [grantable, h.slots.1]; exact decide_eq_true h.slots.2
  have hflags : Intake.serveFlags { s.intake with entries := rest } = { s.intake with entries := rest } :=
    Intake.serveFlags_of_clear _ ((Intake.flagCount_congr rfl).trans h.flags)
  simp only [exec, execWithdrawal, h.entries, hh, hg, and_self, if_true, Machine.withdraw, State.onOq, State.onIntake,
    hflags, h.reservation]
  rfl

/-- After the withdrawal fewer than 64 places are committed, and pressure stays NORMAL. -/
theorem judgePressure_withdrawn {e : IntakeEntry} {rest : List IntakeEntry} (h : s.withdraws e rest)
    (hv : v.intake = { s.intake with entries := rest }) : judgePressure s v = v := by
  have hc := h.committed
  have hlen : s.intake.occupied = rest.length + 1 := by rw [Intake.occupied, h.entries, List.length_cons]
  refine judgePressure_of_normal s (by rw [hv]; exact h.pressure) ?_
  rw [hv]
  change rest.length + s.intake.reserved < 64
  omega

theorem processEntry_discards {e : IntakeEntry} (h : e.void = true ∨ (s.pos.get e.pos).state = .closed) :
    processEntry e s = releaseReservation s :=
  if_pos (h.imp id fun hc => Bool.eq_false_iff.2 (not_isOpen_iff.2 hc))

/-- The disposition that the lookup gives an entry (R76). -/
abbrev State.lookup (s : State) (e : IntakeEntry) : Disposition :=
  s.tables.readEntry (s.pos.get e.pos).bank (s.pos.get e.pos).mode e.code

theorem processEntry_applies {e : IntakeEntry} (hv : e.void = false) (ho : (s.pos.get e.pos).state = .opened)
    (ha : (s.lookup e).attention = false) (hc : e.code ≠ 0x3F) : processEntry e s =
      releaseReservation (postApplied (applyDisposition e.pos e.code (s.lookup e) s).2.notice
        (applyDisposition e.pos e.code (s.lookup e) s).1) := by
  have h1 : ¬ (e.void = true ∨ s.isOpen e.pos = false) := by
    rw [hv, isOpen_iff.2 ho]
    simp
  have h2 : ¬ raisesAttention e.code (s.lookup e) = true := by
    rw [raisesAttention, ha, Bool.false_or, decide_eq_true_eq]
    exact hc
  exact (if_neg h1).trans (if_neg h2)

theorem processEntry_raises {e : IntakeEntry} (hv : e.void = false) (ho : (s.pos.get e.pos).state = .opened)
    (ha : (s.lookup e).attention = true ∨ e.code = 0x3F) : processEntry e s = raiseAttention e (s.lookup e) s := by
  have h1 : ¬ (e.void = true ∨ s.isOpen e.pos = false) := by
    rw [hv, isOpen_iff.2 ho]
    simp
  have h2 : raisesAttention e.code (s.lookup e) = true := by
    rw [raisesAttention, Bool.or_eq_true, decide_eq_true_eq]
    exact ha
  exact (if_neg h1).trans (if_pos h2)

end Sys2Proof.Machine
end

section
/-! SUPPORT. What the statements of the engine and of attention say, from the application's own equations (R73 to R99). -/

namespace Sys2Proof.Machine

open Sys2Proof

variable {s t u v w : State} {p : Pos} {c : Code} {d : Disposition}

/-! ### The clamps (R78) -/

theorem clampAction_eq (secret : Bool) (c : Code) (a : Action) :
    clampAction secret c a = if (secret = true ∧ c.val ≤ 9) ∧ a = .forward then .hold else a := by
  simp only [clampAction, isDigit, decide_eq_true_eq, and_assoc]

theorem clampEcho_eq (secret : Bool) (c : Code) (e : Echo) :
    clampEcho secret c e = if (secret = true ∧ c.val ≤ 9) ∧ e = .char then .mask else e := by
  simp only [clampEcho, isDigit, decide_eq_true_eq, and_assoc]

/-! ### The prompt unit of an application (R85, R86) -/

theorem echo_none (u : PromptUnit) (c : Code) (mask : Byte) : u.echo .none c mask = u := by
  unfold PromptUnit.echo
  split
  · rfl
  · split <;> rfl

theorem echo_beep (kind : Echo) (c : Code) (mask : Byte) (u : PromptUnit) : (u.echo kind c mask).beep = u.beep := by
  obtain ⟨_, _, _, _, he, _⟩ := PromptUnit.echo_display kind c mask (u := u)
  rw [he]

theorem setBeep_eq (b : Beep) (u : PromptUnit) : u.setBeep b = { u with beep := if b = .none then u.beep else b } := by
  cases b <;> rfl

theorem entryAction_beep (p : Pos) (c : Code) (sec : Bool) (a : Action) (s : State) :
    ((entryAction p c sec a s).1.pu.get p).beep = (s.pu.get p).beep := by
  have reset : (((s.onPu p PromptUnit.resetEcho).pu).get p).beep = (s.pu.get p).beep := by
    rw [State.onPu_pu, PerPos.get_modify_same]
    unfold PromptUnit.resetEcho
    split <;> rfl
  cases a with
  | discard | forward => rfl
  | hold | eraseLast | complete =>
    simp only [entryAction]
    split
    · split <;> rfl
    · rfl
  | clearEntry =>
    simp only [entryAction]
    split
    · split
      · exact reset
      · rfl
    · rfl
  | cancel =>
    simp only [entryAction]
    split <;> rfl

theorem entryAction_pu_ne (p : Pos) (c : Code) (sec : Bool) (a : Action) (s : State) {q : Pos} (hq : q ≠ p) :
    (entryAction p c sec a s).1.pu.get q = s.pu.get q := (entryAction_application p c sec a s).pu q hq

/-- The prompt unit after an application: nothing echoed and a long beep for a refusal. -/
theorem after_eq (s : State) (p : Pos) (c : Code) (d : Disposition) (u : PromptUnit) : PromptUnit.after s p c d u =
    { (if (s.acted p c d).2.refused then u else u.echo (clampEcho (s.secretContext p) c d.echo) c (s.descriptor p).mask) with
      beep := if (s.acted p c d).2.refused then .long else if d.beep = .none then u.beep else d.beep } := by
  unfold PromptUnit.after
  cases (s.acted p c d).2.refused with
  | true => simp only [echoStep, beepStep, if_true, echo_none, setBeep_eq, reduceCtorEq, if_false]
  | false => simp only [echoStep, beepStep, Bool.false_eq_true, if_false, setBeep_eq, echo_beep]

/-- A unit of another position stands, and the position's own is after the application. -/
theorem acted_pu (s : State) (p : Pos) (c : Code) (d : Disposition) (f : PromptUnit → PromptUnit) :
    (s.acted p c d).1.pu.modify p f = s.pu.modify p fun _ => f ((s.acted p c d).1.pu.get p) := by
  refine PerPos.ext_get fun q => ?_
  rw [PerPos.get_modify, PerPos.get_modify]
  split
  · next h => rw [h]
  · next h => exact entryAction_pu_ne p c _ _ s h

theorem tally_eq (t : Tally) (r : PosRecord) : r.tally t = { r with
    strayHolds := if t = .strayHold then min 65535 (r.strayHolds + 1) else r.strayHolds
    refusals := if t = .refusal then min 65535 (r.refusals + 1) else r.refusals } := by
  cases t <;> rfl

theorem entryAction_forward_notice {a : Action} (h : a = .forward) (p : Pos) (c : Code) (sec : Bool) (s : State) :
    (entryAction p c sec a s).2.notice = .none := by subst h; rfl

/-! ### The notice of an application (R89) -/

section Notice

variable {a : Action} (ha : a ≠ .forward) (report collecting secret : Bool) (before after : Nat) (m : Mode)

include ha

theorem applicationNotice_completed (n : Nat) (sec : Bool) (codes : Option (List Code)) :
    applicationNotice p c a report collecting secret before after m (.some (.completed n sec codes)) =
      .some (.entryComplete p n sec codes) := by
  cases a with
  | forward => exact absurd rfl ha
  | discard | hold | eraseLast | clearEntry | complete | cancel => rfl

theorem applicationNotice_cancelled (n : Nat) (sec : Bool) :
    applicationNotice p c a report collecting secret before after m (.some (.cancelled n sec)) =
      .some (.entryCancelled p n sec m) := by
  cases a with
  | forward => exact absurd rfl ha
  | discard | hold | eraseLast | clearEntry | complete | cancel => rfl

theorem applicationNotice_none : applicationNotice p c a report collecting secret before after m .none =
    if report = true ∧ collecting = true ∧ after ≠ before then .some (.entryProgress p after secret) else .none := by
  cases a with
  | forward => exact absurd rfl ha
  | discard | hold | eraseLast | clearEntry | complete | cancel => rfl

end Notice

end Sys2Proof.Machine

open Sys2Proof Sys2Proof.Machine

/-- Settles O28: the application's equations, field by field. -/
theorem applicationFollowsTheActionsOutcome : Obligations.ApplicationFollowsTheActionsOutcome := by
  intro s p c d desc secret clamped action echo acted out r mode
  have haction : action = s.clampedAction p c d := (clampAction_eq _ _ _).symm
  have hecho : echo = clampEcho (s.secretContext p) c d.echo := (clampEcho_eq _ _ _).symm
  have hacted : acted = s.acted p c d := by
    change entryAction p c (s.descriptor p).secret action s = _
    rw [haction]
  have hout : out = (s.acted p c d).2 := congrArg Prod.snd hacted
  have heq := applyDisposition_eq p c d s
  rw [show r = applyDisposition p c d s from rfl]
  have hnotice := applyDisposition_notice p c d s
  refine ⟨?_, ?_, ?_, ?_, ?_, ?_, ?_, ?_, ?_, ?_, ?_, ?_, ?_, haction.symm, ?_, rfl, ?_⟩
  · rw [heq, hacted]
  · rw [heq]
    change s.pos.modify p (PosRecord.after (s.acted p c d).2 d.nextMode) = _
    refine congrArg (s.pos.modify p) (funext fun x => ?_)
    rw [PosRecord.after, tally_eq, ← hout]
  · rw [heq]
    refine (acted_pu s p c d _).trans ?_
    refine congrArg (s.pu.modify p) (funext fun _ => ?_)
    rw [after_eq, ← hout, ← hecho, entryAction_beep, hacted]
    rfl
  · rw [heq]
  · rw [heq]
  · rw [heq]
  · rw [heq]
  · rw [heq]
  · rw [heq]
  · rw [heq]
  · rw [heq]
  · rw [heq]
  · rw [heq]
  · rw [hnotice, hout]
  · rw [hnotice]
    dsimp only
    rw [← haction, ← hout, ← hacted]
    by_cases hf : action = .forward
    · have hnone : out.notice = .none := entryAction_forward_notice hf p c desc.secret s
      rw [hnone, hf]
      rfl
    · cases out.notice with
      | none => exact (applicationNotice_none hf _ _ _ _ _ _).trans (if_neg hf).symm
      | some n =>
        cases n with
        | completed n sec codes => exact applicationNotice_completed hf _ _ _ _ _ _ n sec codes
        | cancelled n sec => exact applicationNotice_cancelled hf _ _ _ _ _ _ n sec

end

section
/-! SUPPORT. WITHDRAWAL, the raise of an attention and its ends, as whole states (R72 to R99). -/

namespace Sys2Proof.Machine

open Sys2Proof

variable {s t u v w : State} {p : Pos} {c : Code} {d : Disposition} {e : IntakeEntry} {rest : List IntakeEntry}

/-! ### WITHDRAWAL -/

theorem OutQueue.eq_of_reservation {o : OutQueue} (h : o.reservation = 0) (q : List OutRecord) (b : Bool) :
    { o with queue := q, begun := b, reservation := 0 } = { o with queue := q, begun := b } := by
  cases o
  cases h
  rfl

/-- The state in which a withdrawn entry is processed. -/
abbrev State.granted (s : State) (rest : List IntakeEntry) : State :=
  (s.headGone rest).onOq fun q => { q with reservation := 2 }

theorem granted_none_owed (h : s.withdraws e rest) : anyOwed (s.granted rest) = false :=
  anyOwed_false_congr s _ rfl rfl rfl rfl rfl h.slots.1

theorem exec_withdrawal_discards (h : s.withdraws e rest) (hd : e.void = true ∨ (s.pos.get e.pos).state = .closed) :
    exec .withdrawal s = .next (s.headGone rest) := by
  have hp : processEntry e (s.granted rest) = s.headGone rest := by
    rw [processEntry_discards (s := s.granted rest) hd, releaseReservation_of_none_owed _ (granted_none_owed h)]
    have ho := OutQueue.eq_of_reservation h.reservation s.oq.queue s.oq.begun
    simp only [State.granted, State.onOq]
    exact congrArg (fun o => { s.headGone rest with oq := o }) ho
  rw [exec_withdrawal_of_grant h, hp, judgePressure_withdrawn h rfl]

/-- The notice of an application queued, with nothing left of the reservation. -/
def State.withApplied (s : State) (r : State × Applied) : State :=
  { r.1 with oq := { s.oq with
    queue := s.oq.queue ++ (r.2.notice.map fun n => OutRecord.notice (.app n)).toList
    begun := s.oq.begun || (r.2.notice.isSome && s.link.up) } }

theorem exec_withdrawal_applies (h : s.withdraws e rest) (hv : e.void = false)
    (ho : (s.pos.get e.pos).state = .opened) (hc : e.code ≠ 0x3F) (ha : (s.lookup e).attention = false) :
    exec .withdrawal s = .next (s.withApplied (applyDisposition e.pos e.code (s.lookup e) (s.headGone rest))) := by
  have happ := applyDisposition_application e.pos e.code (s.lookup e) (s.headGone rest)
  have hp : processEntry e (s.granted rest) =
      s.withApplied (applyDisposition e.pos e.code (s.lookup e) (s.headGone rest)) := by
    rw [processEntry_applies (s := s.granted rest) hv ho ha hc]
    change releaseReservation (postApplied (applyDisposition e.pos e.code (s.lookup e) (s.granted rest)).2.notice
      (applyDisposition e.pos e.code (s.lookup e) (s.granted rest)).1) = _
    rw [applyDisposition_onOq]
    generalize applyDisposition e.pos e.code (s.lookup e) (s.headGone rest) = r at happ ⊢
    rw [release_postApplied]
    · simp only [State.onOq, happ.oq, happ.link, State.withApplied, h.reservation]
    · exact anyOwed_false_congr s _ happ.xs (by rw [State.onOq_oq, happ.oq]) (by rw [State.onOq_oq, happ.oq])
        (by rw [State.onOq_oq, happ.oq]) (by rw [State.onOq_oq, happ.oq]) h.slots.1
  rw [exec_withdrawal_of_grant h, hp,
    judgePressure_withdrawn (v := s.withApplied (applyDisposition e.pos e.code (s.lookup e) (s.headGone rest))) h
      happ.intake]

/-- FORWARD with nothing else to do writes the next mode and posts KEY (R80, R82, R87). -/
theorem applyDisposition_forward (ha : d.action = .forward) (he : d.echo = .none) (hb : d.beep = .none)
    (hc : 9 < c.val ∨ s.secretContext p = false) :
    (applyDisposition p c d s).1 = { s with pos := s.pos.modify p fun r => { r with mode := d.nextMode } } ∧
      (applyDisposition p c d s).2.notice = .some (.key p c d.nextMode) := by
  have haction : s.clampedAction p c d = .forward := by
    rw [State.clampedAction, clampAction_eq, if_neg, ha]
    rintro ⟨⟨h1, h2⟩, _⟩
    rcases hc with h | h
    · omega
    · exact nomatch h1.symm.trans h
  have hacted : s.acted p c d = (s, ⟨false, .none, .none, .none⟩) := by
    rw [State.acted, haction]
    rfl
  have hclamp : clampEcho (s.secretContext p) c d.echo = .none := by
    rw [clampEcho_eq, he, if_neg]
    exact fun h => nomatch h.2
  have hpu : PromptUnit.after s p c d = id := by
    funext u
    rw [after_eq, hacted, hclamp, echo_none, hb]
    rfl
  constructor
  · rw [applyDisposition_eq, hacted, hpu]
    refine congrArg (fun x => { s with pu := x, pos := s.pos.modify p fun r => { r with mode := d.nextMode } }) ?_
    exact PerPos.set_get_same _ _
  · rw [applyDisposition_notice, hacted, haction]
    rfl

theorem exec_withdrawal_idle (h : s.intake.entries = [] ∨ s.attn.record ≠ .none ∨ anyOwed s = true ∨ s.oq.freeSlots < 2) :
    exec .withdrawal s = .next s := by
  simp only [exec, execWithdrawal]
  split
  · rfl
  · next e rest he =>
    refine if_neg ?_
    rintro ⟨hh, hg⟩
    simp only [grantable, Bool.and_eq_true, Bool.not_eq_true', decide_eq_true_eq] at hg
    rcases h with h | h | h | h
    · exact nomatch he.symm.trans h
    · exact h (by simpa [State.halted] using hh)
    · exact nomatch h.symm.trans hg.1
    · exact absurd hg.2 (Nat.not_le.2 h)

/-! ### Attention -/

theorem reportedAfter_eq (a : Attention) (secret : Bool) : reportedAfter a secret =
    if a.masked = true ∨ a.code.val ≤ 9 ∧ secret = true then 0xFF else BitVec.ofNat 8 a.code.val := by
  simp only [reportedAfter, reportedCode, isDigit, Bool.or_eq_true, Bool.and_eq_true, decide_eq_true_eq]
  rfl

/-- The state after the lapse of the attention `a`, whose held disposition was applied with the result `r` (R98, R99). -/
def State.lapsed (s : State) (a : Attention) (r : State × Applied) : State :=
  { r.1 with
    attn := { s.attn with record := .none, lapseTimer := .stopped }
    oq := { s.oq with
      queue := s.oq.queue ++ [.notice (.attentionLapsed a.number a.pos (reportedAfter a r.2.secretContext) r.2.action
        r.2.refused (r.1.pos.get a.pos).mode r.2.notice)]
      begun := s.oq.begun || s.link.up
      reservation := 0 } }

theorem exec_lapse_due {a : Attention} (ha : s.attn.record = .some a) (ht : s.attn.lapseTimer = .running 0)
    (ho : anyOwed s = false) :
    exec .lapseTimerExpiry s = .next (s.lapsed a (applyDisposition a.pos a.code a.held s)) := by
  have happ := applyDisposition_application a.pos a.code a.held s
  have hexec : exec .lapseTimerExpiry s = .next (releaseReservation (postReserved (.attentionLapsed a.number a.pos
      (reportedAfter a (applyDisposition a.pos a.code a.held s).2.secretContext)
      (applyDisposition a.pos a.code a.held s).2.action (applyDisposition a.pos a.code a.held s).2.refused
      ((applyDisposition a.pos a.code a.held s).1.pos.get a.pos).mode (applyDisposition a.pos a.code a.held s).2.notice)
      (dropAttention (applyDisposition a.pos a.code a.held s).1))) := by
    simp only [exec, execLapseTimerExpiry, ha, ht, Timer.due_running_zero, if_true]
  rw [hexec]
  generalize applyDisposition a.pos a.code a.held s = r at happ ⊢
  rw [release_postReserved]
  · simp only [dropAttention, State.onAttn, happ.attn, happ.oq, happ.link, State.lapsed]
  · exact anyOwed_false_congr s _ happ.xs (by rw [← happ.oq]; rfl) (by rw [← happ.oq]; rfl) (by rw [← happ.oq]; rfl)
      (by rw [← happ.oq]; rfl) ho

theorem exec_lapse_idle (h : s.attn.record = .none ∨ s.attn.lapseTimer ≠ .running 0) :
    exec .lapseTimerExpiry s = .next s := by
  simp only [exec, execLapseTimerExpiry]
  split
  · rfl
  · next a ha =>
    rcases h with h | h
    · exact nomatch ha.symm.trans h
    · rw [Timer.not_due h]
      rfl

end Sys2Proof.Machine

open Sys2Proof Sys2Proof.Machine

/-- Settles O27: the withdrawn entry discarded or applied, FORWARD in full, and the three states with no withdrawal. -/
theorem withdrawalAppliesTheLookup : Obligations.WithdrawalAppliesTheLookup := by
  refine ⟨fun s e rest he hr hs hres hf hp hc hd => exec_withdrawal_discards ⟨he, hr, hs, hres, hf, hp, hc⟩ hd,
    fun s e rest he hr hs hres hf hp hc hv ho hcode => ?_, fun s e rest he hr hs hres hf hp hc hv ho hcode => ?_, fun s h => exec_withdrawal_idle h⟩
  · intro d r ha
    exact exec_withdrawal_applies ⟨he, hr, hs, hres, hf, hp, hc⟩ hv ho hcode ha
  · intro d ha hact hecho hbeep hplain
    rw [exec_withdrawal_applies ⟨he, hr, hs, hres, hf, hp, hc⟩ hv ho hcode ha]
    obtain ⟨h1, h2⟩ := applyDisposition_forward (s := s.headGone rest) (p := e.pos) (c := e.code) hact hecho hbeep hplain
    simp only [State.withApplied]
    rw [h1, h2]
    simp only [Option.map_some, Option.toList_some, Option.isSome_some, Bool.true_and]

/-- Settles O30: the raise of an attention by a withdrawal. -/
theorem withdrawalRaisesAttention : Obligations.WithdrawalRaisesAttention := by
  intro s e rest he hr hs hres hf hp hc hv ho mode d masked ha
  have hw : s.withdraws e rest := ⟨he, hr, hs, hres, hf, hp, hc⟩
  rw [exec_withdrawal_of_grant hw, processEntry_raises (s := s.granted rest) hv ho ha]
  refine congrArg Host.Outcome.next ((judgePressure_withdrawn hw rfl).trans ?_)
  rfl

/-- Settles O31: the lapse of an attention, and the states in which none lapses. -/
theorem lapseAppliesTheHeldDisposition : Obligations.LapseAppliesTheHeldDisposition := by
  refine ⟨fun s a ha ht _ ho => ?_, fun s h => exec_lapse_idle h⟩
  intro r
  rw [exec_lapse_due ha ht ho, ← reportedAfter_eq]
  rfl

end

section
/-! SUPPORT. ATTEND and ATTENTION_SET (R90, R95 to R97). -/

namespace Sys2Proof.Machine

open Sys2Proof

variable {s t u v w : State}

theorem word_bytes (n : BitVec 16) :
    BitVec.ofNat 16 (be16 (BitVec.ofNat 8 (n.toNat / 256)) (BitVec.ofNat 8 n.toNat)) = n := by
  rw [be16_bytes n.isLt, BitVec.ofNat_toNat, BitVec.setWidth_eq]

theorem readAttend_short (n : BitVec 16) (act : Byte) : readAttend (u16 n.toNat ++ [act]) = .some (n, act, .none) := by
  simp only [u16, List.cons_append, List.nil_append, readAttend, word_bytes]

theorem readAttend_long (n : BitVec 16) (act x y : Byte) :
    readAttend (u16 n.toNat ++ [act, x, y]) = .some (n, act, .some (x, y)) := by
  simp only [u16, List.cons_append, List.nil_append, readAttend, word_bytes]

/-! ### The refusals of ATTEND (R96) -/

theorem attendActionOf_ge {n : Nat} (h : 2 < n) : attendActionOf n = .none := by
  unfold attendActionOf
  split
  · omega
  · omega
  · omega
  · rfl

theorem doAttend_noReplacement (n : BitVec 16) (s : State) :
    doAttend (u16 n.toNat ++ [1]) s = (s, .no .badRecord []) := by
  simp only [doAttend, readAttend_short]
  rfl

theorem doAttend_strayReplacement {act : Byte} (n : BitVec 16) (x y : Byte) (h : act = 0 ∨ act = 2) (s : State) :
    doAttend (u16 n.toNat ++ [act, x, y]) s = (s, .no .badRecord []) := by
  rcases h with rfl | rfl
  · simp only [doAttend, readAttend_long]
    rfl
  · simp only [doAttend, readAttend_long]
    rfl

theorem doAttend_noAction {act : Byte} (n : BitVec 16) (h : 2 < act.toNat) (s : State) :
    doAttend (u16 n.toNat ++ [act]) s = (s, .no .badValue []) := by
  simp only [doAttend, readAttend_short, attendActionOf_ge h]

theorem doAttend_noAction_long {act : Byte} (n : BitVec 16) (x y : Byte) (h : 2 < act.toNat) (s : State) :
    doAttend (u16 n.toNat ++ [act, x, y]) s = (s, .no .badValue []) := by
  simp only [doAttend, readAttend_long, attendActionOf_ge h]

/-- The action and replacement bytes that R96 names. -/
abbrev attendForm (act : List Byte) : Prop := act = [0] ∨ act = [2] ∨ ∃ x y, act = [1, x, y]

/-- A number that names no record is answered ahead of a replacement that is not valid. -/
theorem doAttend_noRecord {act : List Byte} (n : BitVec 16) (hf : attendForm act)
    (h : ∀ a, s.attn.record = .some a → a.number ≠ n) :
    doAttend (u16 n.toNat ++ act) s = (s, .no .noAttention (attentionPresent s.attn.record)) := by
  rcases hf with rfl | rfl | ⟨x, y, rfl⟩
  · simp only [doAttend, readAttend_short, attendActionOf]
    cases ha : s.attn.record with
    | none => rfl
    | some a => exact if_pos (h a ha)
  · simp only [doAttend, readAttend_short]
    cases ha : s.attn.record with
    | none => rfl
    | some a => exact if_pos (h a ha)
  · simp only [doAttend, readAttend_long]
    cases ha : s.attn.record with
    | none => rfl
    | some a => exact if_pos (h a ha)

theorem doAttend_badReplacement {a : Attention} {x y : Byte} (ha : s.attn.record = .some a)
    (h : readDisposition x y = .none) : doAttend (u16 a.number.toNat ++ [1, x, y]) s = (s, .no .badValue []) := by
  simp only [doAttend, readAttend_long, ha]
  refine (if_neg (not_not.2 rfl)).trans ?_
  simp only [h]

/-! ### The resolution of an attention (R90, R97) -/

/-- The action bytes with which ATTEND resolves the attention `a` by the disposition `d`. -/
abbrev State.attendsWith (s : State) (a : Attention) (d : Disposition) (act : List Byte) : Prop :=
  act = [0] ∧ d = a.held ∨ act = 1 :: writeDisposition d ∨
    act = [2] ∧ d = ⟨(s.pos.get a.pos).mode, .discard, .none, .none, false, false⟩

theorem doAttend_resolves {a : Attention} {d : Disposition} {act : List Byte} (ha : s.attn.record = .some a)
    (h : s.attendsWith a d act) : doAttend (u16 a.number.toNat ++ act) s = resolve a d s := by
  rcases h with ⟨rfl, rfl⟩ | rfl | ⟨rfl, rfl⟩
  · simp only [doAttend, readAttend_short, ha]
    exact if_neg (not_not.2 rfl)
  · obtain ⟨x, y, hw, hr⟩ := readDisposition_written d
    rw [hw]
    simp only [doAttend, readAttend_long, ha]
    refine (if_neg (not_not.2 rfl)).trans ?_
    simp only [hr]
  · simp only [doAttend, readAttend_short, ha]
    exact if_neg (not_not.2 rfl)

theorem attendsWith_length {a : Attention} {d : Disposition} {act : List Byte} (h : s.attendsWith a d act) :
    act.length ≤ 3 := by
  rcases h with ⟨rfl, _⟩ | rfl | ⟨rfl, _⟩ <;> simp [writeDisposition]

/-- The state after the resolution of an attention, whose disposition was applied with the result `r`. -/
def State.resolved (s : State) (r : State × Applied) : State :=
  { r.1 with
    attn := { s.attn with record := .none, lapseTimer := .stopped }
    oq := { s.oq with
      queue := s.oq.queue ++ (r.2.notice.map fun n => OutRecord.notice (.app n)).toList
      begun := s.oq.begun || (r.2.notice.isSome && s.link.up)
      reservation := 0 } }

theorem resolve_state {a : Attention} {d : Disposition} (ho : anyOwed s = false) :
    (resolve a d s).1 = s.resolved (applyDisposition a.pos a.code d s) := by
  have happ := applyDisposition_application a.pos a.code d s
  rw [resolve_fst]
  generalize applyDisposition a.pos a.code d s = r at happ ⊢
  rw [release_postApplied]
  · simp only [dropAttention, State.onAttn, happ.attn, happ.oq, happ.link, State.resolved]
  · exact anyOwed_false_congr s _ happ.xs (by rw [← happ.oq]; rfl) (by rw [← happ.oq]; rfl) (by rw [← happ.oq]; rfl)
      (by rw [← happ.oq]; rfl) ho

theorem exec_attend_resolves {a : Attention} {d : Disposition} {act : List Byte} (tag : Byte) (h : s.takesRequests)
    (ha : s.attn.record = .some a) (ho : anyOwed s = false) (hact : s.attendsWith a d act) :
    exec (.attend tag (u16 a.number.toNat ++ act)) s = .next ((s.received.resolved
      (applyDisposition a.pos a.code d s.received)).replied .attend tag (resolve a d s.received).2) := by
  have hlen := attendsWith_length hact
  have hr : doAttend (u16 a.number.toNat ++ act) s.received = resolve a d s.received :=
    doAttend_resolves (s := s.received) ha hact
  have hs := resolve_state (s := s.received) (a := a) (d := d) (anyOwed_false_congr s _ rfl rfl rfl rfl rfl ho)
  rw [← hs]
  generalize resolve a d s.received = x at hr ⊢
  exact exec_of_carryOut h ⟨.attend, tag, u16 a.number.toNat ++ act⟩
    (decide_eq_true (by simp [u16, Config.recordPayload]; omega)) hr (.inl ⟨nofun, nofun⟩)

theorem attendForm_length {act : List Byte} (h : attendForm act) : act.length ≤ 3 := by
  rcases h with rfl | rfl | ⟨x, y, rfl⟩ <;> simp

theorem exec_attend_noRecord {act : List Byte} (tag : Byte) (h : s.takesRequests) (n : BitVec 16) (hf : attendForm act)
    (hn : ∀ a, s.attn.record = .some a → a.number ≠ n) : exec (.attend tag (u16 n.toNat ++ act)) s =
      .next (s.received.replied .attend tag (.no .noAttention (attentionPresent s.attn.record))) := by
  have hlen := attendForm_length hf
  exact exec_of_carryOut h ⟨.attend, tag, u16 n.toNat ++ act⟩
    (decide_eq_true (by simp [u16, Config.recordPayload]; omega)) (doAttend_noRecord (s := s.received) n hf hn)
    (.inl ⟨nofun, nofun⟩)

theorem exec_attend_refused {act : List Byte} {st : Status} (tag : Byte) (h : s.takesRequests) (n : BitVec 16)
    (hlen : act.length ≤ 3) (hd : doAttend (u16 n.toNat ++ act) s.received = (s.received, .no st [])) (hst : st ≠ .ok) :
    exec (.attend tag (u16 n.toNat ++ act)) s = .next (s.refused .attend tag st) :=
  exec_refused h ⟨.attend, tag, u16 n.toNat ++ act⟩ (decide_eq_true (by simp [u16, Config.recordPayload]; omega)) hd hst

theorem doAttentionSet_stores {n : Nat} (h : n < 65536) (s : State) : doAttentionSet (u16 n) s =
    ({ s with attn := { s.attn with window := max 50 (min 10000 n) } },
      .stored (decide (n < 50 ∨ 10000 < n)) (u16 (max 50 (min 10000 n)))) := by
  simp only [doAttentionSet, u16, be16_bytes h, State.onAttn, clamp_eq (show 50 ≤ 10000 by decide)]
  have hc : max 50 (min 10000 n) ≠ n ↔ n < 50 ∨ 10000 < n := by omega
  rw [decide_eq_decide.2 hc]

end Sys2Proof.Machine

open Sys2Proof Sys2Proof.Machine

/-- Settles O32: the resolution by each action, the refusals in their order, and the clamp of the window. -/
theorem attendResolvesTheAttention : Obligations.AttendResolvesTheAttention := by
  refine ⟨fun s tag a d act h ha _ ho hact => ?_, fun s tag n act h ha hf => ?_, fun s tag n a act h ha hn hf => ?_,
    fun s tag act x y n h => ⟨?_, fun hact => ?_, fun hact => ⟨?_, ?_⟩⟩, fun s tag x y a h ha hbad => ?_,
    fun s tag n h hn => ?_⟩
  · intro r
    rw [exec_attend_resolves tag h ha ho hact, ← reportedAfter_eq]
    rfl
  · rw [exec_attend_noRecord tag h n hf (by rw [ha]; exact nofun), ha]
    rfl
  · rw [exec_attend_noRecord tag h n hf (by rw [ha]; rintro b ⟨⟩; exact hn), ha]
    rfl
  · exact exec_attend_refused tag h n (act := [1]) (by decide) (doAttend_noReplacement n _) nofun
  · exact exec_attend_refused tag h n (act := [act, x, y]) (Nat.le_refl 3) (doAttend_strayReplacement n x y hact _) nofun
  · exact exec_attend_refused tag h n (act := [act]) (by simp) (doAttend_noAction n hact _) nofun
  · exact exec_attend_refused tag h n (act := [act, x, y]) (Nat.le_refl 3) (doAttend_noAction_long n x y hact _) nofun
  · exact exec_attend_refused tag h a.number (act := [1, x, y]) (Nat.le_refl 3)
      (doAttend_badReplacement (s := s.received) ha ((readDisposition_eq_none x y).2 hbad)) nofun
  · exact exec_of_carryOut h ⟨.attentionSet, tag, u16 n⟩ rfl (doAttentionSet_stores hn s.received) (.inl ⟨nofun, nofun⟩)

end

section
/-! SUPPORT. One position's card as a record of its own: the line, the exchange record, the entry and the notices posted.
Every operation of the card lines and exchanges is one on that record, as long as its notices find slots. -/

namespace Sys2Proof.Machine

open Sys2Proof

variable {p q : Pos} {s : State}

/-! ### The line's own updates, field by field -/

/-- Trying the pending settings moves the settings alone (R141). -/
@[simp] theorem CardLine.settle_fields (b : Bool) (l : CardLine) :
    (l.settle b).presence = l.presence ∧ (l.settle b).state = l.state ∧ (l.settle b).cause = l.cause ∧
      (l.settle b).powerUnknown = l.powerUnknown ∧ (l.settle b).misses = l.misses ∧
      (l.settle b).checkFails = l.checkFails ∧ (l.settle b).helloOut = l.helloOut ∧ (l.settle b).rx = l.rx ∧
      (l.settle b).txLeaving = l.txLeaving ∧ (l.settle b).txWaiting = l.txWaiting ∧
      (l.settle b).silenceTimer = l.silenceTimer ∧ (l.settle b).helloTimer = l.helloTimer ∧
      (l.settle b).noReaderTimer = l.noReaderTimer ∧ (l.settle b).checkErrors = l.checkErrors ∧
      (l.settle b).lateFrames = l.lateFrames ∧ (l.settle b).faults = l.faults ∧ (l.settle b).changes = l.changes := by
  unfold CardLine.settle
  split
  · simp
  · split <;> simp

@[simp] theorem CardLine.settle_frames (b : Bool) (l : CardLine) : (l.settle b).frames = l.frames := by
  simp [CardLine.frames]

/-- Loading the silence timer moves that timer alone (R142). -/
@[simp] theorem CardLine.loadSilence_fields (l : CardLine) :
    l.loadSilence.presence = l.presence ∧ l.loadSilence.state = l.state ∧ l.loadSilence.cause = l.cause ∧
      l.loadSilence.powerUnknown = l.powerUnknown ∧ l.loadSilence.misses = l.misses ∧
      l.loadSilence.checkFails = l.checkFails ∧ l.loadSilence.helloOut = l.helloOut ∧ l.loadSilence.rx = l.rx ∧
      l.loadSilence.txLeaving = l.txLeaving ∧ l.loadSilence.txWaiting = l.txWaiting ∧
      l.loadSilence.helloTimer = l.helloTimer ∧ l.loadSilence.noReaderTimer = l.noReaderTimer ∧
      l.loadSilence.checkErrors = l.checkErrors ∧ l.loadSilence.lateFrames = l.lateFrames ∧
      l.loadSilence.faults = l.faults ∧ l.loadSilence.changes = l.changes := by
  unfold CardLine.loadSilence
  split <;> simp

@[simp] theorem CardLine.loadSilence_frames (l : CardLine) : l.loadSilence.frames = l.frames := by
  simp [CardLine.frames]

theorem CardLine.loadSilence_silenceTimer (l : CardLine) : l.loadSilence.silenceTimer =
    if l.state = .noReader ∨ l.helloOut = true then l.silenceTimer else .running 500 := by
  unfold CardLine.loadSilence
  split <;> rfl

/-- Taking the opening frame out moves the waiting frames alone (R156). -/
@[simp] theorem CardLine.dropOpening_fields (l : CardLine) :
    l.dropOpening.presence = l.presence ∧ l.dropOpening.state = l.state ∧ l.dropOpening.cause = l.cause ∧
      l.dropOpening.powerUnknown = l.powerUnknown ∧ l.dropOpening.misses = l.misses ∧
      l.dropOpening.checkFails = l.checkFails ∧ l.dropOpening.helloOut = l.helloOut ∧ l.dropOpening.rx = l.rx ∧
      l.dropOpening.txLeaving = l.txLeaving ∧ l.dropOpening.silenceTimer = l.silenceTimer ∧
      l.dropOpening.helloTimer = l.helloTimer ∧ l.dropOpening.noReaderTimer = l.noReaderTimer ∧
      l.dropOpening.checkErrors = l.checkErrors ∧ l.dropOpening.lateFrames = l.lateFrames ∧
      l.dropOpening.faults = l.faults ∧ l.dropOpening.changes = l.changes := by
  simp [CardLine.dropOpening]

@[simp] theorem CardLine.dropOpening_frames (l : CardLine) : l.dropOpening.frames = l.framesWithoutOpening := rfl

/-- Asking for a frame moves the transmit list alone (R137). -/
@[simp] theorem CardLine.ask_fields (f : TxFrame) (l : CardLine) :
    (l.ask f).presence = l.presence ∧ (l.ask f).state = l.state ∧ (l.ask f).cause = l.cause ∧
      (l.ask f).powerUnknown = l.powerUnknown ∧ (l.ask f).misses = l.misses ∧
      (l.ask f).checkFails = l.checkFails ∧ (l.ask f).helloOut = l.helloOut ∧ (l.ask f).rx = l.rx ∧
      (l.ask f).silenceTimer = l.silenceTimer ∧ (l.ask f).helloTimer = l.helloTimer ∧
      (l.ask f).noReaderTimer = l.noReaderTimer ∧ (l.ask f).checkErrors = l.checkErrors ∧
      (l.ask f).lateFrames = l.lateFrames ∧ (l.ask f).faults = l.faults ∧ (l.ask f).changes = l.changes := by
  obtain ⟨t, w, h⟩ := l.ask_same f
  rw [h]
  simp

@[simp] theorem CardLine.move_frames (st : CardState) (l : CardLine) : (l.move st).frames = l.frames := rfl

theorem CardLine.flows_dropOpening {l : CardLine} (h : l.flows) : l.dropOpening.flows := fun hn => by
  simp [CardLine.dropOpening, h hn]

/-- Taking an opening frame out of a list that has lost it changes nothing. -/
theorem CardLine.framesWithoutOpening_idem (l : CardLine) :
    l.dropOpening.framesWithoutOpening = l.framesWithoutOpening := by
  simp [CardLine.framesWithoutOpening, CardLine.dropOpening]

/-- Behind an opening frame taken out, a frame asked for stays when the opening frame is taken out again. -/
theorem CardLine.framesWithoutOpening_ask {f : TxFrame} (hf : f ≠ .opening) {l : CardLine} (h : l.flows) :
    (l.ask f).framesWithoutOpening = l.framesWithoutOpening ++ [f] := by
  unfold CardLine.framesWithoutOpening CardLine.ask
  split
  · next g hg => simp [hg, hf]
  · next hn hw => simp [hn, hw]
  · next g rest hn hw => simp [h hn] at hw

theorem CardLine.framesWithoutOpening_of_flows {l : CardLine} (h : l.flows) (hn : l.txLeaving = .none) :
    l.framesWithoutOpening = [] := by simp [CardLine.framesWithoutOpening, hn, h hn]

theorem CardLine.ask_flows {f : TxFrame} {l : CardLine} : (l.ask f).flows := by
  unfold CardLine.flows CardLine.ask
  split <;> simp_all

/-- A frame that is no opening frame, asked for on a line whose list flows, changes the transmit list alone (R137). -/
theorem ask_of_flows {f : TxFrame} (hf : f ≠ .opening) (h : (s.line.get p).flows) :
    ask p f s = s.onLine p (CardLine.ask f) := by
  cases hl : (s.line.get p).txLeaving with
  | none => exact ask_eq hf (by simp [CardLine.noOpening, h hl])
  | some g =>
    unfold ask pump
    rw [State.onLine_line, PerPos.get_modify_same]
    split
    · exact State.onLine_congr (by simp only [CardLine.ask, hl])
    · next hn => exact absurd (hl.symm.trans hn) (by simp)

/-! ### The card of one position -/

/-- What the events of one position's card work on: the line, the exchange record, the entry, and the notices posted so
far. -/
structure CardSide where
  line : CardLine
  xs : Option Exchange
  entry : Option Entry
  posts : List Notice

/-- The card of a position as it stands. -/
def State.side (s : State) (p : Pos) : CardSide := ⟨s.line.get p, s.xs.get p, s.entry.get p, []⟩

/-- The state with a position's card so, and the notices posted at the tail of the queue. -/
def State.withSide (s : State) (p : Pos) (c : CardSide) : State :=
  { s with
    line := s.line.set p c.line
    xs := s.xs.set p c.xs
    entry := s.entry.set p c.entry
    oq := { s.oq with
      queue := s.oq.queue ++ c.posts.map .notice
      begun := s.oq.begun || (!c.posts.isEmpty && s.link.up) } }

/-- An update of the line alone. -/
def CardSide.onLine (f : CardLine → CardLine) (c : CardSide) : CardSide := { c with line := f c.line }

/-- CARD_STATE queued with the line's content (R150). -/
def CardSide.posted (p : Pos) (c : CardSide) : CardSide :=
  { c with
    line := { c.line with changes := 0 }
    posts := c.posts ++ [.cardState p c.line.state c.line.presence c.line.cause c.line.changes] }

/-- The entry once an exchange of a kind has ended (R121, R167). -/
def entryAfter (kind : ExchangeKind) (e : Option Entry) : Option Entry :=
  if kind = .present then e.filter fun e => !e.presented else e

/-- The end of an exchange in flight, its EXCHANGE_DONE queued (R166). -/
def CardSide.ended (p : Pos) (o : ExchangeOutcome) (d : Option (List Byte)) (c : CardSide) : CardSide :=
  match c.xs with
  | .none => c
  | .some x =>
    { line := c.line.dropOpening.loadSilence
      xs := .none
      entry := entryAfter x.kind c.entry
      posts := c.posts ++ [.exchangeDone p x.tag x.kind o d] }

/-- Nothing is owed, the record of the card is not in RESULT_HELD, and `n` slots are free behind the notices posted. -/
structure CardSide.Free (s : State) (n : Nat) (c : CardSide) : Prop where
  owed : anyOwed s = false
  slots : c.posts.length + n ≤ s.oq.freeSlots
  unheld : ∀ x, c.xs = .some x → x.phase = .awaiting

/-! ### The card put back -/

theorem State.withSide_side (s : State) (p : Pos) : s.withSide p (s.side p) = s := by
  simp [State.withSide, State.side]

@[simp] theorem withSide_line (c : CardSide) : (s.withSide p c).line.get p = c.line := by simp [State.withSide]

@[simp] theorem withSide_xs (c : CardSide) : (s.withSide p c).xs.get p = c.xs := by simp [State.withSide]

@[simp] theorem withSide_entry (c : CardSide) : (s.withSide p c).entry.get p = c.entry := by simp [State.withSide]

/-- What the card leaves alone. -/
@[simp] theorem withSide_blocks (c : CardSide) :
    (s.withSide p c).pending = s.pending ∧ (s.withSide p c).timeCount = s.timeCount ∧
      (s.withSide p c).link = s.link ∧ (s.withSide p c).pos = s.pos ∧ (s.withSide p c).bus = s.bus ∧
      (s.withSide p c).intake = s.intake ∧ (s.withSide p c).tables = s.tables ∧ (s.withSide p c).attn = s.attn ∧
      (s.withSide p c).pu = s.pu ∧ (s.withSide p c).oq.reservation = s.oq.reservation ∧
      (s.withSide p c).oq.expired = s.oq.expired ∧ (s.withSide p c).oq.cards = s.oq.cards ∧
      (s.withSide p c).oq.keypads = s.oq.keypads ∧ (s.withSide p c).oq.pressure = s.oq.pressure := by
  simp [State.withSide]

@[simp] theorem withSide_queue (c : CardSide) :
    (s.withSide p c).oq.queue = s.oq.queue ++ c.posts.map .notice := rfl

theorem withSide_cardFrame (c : CardSide) : s.cardFrame (s.withSide p c) p := by
  refine ⟨rfl, rfl, rfl, rfl, rfl, rfl, rfl, rfl, rfl, rfl, rfl, fun q hq => ?_⟩
  simp [State.withSide, PerPos.get_set_ne _ _ hq]

theorem withSide_xs_eq {c : CardSide} (h : c.xs = s.xs.get p) : (s.withSide p c).xs = s.xs := by
  simp [State.withSide, h]

theorem withSide_entry_eq {c : CardSide} (h : c.entry = s.entry.get p) : (s.withSide p c).entry = s.entry := by
  simp [State.withSide, h]

theorem withSide_oq_eq {c : CardSide} (h : c.posts = []) : (s.withSide p c).oq = s.oq := by
  simp [State.withSide, h]

theorem withSide_line_ne (c : CardSide) (hq : q ≠ p) : (s.withSide p c).line.get q = s.line.get q := by
  simp [State.withSide, PerPos.get_set_ne _ _ hq]

/-- A card that has posted nothing and has its record and entry differs in its line alone. -/
theorem withSide_of_line {c : CardSide} (hx : c.xs = s.xs.get p) (he : c.entry = s.entry.get p) (hp : c.posts = []) :
    s.withSide p c = { s with line := s.line.set p c.line } := by
  simp [State.withSide, hx, he, hp]

/-- The entries after the end of an exchange, as the card's entry (R121, R167). -/
theorem withSide_entriesAfterEnd {c : CardSide} {kind : ExchangeKind} (h : c.entry = entryAfter kind (s.entry.get p)) :
    (s.withSide p c).entry = s.entriesAfterEnd p kind := by
  change s.entry.set p c.entry = _
  rw [h]
  unfold State.entriesAfterEnd
  split
  · next e he =>
    split
    · next hp => simp [entryAfter, he, Option.filter, hp]
    · next hp =>
      rw [show entryAfter .present (s.entry.get p) = s.entry.get p by simp [entryAfter, he, Option.filter, hp]]
      exact PerPos.set_get_same _ _
  · next he =>
    rw [show entryAfter .present (s.entry.get p) = s.entry.get p by simp [entryAfter, he]]
    exact PerPos.set_get_same _ _
  all_goals exact PerPos.set_get_same _ _

/-! ### The operations on the card -/

variable {c : CardSide} {n : Nat}

@[simp] theorem CardSide.onLine_line (f : CardLine → CardLine) : (c.onLine f).line = f c.line := rfl
@[simp] theorem CardSide.onLine_xs (f : CardLine → CardLine) : (c.onLine f).xs = c.xs := rfl
@[simp] theorem CardSide.onLine_entry (f : CardLine → CardLine) : (c.onLine f).entry = c.entry := rfl
@[simp] theorem CardSide.onLine_posts (f : CardLine → CardLine) : (c.onLine f).posts = c.posts := rfl

theorem CardSide.Free.onLine (h : c.Free s n) (f : CardLine → CardLine) : (c.onLine f).Free s n :=
  ⟨h.owed, h.slots, h.unheld⟩

theorem CardSide.Free.posted (h : c.Free s (n + 1)) : (c.posted p).Free s n :=
  ⟨h.owed, by have := h.slots; simp [CardSide.posted]; omega, h.unheld⟩

theorem CardSide.Free.ended {o : ExchangeOutcome} {d : Option (List Byte)} (h : c.Free s (n + 1)) :
    (c.ended p o d).Free s n := by
  have hs := h.slots
  unfold CardSide.ended
  split
  · exact ⟨h.owed, by omega, h.unheld⟩
  · exact ⟨h.owed, by simp; omega, nofun⟩

theorem CardSide.Free.mono {m : Nat} (h : c.Free s n) (hm : m ≤ n) : c.Free s m :=
  ⟨h.owed, by have := h.slots; omega, h.unheld⟩

theorem side_free (h : s.slotsFree n) : (s.side p).Free s n where
  owed := h.1
  slots := by simpa [State.side] using h.2
  unheld x hx := by
    cases hp : x.phase with
    | awaiting => rfl
    | held o d => exact absurd hp (((anyOwed_false_iff s).1 h.1).1 p x o d hx)

theorem onLine_withSide (f : CardLine → CardLine) : (s.withSide p c).onLine p f = s.withSide p (c.onLine f) := by
  simp [State.onLine, State.withSide, PerPos.modify, CardSide.onLine]

theorem putXs_withSide (x : Option Exchange) : (s.withSide p c).putXs p x = s.withSide p { c with xs := x } := by
  simp [State.putXs, State.withSide]

theorem putEntry_withSide (e : Option Entry) : (s.withSide p c).putEntry p e = s.withSide p { c with entry := e } := by
  simp [State.putEntry, State.withSide]

theorem enqueue_withSide (m : Notice) :
    (s.withSide p c).enqueue (.notice m) = s.withSide p { c with posts := c.posts ++ [m] } := by
  cases hb : s.oq.begun <;> cases hu : s.link.up <;> simp [State.enqueue, State.onOq, State.withSide, hb, hu]

theorem wipePresented_withSide : wipePresented p (s.withSide p c) =
    s.withSide p { c with entry := c.entry.filter fun e => !e.presented } := by
  obtain ⟨l, x, e, ns⟩ := c
  unfold wipePresented
  rw [withSide_entry]
  cases e with
  | none => rfl
  | some e => cases hp : e.presented <;> simp [Option.filter, hp, putEntry_withSide]

/-- Whether the card's exchange is in flight. -/
def CardSide.inFlight (c : CardSide) : Bool := c.xs.any fun x => decide (x.phase = .awaiting)

@[simp] theorem withSide_inFlight : (s.withSide p c).inFlight p = c.inFlight := by
  unfold State.inFlight CardSide.inFlight
  rw [withSide_xs]
  cases c.xs <;> rfl

/-- With the record of the card not held, the card owes nothing that the state does not. -/
theorem CardSide.Free.anyOwed (h : c.Free s n) : anyOwed (s.withSide p c) = false := by
  obtain ⟨hx, he, hc, hk, hp⟩ := (anyOwed_false_iff s).1 h.owed
  refine (anyOwed_false_iff _).2 ⟨fun q x o d hq => ?_, he, hc, hk, hp⟩
  by_cases hqp : q = p
  · subst hqp
    rw [withSide_xs] at hq
    simp [h.unheld x hq]
  · rw [(withSide_cardFrame c).2.2.2.2.2.2.2.2.2.2.2 q hqp |>.2.1] at hq
    exact hx q x o d hq

theorem withSide_freeSlots : (s.withSide p c).oq.freeSlots = s.oq.freeSlots - c.posts.length := by
  have h : c.posts.countP ((fun r => !r.isReply) ∘ OutRecord.notice) = c.posts.length :=
    List.countP_eq_length.2 fun n _ => rfl
  have hn : (s.withSide p c).oq.notices = s.oq.notices + c.posts.length := by
    simp only [OutQueue.notices, withSide_queue, List.countP_append, List.countP_map, h]
  simp only [OutQueue.freeSlots, hn, withSide_blocks]
  omega

theorem CardSide.Free.slot (h : c.Free s (n + 1)) : 0 < (s.withSide p c).oq.freeSlots := by
  have := h.slots
  rw [withSide_freeSlots]
  omega

/-- CARD_STATE posted with a slot free (R150). -/
theorem CardSide.Free.postCardState (h : c.Free s (n + 1)) :
    postCardState p (s.withSide p c) = s.withSide p (c.posted p) := by
  rw [postCardState_free p _ h.anyOwed h.slot, onLine_withSide, enqueue_withSide, withSide_line]
  rfl

/-- A move of the card state with a slot free (R150). -/
theorem CardSide.Free.moveCard (h : c.Free s (n + 1)) (st : CardState) :
    moveCard p st (s.withSide p c) = s.withSide p ((c.onLine (.move st)).posted p) := by
  rw [Machine.moveCard, onLine_withSide]
  exact (h.onLine _).postCardState

/-- The end of an exchange with a slot free (R166). -/
theorem CardSide.Free.endExchange (h : c.Free s (n + 1)) (o : ExchangeOutcome) (d : Option (List Byte)) :
    endExchange p o d (s.withSide p c) = s.withSide p (c.ended p o d) := by
  cases hx : c.xs with
  | none => simp only [Machine.endExchange, withSide_xs, hx, CardSide.ended]
  | some x =>
    have ha : x.phase = .awaiting := h.unheld x hx
    obtain ⟨kind, tag, phase, sent, command, header, timer, repeatUsed⟩ := x
    obtain rfl : phase = .awaiting := ha
    have serve : ∀ e : Option Entry, serveOwed (s.withSide p ⟨c.line.dropOpening,
        .some ⟨kind, tag, .held o d, sent, .none, .none, .stopped, repeatUsed⟩, e, c.posts⟩) =
        s.withSide p ⟨c.line.dropOpening, .none, e, c.posts ++ [.exchangeDone p tag kind o d]⟩ := fun e => by
      have gone : CardSide.Free s (n + 1) ⟨c.line.dropOpening, .none, e, c.posts⟩ := ⟨h.owed, h.slots, nofun⟩
      rw [serveOwed_only (k := .result p) (n := .exchangeDone p tag kind o d)
        (t := s.withSide p ⟨c.line.dropOpening, .none, e, c.posts⟩), enqueue_withSide]
      · simp only [takeOwed, withSide_xs, putXs_withSide]
      · intro j hj
        have hg := isOwed_of_anyOwed (gone.anyOwed (p := p)) j
        cases j with
        | result q =>
          have hq : q ≠ p := fun e => hj (by rw [e])
          rw [isOwed_result] at hg ⊢
          simpa [State.withSide, PerPos.get_set_ne _ _ hq] using hg
        | expired q => rw [isOwed_expired] at hg ⊢; exact hg
        | card q => rw [isOwed_card] at hg ⊢; exact hg
        | keypad q => rw [isOwed_keypad] at hg ⊢; exact hg
        | pressure => rw [isOwed_pressure] at hg ⊢; exact hg
      · have hs := h.slots
        rw [withSide_freeSlots]
        simp only
        omega
    simp only [Machine.endExchange, withSide_xs, hx, onLine_withSide, putXs_withSide, CardSide.ended]
    cases kind with
    | present => simp [wipePresented_withSide, CardSide.onLine, serve, onLine_withSide, entryAfter]
    | power | command | release => simp [CardSide.onLine, serve, onLine_withSide, entryAfter]

/-- A frame asked for on a line whose list flows (R137). -/
theorem ask_withSide {f : TxFrame} (hf : f ≠ .opening) (h : c.line.flows) :
    ask p f (s.withSide p c) = s.withSide p (c.onLine (.ask f)) := by
  rw [ask_of_flows hf (by simpa using h), onLine_withSide]

theorem setRx_withSide (rx : FrameRx) :
    setRx p rx (s.withSide p c) = s.withSide p (c.onLine fun l => { l with rx := rx }) := onLine_withSide _

theorem settleLine_withSide : settleLine p (s.withSide p c) = s.withSide p (c.onLine (.settle c.inFlight)) := by
  rw [settleLine, onLine_withSide, withSide_inFlight]

end Sys2Proof.Machine

end

section
/-! SUPPORT. The frames of a reader that arrive whole, and what each leaves of the card: the late frame, the fault, the
card taken. -/

namespace Sys2Proof.Machine

open Sys2Proof

variable {p : Pos} {s : State} {c : CardSide} {n : Nat}

/-! ### Whole frames, by kind (R139, R187) -/

theorem exec_stateFrame (r : ReaderCondition) (h : (s.line.get p).fresh) :
    exec (.stateFrame p r) s = .next (takeState p r (setRx p .hunting s)) := by
  refine congrArg Host.Outcome.next ((frameArrives_good h (by simp)).trans ?_)
  cases r <;> rfl

theorem exec_faultFrame (k : FaultCause) (h : (s.line.get p).fresh) :
    exec (.faultFrame p k) s = .next (takeFault p k (setRx p .hunting s)) := by
  refine congrArg Host.Outcome.next ((frameArrives_good h (by simp)).trans ?_)
  cases k <;> rfl

theorem exec_doneFrame (h : (s.line.get p).fresh) :
    exec (.doneFrame p) s = .next (takeDone p (setRx p .hunting s)) :=
  congrArg Host.Outcome.next (frameArrives_good h (by simp))

theorem exec_answerFrame {payload : List Byte} (h : (s.line.get p).fresh)
    (hw : (Instr.answerFrame p payload).wellFormed = true) :
    exec (.answerFrame p payload) s = .next (takeAnswerFrame p payload (setRx p .hunting s)) :=
  congrArg Host.Outcome.next (frameArrives_good h (of_decide_eq_true hw))

theorem exec_responseFrame {payload : List Byte} (h : (s.line.get p).fresh)
    (hw : (Instr.responseFrame p payload).wellFormed = true) :
    exec (.responseFrame p payload) s = .next (takeResponseFrame p payload (setRx p .hunting s)) :=
  congrArg Host.Outcome.next (frameArrives_good h (of_decide_eq_true hw))

/-- A frame that is not listed is discarded and counted. -/
theorem takeFrame_of_not_listed {k : Byte} {payload : List Byte} (h : listedFrame k payload = false) (s : State) :
    takeFrame p k payload s = takeUnlisted p s := by
  unfold takeFrame
  split
  · next v hk =>
    have hv : ¬ v.toNat ≤ 2 := by simpa [listedFrame, hk] using h
    have hc : conditionOf v = .none := by
      unfold conditionOf
      split
      · omega
      · omega
      · omega
      · rfl
    rw [hc]
  · next v hk =>
    have hv : ¬ (1 ≤ v.toNat ∧ v.toNat ≤ 3) := by simpa [listedFrame, hk] using h
    have hc : causeOf v = .none := by
      unfold causeOf
      split
      · omega
      · omega
      · omega
      · rfl
    rw [hc]
  · next hk => simp [listedFrame, hk] at h
  · next hk => simp [listedFrame, hk] at h
  · next hk => simp [listedFrame, hk] at h
  · rfl

theorem exec_unlistedFrameKind {k : Byte} {payload : List Byte} (h : (s.line.get p).fresh)
    (hw : (Instr.unlistedFrameKind p k payload).wellFormed = true) :
    exec (.unlistedFrameKind p k payload) s = .next (takeUnlisted p (setRx p .hunting s)) := by
  obtain ⟨hp, hl⟩ := Bool.and_eq_true_iff.1 hw
  refine congrArg Host.Outcome.next ((frameArrives_good h (of_decide_eq_true hp)).trans ?_)
  exact takeFrame_of_not_listed (by simpa using hl) _

/-! ### Every valid frame (R139) -/

@[simp] theorem CardLine.validFrame_fields (l : CardLine) :
    l.validFrame.presence = l.presence ∧ l.validFrame.state = l.state ∧ l.validFrame.cause = l.cause ∧
      l.validFrame.powerUnknown = l.powerUnknown ∧ l.validFrame.misses = 0 ∧
      l.validFrame.checkFails = 0 ∧ l.validFrame.helloOut = false ∧ l.validFrame.rx = .hunting ∧
      l.validFrame.txLeaving = l.txLeaving ∧ l.validFrame.txWaiting = l.txWaiting ∧
      l.validFrame.helloTimer = (if l.helloOut then .stopped else l.helloTimer) ∧
      l.validFrame.silenceTimer = (if l.state = .noReader then l.silenceTimer else .running 500) ∧
      l.validFrame.noReaderTimer = l.noReaderTimer ∧
      l.validFrame.checkErrors = l.checkErrors ∧ l.validFrame.lateFrames = l.lateFrames ∧
      l.validFrame.faults = l.faults ∧ l.validFrame.changes = l.changes := by
  unfold CardLine.validFrame
  cases hh : l.helloOut <;> simp [CardLine.loadSilence_silenceTimer]

@[simp] theorem CardLine.validFrame_frames (l : CardLine) : l.validFrame.frames = l.frames ∧
    l.validFrame.framesWithoutOpening = l.framesWithoutOpening ∧ (l.validFrame.flows ↔ l.flows) := by
  simp [CardLine.frames, CardLine.framesWithoutOpening, CardLine.flows]

theorem CardLine.heard_validFrame {l : CardLine} (hs : l.state ≠ .noReader) : l.heard l.validFrame := by
  simp [CardLine.heard, hs]

/-! ### The ops of the card, field by field -/

/-- The end of an event of the line: its pending settings are tried (R141). -/
def CardSide.settled (c : CardSide) : CardSide := c.onLine (.settle c.inFlight)

theorem settleLine_side : settleLine p (s.withSide p c) = s.withSide p c.settled := settleLine_withSide

@[simp] theorem CardSide.settled_fields (c : CardSide) :
    c.settled.xs = c.xs ∧ c.settled.entry = c.entry ∧ c.settled.posts = c.posts ∧
      c.settled.line.frames = c.line.frames := by
  simp [CardSide.settled]

@[simp] theorem CardSide.settled_line_fields (c : CardSide) :
    c.settled.line.presence = c.line.presence ∧ c.settled.line.state = c.line.state ∧
      c.settled.line.cause = c.line.cause ∧ c.settled.line.powerUnknown = c.line.powerUnknown ∧
      c.settled.line.misses = c.line.misses ∧ c.settled.line.checkFails = c.line.checkFails ∧
      c.settled.line.helloOut = c.line.helloOut ∧ c.settled.line.rx = c.line.rx ∧
      c.settled.line.txLeaving = c.line.txLeaving ∧ c.settled.line.txWaiting = c.line.txWaiting ∧
      c.settled.line.silenceTimer = c.line.silenceTimer ∧ c.settled.line.helloTimer = c.line.helloTimer ∧
      c.settled.line.noReaderTimer = c.line.noReaderTimer ∧ c.settled.line.checkErrors = c.line.checkErrors ∧
      c.settled.line.lateFrames = c.line.lateFrames ∧ c.settled.line.faults = c.line.faults ∧
      c.settled.line.changes = c.line.changes := by
  simp [CardSide.settled]

@[simp] theorem CardSide.posted_fields (p : Pos) (c : CardSide) :
    (c.posted p).xs = c.xs ∧ (c.posted p).entry = c.entry ∧
      (c.posted p).posts = c.posts ++ [.cardState p c.line.state c.line.presence c.line.cause c.line.changes] ∧
      (c.posted p).line.frames = c.line.frames ∧
      (c.posted p).line.framesWithoutOpening = c.line.framesWithoutOpening ∧
      ((c.posted p).line.flows ↔ c.line.flows) := ⟨rfl, rfl, rfl, rfl, rfl, Iff.rfl⟩

/-- CARD_STATE posted moves the change count of the line alone (R150). -/
@[simp] theorem CardSide.posted_line_fields (p : Pos) (c : CardSide) :
    (c.posted p).line.presence = c.line.presence ∧ (c.posted p).line.state = c.line.state ∧
      (c.posted p).line.cause = c.line.cause ∧ (c.posted p).line.powerUnknown = c.line.powerUnknown ∧
      (c.posted p).line.misses = c.line.misses ∧ (c.posted p).line.checkFails = c.line.checkFails ∧
      (c.posted p).line.helloOut = c.line.helloOut ∧ (c.posted p).line.rx = c.line.rx ∧
      (c.posted p).line.txLeaving = c.line.txLeaving ∧ (c.posted p).line.txWaiting = c.line.txWaiting ∧
      (c.posted p).line.silenceTimer = c.line.silenceTimer ∧ (c.posted p).line.helloTimer = c.line.helloTimer ∧
      (c.posted p).line.noReaderTimer = c.line.noReaderTimer ∧
      (c.posted p).line.checkErrors = c.line.checkErrors ∧ (c.posted p).line.lateFrames = c.line.lateFrames ∧
      (c.posted p).line.faults = c.line.faults ∧ (c.posted p).line.changes = 0 := by
  simp [CardSide.posted]

theorem CardSide.ended_none {o : ExchangeOutcome} {d : Option (List Byte)} (h : c.xs = .none) : c.ended p o d = c := by
  simp [CardSide.ended, h]

theorem CardSide.ended_some {o : ExchangeOutcome} {d : Option (List Byte)} {x : Exchange} (h : c.xs = .some x) :
    c.ended p o d = ⟨c.line.dropOpening.loadSilence, .none, entryAfter x.kind c.entry,
      c.posts ++ [.exchangeDone p x.tag x.kind o d]⟩ := by
  simp [CardSide.ended, h]

/-- The end of an exchange moves the waiting frames and the silence timer of the line alone. -/
@[simp] theorem CardSide.ended_line_fields (p : Pos) (o : ExchangeOutcome) (d : Option (List Byte)) (c : CardSide) :
    (c.ended p o d).line.presence = c.line.presence ∧ (c.ended p o d).line.state = c.line.state ∧
      (c.ended p o d).line.cause = c.line.cause ∧ (c.ended p o d).line.powerUnknown = c.line.powerUnknown ∧
      (c.ended p o d).line.misses = c.line.misses ∧ (c.ended p o d).line.checkFails = c.line.checkFails ∧
      (c.ended p o d).line.helloOut = c.line.helloOut ∧ (c.ended p o d).line.rx = c.line.rx ∧
      (c.ended p o d).line.txLeaving = c.line.txLeaving ∧ (c.ended p o d).line.helloTimer = c.line.helloTimer ∧
      (c.ended p o d).line.noReaderTimer = c.line.noReaderTimer ∧
      (c.ended p o d).line.checkErrors = c.line.checkErrors ∧ (c.ended p o d).line.lateFrames = c.line.lateFrames ∧
      (c.ended p o d).line.faults = c.line.faults ∧ (c.ended p o d).line.changes = c.line.changes := by
  unfold CardSide.ended
  split <;> simp

/-- What the end of an exchange does, when there is one (R121, R156, R166). -/
@[simp] theorem CardSide.ended_fields (p : Pos) (o : ExchangeOutcome) (d : Option (List Byte)) (c : CardSide) :
    (c.ended p o d).xs = .none ∧
      (c.ended p o d).posts = c.posts ++ c.xs.toList.map (fun x => .exchangeDone p x.tag x.kind o d) ∧
      (c.ended p o d).entry = c.xs.elim c.entry (fun x => entryAfter x.kind c.entry) ∧
      (c.ended p o d).line.frames = (if c.xs.isSome then c.line.framesWithoutOpening else c.line.frames) := by
  cases hx : c.xs with
  | none => simp [ended_none hx, hx]
  | some x => simp [ended_some hx]

theorem CardSide.ended_silenceTimer (p : Pos) (o : ExchangeOutcome) (d : Option (List Byte)) (c : CardSide) :
    (c.ended p o d).line.silenceTimer =
      if c.xs.isSome then c.line.loadSilence.silenceTimer else c.line.silenceTimer := by
  cases hx : c.xs with
  | none => simp [ended_none hx]
  | some x => simp [ended_some hx, CardLine.loadSilence_silenceTimer]

theorem CardSide.ended_flows {o : ExchangeOutcome} {d : Option (List Byte)} (h : c.line.flows) :
    (c.ended p o d).line.flows := by
  cases hx : c.xs with
  | none => rwa [ended_none hx]
  | some x =>
    rw [ended_some hx]
    simpa [CardLine.flows] using CardLine.flows_dropOpening h

/-! ### What stays of a valid frame as the rest of the line moves -/

variable {l : CardLine}

theorem CardLine.heard.settled (h : l.heard c.line) : l.heard c.settled.line := by
  simpa [CardLine.heard, CardSide.settled] using h

theorem CardLine.heard.posted (h : l.heard c.line) : l.heard (c.posted p).line := h

theorem CardLine.heard.ended {o : ExchangeOutcome} {d : Option (List Byte)} (h : l.heard c.line) :
    l.heard (c.ended p o d).line := by
  cases hx : c.xs with
  | none => rwa [CardSide.ended_none hx]
  | some x =>
    rw [CardSide.ended_some hx]
    simp only [CardLine.heard, CardLine.loadSilence_fields, CardLine.dropOpening_fields,
      CardLine.loadSilence_silenceTimer] at h ⊢
    obtain ⟨h1, h2, h3, h4, h5, h6, h7, h8, h9, h10⟩ := h
    exact ⟨h1, h2, h3, h4, h5, h6, by simp [h7], h8, h9, h10⟩

/-! ### The card of a position, taken and put back -/

theorem onLine_side (f : CardLine → CardLine) : s.onLine p f = s.withSide p ((s.side p).onLine f) := by
  rw [← onLine_withSide, State.withSide_side]

/-- A frame that passes, on the line with the receiver hunting again. -/
theorem onLine_validFrame_side : (setRx p .hunting s).onLine p CardLine.validFrame =
    s.withSide p ((s.side p).onLine CardLine.validFrame) := by
  rw [setRx, State.onLine_onLine]
  exact onLine_side _

@[simp] theorem side_fields (s : State) (p : Pos) : (s.side p).line = s.line.get p ∧ (s.side p).xs = s.xs.get p ∧
    (s.side p).entry = s.entry.get p ∧ (s.side p).posts = [] := by simp [State.side]

/-- A card whose line alone has moved. -/
theorem withSide_line_only (hx : c.xs = s.xs.get p) (he : c.entry = s.entry.get p) (hp : c.posts = []) :
    s.withSide p c = { s with line := (s.withSide p c).line } ∧
      ∀ q, q ≠ p → (s.withSide p c).line.get q = s.line.get q :=
  ⟨withSide_of_line hx he hp, fun _ hq => withSide_line_ne c hq⟩

theorem xs_none_of_not_inFlight (h : (s.side p).Free s n) (hf : s.inFlight p = false) : s.xs.get p = .none := by
  cases hx : s.xs.get p with
  | none => rfl
  | some x => simp [State.inFlight, hx, h.unheld x (by simp [hx])] at hf

theorem releaseInFlight_iff : s.releaseInFlight p = true ↔
    ∃ x, s.xs.get p = .some x ∧ x.phase = .awaiting ∧ x.kind = .release := by
  unfold State.releaseInFlight
  split
  · next hx => simp [hx]
  · next x hx => simp [hx]

/-! ### A late frame (R139, R148, R162) -/

/-- A valid frame discarded and counted. -/
def CardSide.discarded (c : CardSide) : CardSide := (c.onLine fun l => l.validFrame.late).settled

theorem takeUnlisted_side : takeUnlisted p (setRx p .hunting s) = s.withSide p (s.side p).discarded := by
  rw [takeUnlisted, setRx, State.onLine_onLine, onLine_side]
  exact settleLine_side

theorem takeDone_late (h : (s.line.get p).state ≠ .releasing) : takeDone p s = takeUnlisted p s := by
  rw [takeDone, if_neg h, State.onLine_onLine]
  rfl

theorem takeFault_late (k : FaultCause) (h : (s.line.get p).state = .noReader) : takeFault p k s = takeUnlisted p s := by
  rw [takeFault, h, State.onLine_onLine]
  rfl

theorem answerArrives_late (aw : ExchangeKind → Bool) (fits : Bool) (payload : List Byte)
    (h : (s.line.get p).state = .noReader) : answerArrives p aw fits payload s = takeUnlisted p s := by
  rw [answerArrives, if_pos h, State.onLine_onLine]
  rfl

/-- What a frame discarded outside NO_READER leaves. -/
theorem discarded_heard (hs : (s.line.get p).state ≠ .noReader) :
    ∃ t, s.withSide p (s.side p).discarded = t ∧ t = { s with line := t.line } ∧
      (∀ q, q ≠ p → t.line.get q = s.line.get q) ∧ (s.line.get p).heard (t.line.get p) ∧
      (t.line.get p).state = (s.line.get p).state ∧ (t.line.get p).cause = (s.line.get p).cause ∧
      (t.line.get p).lateFrames = min 65535 ((s.line.get p).lateFrames + 1) := by
  obtain ⟨hl, hn⟩ := withSide_line_only (s := s) (p := p) (c := (s.side p).discarded) (by simp [CardSide.discarded])
    (by simp [CardSide.discarded]) (by simp [CardSide.discarded])
  refine ⟨_, rfl, hl, hn, ?_, ?_, ?_, ?_⟩
  · rw [withSide_line]
    exact CardLine.heard.settled (c := (s.side p).onLine fun l => l.validFrame.late) (CardLine.heard_validFrame hs)
  · simp [CardSide.discarded, CardLine.late]
  · simp [CardSide.discarded, CardLine.late]
  · simp [CardSide.discarded, CardLine.late, sat16, holdAt]

/-- What a frame discarded in NO_READER leaves. -/
theorem discarded_unheard (hs : (s.line.get p).state = .noReader) :
    ∃ t, s.withSide p (s.side p).discarded = t ∧ t = { s with line := t.line } ∧
      (∀ q, q ≠ p → t.line.get q = s.line.get q) ∧ (t.line.get p).state = .noReader ∧
      (t.line.get p).misses = 0 ∧ (t.line.get p).checkFails = 0 ∧
      (t.line.get p).silenceTimer = (s.line.get p).silenceTimer ∧
      (t.line.get p).noReaderTimer = (s.line.get p).noReaderTimer ∧
      (t.line.get p).lateFrames = min 65535 ((s.line.get p).lateFrames + 1) := by
  obtain ⟨hl, hn⟩ := withSide_line_only (s := s) (p := p) (c := (s.side p).discarded) (by simp [CardSide.discarded])
    (by simp [CardSide.discarded]) (by simp [CardSide.discarded])
  refine ⟨_, rfl, hl, hn, ?_, ?_, ?_, ?_, ?_, ?_⟩ <;>
    simp [CardSide.discarded, CardSide.settled, CardLine.late, sat16, holdAt, hs]

/-! ### A fault (R147) -/

/-- A fault met outside FAULT: the state, the exchange's end, CARD_STATE. -/
def CardSide.faulted (p : Pos) (k : FaultCause) (c : CardSide) : CardSide :=
  (((c.onLine fun l =>
    { l.validFrame.move .fault with cause := .some k, faults := sat16 l.validFrame.faults }).ended
      p .readerFault .none).posted p).settled

theorem takeFault_side (k : FaultCause) (hn : (s.line.get p).state ≠ .noReader) (hf : (s.line.get p).state ≠ .fault)
    (h : s.slotsFree 2) : takeFault p k (setRx p .hunting s) = s.withSide p ((s.side p).faulted p k) := by
  have moves : ∀ u : State, (u.line.get p).state ≠ .noReader → (u.line.get p).state ≠ .fault →
      takeFault p k u = settleLine p (postCardState p (endExchange p .readerFault .none
        ((u.onLine p CardLine.validFrame).onLine p fun l =>
          { l.move .fault with cause := .some k, faults := sat16 l.faults }))) := fun u hu hv => by
    unfold takeFault
    cases hs : (u.line.get p).state <;> simp_all
  have free := (side_free h (p := p)).onLine (fun l =>
    { l.validFrame.move .fault with cause := .some k, faults := sat16 l.validFrame.faults })
  rw [moves _ (by simpa [setRx] using hn) (by simpa [setRx] using hf), onLine_validFrame_side, onLine_withSide]
  refine (congrArg _ (congrArg _ (free.endExchange _ _))).trans ?_
  rw [free.ended.postCardState, settleLine_side]
  rfl

/-- A fault met in FAULT: the cause and the count. -/
theorem takeFault_again (k : FaultCause) (hf : (s.line.get p).state = .fault) :
    takeFault p k (setRx p .hunting s) = s.withSide p (((s.side p).onLine fun l =>
      { l.validFrame with cause := .some k, faults := sat16 l.validFrame.faults }).settled) := by
  have hf' : ((setRx p .hunting s).line.get p).state = .fault := by simpa [setRx] using hf
  have again : ∀ u : State, (u.line.get p).state = .fault → takeFault p k u =
      settleLine p ((u.onLine p CardLine.validFrame).onLine p fun l =>
        { l with cause := .some k, faults := sat16 l.faults }) := fun u hu => by
    unfold takeFault
    rw [hu]
  rw [again _ hf', onLine_validFrame_side, onLine_withSide]
  exact settleLine_side

/-! ### A card taken (R148, R162) -/

/-- The card PRESENTED, and a release in flight ended. -/
def CardSide.taken (p : Pos) (release : Bool) (c : CardSide) : CardSide :=
  let moved := (c.onLine fun l => l.validFrame.move .presented).posted p
  (if release then moved.ended p .done .none else moved).settled

theorem takeDone_side (hr : (s.line.get p).state = .releasing) (h : s.slotsFree 2) :
    takeDone p (setRx p .hunting s) = s.withSide p ((s.side p).taken p (s.releaseInFlight p)) := by
  have hr' : ((setRx p .hunting s).line.get p).state = .releasing := by simpa [setRx] using hr
  have free := (side_free h (p := p)).onLine CardLine.validFrame
  rw [takeDone, if_pos hr', onLine_validFrame_side, free.moveCard]
  have moved := (free.onLine (.move .presented)).posted (p := p)
  change settleLine p (if s.releaseInFlight p = true then _ else _) = _
  cases hb : s.releaseInFlight p with
  | false =>
    rw [if_neg (by simp), settleLine_side]
    rfl
  | true =>
    rw [if_pos rfl, moved.endExchange, settleLine_side]
    rfl

end Sys2Proof.Machine

open Sys2Proof Sys2Proof.Machine

/-- Settles O43: each frame in closed form on the card of its position, and the late ones as one discarded frame. -/
theorem faultDoneAndLateFrames : Obligations.FaultDoneAndLateFrames := by
  refine ⟨fun s p k hn hf hfr hs => ?_, fun s p k hf hfr => ?_, fun s p hr hfr hs => ?_, fun s p c hw hfr => ⟨?_, ?_⟩⟩
  · have free := side_free hs (p := p)
    refine ⟨_, (exec_faultFrame k hfr).trans (congrArg _ (takeFault_side k hn hf hs)), withSide_cardFrame _, rfl, rfl,
      ?_, ?_, ?_, ?_, fun hfl => ?_, fun x hx ha => ?_⟩
    · rw [withSide_line]
      have heard : (s.line.get p).heard _ := CardLine.heard_validFrame hn
      exact heard.ended (c := (s.side p).onLine fun l =>
        { l.validFrame.move .fault with cause := .some k, faults := sat16 l.validFrame.faults }) |>.posted |>.settled
    · simp [CardSide.faulted, CardLine.move]
    · simp [CardSide.faulted, CardLine.move]
    · simp [CardSide.faulted, CardLine.move, sat16, holdAt]
    · have hx := xs_none_of_not_inFlight free hfl
      refine ⟨withSide_xs_eq ?_, withSide_entry_eq ?_, ?_⟩ <;>
        simp [CardSide.faulted, hx, cardNotice, CardLine.move, holdAt]
    · refine ⟨?_, withSide_entriesAfterEnd ?_, ?_, ?_⟩ <;>
        simp [CardSide.faulted, hx, cardNotice, CardLine.move, holdAt, CardLine.framesWithoutOpening]
  · obtain ⟨hl, hn⟩ := withSide_line_only (s := s) (p := p) (c := ((s.side p).onLine fun l =>
      { l.validFrame with cause := .some k, faults := sat16 l.validFrame.faults }).settled) (by simp) (by simp) (by simp)
    refine ⟨_, (exec_faultFrame k hfr).trans (congrArg _ (takeFault_again k hf)), hl, hn, ?_, ?_, ?_, ?_⟩
    · rw [withSide_line]
      exact CardLine.heard.settled (c := (s.side p).onLine fun l =>
        { l.validFrame with cause := .some k, faults := sat16 l.validFrame.faults })
        (CardLine.heard_validFrame (by simp [hf]))
    · simp [hf]
    · simp
    · simp [sat16, holdAt]
  · have free := side_free hs (p := p)
    have heard : (s.line.get p).heard (((s.side p).onLine fun l => l.validFrame.move .presented).posted p).line :=
      CardLine.heard_validFrame (by simp [hr])
    refine ⟨_, (exec_doneFrame hfr).trans (congrArg _ (takeDone_side hr hs)), withSide_cardFrame _, rfl, rfl,
      withSide_entry_eq ?_, ?_, ?_, fun hfl => ?_, fun x hx ha hk => ?_⟩
    · cases hb : s.releaseInFlight p with
      | false => simp [CardSide.taken]
      | true =>
        obtain ⟨x, hx, _, hk⟩ := releaseInFlight_iff.1 hb
        simp [CardSide.taken, hx, entryAfter, hk]
    · rw [withSide_line]
      cases s.releaseInFlight p with
      | false => exact heard.settled
      | true => exact heard.ended.settled
    · cases s.releaseInFlight p <;> simp [CardSide.taken, CardLine.move]
    · have hx := xs_none_of_not_inFlight free hfl
      have hb : s.releaseInFlight p = false := by simp [State.releaseInFlight, hx]
      refine ⟨withSide_xs_eq ?_, ?_⟩ <;> simp [CardSide.taken, hb, cardNotice, CardLine.move, holdAt]
    · have hb : s.releaseInFlight p = true := releaseInFlight_iff.2 ⟨x, hx, ha, hk⟩
      refine ⟨?_, ?_⟩ <;> simp [CardSide.taken, hb, hx, hk, cardNotice, CardLine.move, holdAt]
  · rintro (⟨rfl, hr, hn⟩ | ⟨⟨k, payload, rfl⟩, hn⟩)
    · obtain ⟨t, rfl, ht⟩ := discarded_heard hn
      exact ⟨_, (exec_doneFrame hfr).trans (congrArg _ ((takeDone_late (by simpa [setRx] using hr)).trans
        takeUnlisted_side)), ht⟩
    · obtain ⟨t, rfl, ht⟩ := discarded_heard hn
      exact ⟨_, (exec_unlistedFrameKind hfr hw).trans (congrArg _ takeUnlisted_side), ht⟩
  · intro hc hn
    have hn' : ((setRx p .hunting s).line.get p).state = .noReader := by simpa [setRx] using hn
    obtain ⟨t, rfl, ht⟩ := discarded_unheard hn
    refine ⟨_, Eq.trans ?_ (congrArg Host.Outcome.next takeUnlisted_side), ht⟩
    rcases hc with ⟨k, rfl⟩ | rfl | ⟨payload, rfl⟩ | ⟨payload, rfl⟩ | ⟨k, payload, rfl⟩
    · exact (exec_faultFrame k hfr).trans (congrArg _ (takeFault_late k hn'))
    · exact (exec_doneFrame hfr).trans (congrArg _ (takeDone_late (by rw [hn']; decide)))
    · exact (exec_answerFrame hfr hw).trans (congrArg _ (answerArrives_late _ _ _ hn'))
    · exact (exec_responseFrame hfr hw).trans (congrArg _ (answerArrives_late _ _ _ hn'))
    · exact exec_unlistedFrameKind hfr hw

end

section
/-! SUPPORT. The power-down of a card, the failing frame within an exchange, and the ends of an exchange by its frame and
by its timer. -/

namespace Sys2Proof.Machine

open Sys2Proof

variable {p : Pos} {s : State} {c : CardSide} {n : Nat}

/-- A move of the card state is of that state and its change count (R150). -/
@[simp] theorem CardLine.move_fields (st : CardState) (l : CardLine) :
    (l.move st).presence = l.presence ∧ (l.move st).state = st ∧ (l.move st).cause = l.cause ∧
      (l.move st).powerUnknown = l.powerUnknown ∧ (l.move st).misses = l.misses ∧
      (l.move st).checkFails = l.checkFails ∧ (l.move st).helloOut = l.helloOut ∧ (l.move st).rx = l.rx ∧
      (l.move st).txLeaving = l.txLeaving ∧ (l.move st).txWaiting = l.txWaiting ∧
      (l.move st).silenceTimer = l.silenceTimer ∧ (l.move st).helloTimer = l.helloTimer ∧
      (l.move st).noReaderTimer = l.noReaderTimer ∧ (l.move st).checkErrors = l.checkErrors ∧
      (l.move st).lateFrames = l.lateFrames ∧ (l.move st).faults = l.faults ∧
      (l.move st).changes = holdAt 255 l.changes := by
  simp [CardLine.move]

/-! ### The power-down (R163, R165, R168) -/

/-- The WAITING opening frame taken out, POWER_OFF asked for, the card SEATED with its CARD_STATE. -/
def CardSide.seats (p : Pos) (c : CardSide) : CardSide :=
  (((c.onLine CardLine.dropOpening).onLine (.ask .powerOff)).onLine (.move .seated)).posted p

/-- The power-down of an exchange of a kind: none for a release. -/
def CardSide.poweredDown (p : Pos) (kind : ExchangeKind) (c : CardSide) : CardSide :=
  if kind = .release then c else c.seats p

@[simp] theorem CardSide.seats_fields (p : Pos) (c : CardSide) :
    (c.seats p).xs = c.xs ∧ (c.seats p).entry = c.entry ∧
      (c.seats p).posts =
        c.posts ++ [.cardState p .seated c.line.presence c.line.cause (holdAt 255 c.line.changes)] ∧
      (c.seats p).line.frames = c.line.framesWithoutOpening ++ [.powerOff] := by
  simp [seats, CardLine.ask_frames]

@[simp] theorem CardSide.seats_line_fields (p : Pos) (c : CardSide) :
    (c.seats p).line.presence = c.line.presence ∧ (c.seats p).line.state = .seated ∧
      (c.seats p).line.cause = c.line.cause ∧ (c.seats p).line.powerUnknown = c.line.powerUnknown ∧
      (c.seats p).line.misses = c.line.misses ∧ (c.seats p).line.checkFails = c.line.checkFails ∧
      (c.seats p).line.helloOut = c.line.helloOut ∧ (c.seats p).line.rx = c.line.rx ∧
      (c.seats p).line.silenceTimer = c.line.silenceTimer ∧ (c.seats p).line.helloTimer = c.line.helloTimer ∧
      (c.seats p).line.noReaderTimer = c.line.noReaderTimer ∧
      (c.seats p).line.checkErrors = c.line.checkErrors ∧ (c.seats p).line.lateFrames = c.line.lateFrames ∧
      (c.seats p).line.faults = c.line.faults ∧ (c.seats p).line.changes = 0 := by
  simp [seats]

theorem CardSide.seats_flows (p : Pos) (c : CardSide) : (c.seats p).line.flows :=
  CardLine.ask_flows (f := .powerOff) (l := c.line.dropOpening)

theorem CardSide.seats_framesWithoutOpening (h : c.line.flows) :
    (c.seats p).line.framesWithoutOpening = c.line.framesWithoutOpening ++ [.powerOff] := by
  change ((c.line.dropOpening).ask .powerOff).framesWithoutOpening = _
  rw [CardLine.framesWithoutOpening_ask (f := .powerOff) nofun (CardLine.flows_dropOpening h), CardLine.framesWithoutOpening_idem]

@[simp] theorem CardSide.poweredDown_same (p : Pos) (kind : ExchangeKind) (c : CardSide) :
    (c.poweredDown p kind).xs = c.xs ∧ (c.poweredDown p kind).entry = c.entry ∧
      (c.poweredDown p kind).line.presence = c.line.presence ∧ (c.poweredDown p kind).line.cause = c.line.cause ∧
      (c.poweredDown p kind).line.powerUnknown = c.line.powerUnknown ∧
      (c.poweredDown p kind).line.misses = c.line.misses ∧
      (c.poweredDown p kind).line.checkFails = c.line.checkFails ∧
      (c.poweredDown p kind).line.helloOut = c.line.helloOut ∧ (c.poweredDown p kind).line.rx = c.line.rx ∧
      (c.poweredDown p kind).line.silenceTimer = c.line.silenceTimer ∧
      (c.poweredDown p kind).line.helloTimer = c.line.helloTimer ∧
      (c.poweredDown p kind).line.noReaderTimer = c.line.noReaderTimer ∧
      (c.poweredDown p kind).line.checkErrors = c.line.checkErrors := by
  unfold poweredDown
  split <;> simp

/-- What the power-down moves, unless the exchange is a release. -/
theorem CardSide.poweredDown_moves (p : Pos) (kind : ExchangeKind) (h : c.line.flows) :
    (c.poweredDown p kind).line.state = (if kind = .release then c.line.state else .seated) ∧
      (c.poweredDown p kind).line.changes = (if kind = .release then c.line.changes else 0) ∧
      (c.poweredDown p kind).line.flows ∧
      (c.poweredDown p kind).line.framesWithoutOpening =
        c.line.framesWithoutOpening ++ (if kind = .release then [] else [.powerOff]) ∧
      (c.poweredDown p kind).posts = c.posts ++ (if kind = .release then []
        else [.cardState p .seated c.line.presence c.line.cause (holdAt 255 c.line.changes)]) := by
  unfold poweredDown
  split
  · simpa using h
  · exact ⟨by simp, by simp, c.seats_flows p, seats_framesWithoutOpening h, by simp⟩

theorem CardSide.Free.poweredDown (h : c.Free s (n + 1)) (kind : ExchangeKind) : (c.poweredDown p kind).Free s n := by
  unfold CardSide.poweredDown
  split
  · exact h.mono (by omega)
  · exact (((h.onLine _).onLine _).onLine _).posted

theorem CardSide.Free.powerDown (h : c.Free s (n + 1)) (hw : c.line.flows) (kind : ExchangeKind) :
    powerDown p kind (s.withSide p c) = s.withSide p (c.poweredDown p kind) := by
  have seats : Machine.moveCard p .seated (ask p .powerOff ((s.withSide p c).onLine p CardLine.dropOpening)) =
      s.withSide p (c.seats p) := by
    rw [onLine_withSide, ask_withSide (f := .powerOff) nofun (CardLine.flows_dropOpening hw)]
    exact ((h.onLine _).onLine _).moveCard _
  cases kind with
  | release => rfl
  | power | command | present => exact seats

/-! ### A failing frame within an exchange (R165) -/

/-- The REPEAT asked for (R165). -/
def CardSide.retries (x : Exchange) (c : CardSide) : CardSide :=
  ({ c with xs := .some { x with repeatUsed := true } } : CardSide).onLine (.ask .askRepeat)

theorem CardSide.Free.retries {x : Exchange} (h : c.Free s n) (ha : x.phase = .awaiting) : (c.retries x).Free s n :=
  ⟨h.owed, h.slots, fun _ hy => by obtain rfl := Option.some.inj hy; exact ha⟩

theorem failDuring_retries {x : Exchange} (hr : x.repeatUsed = false) (hw : c.line.flows) :
    failDuring p x (s.withSide p c) = s.withSide p (c.retries x) := by
  rw [failDuring, if_pos hr, putXs_withSide, ask_withSide (f := .askRepeat) nofun (by exact hw)]
  rfl

theorem failDuring_eq_powerDown {x : Exchange} (hr : x.repeatUsed = true) (u : State) :
    failDuring p x u = endExchange p .lineError .none (powerDown p x.kind u) := by
  rw [failDuring, if_neg (by simp [hr])]
  cases x.kind <;> rfl

theorem CardSide.Free.failDuring_ends {x : Exchange} (h : c.Free s (n + 2)) (hr : x.repeatUsed = true)
    (hw : c.line.flows) :
    failDuring p x (s.withSide p c) = s.withSide p ((c.poweredDown p x.kind).ended p .lineError .none) := by
  rw [failDuring_eq_powerDown hr, h.powerDown hw, (h.poweredDown x.kind).endExchange]

/-! ### The ends of an exchange (R162, R163, R166) -/

theorem exec_exchangeTimer_due {x : Exchange} (hx : s.xs.get p = .some x) (ha : x.phase = .awaiting)
    (ht : x.timer = .running 0) (hw : (s.line.get p).flows) (h : s.slotsFree 2) :
    exec (.exchangeTimerExpiry p) s =
      .next (s.withSide p (((s.side p).poweredDown p x.kind).ended p .noResponse .none).settled) := by
  have due : exec (.exchangeTimerExpiry p) s =
      .next (settleLine p (endExchange p .noResponse .none (powerDown p x.kind s))) := by
    change execExchangeTimerExpiry p s = _
    simp only [execExchangeTimerExpiry, hx, ha, ht, Timer.due_running_zero, and_self, if_true]
  have free := side_free h (p := p)
  have hp := free.powerDown (p := p) (show (s.side p).line.flows from hw) x.kind
  rw [State.withSide_side] at hp
  rw [due, hp, (free.poweredDown x.kind).endExchange, settleLine_side]

theorem exec_exchangeTimer_not_due (h : ∀ x, s.xs.get p = .some x → x.phase ≠ .awaiting ∨ x.timer ≠ .running 0) :
    exec (.exchangeTimerExpiry p) s = .next s := by
  change execExchangeTimerExpiry p s = _
  unfold execExchangeTimerExpiry
  split
  · rfl
  · next x hx =>
    rw [if_neg]
    rintro ⟨ha, hd⟩
    rcases h x hx with hn | hn
    · exact hn ha
    · rw [Timer.not_due hn] at hd
      cases hd

/-! ### An ANSWER or RESPONSE (R162) -/

section Answers

variable {x : Exchange} {aw : ExchangeKind → Bool} {fits : Bool} {data : List Byte}

/-- The handling of an ANSWER or RESPONSE outside NO_READER, on the card heard. -/
theorem answerArrives_side (hs : (s.line.get p).state ≠ .noReader) :
    answerArrives p aw fits data (setRx p .hunting s) = settleLine p (takeAnswer p aw fits data
      (s.withSide p ((s.side p).onLine CardLine.validFrame))) := by
  have hs' : ((setRx p .hunting s).line.get p).state ≠ .noReader := by simpa [setRx] using hs
  rw [answerArrives, if_neg hs', onLine_validFrame_side]

/-- A frame that the record awaits. -/
theorem takeAnswer_awaited (hx : c.xs = .some x) (ha : x.phase = .awaiting) (haw : aw x.kind = true)
    (hsent : x.sent = true) : takeAnswer p aw fits data (s.withSide p c) =
      if fits then endExchange p .done (.some data) (moveCard p .ready (s.withSide p c))
      else failDuring p x ((s.withSide p c).onLine p fun l => { l with checkErrors := sat16 l.checkErrors }) := by
  unfold takeAnswer
  rw [withSide_xs, hx]
  simp only [ha, haw, hsent, Bool.true_eq_false, or_self, if_false]

/-- A frame not awaited, ahead of its command, or with no record in flight, is late. -/
theorem answerArrives_unused (hs : (s.line.get p).state ≠ .noReader)
    (h : ∀ x, s.xs.get p = .some x → x.phase = .awaiting → aw x.kind = false ∨ x.sent = false) :
    answerArrives p aw fits data (setRx p .hunting s) = s.withSide p (s.side p).discarded := by
  have late : takeAnswer p aw fits data (s.withSide p ((s.side p).onLine CardLine.validFrame)) =
      (s.withSide p ((s.side p).onLine CardLine.validFrame)).onLine p CardLine.late := by
    unfold takeAnswer
    rw [withSide_xs, CardSide.onLine_xs, (side_fields s p).2.1]
    split
    · rfl
    · next x hx =>
      split
      · rfl
      · next ha => rw [if_pos (h x hx ha)]
  rw [answerArrives_side hs, late, onLine_withSide, settleLine_side]
  rfl

/-- The exchange done with its data. -/
def CardSide.answered (p : Pos) (data : List Byte) (c : CardSide) : CardSide :=
  (((c.onLine fun l => l.validFrame.move .ready).posted p).ended p .done (.some data)).settled

theorem answerArrives_done (hs : (s.line.get p).state ≠ .noReader) (hx : s.xs.get p = .some x)
    (ha : x.phase = .awaiting) (haw : aw x.kind = true) (hsent : x.sent = true) (h : s.slotsFree 2) :
    answerArrives p aw true data (setRx p .hunting s) = s.withSide p ((s.side p).answered p data) := by
  have free := (side_free h (p := p)).onLine CardLine.validFrame
  rw [answerArrives_side hs, takeAnswer_awaited (by simpa using hx) ha haw hsent, if_pos rfl, free.moveCard,
    ((free.onLine _).posted).endExchange, settleLine_side]
  rfl

theorem answerArrives_short (hs : (s.line.get p).state ≠ .noReader) (hx : s.xs.get p = .some x)
    (ha : x.phase = .awaiting) (haw : aw x.kind = true) (hsent : x.sent = true) :
    answerArrives p aw false data (setRx p .hunting s) = settleLine p (failDuring p x (s.withSide p
      ((s.side p).onLine fun l => { l.validFrame with checkErrors := sat16 l.validFrame.checkErrors }))) := by
  rw [answerArrives_side hs, takeAnswer_awaited (by simpa using hx) ha haw hsent, if_neg (by simp), onLine_withSide]
  rfl

/-- A line that was heard, its failing frame counted (R165). -/
def CardSide.misfit (c : CardSide) : CardSide :=
  c.onLine fun l => { l.validFrame with checkErrors := sat16 l.validFrame.checkErrors }

@[simp] theorem CardSide.misfit_fields (c : CardSide) :
    c.misfit.xs = c.xs ∧ c.misfit.entry = c.entry ∧ c.misfit.posts = c.posts ∧
      c.misfit.line.frames = c.line.frames ∧ c.misfit.line.framesWithoutOpening = c.line.framesWithoutOpening ∧
      c.misfit.line.presence = c.line.presence ∧ c.misfit.line.cause = c.line.cause ∧
      c.misfit.line.changes = c.line.changes ∧ c.misfit.line.checkErrors = sat16 c.line.checkErrors := by
  simp [misfit, CardLine.frames, CardLine.framesWithoutOpening]

theorem CardSide.misfit_flows (h : c.line.flows) : c.misfit.line.flows := by
  simpa [misfit, CardLine.flows] using h

theorem answerArrives_retries (hs : (s.line.get p).state ≠ .noReader) (hx : s.xs.get p = .some x)
    (ha : x.phase = .awaiting) (haw : aw x.kind = true) (hsent : x.sent = true) (hr : x.repeatUsed = false)
    (hw : (s.line.get p).flows) : answerArrives p aw false data (setRx p .hunting s) =
      s.withSide p ((s.side p).misfit.retries x).settled := by
  rw [answerArrives_short hs hx ha haw hsent]
  exact (congrArg _ (failDuring_retries hr (c := (s.side p).misfit) (CardSide.misfit_flows hw))).trans settleLine_side

theorem answerArrives_lineError (hs : (s.line.get p).state ≠ .noReader) (hx : s.xs.get p = .some x)
    (ha : x.phase = .awaiting) (haw : aw x.kind = true) (hsent : x.sent = true) (hr : x.repeatUsed = true)
    (hw : (s.line.get p).flows) (h : s.slotsFree 2) : answerArrives p aw false data (setRx p .hunting s) =
      s.withSide p (((s.side p).misfit.poweredDown p x.kind).ended p .lineError .none).settled := by
  rw [answerArrives_short hs hx ha haw hsent]
  exact (congrArg _ (((side_free h).onLine _).failDuring_ends hr (c := (s.side p).misfit)
    (CardSide.misfit_flows hw))).trans settleLine_side

end Answers

/-! ### An exchange that ends with no slot free (R166, R177) -/

/-- CARD_STATE owed, with no slot free. -/
theorem postCardState_full (p : Pos) (h : s.oq.freeSlots = 0) : postCardState p s = s.onOq fun q =>
    { q with cards := q.cards.set p (.some ⟨(s.line.get p).state, (s.line.get p).presence, (s.line.get p).cause⟩) } :=
  serveOwed_of_full _ h

/-- The result held, with no slot free. -/
theorem endExchange_full {x : Exchange} (o : ExchangeOutcome) (d : Option (List Byte)) (hx : s.xs.get p = .some x)
    (ha : x.phase = .awaiting) (h : s.oq.freeSlots = 0) : endExchange p o d s = s.withSide p
      ⟨(s.line.get p).dropOpening.loadSilence,
        .some { x with timer := .stopped, phase := .held o d, command := .none, header := .none },
        entryAfter x.kind (s.entry.get p), []⟩ := by
  obtain ⟨kind, tag, phase, sent, command, header, timer, repeatUsed⟩ := x
  obtain rfl : phase = .awaiting := ha
  have full : ∀ c : CardSide, c.posts = [] → serveOwed (s.withSide p c) = s.withSide p c := fun c hc =>
    serveOwed_of_full _ (by rw [withSide_freeSlots, hc, h]; rfl)
  unfold endExchange
  rw [hx, onLine_side]
  simp only [putXs_withSide]
  cases kind with
  | present => simp [wipePresented_withSide, CardSide.onLine, full, onLine_withSide, entryAfter]
  | power | command | release => simp [CardSide.onLine, full, onLine_withSide, entryAfter]

theorem withSide_withSide {c' : CardSide} (h : c.posts = []) : (s.withSide p c).withSide p c' = s.withSide p c' := by
  simp [State.withSide, h]

/-- The state with a CARD_STATE of the card READY owed. -/
def State.owesReady (s : State) (p : Pos) : State := s.onOq fun q =>
  { q with cards := q.cards.set p (.some ⟨.ready, (s.line.get p).presence, (s.line.get p).cause⟩) }

/-- The exchange done with its data, which is held. -/
def CardSide.answeredHeld (x : Exchange) (data : List Byte) (c : CardSide) : CardSide :=
  CardSide.settled ⟨(c.line.validFrame.move .ready).dropOpening.loadSilence,
    .some { x with timer := .stopped, phase := .held .done (.some data), command := .none, header := .none },
    entryAfter x.kind c.entry, []⟩

theorem answerArrives_held {x : Exchange} {aw : ExchangeKind → Bool} {data : List Byte}
    (hs : (s.line.get p).state ≠ .noReader) (hx : s.xs.get p = .some x) (ha : x.phase = .awaiting)
    (haw : aw x.kind = true) (hsent : x.sent = true) (h : s.oq.freeSlots = 0) :
    answerArrives p aw true data (setRx p .hunting s) =
      (s.owesReady p).withSide p ((s.side p).answeredHeld x data) := by
  have moved : moveCard p .ready (s.withSide p ((s.side p).onLine CardLine.validFrame)) =
      (s.owesReady p).withSide p ((s.side p).onLine fun l => l.validFrame.move .ready) := by
    rw [moveCard, onLine_withSide, postCardState_full _ (by rw [withSide_freeSlots, h]; rfl), withSide_line]
    simp only [CardSide.onLine_line, CardLine.move_fields, CardLine.validFrame_fields, side_fields]
    rfl
  have full : ((s.owesReady p).withSide p ((s.side p).onLine fun l => l.validFrame.move .ready)).oq.freeSlots = 0 := by
    rw [withSide_freeSlots, show (s.owesReady p).oq.freeSlots = 0 from h]
    rfl
  rw [answerArrives_side hs, takeAnswer_awaited (by simpa using hx) ha haw hsent, if_pos rfl, moved,
    endExchange_full .done (.some data) ((withSide_xs _).trans hx) ha full, withSide_withSide rfl, settleLine_side]
  simp only [withSide_line, withSide_entry]
  rfl

end Sys2Proof.Machine

open Sys2Proof Sys2Proof.Machine

/-- Settles O49: each end in closed form on the card of its position. -/
theorem framesAndTimeoutsEndExchanges : Obligations.FramesAndTimeoutsEndExchanges := by
  refine ⟨fun s p x data c awaits fits hx ha hs hw hfr hc => ?_, fun s p data c hc hw hfr hs hno => ?_,
    fun s p x hx ha ht hw h => ?_, fun s p h => exec_exchangeTimer_not_due h⟩
  · obtain ⟨aw, he, haw, hrel⟩ : ∃ aw : ExchangeKind → Bool,
        exec c s = .next (answerArrives p aw fits data (setRx p .hunting s)) ∧ aw x.kind = awaits ∧
          aw .release = false := by
      rcases hc with ⟨rfl, rfl, rfl⟩ | ⟨rfl, rfl, rfl⟩
      · exact ⟨_, exec_answerFrame hfr hw, by cases x.kind <;> rfl, rfl⟩
      · exact ⟨_, exec_responseFrame hfr hw, by cases x.kind <;> rfl, rfl⟩
    clear hc hw
    rw [he]
    refine ⟨?_, ?_, ?_, ?_, ?_⟩
    · rintro rfl hsent rfl h
      refine ⟨_, congrArg _ (answerArrives_done hs hx ha haw hsent h), withSide_cardFrame _, rfl, rfl, ?_, ?_, ?_,
        withSide_entriesAfterEnd ?_, ?_⟩
      · rw [withSide_line]
        exact CardLine.heard.settled (CardLine.heard.ended (CardLine.heard_validFrame hs))
      all_goals simp [CardSide.answered, hx, cardNotice, holdAt]
    · rintro rfl hsent rfl h
      refine ⟨_, congrArg _ (answerArrives_held hs hx ha haw hsent h),
        withSide_cardFrame (s := s.owesReady p) _, rfl, rfl, ?_, withSide_entriesAfterEnd (s := s.owesReady p) rfl,
        List.append_nil _, withSide_xs _, PerPos.get_set_same _ _ _, ?_⟩
      all_goals simp [CardSide.answeredHeld, holdAt]
    · rintro hl
      obtain ⟨t, rfl, h1, h2, h3, h4, _, h6⟩ := discarded_heard hs
      refine ⟨_, congrArg _ (answerArrives_unused hs fun y hy _ => ?_), h1, h2, h3, h4, h6⟩
      obtain rfl := Option.some.inj (hx.symm.trans hy)
      rwa [haw]
    · rintro rfl hsent rfl hr hwf
      refine ⟨_, congrArg _ (answerArrives_retries hs hx ha haw hsent hr hwf), withSide_cardFrame _, rfl, rfl,
        withSide_oq_eq ?_, withSide_entry_eq ?_, rfl, ?_, ?_⟩
      all_goals simp [CardSide.retries, CardLine.ask_frames, sat16, holdAt]
    · rintro rfl hsent rfl hr hwf h
      have hk : x.kind ≠ .release := fun e => by rw [e, hrel] at haw; cases haw
      have hwm := CardSide.misfit_flows (c := s.side p) hwf
      refine ⟨_, congrArg _ (answerArrives_lineError hs hx ha haw hsent hr hwf h), withSide_cardFrame _, rfl, rfl,
        ?_, withSide_entriesAfterEnd ?_, ?_, ?_, ?_, ?_⟩
      · simp
      · simp [hx]
      · simp [CardSide.poweredDown, hk]
      · simp [CardSide.poweredDown_moves p x.kind hwm, hx, hk]
      · simp [sat16, holdAt]
      · simp [CardSide.poweredDown_moves p x.kind hwm, hx, hk, cardNotice, holdAt]
  · obtain ⟨aw, fits, he⟩ : ∃ (aw : ExchangeKind → Bool) (fits : Bool),
        exec c s = .next (answerArrives p aw fits data (setRx p .hunting s)) := by
      rcases hc with rfl | rfl
      · exact ⟨_, _, exec_answerFrame hfr hw⟩
      · exact ⟨_, _, exec_responseFrame hfr hw⟩
    obtain ⟨t, rfl, h1, h2, h3, h4, _, h6⟩ := discarded_heard hs
    exact ⟨_, he.trans (congrArg _ (answerArrives_unused hs fun x hx ha => absurd ha (hno x hx))), h1, h2, h3, h4, h6⟩
  · have hw' : (s.side p).line.flows := hw
    refine ⟨_, exec_exchangeTimer_due hx ha ht hw h, withSide_cardFrame _, rfl, rfl, ?_, withSide_entriesAfterEnd ?_,
      fun hk => ⟨?_, ?_⟩, fun hk => ⟨?_, ?_, ?_⟩⟩
    · simp
    · simp [hx]
    · simp [CardSide.poweredDown, hk]
    · simp [CardSide.poweredDown, hx, hk]
    · simp [CardSide.poweredDown, hk]
    · simp [CardSide.poweredDown_moves p x.kind hw', hx, hk]
    · simp [CardSide.poweredDown_moves p x.kind hw', hx, hk, cardNotice, holdAt]

end

section
/-! SUPPORT. A STATE frame outside NO_READER, by the rows of the card state table. -/

namespace Sys2Proof.Machine

open Sys2Proof

variable {p : Pos} {s : State} {c : CardSide} {n : Nat}

/-! ### Codes entered with room (R48, R49) -/

/-- The entries that synthetic codes of a position make: none for a CLOSED one. -/
def State.synthEntries (s : State) (p : Pos) (codes : List Code) : List IntakeEntry :=
  if (s.pos.get p).state = .opened then codes.map fun c => ⟨p, c, .synthetic, false⟩ else []

theorem State.intakeRoom.enter {m : Nat} (h : s.intakeRoom (m + 1)) (k : Code) :
    (s.onIntake fun f => f.enter p k .synthetic).intakeRoom m := by
  obtain ⟨hp, hn, hf⟩ := h
  refine ⟨hp, ?_, hf⟩
  rw [State.onIntake_intake, occupied_enter]
  simp only [Intake.enter]
  omega

/-- With room for all of them, codes enter in order (R48). -/
theorem foldl_admit_in_room (l : List Synth) (s : State) (h : s.intakeRoom l.length) :
    l.foldl (fun t k => admitSynth p k t) s =
      s.onIntake fun f => { f with entries := f.entries ++ s.synthEntries p (l.map Synth.code) } := by
  induction l generalizing s with
  | nil => simp [State.synthEntries, State.onIntake]
  | cons k rest ih =>
    rw [List.foldl_cons]
    by_cases ho : (s.pos.get p).state = .opened
    · rw [admit_of_free p k s ho (h.flag p k) h.free, ih _ (h.enter _)]
      simp [State.synthEntries, ho, State.onIntake, Intake.enter]
    · have hc : admitSynth p k s = s := admit_of_closed p k s (by
        cases hs : (s.pos.get p).state with
        | opened => exact absurd hs ho
        | closed => rfl)
      rw [hc, ih s ⟨h.1, by have := h.2.1; simp at this ⊢; omega, h.2.2⟩]
      simp [State.synthEntries, ho]

/-! ### The rows of the card state table (R146) -/

/-- Each row that moves the card state is the table's effect, but for a release in flight met in RELEASING. -/
theorem reportRows_effect : ∀ row ∈ reportRows, ∀ b : Bool,
    (row.1 = .releasing → row.2.1 ≠ .empty → b = false) →
    (reportEffect row.1 row.2.1 b).map (fun e => (e.state, e.codes.map Synth.code, e.ends)) =
      .some (row.2.2.1, row.2.2.2.1, row.2.2.2.2) := by decide

theorem reportRows_outside : ∀ row ∈ reportRows, row.1 ≠ .noReader ∧ row.2.2.2.1.length ≤ 2 := by decide

/-- Each row of no change has no effect. -/
theorem idleReports_effect : ∀ row ∈ idleReports, ∀ b : Bool, (row.2.2 = true → b = true) →
    reportEffect row.1 row.2.1 b = .none := by decide

theorem idleReports_outside : ∀ row ∈ idleReports, row.1 ≠ .noReader := by decide

/-! ### The report on the card -/

/-- What an event of the card leaves alone, it leaves alone as codes enter too. -/
theorem State.cardFrame.onIntake {t : State} (h : s.cardFrame t p) (f : Intake → Intake) :
    s.cardFrame (t.onIntake f) p := h

/-- The card state moved by a report, the cause gone with FAULT. -/
def CardLine.reported (st : CardState) (l : CardLine) : CardLine :=
  { l.move st with cause := if l.state = .fault then .none else l.cause }

@[simp] theorem CardLine.reported_fields (st : CardState) (l : CardLine) :
    (l.reported st).presence = l.presence ∧ (l.reported st).state = st ∧
      (l.reported st).cause = (if l.state = .fault then .none else l.cause) ∧
      (l.reported st).frames = l.frames ∧ (l.reported st).framesWithoutOpening = l.framesWithoutOpening ∧
      (l.reported st).changes = holdAt 255 l.changes := ⟨rfl, rfl, rfl, rfl, rfl, rfl⟩

/-- A report that moves the state: the move, the exchange's end, CARD_STATE. -/
def CardSide.reports (p : Pos) (st : CardState) (ends : Bool) (c : CardSide) : CardSide :=
  ((if ends then (c.onLine (.reported st)).ended p .cardGone .none else c.onLine (.reported st)).posted p).settled

theorem takeState_side {r : ReaderCondition} {e : ReportEffect} (hs : (s.line.get p).state ≠ .noReader)
    (he : reportEffect (s.line.get p).state r (s.releaseInFlight p) = .some e) (h : s.slotsFree 2)
    (hr : s.intakeRoom e.codes.length) : takeState p r (setRx p .hunting s) =
      (s.withSide p (((s.side p).onLine CardLine.validFrame).reports p e.state e.ends)).onIntake fun f =>
        { f with entries := f.entries ++ s.synthEntries p (e.codes.map Synth.code) } := by
  have hs' : ((setRx p .hunting s).line.get p).state ≠ .noReader := by simpa [setRx] using hs
  have free := ((side_free h (p := p)).onLine CardLine.validFrame).onLine (.reported e.state)
  have report : reportCard p r (s.withSide p ((s.side p).onLine CardLine.validFrame)) =
      e.codes.foldl (fun t k => admitSynth p k t) (postCardState p (if e.ends then
        endExchange p .cardGone .none (s.withSide p (((s.side p).onLine CardLine.validFrame).onLine (.reported e.state)))
        else s.withSide p (((s.side p).onLine CardLine.validFrame).onLine (.reported e.state)))) := by
    have he' : reportEffect ((s.withSide p ((s.side p).onLine CardLine.validFrame)).line.get p).state r
        ((s.withSide p ((s.side p).onLine CardLine.validFrame)).releaseInFlight p) = .some e := by
      have hb : (s.withSide p ((s.side p).onLine CardLine.validFrame)).releaseInFlight p = s.releaseInFlight p := by
        simp [State.releaseInFlight, State.withSide]
      simpa [hb] using he
    unfold reportCard
    rw [he']
    simp only [onLine_withSide]
    rfl
  have posted : settleLine p (postCardState p (if e.ends then
        endExchange p .cardGone .none (s.withSide p (((s.side p).onLine CardLine.validFrame).onLine (.reported e.state)))
        else s.withSide p (((s.side p).onLine CardLine.validFrame).onLine (.reported e.state)))) =
      s.withSide p (((s.side p).onLine CardLine.validFrame).reports p e.state e.ends) := by
    cases hb : e.ends with
    | true => rw [if_pos rfl, free.endExchange, free.ended.postCardState, settleLine_side]; rfl
    | false => rw [if_neg (by simp), free.postCardState, settleLine_side]; rfl
  rw [takeState, if_neg hs', onLine_validFrame_side, report, settleLine_foldl_admit, posted]
  refine (congrArg _ (foldl_admit_in_room e.codes (s.withSide p _) hr)).trans ?_
  refine judgePressure_of_normal _ hr.1 ?_
  have hn := hr.2.1
  simp only [State.onIntake_intake, Intake.occupied, withSide_blocks, List.length_append] at hn ⊢
  have hl : ((s.withSide p (((s.side p).onLine CardLine.validFrame).reports p e.state e.ends)).synthEntries p
      (e.codes.map Synth.code)).length ≤ e.codes.length := by
    unfold State.synthEntries
    split <;> simp
  omega

/-- A report that leaves the state. -/
theorem takeState_idle {r : ReaderCondition} (hs : (s.line.get p).state ≠ .noReader)
    (he : reportEffect (s.line.get p).state r (s.releaseInFlight p) = .none) : takeState p r (setRx p .hunting s) =
      s.withSide p ((s.side p).onLine CardLine.validFrame).settled := by
  have hs' : ((setRx p .hunting s).line.get p).state ≠ .noReader := by simpa [setRx] using hs
  have report : reportCard p r (s.withSide p ((s.side p).onLine CardLine.validFrame)) =
      s.withSide p ((s.side p).onLine CardLine.validFrame) := by
    have he' : reportEffect ((s.withSide p ((s.side p).onLine CardLine.validFrame)).line.get p).state r
        ((s.withSide p ((s.side p).onLine CardLine.validFrame)).releaseInFlight p) = .none := by
      have hb : (s.withSide p ((s.side p).onLine CardLine.validFrame)).releaseInFlight p = s.releaseInFlight p := by
        simp [State.releaseInFlight, State.withSide]
      simpa [hb] using he
    unfold reportCard
    rw [he']
  rw [takeState, if_neg hs', onLine_validFrame_side, report, settleLine_side]
  exact judgePressure_of_counts rfl rfl

theorem releaseInFlight_of_not_inFlight (h : s.inFlight p = false) : s.releaseInFlight p = false := by
  rw [Bool.eq_false_iff]
  intro hr
  obtain ⟨x, hx, ha, _⟩ := releaseInFlight_iff.1 hr
  simp [State.inFlight, hx, ha] at h

end Sys2Proof.Machine

open Sys2Proof Sys2Proof.Machine

/-- Settles O42: the frame in closed form on the card of its position, its effect read off the table's rows. -/
theorem stateFrameFollowsTheTable : Obligations.StateFrameFollowsTheTable := by
  refine ⟨fun s p st st' r codes ends hrow hst hfr hrel h hroom => ?_,
    fun s p st r release hrow hst hfr hrel => ?_⟩
  · obtain ⟨hs, hlen⟩ := reportRows_outside _ hrow
    have heff := reportRows_effect _ hrow (s.releaseInFlight p) fun h1 h2 => releaseInFlight_of_not_inFlight (hrel h1 h2)
    obtain ⟨e, he, hee⟩ := Option.map_eq_some_iff.1 heff
    obtain ⟨rfl, rfl, rfl⟩ : e.state = st' ∧ e.codes.map Synth.code = codes ∧ e.ends = ends := by simpa using hee
    subst hst
    have hroom' : s.intakeRoom e.codes.length := ⟨hroom.1, by
      have := hroom.2.1
      simp only [List.length_map] at hlen
      omega, hroom.2.2⟩
    refine ⟨_, (exec_stateFrame r hfr).trans (congrArg _ (takeState_side hs he h hroom')), (withSide_cardFrame _).onIntake _, rfl,
      ?_, ?_, ?_, ?_, rfl, fun hno => ?_, fun x hx ha hends => ?_⟩
    · rw [State.onIntake_line, withSide_line]
      have heard : (s.line.get p).heard (((s.side p).onLine CardLine.validFrame).onLine (.reported e.state)).line :=
        CardLine.heard_validFrame hs
      unfold CardSide.reports
      split
      · exact heard.ended.posted.settled
      · exact heard.posted.settled
    · cases hb : e.ends <;> simp [CardSide.reports]
    · cases hb : e.ends <;> simp [CardSide.reports]
    · cases hb : e.ends <;> simp [CardSide.reports]
    · have hx : e.ends = true → (s.side p).xs = .none := fun hb =>
        xs_none_of_not_inFlight (side_free h) (hno.resolve_right (by simp [hb]))
      refine ⟨withSide_xs_eq ?_, withSide_entry_eq ?_, ?_, ?_⟩ <;> cases hb : e.ends <;>
        simp_all [CardSide.reports, cardNotice, holdAt]
    · refine ⟨?_, withSide_entriesAfterEnd ?_, ?_, ?_⟩ <;>
        simp [CardSide.reports, hends, hx, cardNotice, holdAt]
  · subst hst
    have he := idleReports_effect _ hrow (s.releaseInFlight p) fun hb => releaseInFlight_iff.2 (hrel hb)
    have hs := idleReports_outside _ hrow
    obtain ⟨hl, hn⟩ := withSide_line_only (s := s) (p := p) (c := ((s.side p).onLine CardLine.validFrame).settled)
      (by simp) (by simp) (by simp)
    refine ⟨_, (exec_stateFrame r hfr).trans (congrArg _ (takeState_idle hs he)), hl, hn, ?_, ?_, ?_, ?_, ?_⟩
    · rw [withSide_line]
      exact CardLine.heard.settled (CardLine.heard_validFrame hs)
    all_goals simp

end

section
/-! SUPPORT. The loss of a line, a failing frame outside an exchange, and the line timers, on the card of one position. -/

namespace Sys2Proof.Machine

open Sys2Proof

variable {p : Pos} {s : State} {c : CardSide} {n : Nat}

/-! ### The loss of a line (R144) -/

/-- The line's fields as it is lost. -/
def CardLine.lose (l : CardLine) : CardLine :=
  { l.move .noReader with powerUnknown := l.powerUnknown || l.state.powered, presence := .lost, cause := .none }

/-- The line's timers once it is lost. -/
def CardLine.stopTimers (l : CardLine) : CardLine :=
  { l with silenceTimer := .stopped, helloTimer := .stopped, noReaderTimer := .running 2000 }

@[simp] theorem CardLine.lose_fields (l : CardLine) :
    l.lose.presence = .lost ∧ l.lose.state = .noReader ∧ l.lose.cause = .none ∧
      l.lose.powerUnknown = (l.powerUnknown || l.state.powered) ∧ l.lose.misses = l.misses ∧
      l.lose.checkFails = l.checkFails ∧ l.lose.helloOut = l.helloOut ∧ l.lose.rx = l.rx ∧
      l.lose.frames = l.frames ∧ l.lose.framesWithoutOpening = l.framesWithoutOpening ∧
      l.lose.checkErrors = l.checkErrors ∧ l.lose.changes = holdAt 255 l.changes :=
  ⟨rfl, rfl, rfl, rfl, rfl, rfl, rfl, rfl, rfl, rfl, rfl, rfl⟩

@[simp] theorem CardLine.stopTimers_fields (l : CardLine) :
    l.stopTimers.presence = l.presence ∧ l.stopTimers.state = l.state ∧ l.stopTimers.cause = l.cause ∧
      l.stopTimers.powerUnknown = l.powerUnknown ∧ l.stopTimers.misses = l.misses ∧
      l.stopTimers.checkFails = l.checkFails ∧ l.stopTimers.helloOut = l.helloOut ∧ l.stopTimers.rx = l.rx ∧
      l.stopTimers.frames = l.frames ∧ l.stopTimers.silenceTimer = .stopped ∧ l.stopTimers.helloTimer = .stopped ∧
      l.stopTimers.noReaderTimer = .running 2000 ∧ l.stopTimers.checkErrors = l.checkErrors ∧
      l.stopTimers.changes = l.changes :=
  ⟨rfl, rfl, rfl, rfl, rfl, rfl, rfl, rfl, rfl, rfl, rfl, rfl, rfl, rfl⟩

/-- The loss of a line, with the end of an exchange in flight ahead of its CARD_STATE. -/
def CardSide.lost (p : Pos) (c : CardSide) : CardSide :=
  (((c.onLine CardLine.lose).ended p .lineError .none).onLine CardLine.stopTimers).posted p

@[simp] theorem CardSide.lost_fields (p : Pos) (c : CardSide) :
    (c.lost p).xs = .none ∧ (c.lost p).entry = c.xs.elim c.entry (fun x => entryAfter x.kind c.entry) ∧
      (c.lost p).posts = c.posts ++ c.xs.toList.map (fun x => .exchangeDone p x.tag x.kind .lineError .none) ++
        [.cardState p .noReader .lost .none (holdAt 255 c.line.changes)] ∧
      (c.lost p).line.frames = (if c.xs.isSome then c.line.framesWithoutOpening else c.line.frames) ∧
      (c.lost p).line.state = .noReader ∧ (c.lost p).line.misses = c.line.misses ∧
      (c.lost p).line.helloOut = c.line.helloOut ∧ (c.lost p).line.rx = c.line.rx ∧
      (c.lost p).line.checkFails = c.line.checkFails ∧ (c.lost p).line.checkErrors = c.line.checkErrors := by
  simp [lost]

@[simp] theorem CardSide.lost_line_fields (p : Pos) (c : CardSide) :
    (c.lost p).line.presence = .lost ∧ (c.lost p).line.cause = .none ∧
      (c.lost p).line.powerUnknown = (c.line.powerUnknown || c.line.state.powered) ∧
      (c.lost p).line.silenceTimer = .stopped ∧ (c.lost p).line.helloTimer = .stopped ∧
      (c.lost p).line.noReaderTimer = .running 2000 ∧ (c.lost p).line.changes = 0 := by
  simp [lost]

/-- What the loss leaves of a line in the state that the card has. -/
theorem CardSide.lost_lostAs {l : CardLine} (hs : l.state = c.line.state) (hp : l.powerUnknown = c.line.powerUnknown) :
    l.lostAs (c.lost p).settled.line := by
  simp [CardLine.lostAs, hs, hp]

/-- The end of an exchange, with a slot free when there is one to end. -/
theorem CardSide.Free.endExchange_if (h : c.Free s n) (hx : c.xs ≠ .none → c.Free s (n + 1)) (o : ExchangeOutcome)
    (d : Option (List Byte)) : Machine.endExchange p o d (s.withSide p c) = s.withSide p (c.ended p o d) ∧
      (c.ended p o d).Free s n := by
  cases hc : c.xs with
  | none =>
    rw [CardSide.ended_none hc]
    exact ⟨by simp only [Machine.endExchange, withSide_xs, hc], h⟩
  | some x =>
    have free := hx (by simp [hc])
    exact ⟨free.endExchange o d, free.ended⟩

/-- The line lost, with a slot free, and another when an exchange ends. -/
theorem CardSide.Free.loseLine (h : c.Free s (n + 1)) (hx : c.xs ≠ .none → c.Free s (n + 2)) :
    loseLine p (s.withSide p c) = s.withSide p (c.lost p) := by
  obtain ⟨he, hf⟩ := CardSide.Free.endExchange_if (p := p) (h.onLine CardLine.lose)
    (fun hc => (hx hc).onLine CardLine.lose) .lineError .none
  refine (congrArg (fun u => Machine.postCardState p (State.onLine p CardLine.stopTimers (Machine.endExchange p .lineError
    .none u))) (onLine_withSide CardLine.lose)).trans ?_
  simp only [he, onLine_withSide]
  exact (hf.onLine _).postCardState

/-! ### A failing frame (R138, R139) -/

/-- A frame that fails: the receiver hunts, the counter rises, the silence timer is loaded. -/
def CardLine.failed (l : CardLine) : CardLine :=
  ({ l with rx := .hunting, checkErrors := sat16 l.checkErrors } : CardLine).loadSilence

/-- The consecutive failures counted. -/
def CardLine.failedAlone (l : CardLine) : CardLine := { l.failed with checkFails := holdAt 3 l.failed.checkFails }

@[simp] theorem CardLine.failed_fields (l : CardLine) :
    l.failed.presence = l.presence ∧ l.failed.state = l.state ∧ l.failed.cause = l.cause ∧
      l.failed.powerUnknown = l.powerUnknown ∧ l.failed.misses = l.misses ∧ l.failed.checkFails = l.checkFails ∧
      l.failed.helloOut = l.helloOut ∧ l.failed.rx = .hunting ∧ l.failed.frames = l.frames ∧
      l.failed.framesWithoutOpening = l.framesWithoutOpening ∧ (l.failed.flows ↔ l.flows) ∧
      l.failed.silenceTimer =
        (if l.state = .noReader ∨ l.helloOut = true then l.silenceTimer else .running 500) ∧
      l.failed.helloTimer = l.helloTimer ∧ l.failed.noReaderTimer = l.noReaderTimer ∧
      l.failed.checkErrors = min 65535 (l.checkErrors + 1) ∧ l.failed.changes = l.changes := by
  simp [failed, CardLine.loadSilence_silenceTimer, CardLine.frames, CardLine.framesWithoutOpening, CardLine.flows,
    sat16, holdAt]

@[simp] theorem CardLine.failedAlone_fields (l : CardLine) :
    l.failedAlone.presence = l.presence ∧ l.failedAlone.state = l.state ∧ l.failedAlone.cause = l.cause ∧
      l.failedAlone.powerUnknown = l.powerUnknown ∧ l.failedAlone.misses = l.misses ∧
      l.failedAlone.checkFails = min 3 (l.checkFails + 1) ∧
      l.failedAlone.helloOut = l.helloOut ∧ l.failedAlone.rx = .hunting ∧ l.failedAlone.frames = l.frames ∧
      (l.failedAlone.flows ↔ l.flows) ∧
      l.failedAlone.silenceTimer =
        (if l.state = .noReader ∨ l.helloOut = true then l.silenceTimer else .running 500) ∧
      l.failedAlone.helloTimer = l.helloTimer ∧ l.failedAlone.noReaderTimer = l.noReaderTimer ∧
      l.failedAlone.checkErrors = min 65535 (l.checkErrors + 1) ∧ l.failedAlone.changes = l.changes := by
  have hf : l.failedAlone.frames = l.failed.frames ∧ (l.failedAlone.flows ↔ l.failed.flows) := ⟨rfl, Iff.rfl⟩
  simp [hf]
  simp [failedAlone, holdAt]

theorem failFrame_outside (h : c.inFlight = false) :
    failFrame p (s.withSide p c) = failOutside p (s.withSide p (c.onLine CardLine.failed)) := by
  have hx : failFrame p (s.withSide p c) = failOutside p ((s.withSide p c).onLine p CardLine.failed) := by
    unfold failFrame
    simp only [State.onLine_xs, withSide_xs]
    unfold CardSide.inFlight at h
    split
    · rfl
    · next x hx =>
      split
      · next ha => simp [hx, ha] at h
      · rfl
  rw [hx, onLine_withSide]

theorem failFrame_during {x : Exchange} (hx : c.xs = .some x) (ha : x.phase = .awaiting) :
    failFrame p (s.withSide p c) = failDuring p x (s.withSide p (c.onLine CardLine.failed)) := by
  have hd : failFrame p (s.withSide p c) = failDuring p x ((s.withSide p c).onLine p CardLine.failed) := by
    unfold failFrame
    simp only [State.onLine_xs, withSide_xs, hx, ha]
    rfl
  rw [hd, onLine_withSide]

/-- A failure outside an exchange that is not the third, or in NO_READER (R139). -/
theorem failFrame_counted (h : c.inFlight = false) (hf : c.line.checkFails < 2 ∨ c.line.state = .noReader) :
    failFrame p (s.withSide p c) = s.withSide p (c.onLine CardLine.failedAlone) := by
  rw [failFrame_outside h, failOutside, onLine_withSide, if_neg]
  · rfl
  · simp only [withSide_line, CardSide.onLine_line, CardLine.failed_fields, holdAt]
    rintro ⟨hs, h3⟩
    rcases hf with hf | hf
    · omega
    · exact hs hf

/-- The third failure in a row outside an exchange loses the line (R139, R144). -/
theorem CardSide.Free.failFrame_lost (h : c.Free s 1) (hx : c.xs = .none) (hf : 2 ≤ c.line.checkFails)
    (hs : c.line.state ≠ .noReader) :
    failFrame p (s.withSide p c) = s.withSide p ((c.onLine CardLine.failedAlone).lost p) := by
  rw [failFrame_outside (by simp [CardSide.inFlight, hx]), failOutside, onLine_withSide, if_pos]
  · exact CardSide.Free.loseLine (c := c.onLine CardLine.failedAlone) (h.onLine _) fun hn => absurd hx hn
  · simp only [withSide_line, CardSide.onLine_line, CardLine.failed_fields, holdAt]
    exact ⟨hs, by omega⟩

theorem failFrame_retries {x : Exchange} (hx : c.xs = .some x) (ha : x.phase = .awaiting) (hr : x.repeatUsed = false)
    (hw : c.line.flows) :
    failFrame p (s.withSide p c) = s.withSide p ((c.onLine CardLine.failed).retries x) := by
  rw [failFrame_during hx ha, failDuring_retries hr (by simpa using hw)]

theorem CardSide.Free.failFrame_ends {x : Exchange} (h : c.Free s (n + 2)) (hx : c.xs = .some x)
    (ha : x.phase = .awaiting) (hr : x.repeatUsed = true) (hw : c.line.flows) : failFrame p (s.withSide p c) =
      s.withSide p (((c.onLine CardLine.failed).poweredDown p x.kind).ended p .lineError .none) := by
  rw [failFrame_during hx ha, (h.onLine CardLine.failed).failDuring_ends hr (by simpa using hw)]

/-- A frame being received is abandoned as one that fails (R138). -/
theorem abandon_receiving {got : List Byte} (h : c.line.rx = .receiving got) :
    abandon p (s.withSide p c) = failFrame p (s.withSide p c) := by
  unfold abandon
  rw [withSide_line, h]

theorem abandon_hunting (h : c.line.rx = .hunting) : abandon p (s.withSide p c) = s.withSide p c := by
  unfold abandon
  rw [withSide_line, h]

/-! ### The line timers (R142, R143, R145) -/

/-- What the line silence timer's expiry does of its own (R142). -/
def afterSilence (p : Pos) (t : State) : State :=
  if (t.line.get p).state = .noReader then t
  else if t.inFlight p then t.onLine p fun l => { l with silenceTimer := .running 500 }
  else
    ask p .hello (t.onLine p fun l =>
      { l with silenceTimer := .stopped, helloOut := true, helloTimer := .running 200 })

/-- The silence timer stopped, as it is found due. -/
def CardLine.stopSilence (l : CardLine) : CardLine := { l with silenceTimer := .stopped }

/-- The HELLO answer timer stopped, as it is found due. -/
def CardLine.stopHello (l : CardLine) : CardLine := { l with helloTimer := .stopped }

/-- The periodic HELLO's timer loaded again. -/
def CardLine.loadPeriodic (l : CardLine) : CardLine := { l with noReaderTimer := .running 2000 }

/-- HELLO asked for with its answer timer (R142). -/
def CardLine.helloAsked (l : CardLine) : CardLine :=
  ({ l with silenceTimer := .stopped, helloOut := true, helloTimer := .running 200 } : CardLine).ask .hello

/-- The miss counted (R143). -/
def CardLine.missed (l : CardLine) : CardLine := { l with helloOut := false, misses := holdAt 3 l.misses }

theorem exec_silence_due (h : (s.line.get p).silenceTimer = .running 0) : exec (.lineSilenceExpiry p) s =
    .next (settleLine p (afterSilence p (abandon p (s.withSide p ((s.side p).onLine CardLine.stopSilence))))) := by
  rw [← onLine_side]
  exact if_pos (by rw [h]; rfl)

theorem exec_hello_due (h : (s.line.get p).helloTimer = .running 0) : exec (.helloAnswerExpiry p) s =
    .next (settleLine p
      (if ((abandon p (s.withSide p ((s.side p).onLine CardLine.stopHello))).line.get p).helloOut then
        missHello p (abandon p (s.withSide p ((s.side p).onLine CardLine.stopHello)))
      else abandon p (s.withSide p ((s.side p).onLine CardLine.stopHello)))) := by
  rw [← onLine_side]
  exact if_pos (by rw [h]; rfl)

theorem exec_periodic_due (h : (s.line.get p).noReaderTimer = .running 0) : exec (.noReaderHelloExpiry p) s =
    .next (settleLine p (ask p .hello (abandon p (s.withSide p ((s.side p).onLine CardLine.loadPeriodic))))) := by
  rw [← onLine_side]
  exact if_pos (by rw [h]; rfl)

/-- The silence timer loaded again with an exchange in flight (R142). -/
def CardLine.rearm (l : CardLine) : CardLine := { l with silenceTimer := .running 500 }

theorem afterSilence_lost (h : c.line.state = .noReader) : afterSilence p (s.withSide p c) = s.withSide p c :=
  if_pos ((congrArg CardLine.state (withSide_line c)).trans h)

theorem afterSilence_inFlight (hs : c.line.state ≠ .noReader) (h : c.inFlight = true) :
    afterSilence p (s.withSide p c) = s.withSide p (c.onLine CardLine.rearm) := by
  rw [afterSilence, if_neg (by simpa using hs), if_pos (by simpa using h), onLine_withSide]
  rfl

theorem afterSilence_hello (hs : c.line.state ≠ .noReader) (h : c.inFlight = false) (hw : c.line.flows) :
    afterSilence p (s.withSide p c) = s.withSide p (c.onLine CardLine.helloAsked) := by
  rw [afterSilence, if_neg (by simpa using hs), if_neg (by simp [h]), onLine_withSide,
    ask_withSide (f := .hello) nofun (by exact hw)]
  rfl

/-- A miss that is not the third (R143). -/
theorem missHello_kept (h : c.line.misses < 2 ∨ c.line.state = .noReader) :
    missHello p (s.withSide p c) = s.withSide p (c.onLine fun l => l.missed.loadSilence) := by
  rw [missHello, onLine_withSide, if_neg, onLine_withSide]
  · rfl
  · simp only [withSide_line, CardSide.onLine_line, holdAt]
    rintro ⟨h3, hs⟩
    rcases h with h | h
    · omega
    · exact hs h

/-- The third miss loses the line (R143, R144). -/
theorem CardSide.Free.missHello_lost (h : c.Free s (n + 1)) (hx : c.xs ≠ .none → c.Free s (n + 2))
    (hm : 2 ≤ c.line.misses) (hs : c.line.state ≠ .noReader) :
    missHello p (s.withSide p c) = s.withSide p ((c.onLine CardLine.missed).lost p) := by
  rw [missHello, onLine_withSide, if_pos]
  · exact CardSide.Free.loseLine (c := c.onLine CardLine.missed) (h.onLine _) fun hc => (hx hc).onLine _
  · simp only [withSide_line, CardSide.onLine_line, holdAt]
    exact ⟨by omega, hs⟩

end Sys2Proof.Machine

end

section
/-! SUPPORT. The line timers' own updates field by field, and the restoration of a line. -/

namespace Sys2Proof.Machine

open Sys2Proof

variable {p : Pos} {s : State} {c : CardSide} {n : Nat}

/-! ### The updates of the line timers, field by field -/

@[simp] theorem CardLine.stopSilence_fields (l : CardLine) :
    l.stopSilence.presence = l.presence ∧ l.stopSilence.state = l.state ∧ l.stopSilence.cause = l.cause ∧
      l.stopSilence.powerUnknown = l.powerUnknown ∧ l.stopSilence.misses = l.misses ∧
      l.stopSilence.checkFails = l.checkFails ∧ l.stopSilence.helloOut = l.helloOut ∧ l.stopSilence.rx = l.rx ∧
      l.stopSilence.frames = l.frames ∧ l.stopSilence.framesWithoutOpening = l.framesWithoutOpening ∧
      (l.stopSilence.flows ↔ l.flows) ∧ l.stopSilence.silenceTimer = .stopped ∧
      l.stopSilence.checkErrors = l.checkErrors ∧ l.stopSilence.changes = l.changes :=
  ⟨rfl, rfl, rfl, rfl, rfl, rfl, rfl, rfl, rfl, rfl, Iff.rfl, rfl, rfl, rfl⟩

@[simp] theorem CardLine.stopHello_fields (l : CardLine) :
    l.stopHello.presence = l.presence ∧ l.stopHello.state = l.state ∧ l.stopHello.cause = l.cause ∧
      l.stopHello.powerUnknown = l.powerUnknown ∧ l.stopHello.misses = l.misses ∧
      l.stopHello.checkFails = l.checkFails ∧ l.stopHello.helloOut = l.helloOut ∧ l.stopHello.rx = l.rx ∧
      l.stopHello.frames = l.frames ∧ l.stopHello.framesWithoutOpening = l.framesWithoutOpening ∧
      (l.stopHello.flows ↔ l.flows) ∧ l.stopHello.silenceTimer = l.silenceTimer ∧
      l.stopHello.helloTimer = .stopped ∧ l.stopHello.checkErrors = l.checkErrors ∧
      l.stopHello.changes = l.changes :=
  ⟨rfl, rfl, rfl, rfl, rfl, rfl, rfl, rfl, rfl, rfl, Iff.rfl, rfl, rfl, rfl, rfl⟩

@[simp] theorem CardLine.loadPeriodic_fields (l : CardLine) :
    l.loadPeriodic.state = l.state ∧ l.loadPeriodic.misses = l.misses ∧ l.loadPeriodic.checkFails = l.checkFails ∧
      l.loadPeriodic.helloOut = l.helloOut ∧ l.loadPeriodic.rx = l.rx ∧ l.loadPeriodic.frames = l.frames ∧
      (l.loadPeriodic.flows ↔ l.flows) ∧ l.loadPeriodic.silenceTimer = l.silenceTimer ∧
      l.loadPeriodic.noReaderTimer = .running 2000 ∧ l.loadPeriodic.checkErrors = l.checkErrors :=
  ⟨rfl, rfl, rfl, rfl, rfl, rfl, Iff.rfl, rfl, rfl, rfl⟩

@[simp] theorem CardLine.missed_fields (l : CardLine) :
    l.missed.presence = l.presence ∧ l.missed.cause = l.cause ∧ l.missed.noReaderTimer = l.noReaderTimer ∧
      l.missed.state = l.state ∧ l.missed.powerUnknown = l.powerUnknown ∧ l.missed.helloOut = false ∧
      l.missed.misses = min 3 (l.misses + 1) ∧ l.missed.rx = l.rx ∧ l.missed.checkFails = l.checkFails ∧
      l.missed.helloTimer = l.helloTimer ∧ l.missed.silenceTimer = l.silenceTimer ∧ l.missed.frames = l.frames ∧
      l.missed.framesWithoutOpening = l.framesWithoutOpening ∧ l.missed.checkErrors = l.checkErrors ∧
      l.missed.changes = l.changes :=
  ⟨rfl, rfl, rfl, rfl, rfl, rfl, rfl, rfl, rfl, rfl, rfl, rfl, rfl, rfl, rfl⟩

@[simp] theorem CardLine.rearm_fields (l : CardLine) :
    l.rearm.state = l.state ∧ l.rearm.helloOut = l.helloOut ∧ l.rearm.misses = l.misses ∧ l.rearm.rx = l.rx ∧
      l.rearm.checkFails = l.checkFails ∧ l.rearm.silenceTimer = .running 500 ∧
      l.rearm.checkErrors = l.checkErrors ∧ l.rearm.frames = l.frames :=
  ⟨rfl, rfl, rfl, rfl, rfl, rfl, rfl, rfl⟩

@[simp] theorem CardLine.helloAsked_fields (l : CardLine) :
    l.helloAsked.state = l.state ∧ l.helloAsked.helloOut = true ∧ l.helloAsked.misses = l.misses ∧
      l.helloAsked.rx = l.rx ∧ l.helloAsked.checkFails = l.checkFails ∧ l.helloAsked.helloTimer = .running 200 ∧
      l.helloAsked.silenceTimer = .stopped ∧ l.helloAsked.checkErrors = l.checkErrors ∧
      l.helloAsked.frames = l.frames ++ [.hello] := by
  have hf : ∀ m : CardLine, m = { l with silenceTimer := .stopped, helloOut := true, helloTimer := .running 200 } →
      m.frames = l.frames := fun m hm => by rw [hm]; rfl
  simp [helloAsked, CardLine.ask_frames, hf]

/-- With an exchange in flight the pending settings stand (R141). -/
theorem CardLine.settle_true (l : CardLine) : l.settle true = l := by
  unfold CardLine.settle
  split
  · rfl
  · rw [if_neg (by simp)]

/-! ### The line found again (R145) -/

/-- A line restored, by the condition that its STATE frame reports. -/
def CardLine.restored (r : ReaderCondition) (l : CardLine) : CardLine :=
  ({ l.move (reportedState r) with
    presence := .present, powerUnknown := false, noReaderTimer := .stopped } : CardLine).loadSilence

@[simp] theorem CardLine.restored_fields (r : ReaderCondition) (l : CardLine) :
    (l.restored r).presence = .present ∧ (l.restored r).state = reportedState r ∧ (l.restored r).cause = l.cause ∧
      (l.restored r).powerUnknown = false ∧ (l.restored r).noReaderTimer = .stopped ∧
      (l.restored r).misses = l.misses ∧ (l.restored r).checkFails = l.checkFails ∧
      (l.restored r).helloOut = l.helloOut ∧ (l.restored r).frames = l.frames ∧
      ((l.restored r).flows ↔ l.flows) ∧ (l.restored r).changes = holdAt 255 l.changes := by
  simp [restored, CardLine.frames, CardLine.flows]

theorem CardLine.restored_silenceTimer (r : ReaderCondition) {l : CardLine} (h : l.helloOut = false) :
    (l.restored r).silenceTimer = .running 500 := by
  have hr : reportedState r ≠ .noReader := by cases r <;> decide
  rw [restored, CardLine.loadSilence_silenceTimer]
  exact if_neg (by rintro (hs | hh); exacts [hr hs, by simp [CardLine.move, h] at hh])

/-- The line restored, POWER_OFF asked for when the card's power was not known, CARD_STATE queued. -/
def CardSide.restores (p : Pos) (r : ReaderCondition) (unknown : Bool) (c : CardSide) : CardSide :=
  ((if unknown then (c.onLine (.restored r)).onLine (.ask .powerOff) else c.onLine (.restored r)).posted p).settled

@[simp] theorem CardSide.restores_fields (p : Pos) (r : ReaderCondition) (unknown : Bool) (c : CardSide) :
    (c.restores p r unknown).xs = c.xs ∧ (c.restores p r unknown).entry = c.entry ∧
      (c.restores p r unknown).posts =
        c.posts ++ [.cardState p (reportedState r) .present c.line.cause (holdAt 255 c.line.changes)] ∧
      (c.restores p r unknown).line.state = reportedState r ∧ (c.restores p r unknown).line.presence = .present ∧
      (c.restores p r unknown).line.powerUnknown = false ∧ (c.restores p r unknown).line.noReaderTimer = .stopped ∧
      (c.restores p r unknown).line.silenceTimer = (c.line.restored r).silenceTimer ∧
      (c.restores p r unknown).line.misses = c.line.misses ∧
      (c.restores p r unknown).line.checkFails = c.line.checkFails ∧
      (c.restores p r unknown).line.frames = c.line.frames ++ (if unknown then [.powerOff] else []) := by
  cases unknown <;> simp [restores, CardLine.ask_frames]

theorem takeState_restores (r : ReaderCondition) (hs : (s.line.get p).state = .noReader)
    (hw : (s.line.get p).flows) (h : s.slotsFree 1) : takeState p r (setRx p .hunting s) =
      s.withSide p (((s.side p).onLine CardLine.validFrame).restores p r (s.line.get p).powerUnknown) := by
  have hs' : ((setRx p .hunting s).line.get p).state = .noReader := by simpa [setRx] using hs
  have free := ((side_free h (p := p)).onLine CardLine.validFrame).onLine (.restored r)
  have restore : restoreLine p r (s.withSide p ((s.side p).onLine CardLine.validFrame)) =
      postCardState p (if (s.line.get p).powerUnknown then
        ask p .powerOff (s.withSide p (((s.side p).onLine CardLine.validFrame).onLine (.restored r)))
        else s.withSide p (((s.side p).onLine CardLine.validFrame).onLine (.restored r))) := by
    have hu : ((s.withSide p ((s.side p).onLine CardLine.validFrame)).line.get p).powerUnknown =
        (s.line.get p).powerUnknown := by simp
    rw [restoreLine, hu, onLine_withSide]
    rfl
  have settled : settleLine p (postCardState p (if (s.line.get p).powerUnknown then
        ask p .powerOff (s.withSide p (((s.side p).onLine CardLine.validFrame).onLine (.restored r)))
        else s.withSide p (((s.side p).onLine CardLine.validFrame).onLine (.restored r)))) =
      s.withSide p (((s.side p).onLine CardLine.validFrame).restores p r (s.line.get p).powerUnknown) := by
    cases hb : (s.line.get p).powerUnknown with
    | true =>
      rw [if_pos rfl, ask_withSide (f := .powerOff) nofun (by simpa using hw), (free.onLine _).postCardState,
        settleLine_side]
      rfl
    | false =>
      rw [if_neg (by simp), free.postCardState, settleLine_side]
      rfl
  rw [takeState, if_pos hs', onLine_validFrame_side, restore, settled]
  exact judgePressure_of_counts rfl rfl

/-! ### Timers that are not due (notes/assumptions/4) -/

theorem exec_silence_not_due (h : (s.line.get p).silenceTimer ≠ .running 0) :
    exec (.lineSilenceExpiry p) s = .next s := if_neg (by simp [Timer.not_due h])

theorem exec_hello_not_due (h : (s.line.get p).helloTimer ≠ .running 0) :
    exec (.helloAnswerExpiry p) s = .next s := if_neg (by simp [Timer.not_due h])

theorem exec_periodic_not_due (h : (s.line.get p).noReaderTimer ≠ .running 0) :
    exec (.noReaderHelloExpiry p) s = .next s := if_neg (by simp [Timer.not_due h])

end Sys2Proof.Machine

open Sys2Proof Sys2Proof.Machine

/-- Settles O45: each expiry in closed form on the card of its position, and the STATE frame that restores the line. -/
theorem heartbeatLosesAndRestoresTheLine : Obligations.HeartbeatLosesAndRestoresTheLine := by
  refine ⟨fun s p ht hrx hs hw => ⟨fun hfl => ?_, fun hfl => ?_⟩, fun s p ht ho hrx hs hm => ?_,
    fun s p ht ho hrx hs hm h => ?_, fun s p ht hrx hw => ?_, fun s p r hs hw hfr h hx => ?_,
    fun s p => ⟨exec_silence_not_due, exec_hello_not_due, exec_periodic_not_due⟩⟩
  · have hfl' : ((s.side p).onLine CardLine.stopSilence).inFlight = true := by
      rw [← withSide_inFlight (s := s) (p := p), ← onLine_side]; exact hfl
    have he := exec_silence_due ht
    rw [abandon_hunting (by simpa using hrx), afterSilence_inFlight (by simpa using hs) hfl', settleLine_side] at he
    obtain ⟨hl, hn⟩ := withSide_line_only (s := s) (p := p) (c := (((s.side p).onLine CardLine.stopSilence).onLine
      CardLine.rearm).settled) (by simp) (by simp) (by simp)
    refine ⟨_, he, hl, hn, ?_⟩
    rw [withSide_line]
    exact (congrArg (fun b => CardLine.settle b _) hfl').trans (CardLine.settle_true _)
  · have hfl' : ((s.side p).onLine CardLine.stopSilence).inFlight = false := by
      rw [← withSide_inFlight (s := s) (p := p), ← onLine_side]; exact hfl
    have he := exec_silence_due ht
    rw [abandon_hunting (by simpa using hrx), afterSilence_hello (by simpa using hs) hfl' (by simpa using hw),
      settleLine_side] at he
    obtain ⟨hl, hn⟩ := withSide_line_only (s := s) (p := p) (c := (((s.side p).onLine CardLine.stopSilence).onLine
      CardLine.helloAsked).settled) (by simp) (by simp) (by simp)
    refine ⟨_, he, hl, hn, ?_, ?_, ?_, ?_, ?_⟩ <;> simp
  · have he := exec_hello_due ht
    rw [abandon_hunting (by simpa using hrx), if_pos (by simpa using ho), missHello_kept (.inl (by simpa using hm)),
      settleLine_side] at he
    obtain ⟨hl, hn⟩ := withSide_line_only (s := s) (p := p) (c := (((s.side p).onLine CardLine.stopHello).onLine
      fun l => l.missed.loadSilence).settled) (by simp) (by simp) (by simp)
    refine ⟨_, he, hl, hn, ?_, ?_, ?_, ?_, ?_⟩ <;> simp [CardLine.loadSilence_silenceTimer, hs]
    omega
  · have free := (side_free h (p := p)).onLine CardLine.stopHello
    have he := exec_hello_due ht
    rw [abandon_hunting (by simpa using hrx), if_pos (by simpa using ho),
      (free.mono (m := 1) (by omega)).missHello_lost (fun _ => free) (by simpa using hm) (by simpa using hs),
      settleLine_side] at he
    refine ⟨_, he, withSide_cardFrame _, rfl, rfl, ?_, ?_, ?_, fun hfl => ?_, fun x hx ha => ?_⟩
    · rw [withSide_line]
      exact CardSide.lost_lostAs (by simp) (by simp)
    · simp
      omega
    · simp
    · have hx := xs_none_of_not_inFlight (side_free h) hfl
      refine ⟨withSide_xs_eq ?_, withSide_entry_eq ?_, ?_⟩ <;> simp [hx, cardNotice, holdAt]
    · refine ⟨?_, withSide_entriesAfterEnd ?_, ?_⟩ <;> simp [hx, cardNotice, holdAt]
  · have he := exec_periodic_due ht
    rw [abandon_hunting (by simpa using hrx), ask_withSide (f := .hello) nofun (by simpa using hw),
      settleLine_side] at he
    obtain ⟨hl, hn⟩ := withSide_line_only (s := s) (p := p) (c := (((s.side p).onLine CardLine.loadPeriodic).onLine
      (.ask .hello)).settled) (by simp) (by simp) (by simp)
    refine ⟨_, he, hl, hn, ?_, ?_, ?_, ?_, ?_⟩ <;> simp [CardLine.ask_frames]
  · refine ⟨_, (exec_stateFrame r hfr).trans (congrArg _ (takeState_restores r hs hw h)), withSide_cardFrame _, rfl,
      rfl, withSide_xs_eq ?_, withSide_entry_eq ?_, ?_, ?_, ?_, ?_, ?_, ?_, ?_, ?_, ?_⟩
    · simp
    · simp
    · rw [withSide_line, (CardSide.restores_fields p r _ _).2.2.2.1]
      cases r <;> rfl
    · simp
    · simp
    · simp
    · simp [CardLine.restored_silenceTimer]
    · simp
    · simp
    · simp
    · cases r <;> simp [reportedState, cardNotice, holdAt]

end

section
/-! SUPPORT. Failing frames and abandoned frames: each case of the failing frame with the expiry's own effects behind
it. -/

namespace Sys2Proof.Machine

open Sys2Proof

variable {p : Pos} {s : State} {c : CardSide} {x : Exchange} {got : List Byte}

@[simp] theorem side_inFlight (s : State) (p : Pos) : (s.side p).inFlight = s.inFlight p := by
  rw [← withSide_inFlight (s := s) (p := p), State.withSide_side]

@[simp] theorem CardSide.onLine_inFlight (f : CardLine → CardLine) (c : CardSide) :
    (c.onLine f).inFlight = c.inFlight := rfl

/-- A failing frame leaves the receiver HUNTING, wherever it stood. -/
theorem failFrame_setRx (rx : FrameRx) (s : State) : failFrame p (setRx p rx s) = failFrame p s := by
  have h : (setRx p rx s).onLine p CardLine.failed = s.onLine p CardLine.failed := by
    rw [setRx, State.onLine_onLine]
    rfl
  have hf : ∀ u : State, failFrame p u = match (u.onLine p CardLine.failed).xs.get p with
      | .none => failOutside p (u.onLine p CardLine.failed)
      | .some x => match x.phase with
        | .awaiting => failDuring p x (u.onLine p CardLine.failed)
        | .held _ _ => failOutside p (u.onLine p CardLine.failed) := fun _ => rfl
  rw [hf, hf, h]

theorem exec_failingFrame {bytes : List Byte} (hw : (Instr.failingFrame p bytes).wellFormed = true)
    (h : (s.line.get p).fresh) :
    exec (.failingFrame p bytes) s = .next (settleLine p (failFrame p (s.withSide p (s.side p)))) := by
  rw [State.withSide_side, ← failFrame_setRx .hunting]
  exact congrArg Host.Outcome.next (frameArrives_failing h hw)

@[simp] theorem CardSide.retries_fields (x : Exchange) (c : CardSide) :
    (c.retries x).xs = .some { x with repeatUsed := true } ∧ (c.retries x).entry = c.entry ∧
      (c.retries x).posts = c.posts ∧ (c.retries x).line.frames = c.line.frames ++ [.askRepeat] ∧
      (c.retries x).line.state = c.line.state ∧ (c.retries x).line.powerUnknown = c.line.powerUnknown ∧
      (c.retries x).line.misses = c.line.misses ∧ (c.retries x).line.checkFails = c.line.checkFails ∧
      (c.retries x).line.checkErrors = c.line.checkErrors ∧ (c.retries x).line.rx = c.line.rx ∧
      (c.retries x).line.helloOut = c.line.helloOut ∧ (c.retries x).line.silenceTimer = c.line.silenceTimer ∧
      (c.retries x).line.changes = c.line.changes := by
  simp [retries, CardLine.ask_frames]

theorem CardSide.retries_framesWithoutOpening (h : c.line.flows) :
    (c.retries x).line.framesWithoutOpening = c.line.framesWithoutOpening ++ [.askRepeat] :=
  CardLine.framesWithoutOpening_ask (f := .askRepeat) nofun h

theorem CardSide.retries_inFlight (ha : x.phase = .awaiting) : (c.retries x).inFlight = true := by
  simp [inFlight, ha]

@[simp] theorem CardSide.ended_inFlight (p : Pos) (o : ExchangeOutcome) (d : Option (List Byte)) (c : CardSide) :
    (c.ended p o d).inFlight = false := by simp [inFlight]

theorem CardSide.poweredDown_outside {kind : ExchangeKind} (h : c.line.state ≠ .noReader) :
    (c.poweredDown p kind).line.state ≠ .noReader := by
  unfold poweredDown
  split
  · exact h
  · simp

/-- What an abandonment within an exchange leaves, read off the card (R138, R139). -/
theorem withSide_abandonedOnce (hrx : c.line.rx = .hunting)
    (he : c.line.checkErrors = min 65535 ((s.line.get p).checkErrors + 1))
    (hf : c.line.checkFails = (s.line.get p).checkFails) : s.abandonedOnce (s.withSide p c) p :=
  ⟨withSide_cardFrame c, rfl, rfl, by simpa using hrx, by simpa using he, by simpa using hf⟩

/-! ### The expiries with an abandoned frame (R138, R142, R143) -/

/-- The silence timer due as a frame is received: the failing frame, then the expiry's own effect. -/
theorem exec_silence_abandons (ht : (s.line.get p).silenceTimer = .running 0) (hr : (s.line.get p).rx = .receiving got) :
    exec (.lineSilenceExpiry p) s = .next (settleLine p (afterSilence p
      (failFrame p (s.withSide p ((s.side p).onLine CardLine.stopSilence))))) := by
  rw [exec_silence_due ht, abandon_receiving (got := got) (by simpa using hr)]

/-- The HELLO answer timer due as a frame is received, whose failure leaves the card `c`: the miss of the HELLO. -/
theorem exec_hello_abandons (ht : (s.line.get p).helloTimer = .running 0) (hr : (s.line.get p).rx = .receiving got)
    (hf : failFrame p (s.withSide p ((s.side p).onLine CardLine.stopHello)) = s.withSide p c)
    (ho : c.line.helloOut = true) :
    exec (.helloAnswerExpiry p) s = .next (settleLine p (missHello p (s.withSide p c))) := by
  rw [exec_hello_due ht, abandon_receiving (got := got) (by simpa using hr), hf, if_pos (by simpa using ho)]

end Sys2Proof.Machine

open Sys2Proof Sys2Proof.Machine

/-- Settles O44: the four cases of a failing frame, each with what an expiry does behind it. -/
theorem failingFramesAreCounted : Obligations.FailingFramesAreCounted := by
  refine ⟨fun s p bytes hw hfr hfl hf => ?_, fun s p bytes hw hfr hfl hf hs h => ?_,
    fun s p bytes x hw hfr hx ha hr hfw => ?_, fun s p bytes x hw hfr hx ha hr hfw h => ?_,
    fun s p got hrx hfl hf hs hfw => ⟨fun ht ho => ?_, fun ht ho hm => ?_, fun ht ho hm h => ?_⟩,
    fun s p got hrx hfl hs ht hfw => ?_,
    fun s p got x hrx hx ha hr hs hfw => ⟨fun ht ho => ?_, fun ht ho hm => ?_, fun ht ho hm h => ?_⟩,
    fun s p got x hrx hx ha hr hs hfw => ⟨fun ht ho h => ?_, fun ht ho hm h => ?_, fun ht ho hm h => ?_⟩,
    fun s p got hrx hfl hf hs h => ⟨fun ht ho => ?_, fun ht => ?_⟩⟩
  · have he := exec_failingFrame hw hfr
    rw [failFrame_counted (by simpa using hfl) (by simpa using hf), settleLine_side] at he
    obtain ⟨hl, hn⟩ := withSide_line_only (s := s) (p := p) (c := ((s.side p).onLine CardLine.failedAlone).settled)
      (by simp) (by simp) (by simp)
    refine ⟨_, he, hl, hn, ?_, ?_, ?_, ?_, ?_, ?_, ?_⟩ <;> simp
  · have free := side_free h (p := p)
    have hx := xs_none_of_not_inFlight free hfl
    have he := exec_failingFrame hw hfr
    rw [free.failFrame_lost (by simpa using hx) (by simpa using hf) (by simpa using hs), settleLine_side] at he
    refine ⟨_, he, withSide_cardFrame _, rfl, rfl, withSide_xs_eq ?_, withSide_entry_eq ?_, ?_, ?_, ?_⟩
    · simp [hx]
    · simp [hx]
    · rw [withSide_line]
      exact CardSide.lost_lostAs (by simp) (by simp)
    · simp [hx]
    · simp [hx, cardNotice, holdAt]
  · have he := exec_failingFrame hw hfr
    rw [failFrame_retries (by simpa using hx) ha hr (by simpa using hfw), settleLine_side] at he
    refine ⟨_, he, withSide_cardFrame _, rfl, rfl, withSide_oq_eq ?_, withSide_entry_eq ?_, ?_, ?_, ?_, ?_, ?_⟩
    · simp
    · simp
    · exact congrArg (s.xs.set p) (by simp)
    · simp
    · simp
    · simp
    · simp
  · have he := exec_failingFrame hw hfr
    rw [(side_free h).failFrame_ends (by simpa using hx) ha hr (by simpa using hfw), settleLine_side] at he
    have hm := CardSide.poweredDown_moves (c := (s.side p).onLine CardLine.failed) p x.kind (by simpa using hfw)
    refine ⟨_, he, withSide_cardFrame _, rfl, rfl, ?_, withSide_entriesAfterEnd ?_, fun hk => ⟨?_, ?_, ?_⟩,
      fun hk => ⟨?_, ?_, ?_⟩⟩
    · simp
    · simp [hx]
    · simp [hm, hk]
    · simp [hm, hx, hk]
    · simp [hm, hx, hk, cardNotice, holdAt]
    · simp [CardSide.poweredDown, hk]
    · simp [CardSide.poweredDown, hx, hk]
    · simp [CardSide.poweredDown, hx, hk]
  · have he := exec_silence_abandons ht hrx
    rw [failFrame_counted (by simpa using hfl) (.inl (by simpa using hf)),
      afterSilence_hello (by simpa using hs) (by simpa using hfl) (by simpa using hfw), settleLine_side] at he
    obtain ⟨hl, hn⟩ := withSide_line_only (s := s) (p := p) (c := ((((s.side p).onLine CardLine.stopSilence).onLine
      CardLine.failedAlone).onLine CardLine.helloAsked).settled) (by simp) (by simp) (by simp)
    refine ⟨_, he, hl, hn, ?_, ?_, ?_, ?_, ?_, ?_, ?_⟩ <;> simp
    omega
  · have he := exec_hello_abandons ht hrx (failFrame_counted (by simpa using hfl) (.inl (by simpa using hf)))
      (by simpa using ho)
    rw [missHello_kept (.inl (by simpa using hm)), settleLine_side] at he
    obtain ⟨hl, hn⟩ := withSide_line_only (s := s) (p := p) (c := ((((s.side p).onLine CardLine.stopHello).onLine
      CardLine.failedAlone).onLine fun l => l.missed.loadSilence).settled) (by simp) (by simp) (by simp)
    refine ⟨_, he, hl, hn, ?_, ?_, ?_, ?_, ?_, ?_⟩
    · simp
    · simp
      omega
    · simp
    · simp
      omega
    · simp
    · simp [CardLine.loadSilence_silenceTimer, hs]
  · have free := (((side_free h (p := p)).onLine CardLine.stopHello).onLine CardLine.failedAlone)
    have hx := xs_none_of_not_inFlight (side_free h) hfl
    have he := exec_hello_abandons ht hrx (failFrame_counted (by simpa using hfl) (.inl (by simpa using hf)))
      (by simpa using ho)
    rw [free.missHello_lost (fun hn => absurd hx hn) (by simpa using hm) (by simpa using hs), settleLine_side] at he
    refine ⟨_, he, withSide_cardFrame _, rfl, rfl, withSide_xs_eq ?_, withSide_entry_eq ?_, ?_, ?_, ?_, ?_, ?_, ?_, ?_,
      ?_⟩
    · simp [hx]
    · simp [hx]
    · rw [withSide_line]
      exact CardSide.lost_lostAs (by simp) (by simp)
    · simp
    · simp
      omega
    · simp
    · simp
      omega
    · simp
    · simp [hx]
    · simp [hx, cardNotice, holdAt]
  · have he := exec_periodic_due ht
    rw [abandon_receiving (got := got) (by simpa using hrx), failFrame_counted (by simpa using hfl)
      (.inr (by simpa using hs)), ask_withSide (f := .hello) nofun (by simpa using hfw), settleLine_side] at he
    obtain ⟨hl, hn⟩ := withSide_line_only (s := s) (p := p) (c := ((((s.side p).onLine CardLine.loadPeriodic).onLine
      CardLine.failedAlone).onLine (.ask .hello)).settled) (by simp) (by simp) (by simp)
    refine ⟨_, he, hl, hn, ?_, ?_, ?_, ?_, ?_, ?_, ?_, ?_, ?_⟩ <;> simp [CardLine.ask_frames, hs]
  · have he := exec_silence_abandons ht hrx
    rw [failFrame_retries (by simpa using hx) ha hr (by simpa using hfw),
      afterSilence_inFlight (by simpa using hs) (CardSide.retries_inFlight ha), settleLine_side] at he
    refine ⟨_, he, withSide_abandonedOnce ?_ ?_ ?_, withSide_oq_eq ?_, withSide_entry_eq ?_, ?_, ?_, ?_, ?_, ?_, ?_⟩
    · simp
    · simp
    · simp
    · simp
    · simp
    · exact congrArg (s.xs.set p) (by simp)
    · simp
    · simp
    · simp
    · simpa using ho
    · simp
  · have he := exec_hello_abandons ht hrx (failFrame_retries (by simpa using hx) ha hr (by simpa using hfw))
      (by simpa using ho)
    rw [missHello_kept (.inl (by simpa using hm)), settleLine_side] at he
    refine ⟨_, he, withSide_abandonedOnce ?_ ?_ ?_, withSide_oq_eq ?_, withSide_entry_eq ?_, ?_, ?_, ?_, ?_, ?_, ?_⟩
    · simp
    · simp
    · simp
    · simp
    · simp
    · exact congrArg (s.xs.set p) (by simp)
    · simp
    · simp
    · simp
      omega
    · simp
    · simp [CardLine.loadSilence_silenceTimer, hs]
  · have hfw' : (((s.side p).onLine CardLine.stopHello).onLine CardLine.failed).line.flows := by simpa using hfw
    have free := (((side_free h (p := p)).onLine CardLine.stopHello).onLine CardLine.failed).retries ha
    have he := exec_hello_abandons ht hrx (failFrame_retries (by simpa using hx) ha hr (by simpa using hfw))
      (by simpa using ho)
    rw [(free.mono (m := 1) (by omega)).missHello_lost (fun _ => free) (by simpa using hm) (by simpa using hs),
      settleLine_side] at he
    refine ⟨_, he, withSide_abandonedOnce ?_ ?_ ?_, withSide_entriesAfterEnd ?_, ?_, ?_, ?_, ?_, ?_, ?_⟩
    · simp
    · simp
    · simp
    · simp
    · simp
    · rw [withSide_line]
      exact CardSide.lost_lostAs (by simp) (by simp)
    · simp [CardSide.retries_framesWithoutOpening hfw']
    · simp
      omega
    · simp
    · simp [cardNotice, holdAt]
  · have hfw' : (((s.side p).onLine CardLine.stopSilence).onLine CardLine.failed).line.flows := by simpa using hfw
    obtain ⟨hst, -, hfl, hfr, hps⟩ := CardSide.poweredDown_moves p x.kind hfw'
    have he := exec_silence_abandons ht hrx
    rw [((side_free h).onLine CardLine.stopSilence).failFrame_ends (by simpa using hx) ha hr (by simpa using hfw),
      afterSilence_hello ?_ (CardSide.ended_inFlight p _ _ _) (CardSide.ended_flows hfl), settleLine_side] at he
    · refine ⟨_, he, withSide_abandonedOnce ?_ ?_ ?_, withSide_entriesAfterEnd ?_, ?_, ?_, ?_, ?_, ?_, ?_, ?_, ?_⟩
      · simp
      · simp
      · simp
      · simp [hx]
      · simp
      · simp [hst]
      · simp [hx, hfr]
      · simp
      · simp
      · simp
      · simp
      · simp [hx, hps, cardNotice, holdAt, apply_ite (List.map OutRecord.notice)]
    · rw [(CardSide.ended_line_fields p _ _ _).2.1]
      exact CardSide.poweredDown_outside (by simpa using hs)
  · have hfw' : (((s.side p).onLine CardLine.stopHello).onLine CardLine.failed).line.flows := by simpa using hfw
    obtain ⟨hst, -, -, hfr, hps⟩ := CardSide.poweredDown_moves p x.kind hfw'
    have he := exec_hello_abandons ht hrx (((side_free h).onLine CardLine.stopHello).failFrame_ends
      (by simpa using hx) ha hr (by simpa using hfw)) (by simpa using ho)
    rw [missHello_kept (.inl (by simpa using hm)), settleLine_side] at he
    refine ⟨_, he, withSide_abandonedOnce ?_ ?_ ?_, withSide_entriesAfterEnd ?_, ?_, ?_, ?_, ?_, ?_, ?_, ?_⟩
    · simp
    · simp
    · simp
    · simp [hx]
    · simp
    · simp [hst]
    · simp [hx, hfr]
    · simp
      omega
    · simp
    · have hout := CardSide.poweredDown_outside (p := p) (kind := x.kind)
        (c := ((s.side p).onLine CardLine.stopHello).onLine CardLine.failed) (by simpa using hs)
      simp [CardLine.loadSilence_silenceTimer, hout]
    · simp [hx, hps, cardNotice, holdAt, apply_ite (List.map OutRecord.notice)]
  · have hfw' : (((s.side p).onLine CardLine.stopHello).onLine CardLine.failed).line.flows := by simpa using hfw
    obtain ⟨hst, hch, -, hfr, hps⟩ := CardSide.poweredDown_moves p x.kind hfw'
    have free := ((side_free h (p := p)).onLine CardLine.stopHello)
    have gone := ((free.onLine CardLine.failed).poweredDown x.kind (p := p)).ended (p := p) (o := .lineError) (d := .none)
    have he := exec_hello_abandons ht hrx ((free.mono (m := 2) (by omega)).failFrame_ends
      (by simpa using hx) ha hr (by simpa using hfw)) (by simpa using ho)
    rw [gone.missHello_lost (fun hn => absurd (CardSide.ended_fields p _ _ _).1 hn) (by simpa using hm) ?_,
      settleLine_side] at he
    · refine ⟨_, he, withSide_abandonedOnce ?_ ?_ ?_, withSide_entriesAfterEnd ?_, ?_, ?_, ?_, ?_, ?_, ?_⟩
      · simp
      · simp
      · simp
      · simp [hx]
      · simp
      · rw [withSide_line]
        exact CardSide.lost_lostAs (by simp [hst]) (by simp)
      · simp [hx, hfr]
      · simp
        omega
      · simp
      · simp [hx, hps, hch, cardNotice, holdAt, apply_ite (List.map OutRecord.notice)]
    · rw [(CardSide.ended_line_fields p _ _ _).2.1]
      exact CardSide.poweredDown_outside (by simpa using hs)
  · have free := (side_free h (p := p)).onLine CardLine.stopHello
    have hx := xs_none_of_not_inFlight (side_free h) hfl
    have he := exec_hello_abandons ht hrx (free.failFrame_lost (by simpa using hx) (by simpa using hf)
      (by simpa using hs)) (by simpa using ho)
    rw [missHello_kept (.inr (by simp)), settleLine_side] at he
    refine ⟨_, he, withSide_cardFrame _, rfl, rfl, withSide_xs_eq ?_, withSide_entry_eq ?_, ?_, ?_, ?_, ?_, ?_, ?_, ?_⟩
    · simp [hx]
    · simp [hx]
    · simp [CardLine.lostAs, CardLine.loadSilence_silenceTimer]
    · simp
    · simp
    · simp
    · simp
    · simp [hx]
    · simp [hx, cardNotice, holdAt]
  · have free := (side_free h (p := p)).onLine CardLine.stopSilence
    have hx := xs_none_of_not_inFlight (side_free h) hfl
    have he := exec_silence_abandons ht hrx
    rw [free.failFrame_lost (by simpa using hx) (by simpa using hf) (by simpa using hs),
      afterSilence_lost (by simp), settleLine_side] at he
    refine ⟨_, he, withSide_cardFrame _, rfl, rfl, withSide_xs_eq ?_, withSide_entry_eq ?_, ?_, ?_, ?_, ?_, ?_, ?_, ?_⟩
    · simp [hx]
    · simp [hx]
    · simp [CardLine.lostAs]
    · simp
    · simp
    · simp
    · simp
    · simp [hx]
    · simp [hx, cardNotice, holdAt]

end

section
/-! SUPPORT. The transmit list as a frame has left, with each kind of opening frame, and the entry block of a
presentation. -/

namespace Sys2Proof.Machine

open Sys2Proof

variable {p : Pos} {s : State} {c : CardSide} {f : TxFrame} {rest : List TxFrame}

/-! ### The next frame leaves (R137, R141) -/

/-- With a frame in transfer the pending settings stand (R141). -/
theorem CardLine.settle_leaving (b : Bool) {l : CardLine} (h : l.txLeaving = .some f) : l.settle b = l := by
  unfold CardLine.settle
  split
  · rfl
  · rw [if_neg (by simp [h])]

/-- The pending settings of an idle list: applied with the receiver HUNTING and no exchange in flight (R141). -/
theorem CardLine.settle_idle (b : Bool) {l : CardLine} (h : l.txLeaving = .none) (hw : l.txWaiting = []) :
    l.settle b = { l with
      settings := if l.rx = .hunting ∧ b = false then l.pending.getD l.settings else l.settings
      pending := if l.rx = .hunting ∧ b = false then .none else l.pending } := by
  obtain ⟨settings, pending, presence, state, cause, powerUnknown, misses, checkFails, helloOut, rx, txLeaving, txWaiting,
    t1, t2, t3, n1, n2, n3, n4⟩ := l
  obtain rfl : txLeaving = .none := h
  obtain rfl : txWaiting = [] := hw
  cases pending with
  | none => simp [CardLine.settle]
  | some ps => by_cases hc : rx = .hunting ∧ b = false <;> simp [CardLine.settle, hc]

/-- The frame behind the one that has left begins to leave, and the line is settled. -/
def leaveNext (p : Pos) (waiting : List TxFrame) (s : State) : State :=
  settleLine p (beginNext p waiting (s.onLine p fun l => { l with txLeaving := .none }))

theorem exec_cardFrameSent {waiting : List TxFrame} (h : (s.line.get p).txLeaving = .some f)
    (hw : (s.line.get p).txWaiting = waiting) : exec (.cardFrameSent p) s = .next (leaveNext p waiting s) := by
  change execCardFrameSent p s = _
  unfold execCardFrameSent pump
  rw [h, State.onLine_line, PerPos.get_modify_same]
  simp only [hw]
  rfl

theorem exec_cardFrameSent_none (h : (s.line.get p).txLeaving = .none) : exec (.cardFrameSent p) s = .next s := by
  change execCardFrameSent p s = _
  unfold execCardFrameSent
  rw [h]

/-- A frame that begins to leave holds the line, whatever else has moved. -/
theorem settleLine_leaving (u : State) : settleLine p (u.onLine p fun l => { l with txLeaving := .some f, txWaiting := rest }) =
    u.onLine p fun l => { l with txLeaving := .some f, txWaiting := rest } := by
  rw [settleLine, State.onLine_onLine]
  exact State.onLine_congr (CardLine.settle_leaving _ rfl)

theorem leaveNext_nil : leaveNext p [] s = s.onLine p fun l => { l with
    txLeaving := .none
    txWaiting := []
    settings := if l.rx = .hunting ∧ s.inFlight p = false then l.pending.getD l.settings else l.settings
    pending := if l.rx = .hunting ∧ s.inFlight p = false then .none else l.pending } := by
  have h : leaveNext p [] s = (s.onLine p fun l => { l with txLeaving := .none, txWaiting := [] }).onLine p
      (CardLine.settle (s.inFlight p)) := by
    rw [leaveNext, beginNext, State.onLine_onLine]
    rfl
  rw [h, State.onLine_onLine]
  exact State.onLine_congr (CardLine.settle_idle _ rfl rfl)

theorem leaveNext_cons (hf : f ≠ .opening) : leaveNext p (f :: rest) s =
    s.onLine p fun l => { l with txLeaving := .some f, txWaiting := rest } := by
  rw [leaveNext, beginNext_cons rest _ hf, settleLine_leaving, State.onLine_onLine]

/-! ### An opening frame begins to leave (R156, R160) -/

theorem openFrame_onLine (x : Exchange) (g : CardLine → CardLine) (s : State) :
    openFrame p x (s.onLine p g) = (openFrame p x s).map fun r => (r.1, r.2.onLine p g) := by
  unfold openFrame
  cases x.kind with
  | power => rfl
  | command => rfl
  | present =>
    simp only [State.onLine_entry]
    cases presentPayload x (s.entry.get p) <;> rfl
  | release => rfl

theorem openFrame_power {x : Exchange} (h : x.kind = .power) (s : State) : openFrame p x s =
    .some (.powerOn, s.putXs p (.some { x with sent := true })) := by
  cases x
  cases h
  rfl

theorem openFrame_command {x : Exchange} (h : x.kind = .command) (s : State) : openFrame p x s =
    .some (.command (x.command.getD []), s.putXs p (.some { x with sent := true, command := .none })) := by
  cases x
  cases h
  rfl

theorem openFrame_present {x : Exchange} {e : Entry} (h : x.kind = .present) (he : s.entry.get p = .some e)
    (ht : e.presentable = true) : openFrame p x s = .some (.command (x.header.getD [] ++ entryBlock e.buffer),
      (s.putXs p (.some { x with sent := true, header := .none })).putEntry p
        (.some { e with presented := true })) := by
  cases x
  cases h
  have hp : ∀ y : Exchange, presentPayload y (s.entry.get p) = .some (y.header.getD [] ++ entryBlock e.buffer) :=
    fun y => by simp [presentPayload, he, ht]
  simp only [openFrame, hp]
  rw [he]
  rfl

theorem leaveNext_opening {x : Exchange} {g : TxFrame} {t : State} (hx : s.xs.get p = .some x)
    (ho : openFrame p x s = .some (g, t)) : leaveNext p (.opening :: rest) s =
      t.onLine p fun l => { l with txLeaving := .some g, txWaiting := rest } := by
  have hb : ∀ u : State, u.xs.get p = .some x → ∀ v, openFrame p x u = .some (g, v) →
      beginNext p (.opening :: rest) u = v.onLine p fun l => { l with txLeaving := .some g, txWaiting := rest } :=
    fun u hu v hv => by simp only [beginNext, hu, hv]
  have hx' : (s.onLine p fun l => { l with txLeaving := .none }).xs.get p = .some x := hx
  rw [leaveNext, hb _ hx' _ (by rw [openFrame_onLine, ho]; rfl), settleLine_leaving, State.onLine_onLine]

/-- An entry that a presentation's frame can carry is one that CARD_PRESENT takes. -/
theorem presentable_iff (e : Entry) : e.presentable = true ↔ e.takenByPresent := by
  simp [Entry.presentable, Entry.takenByPresent, isDigit, and_assoc]

/-- A presentation whose entry is gone: the exchange ends with ENTRY_GONE and the card is READY. -/
def CardSide.presentsNothing (p : Pos) (c : CardSide) : CardSide :=
  ((((c.onLine fun l => { l with txLeaving := .none, txWaiting := [] }).ended p .entryGone .none).onLine
    (.move .ready)).posted p).onLine fun l => { l with txWaiting := [] }

theorem leaveNext_gone {x : Exchange} (hx : s.xs.get p = .some x) (hk : x.kind = .present)
    (he : ∀ e, s.entry.get p = .some e → ¬ e.takenByPresent) (h : s.slotsFree 2) :
    leaveNext p [.opening] s = s.withSide p ((s.side p).presentsNothing p).settled := by
  have hnone : openFrame p x (s.withSide p ((s.side p).onLine fun l => { l with txLeaving := .none })) = .none := by
    have hp : presentPayload x (s.entry.get p) = .none := by
      unfold presentPayload
      cases hg : s.entry.get p with
      | none => rfl
      | some e => simp [mt (presentable_iff e).1 (he e hg)]
    simp [openFrame, hk, hp]
  have free := (side_free h (p := p)).onLine fun l => { l with txLeaving := .none, txWaiting := [] }
  have begun : beginNext p [.opening] (s.withSide p ((s.side p).onLine fun l => { l with txLeaving := .none })) =
      beginNext p [] (moveCard p .ready (endExchange p .entryGone .none
        (s.withSide p ((s.side p).onLine fun l => { l with txLeaving := .none, txWaiting := [] })))) := by
    have hx' : (s.withSide p ((s.side p).onLine fun l => { l with txLeaving := .none })).xs.get p = .some x := by
      simpa using hx
    conv_lhs => unfold beginNext
    simp only [hx', hnone, onLine_withSide]
    rfl
  rw [leaveNext, onLine_side, begun, free.endExchange, free.ended.moveCard, beginNext, onLine_withSide, settleLine_side]
  rfl

/-! ### The entry block (R160) -/

theorem pairCells_get (l : List Nat) (k hi lo : Nat) (hh : l[2 * k]? = .some hi) (hl : l[2 * k + 1]? = .some lo) :
    (pairCells l)[k]? = .some (BitVec.ofNat 8 (16 * hi + lo)) := by
  induction k generalizing l with
  | zero =>
    match l with
    | [] | [_] => simp at hl
    | a :: b :: rest =>
      obtain rfl : a = hi := by simpa using hh
      obtain rfl : b = lo := by simpa using hl
      rfl
  | succ k ih =>
    match l with
    | [] | [_] => simp at hl
    | _ :: _ :: rest =>
      rw [pairCells, List.getElem?_cons_succ]
      exact ih rest (by simpa [Nat.mul_succ] using hh) (by simpa [Nat.mul_succ] using hl)

theorem pairCells_length (l : List Nat) : (pairCells l).length = l.length / 2 := by
  match l with
  | [] => rfl
  | [_] => simp [pairCells]
  | _ :: _ :: rest =>
    rw [pairCells, List.length_cons, pairCells_length rest, List.length_cons, List.length_cons]
    omega

/-- The cell of a digit, 15 behind the last one. -/
def cellOf (digits : List Code) (i : Nat) : Nat := ((digits[i]?).map Fin.val).getD 15

theorem blockCells_get (digits : List Code) {i : Nat} (hi : i < 14) :
    (blockCells digits)[i]? = .some (cellOf digits i) := by
  unfold blockCells cellOf
  by_cases h : i < digits.length
  · rw [List.getElem?_append_left (by simpa using h)]
    simp [h]
  · rw [List.getElem?_append_right (by simpa using h), List.getElem?_replicate]
    simp [List.getElem?_eq_none (not_lt.1 h)]
    omega

theorem cellOf_lt {digits : List Code} (h : ∀ c ∈ digits, c.val ≤ 9) (i : Nat) : cellOf digits i < 16 := by
  unfold cellOf
  cases hc : digits[i]? with
  | none => simp
  | some c =>
    have := h c (List.mem_of_getElem? hc)
    simp
    omega

theorem entryBlock_cells {digits : List Code} (h : ∀ c ∈ digits, c.val ≤ 9) {i : Nat}
    (hi : i < 14) : ∃ b, (entryBlock digits)[1 + i / 2]? = some b ∧
      (if i % 2 = 0 then b.toNat / 16 else b.toNat % 16) = cellOf digits i := by
  have h0 := blockCells_get digits (show 2 * (i / 2) < 14 by omega)
  have h1 := blockCells_get digits (show 2 * (i / 2) + 1 < 14 by omega)
  have l0 := cellOf_lt h (2 * (i / 2))
  have l1 := cellOf_lt h (2 * (i / 2) + 1)
  refine ⟨_, by rw [entryBlock, Nat.add_comm 1, List.getElem?_cons_succ]; exact pairCells_get _ _ _ _ h0 h1, ?_⟩
  rw [BitVec.toNat_ofNat,
    Nat.mod_eq_of_lt (show 16 * cellOf digits (2 * (i / 2)) + cellOf digits (2 * (i / 2) + 1) < 2 ^ 8 by omega)]
  split
  · rw [show 2 * (i / 2) = i by omega] at l0 l1 ⊢
    omega
  · rw [show 2 * (i / 2) + 1 = i by omega] at l1 ⊢
    omega

theorem entryBlock_head {digits : List Code} (hd : digits.length ≤ 14) :
    (entryBlock digits).length = 8 ∧ (entryBlock digits)[0]? = some (BitVec.ofNat 8 (0x20 + digits.length)) := by
  refine ⟨?_, rfl⟩
  rw [entryBlock, List.length_cons, pairCells_length, blockCells, List.length_append, List.length_map,
    List.length_replicate]
  omega

end Sys2Proof.Machine

open Sys2Proof Sys2Proof.Machine

/-- Settles O41: the list's next frame by its kind, the receiver's byte, and the entry block cell by cell. -/
theorem framesLeaveInTheirTurn : Obligations.FramesLeaveInTheirTurn := by
  refine ⟨fun s p f hl hw => ?_, fun s p f g rest hl hw hg => ?_, fun s p f rest x hl hw hx hk => ?_,
    fun s p f rest x command hl hw hx hk hc => ?_, fun s p f rest x h e hl hw hx hk hh he ht => ?_,
    fun s p f x hl hw hx hk ha he h => ?_, fun s p hl => exec_cardFrameSent_none hl, fun s p hr => ?_,
    fun s p got hr hn => ?_, fun digits hd h => ⟨(entryBlock_head hd).1, (entryBlock_head hd).2, fun i hi =>
      entryBlock_cells h hi⟩⟩
  · rw [exec_cardFrameSent hl hw, leaveNext_nil]
    exact congrArg Host.Outcome.next (State.onLine_congr (by simp only [hw]))
  · rw [exec_cardFrameSent hl hw, leaveNext_cons hg]
    rfl
  · rw [exec_cardFrameSent hl hw, leaveNext_opening hx (openFrame_power hk s)]
    rfl
  · rw [exec_cardFrameSent hl hw, leaveNext_opening hx (openFrame_command hk s), hc]
    rfl
  · rw [exec_cardFrameSent hl hw, leaveNext_opening hx (openFrame_present hk he ((presentable_iff e).2 ht)), hh]
    rfl
  · refine ⟨_, (exec_cardFrameSent hl hw).trans (congrArg _ (leaveNext_gone hx hk he h)), withSide_cardFrame _, rfl, rfl,
      withSide_entriesAfterEnd ?_, ?_, ?_, ?_, ?_⟩
    all_goals simp [CardSide.presentsNothing, hx, hk, cardNotice, holdAt, CardLine.frames]
  · change Host.Outcome.next (lineByte p s cardSync) = _
    simp only [lineByte, hr, if_true]
    rfl
  · change Host.Outcome.next (lineByte p s cardSync) = _
    have hn' : frameEnds (got ++ [cardSync]) = false := hn
    simp only [lineByte, hr, hn', Bool.false_eq_true, if_false]
    rfl

end

section
/-! SUPPORT. The card requests that start an exchange: the record with its opening frame on an idle line and on a busy
one. -/

namespace Sys2Proof.Machine

open Sys2Proof

variable {p : Pos} {s : State} {c : CardSide} {n : Nat}

/-! ### The checks of the card requests (R155, R159) -/

theorem cardRefusal_pass {needed : CardState} (hx : s.xs.get p = .none) (ho : (s.pos.get p).state = .opened)
    (hl : (s.line.get p).state = needed) : cardRefusal p needed s = .none := by
  simp [cardRefusal, hx, isOpen_iff.2 ho, hl]

theorem presentRefusal_pass {e : Entry} (h : e.takenByPresent) : presentRefusal (.some e) = .none := by
  obtain ⟨hs, hsec, h4, h12, hd⟩ := h
  have hall : e.buffer.all isDigit = true := by simpa [isDigit] using hd
  simp [presentRefusal, hs, hsec, hall, not_lt.2 h4, not_lt.2 h12]

theorem splitLastTwo_append (l : List Byte) (a b : Byte) : splitLastTwo (l ++ [a, b]) = .some (l, a, b) := by
  simp [splitLastTwo]

/-! ### The opening frame is asked for (R155, R156) -/

/-- The record once its opening frame is SENT, its bytes given up. -/
def Exchange.opened (x : Exchange) : Exchange := { x with sent := true, command := .none, header := .none }

/-- The card as an opening frame begins to leave at once. -/
def CardSide.opens (x : Exchange) (g : TxFrame) (c : CardSide) : CardSide :=
  { line := { c.line with txLeaving := .some g, txWaiting := [] }
    xs := .some x.opened
    entry := if x.kind = .present then c.entry.map (fun e => { e with presented := true }) else c.entry
    posts := c.posts }

/-- The record of an exchange of a kind with the bytes that kind has. -/
def openingRecord (kind : ExchangeKind) (tag : Byte) (command header : List Byte) (loaded : Nat) : Exchange :=
  newExchange kind tag (if kind = .command then .some command else .none)
    (if kind = .present then .some header else .none) loaded

/-- The kinds with an opening frame, and the entry that a presentation takes. -/
def CardSide.canOpen (kind : ExchangeKind) (digits : List Code) (c : CardSide) : Prop :=
  kind ≠ .release ∧ (kind = .present → ∃ e, c.entry = .some e ∧ e.takenByPresent ∧ e.buffer = digits)

theorem openFrame_opens {kind : ExchangeKind} {tag : Byte} {command header : List Byte} {digits : List Code}
    {loaded : Nat} (h : c.canOpen kind digits) :
    openFrame p (openingRecord kind tag command header loaded) (s.withSide p c) =
      .some (openingFrame kind command header digits, s.withSide p { c with
        xs := .some (openingRecord kind tag command header loaded).opened
        entry := if kind = .present then c.entry.map (fun e => { e with presented := true }) else c.entry }) := by
  obtain ⟨hr, hp⟩ := h
  cases kind with
  | power => rw [openFrame_power rfl, putXs_withSide]; rfl
  | command => rw [openFrame_command rfl, putXs_withSide]; rfl
  | present =>
    obtain ⟨e, he, ht, rfl⟩ := hp rfl
    rw [openFrame_present rfl ((withSide_entry c).trans he) ((presentable_iff e).2 ht), putXs_withSide,
      putEntry_withSide]
    simp only [he]
    rfl
  | release => exact absurd rfl hr

theorem ask_opening_idle {kind : ExchangeKind} {tag : Byte} {command header : List Byte} {digits : List Code}
    {loaded : Nat} (hx : c.xs = .some (openingRecord kind tag command header loaded)) (h : c.canOpen kind digits)
    (hl : c.line.txLeaving = .none) (hw : c.line.flows) : ask p .opening (s.withSide p c) =
      s.withSide p (c.opens (openingRecord kind tag command header loaded)
        (openingFrame kind command header digits)) := by
  have ho := openFrame_opens (p := p) (s := s) (tag := tag) (command := command) (header := header) (loaded := loaded)
    (c := c.onLine fun l => { l with txWaiting := l.txWaiting ++ [.opening] }) h
  have hb : beginNext p [.opening] (s.withSide p (c.onLine fun l => { l with txWaiting := l.txWaiting ++ [.opening] })) =
      (s.withSide p { c.onLine fun l => { l with txWaiting := l.txWaiting ++ [.opening] } with
        xs := .some (openingRecord kind tag command header loaded).opened
        entry := if kind = .present then c.entry.map (fun e => { e with presented := true }) else c.entry }).onLine p
        fun l => { l with txLeaving := .some (openingFrame kind command header digits), txWaiting := [] } := by
    have hx' : (s.withSide p (c.onLine fun l => { l with txWaiting := l.txWaiting ++ [.opening] })).xs.get p =
        .some (openingRecord kind tag command header loaded) := (withSide_xs _).trans hx
    simp only [beginNext, hx', ho]
    rfl
  have hp : ∀ u : State, (u.line.get p).txLeaving = .none → (u.line.get p).txWaiting = [.opening] →
      pump p u = beginNext p [.opening] u := fun u h1 h2 => by simp only [pump, h1, h2]
  rw [ask, onLine_withSide, hp _ (by simpa using hl) (by simp [hw hl]), hb, onLine_withSide]
  rfl

theorem ask_opening_busy {g : TxFrame} (hl : c.line.txLeaving = .some g) :
    ask p .opening (s.withSide p c) = s.withSide p (c.onLine (.ask .opening)) := by
  have hp : ∀ u : State, (u.line.get p).txLeaving = .some g → pump p u = u := fun u h1 => by simp only [pump, h1]
  rw [ask, onLine_withSide, hp _ (by simpa using hl)]
  simp [CardSide.onLine, CardLine.ask, hl]

/-- The record created, the card state moved, CARD_STATE queued. -/
def CardSide.begins (p : Pos) (x : Exchange) (st : CardState) (c : CardSide) : CardSide :=
  (({ c with xs := .some x } : CardSide).onLine (.move st)).posted p

theorem CardSide.Free.begins {x : Exchange} {st : CardState} (h : c.Free s (n + 1)) (hx : x.phase = .awaiting) :
    Machine.moveCard p st ((s.withSide p c).putXs p (.some x)) = s.withSide p (c.begins p x st) := by
  have free : CardSide.Free s (n + 1) { c with xs := .some x } :=
    ⟨h.owed, h.slots, fun _ hy => by obtain rfl := Option.some.inj hy; exact hx⟩
  rw [putXs_withSide, free.moveCard]
  rfl

/-- An exchange started on the card of its position: what the acceptance leaves, its reply queued. -/
theorem exchangeStarts_of {k : ReqKind} {a : Answer} {kind : ExchangeKind} {st : CardState} {tag : Byte}
    {command header : List Byte} {digits : List Code} {loaded : Nat} (hc : (s.side p).canOpen kind digits)
    (hw : (s.line.get p).flows) (h : s.slotsFree 1) :
    ∃ t, (startExchange p (openingRecord kind tag command header loaded) st [.opening] s.received).replied k tag a = t ∧
      exchangeStarts s t p kind st tag command header digits loaded ∧
      t.oq.queue = s.oq.queue ++ cardNotice p st (s.line.get p).presence (s.line.get p).cause (s.line.get p).changes ++
        [.reply k tag a] := by
  have free := side_free (s := s.received) (p := p) (slotsFree_congr (s := s) rfl rfl h)
  have begun : startExchange p (openingRecord kind tag command header loaded) st [.opening] s.received =
      ask p .opening (s.received.withSide p
        ((s.side p).begins p (openingRecord kind tag command header loaded) st)) := by
    conv_lhs => rw [← State.withSide_side s.received p]
    exact congrArg (ask p .opening) (free.begins rfl)
  refine ⟨_, rfl, ?_⟩
  rw [begun]
  cases hl : (s.line.get p).txLeaving with
  | none =>
    rw [ask_opening_idle (c := (s.side p).begins p (openingRecord kind tag command header loaded) st) rfl
      (digits := digits) hc hl hw]
    refine ⟨⟨?_, ?_, ?_, ?_, ?_, rfl, rfl, withSide_cardFrame (s := s.received) _⟩, ?_⟩
    · refine (withSide_xs _).trans ?_
      simp [CardSide.opens, Exchange.opened, openingRecord, newExchange, hl]
    · refine (congrArg CardLine.state (withSide_line _)).trans ?_
      simp [CardSide.opens, CardSide.begins]
    · refine (congrArg CardLine.changes (withSide_line _)).trans ?_
      simp [CardSide.opens, CardSide.begins]
    · refine (congrArg CardLine.frames (withSide_line _)).trans ?_
      simp [CardSide.opens, CardLine.frames, hl, hw hl]
    · refine (withSide_entry _).trans ?_
      simp [CardSide.opens, openingRecord, newExchange, CardSide.begins, hl]
    · refine (congrArg (· ++ _) (withSide_queue _)).trans ?_
      simp [CardSide.opens, CardSide.begins, cardNotice, holdAt]
      rfl
  | some g =>
    rw [ask_opening_busy (c := (s.side p).begins p (openingRecord kind tag command header loaded) st) hl]
    refine ⟨⟨?_, ?_, ?_, ?_, ?_, rfl, rfl, withSide_cardFrame (s := s.received) _⟩, ?_⟩
    · refine (withSide_xs _).trans ?_
      simp [CardSide.begins, openingRecord, newExchange, hl]
    · refine (congrArg CardLine.state (withSide_line _)).trans ?_
      simp [CardSide.begins]
    · refine (congrArg CardLine.changes (withSide_line _)).trans ?_
      simp [CardSide.begins]
    · refine (congrArg CardLine.frames (withSide_line _)).trans ?_
      simp [CardSide.begins, CardLine.ask_frames, hl]
    · refine (withSide_entry _).trans ?_
      simp [CardSide.begins, hl]
    · refine (congrArg (· ++ _) (withSide_queue _)).trans ?_
      simp [CardSide.begins, cardNotice, holdAt]
      rfl

/-! ### The requests as they are carried out (R157 to R160) -/

theorem doCardPower_starts (tag : Byte) (hx : s.xs.get p = .none) (ho : (s.pos.get p).state = .opened)
    (hl : (s.line.get p).state = .seated) : doCardPower tag (u8 p.val) s =
      (startExchange p (openingRecord .power tag [] [] (s.line.get p).settings.timeout) .powering [.opening] s,
        .ok (u8 0 ++ u16 (s.line.get p).settings.timeout)) := by
  simp only [doCardPower, u8, below_pos, cardRefusal_pass hx ho hl]
  rfl

theorem doCardExchange_starts (tag : Byte) {command : List Byte} {timeout : Nat} (hx : s.xs.get p = .none)
    (ho : (s.pos.get p).state = .opened) (hl : (s.line.get p).state = .ready) (h1 : 1 ≤ command.length)
    (h2 : command.length ≤ 240) (ht : timeout < 65536) :
    doCardExchange tag (u8 p.val ++ command ++ u16 timeout) s =
      (startExchange p (openingRecord .command tag command [] (requestTimeout timeout)) .exchanging [.opening] s,
        .stored (decide (requestTimeout timeout ≠ timeout)) (u8 1 ++ u16 (requestTimeout timeout))) := by
  have hp : u8 p.val ++ command ++ u16 timeout =
      BitVec.ofNat 8 p.val :: (command ++ [BitVec.ofNat 8 (timeout / 256), BitVec.ofNat 8 timeout]) := by
    simp [u8, u16]
  have hlen : ¬ (command.length < 1 ∨ 240 < command.length) := by omega
  simp only [doCardExchange, hp, below_pos, splitLastTwo_append, cardRefusal_pass hx ho hl, be16_bytes ht, if_neg hlen]
  rfl

theorem doCardPresent_starts (tag : Byte) {header : List Byte} {timeout : Nat} {e : Entry} (hx : s.xs.get p = .none)
    (ho : (s.pos.get p).state = .opened) (hl : (s.line.get p).state = .ready) (hh : header.length = 4)
    (ht : timeout < 65536) (he : s.entry.get p = .some e) (hp : e.takenByPresent) :
    doCardPresent tag (u8 p.val ++ byteString header ++ u16 timeout) s =
      (startExchange p (openingRecord .present tag [] header (requestTimeout timeout)) .exchanging [.opening] s,
        .stored (decide (requestTimeout timeout ≠ timeout))
          (u8 2 ++ u16 (requestTimeout timeout) ++ u8 e.buffer.length)) := by
  match header, hh with
  | [a, b, c, d], _ =>
    have hn : ¬ (BitVec.ofNat 8 4 : Byte) ≠ 4 := not_not.2 rfl
    simp only [doCardPresent, byteString, u8, u16, List.length_cons, List.length_nil, List.cons_append,
      List.nil_append, below_pos, Nat.zero_add, Nat.reduceAdd, if_neg hn, cardRefusal_pass hx ho hl, he,
      presentRefusal_pass hp, be16_bytes ht, State.entryLength]
    rfl

theorem requestTimeout_eq (t : Nat) : requestTimeout t = max 100 (min 30000 t) := clamp_eq (by decide)

theorem requestTimeout_clamped (t : Nat) : decide (requestTimeout t ≠ t) = decide (t < 100 ∨ 30000 < t) :=
  decide_eq_decide.2 clamp_ne_iff

/-! ### The release (R161) -/

/-- Frames asked for in turn, none of them an opening frame. -/
theorem foldl_ask_withSide {frames : List TxFrame} (hf : ∀ f ∈ frames, f ≠ .opening) (hw : c.line.flows) :
    ∃ m : CardLine, frames.foldl (fun t f => ask p f t) (s.withSide p c) = s.withSide p { c with line := m } ∧
      m.frames = c.line.frames ++ frames ∧ m.state = c.line.state ∧ m.cause = c.line.cause ∧
      m.changes = c.line.changes := by
  induction frames generalizing c with
  | nil => exact ⟨c.line, rfl, by simp, rfl, rfl, rfl⟩
  | cons f rest ih =>
    obtain ⟨m, hm, hfr, hst, hca, hch⟩ := ih (c := c.onLine (.ask f)) (fun g hg => hf g (by simp [hg]))
      CardLine.ask_flows
    refine ⟨m, ?_, ?_, hst.trans (by simp), hca.trans (by simp), hch.trans (by simp)⟩
    · rw [List.foldl_cons, ask_withSide (hf f (by simp)) hw, hm]
      rfl
    · rw [hfr, CardSide.onLine_line, CardLine.ask_frames, List.append_assoc]
      rfl

/-- The cause gone as a release starts. -/
def CardLine.clearCause (l : CardLine) : CardLine := { l with cause := .none }

theorem releaseFrames_not_opening (st : CardState) : ∀ f ∈ releaseFrames st, f ≠ .opening := by
  cases st <;> decide

theorem doCardRelease_starts (tag : Byte) (hx : s.xs.get p = .none)
    (hl : (s.line.get p).state ∈ [.throat, .seated, .ready, .fault]) : doCardRelease tag (u8 p.val) s =
      (startExchange p (newExchange .release tag .none .none 30000) .releasing (releaseFrames (s.line.get p).state)
        (s.withSide p ((s.side p).onLine CardLine.clearCause)), .ok (u8 3 ++ u16 30000)) := by
  have hr : (!(s.line.get p).state.releasable) = false := by
    generalize (s.line.get p).state = st at hl
    revert st
    decide
  simp only [doCardRelease, u8, below_pos, hx, hr, Option.isSome_none, Bool.false_eq_true, if_false]
  rw [← onLine_side]
  rfl

theorem release_starts (tag : Byte) (hw : (s.line.get p).flows) (h : s.slotsFree 1) :
    ∃ m : CardLine, startExchange p (newExchange .release tag .none .none 30000) .releasing
        (releaseFrames (s.line.get p).state) (s.withSide p ((s.side p).onLine CardLine.clearCause)) =
        s.withSide p ⟨m, .some (newExchange .release tag .none .none 30000), s.entry.get p,
          [.cardState p .releasing (s.line.get p).presence .none (min 255 ((s.line.get p).changes + 1))]⟩ ∧
      m.frames = (s.line.get p).frames ++ releaseFrames (s.line.get p).state ∧ m.state = .releasing ∧
      m.cause = .none ∧ m.changes = 0 := by
  have begun := ((side_free h (p := p)).onLine CardLine.clearCause).begins (p := p) (st := .releasing)
    (x := newExchange .release tag .none .none 30000) rfl
  obtain ⟨m, hm, hfr, hst, hca, hch⟩ := foldl_ask_withSide (p := p) (s := s)
    (releaseFrames_not_opening (s.line.get p).state)
    (c := ((s.side p).onLine CardLine.clearCause).begins p (newExchange .release tag .none .none 30000) .releasing) hw
  refine ⟨m, ?_, hfr, hst, hca, hch⟩
  rw [startExchange, begun, hm]
  rfl

/-! ### The abort (R168) -/

/-- The exchange aborted: the power-down, the record gone, a presentation's entry wiped. -/
def CardSide.aborted (p : Pos) (x : Exchange) (c : CardSide) : CardSide :=
  (({ c.poweredDown p x.kind with xs := .none, entry := entryAfter x.kind c.entry } : CardSide).onLine
    CardLine.loadSilence).settled

theorem abortExchange_side {x : Exchange} (hw : (s.line.get p).flows) (h : s.slotsFree 1) :
    abortExchange p x s = s.withSide p ((s.side p).aborted p x) := by
  have down := (side_free h (p := p)).powerDown (p := p) (show (s.side p).line.flows from hw) x.kind
  rw [State.withSide_side] at down
  have he : ((s.side p).poweredDown p x.kind).entry = s.entry.get p := by simp
  unfold abortExchange
  rw [down, putXs_withSide]
  cases hk : x.kind with
  | present =>
    simp only [wipePresented_withSide, onLine_withSide, settleLine_side, CardSide.aborted, hk]
    rw [hk] at he
    simp only [he]
    rfl
  | power | command | release =>
    simp only [onLine_withSide, settleLine_side, CardSide.aborted, hk]
    rfl

end Sys2Proof.Machine

open Sys2Proof Sys2Proof.Machine

/-- Settles O46: each request carried out, and its exchange started on the card of its position. -/
theorem cardRequestsStartExchanges : Obligations.CardRequestsStartExchanges := by
  refine ⟨fun s tag p h ho hx hl hw hs => ?_, fun s tag p command timeout h ho hx hl hw hs h1 h2 ht => ?_,
    fun s tag p header timeout e h ho hx hl hw hs hh ht he hp => ?_⟩
  · obtain ⟨t, ht, hst, hq⟩ := exchangeStarts_of (k := .cardPower) (kind := .power) (st := .powering) (tag := tag)
      (command := []) (header := []) (digits := []) (loaded := (s.line.get p).settings.timeout)
      (a := .ok (u8 0 ++ u16 (s.line.get p).settings.timeout)) ⟨nofun, nofun⟩ hw hs
    refine ⟨t, ?_, hst, hq⟩
    rw [← ht]
    exact exec_of_carryOut h ⟨.cardPower, tag, u8 p.val⟩ rfl (doCardPower_starts (s := s.received) tag hx ho hl)
      (.inl ⟨nofun, nofun⟩)
  · obtain ⟨t, hr, hst, hq⟩ := exchangeStarts_of (k := .cardExchange) (kind := .command) (st := .exchanging) (tag := tag)
      (command := command) (header := []) (digits := []) (loaded := requestTimeout timeout)
      (a := .stored (decide (requestTimeout timeout ≠ timeout)) (u8 1 ++ u16 (requestTimeout timeout)))
      ⟨nofun, nofun⟩ hw hs
    simp only [← requestTimeout_eq, ← requestTimeout_clamped]
    refine ⟨t, ?_, hst, hq⟩
    rw [← hr]
    exact exec_of_carryOut h ⟨.cardExchange, tag, u8 p.val ++ command ++ u16 timeout⟩
      (decide_eq_true (by simp [u8, u16, Config.recordPayload]; omega))
      (doCardExchange_starts (s := s.received) tag hx ho hl h1 h2 ht) (.inl ⟨nofun, nofun⟩)
  · obtain ⟨t, hr, hst, hq⟩ := exchangeStarts_of (k := .cardPresent) (kind := .present) (st := .exchanging) (tag := tag)
      (command := []) (header := header) (digits := e.buffer) (loaded := requestTimeout timeout)
      (a := .stored (decide (requestTimeout timeout ≠ timeout))
        (u8 2 ++ u16 (requestTimeout timeout) ++ u8 e.buffer.length)) ⟨nofun, fun _ => ⟨e, he, hp, rfl⟩⟩ hw hs
    simp only [← requestTimeout_eq, ← requestTimeout_clamped]
    refine ⟨t, ?_, hst, hq⟩
    rw [← hr]
    exact exec_of_carryOut h ⟨.cardPresent, tag, u8 p.val ++ byteString header ++ u16 timeout⟩
      (decide_eq_true (by simp [u8, u16, byteString, Config.recordPayload]; omega))
      (doCardPresent_starts (s := s.received) tag hx ho hl hh ht he hp) (.inl ⟨nofun, nofun⟩)

end

section
/-! SUPPORT. The answers of the abort, and the refusals of the card requests in their order. -/

namespace Sys2Proof.Machine

open Sys2Proof

variable {p : Pos} {s : State} {tag : Byte}

/-! ### The abort's answer (R168) -/

/-- The fields of an abort's reply. -/
def abortAnswer (p : Pos) (x : Exchange) (s : State) : Answer :=
  .ok (u8 x.kind.index ++ yesNo (decide (x.kind ≠ .release)) ++
    if x.kind = .present then yesNo (wipesEntry p s) else [0xFF])

theorem doCardAbort_aborts {x : Exchange} (hx : s.xs.get p = .some x) (ha : x.phase = .awaiting) :
    doCardAbort (u8 p.val) s = (abortExchange p x s, abortAnswer p x s) := by
  simp only [doCardAbort, u8, below_pos, hx, ha, abortAnswer]
  cases x.kind <;> rfl

theorem doCardAbort_none (hx : s.xs.get p = .none) : doCardAbort (u8 p.val) s = (s, .no .noExchange []) := by
  simp only [doCardAbort, u8, below_pos, hx]

theorem doCardAbort_held {x : Exchange} (hx : s.xs.get p = .some x) (ha : x.phase ≠ .awaiting) :
    doCardAbort (u8 p.val) s = (s, .no .wrongState []) := by
  cases hp : x.phase with
  | awaiting => exact absurd hp ha
  | held o d => simp only [doCardAbort, u8, below_pos, hx, hp]

/-! ### The refusals (R155, R159, R161) -/

theorem doCardPower_refused {st : Status} (h : cardRefusal p .seated s = .some st) :
    doCardPower tag (u8 p.val) s = (s, .no st []) := by
  simp only [doCardPower, u8, below_pos, h]

theorem doCardExchange_refused {command : List Byte} {timeout : Nat} {st : Status} (h1 : 1 ≤ command.length)
    (h2 : command.length ≤ 240) (h : cardRefusal p .ready s = .some st) :
    doCardExchange tag (u8 p.val ++ command ++ u16 timeout) s = (s, .no st []) := by
  have hp : u8 p.val ++ command ++ u16 timeout =
      BitVec.ofNat 8 p.val :: (command ++ [BitVec.ofNat 8 (timeout / 256), BitVec.ofNat 8 timeout]) := by
    simp [u8, u16]
  have hlen : ¬ (command.length < 1 ∨ 240 < command.length) := by omega
  simp only [doCardExchange, hp, below_pos, splitLastTwo_append, if_neg hlen, h]

theorem doCardPresent_refused {header : List Byte} {timeout : Nat} {st : Status} (hh : header.length = 4)
    (h : cardRefusal p .ready s = .some st ∨
      cardRefusal p .ready s = .none ∧ presentRefusal (s.entry.get p) = .some st) :
    doCardPresent tag (u8 p.val ++ byteString header ++ u16 timeout) s = (s, .no st []) := by
  match header, hh with
  | [a, b, c, d], _ =>
    have hn : ¬ (BitVec.ofNat 8 4 : Byte) ≠ 4 := not_not.2 rfl
    simp only [doCardPresent, byteString, u8, u16, List.length_cons, List.length_nil, List.cons_append,
      List.nil_append, below_pos, Nat.zero_add, Nat.reduceAdd, if_neg hn]
    rcases h with h | ⟨h, he⟩
    · simp only [h]
    · simp only [h, he]

theorem doCardRelease_busy (hx : s.xs.get p ≠ .none) : doCardRelease tag (u8 p.val) s = (s, .no .busy []) := by
  have h : (s.xs.get p).isSome = true := Option.isSome_iff_ne_none.2 hx
  simp only [doCardRelease, u8, below_pos, h, if_true]

theorem doCardRelease_notReady (hx : s.xs.get p = .none)
    (hl : (s.line.get p).state ∉ [.throat, .seated, .ready, .fault]) :
    doCardRelease tag (u8 p.val) s = (s, .no .notReady []) := by
  have hr : (!(s.line.get p).state.releasable) = true := by
    generalize (s.line.get p).state = st at hl
    cases st with
    | throat | seated | ready | fault => exact absurd (by decide) hl
    | noReader | empty | powering | exchanging | releasing | presented => rfl
  simp only [doCardRelease, u8, below_pos, hx, hr, Option.isSome_none, Bool.false_eq_true, if_false, if_true]

theorem doCardExchange_noCommand (timeout : Nat) :
    doCardExchange tag (u8 p.val ++ u16 timeout) s = (s, .no .badRecord []) := by
  have hp : u8 p.val ++ u16 timeout =
      BitVec.ofNat 8 p.val :: (([] : List Byte) ++ [BitVec.ofNat 8 (timeout / 256), BitVec.ofNat 8 timeout]) := by
    simp [u8, u16]
  simp only [doCardExchange, hp, below_pos, splitLastTwo_append, List.length_nil]
  exact if_pos (.inl Nat.zero_lt_one)

theorem cardRefusal_busy {needed : CardState} (hx : s.xs.get p ≠ .none) : cardRefusal p needed s = .some .busy :=
  if_pos (Option.isSome_iff_ne_none.2 hx)

theorem cardRefusal_closed {needed : CardState} (hx : s.xs.get p = .none) (hc : (s.pos.get p).state = .closed) :
    cardRefusal p needed s = .some .positionClosed := by
  simp [cardRefusal, hx, not_isOpen_iff.2 hc]

theorem cardRefusal_notReady {needed : CardState} (hx : s.xs.get p = .none) (ho : (s.pos.get p).state = .opened)
    (hl : (s.line.get p).state ≠ needed) : cardRefusal p needed s = .some .notReady := by
  simp [cardRefusal, hx, isOpen_iff.2 ho, hl]

theorem presentRefusal_noEntry (h : s.entry.get p = .none ∨ s.entryCollecting p = true) :
    presentRefusal (s.entry.get p) = .some .noEntry := by
  unfold State.entryCollecting at h
  cases he : s.entry.get p with
  | none => rfl
  | some e =>
    have hc : e.state = .collecting := by simpa [he] using h
    simp only [presentRefusal, hc]

theorem presentRefusal_length {e : Entry} (hs : e.state = .complete)
    (h : e.secret = false ∨ e.buffer.length < 4 ∨ 12 < e.buffer.length) :
    presentRefusal (.some e) = .some .entryLength := by
  simp only [presentRefusal, hs, if_pos h]

theorem presentRefusal_notDigits {e : Entry} (hs : e.state = .complete) (hsec : e.secret = true)
    (h4 : 4 ≤ e.buffer.length) (h12 : e.buffer.length ≤ 12) (hd : ∃ c ∈ e.buffer, 9 < c.val) :
    presentRefusal (.some e) = .some .notDigits := by
  have hlen : ¬ (e.secret = false ∨ e.buffer.length < 4 ∨ 12 < e.buffer.length) := by
    rw [hsec]
    simp
    omega
  have hall : (!e.buffer.all isDigit) = true := by simpa [isDigit] using hd
  simp only [presentRefusal, hs, if_neg hlen, hall, if_true]

end Sys2Proof.Machine

open Sys2Proof Sys2Proof.Machine

/-- Settles O47: each check in its order, and the request refused by the first that fails. -/
theorem cardRequestsAreRefusedInOrder : Obligations.CardRequestsAreRefusedInOrder := by
  intro s tag p command header timeout h h1 h2 hh ht power exchange present release
  have hp : present.command.wellFormed = true :=
    decide_eq_true (by simp [present, u8, u16, byteString, Config.recordPayload]; omega)
  have he : exchange.command.wellFormed = true :=
    decide_eq_true (by simp [exchange, u8, u16, Config.recordPayload]; omega)
  have onPower : ∀ {st : Status}, cardRefusal p .seated s.received = .some st →
      exec power.command s = .next (s.refused .cardPower tag st) := fun hc =>
    exec_refused h power rfl (doCardPower_refused (s := s.received) hc) (cardRefusal_ne_ok hc)
  have onExchange : ∀ {st : Status}, cardRefusal p .ready s.received = .some st →
      exec exchange.command s = .next (s.refused .cardExchange tag st) := fun hc =>
    exec_refused h exchange he (doCardExchange_refused (s := s.received) h1 h2 hc) (cardRefusal_ne_ok hc)
  have onPresent : ∀ {st : Status}, cardRefusal p .ready s.received = .some st →
      exec present.command s = .next (s.refused .cardPresent tag st) := fun hc =>
    exec_refused h present hp (doCardPresent_refused (s := s.received) hh (.inl hc)) (cardRefusal_ne_ok hc)
  have onEntry : ∀ {st : Status}, cardRefusal p .ready s.received = .none → presentRefusal (s.entry.get p) = .some st →
      exec present.command s = .next (s.refused .cardPresent tag st) := fun hc hr =>
    exec_refused h present hp (doCardPresent_refused (s := s.received) hh (.inr ⟨hc, hr⟩)) (presentRefusal_ne_ok hr)
  refine ⟨fun hx r hr => ?_, fun hx hc r hr => ?_, fun hx ho => ⟨fun hl => ?_, fun hl => ⟨?_, ?_⟩⟩, fun hx hl => ?_,
    fun hx ho hl => ⟨fun hn => ?_, fun e hg hs => ⟨fun hlen => ?_, fun hsec h4 h12 hd => ?_⟩⟩, ?_, fun l hl hlen => ?_⟩
  · simp only [List.mem_cons, List.not_mem_nil, or_false] at hr
    rcases hr with rfl | rfl | rfl | rfl
    · exact onPower (cardRefusal_busy hx)
    · exact onExchange (cardRefusal_busy hx)
    · exact onPresent (cardRefusal_busy hx)
    · exact exec_refused h release rfl (doCardRelease_busy (s := s.received) hx) nofun
  · simp only [List.mem_cons, List.not_mem_nil, or_false] at hr
    rcases hr with rfl | rfl | rfl
    · exact onPower (cardRefusal_closed hx hc)
    · exact onExchange (cardRefusal_closed hx hc)
    · exact onPresent (cardRefusal_closed hx hc)
  · exact onPower (cardRefusal_notReady hx ho hl)
  · exact onExchange (cardRefusal_notReady hx ho hl)
  · exact onPresent (cardRefusal_notReady hx ho hl)
  · exact exec_refused h release rfl (doCardRelease_notReady (s := s.received) hx hl) nofun
  · exact onEntry (cardRefusal_pass hx ho hl) (presentRefusal_noEntry hn)
  · exact onEntry (cardRefusal_pass hx ho hl) (hg ▸ presentRefusal_length hs hlen)
  · exact onEntry (cardRefusal_pass hx ho hl) (hg ▸ presentRefusal_notDigits hs hsec h4 h12 hd)
  · exact exec_refused h ⟨.cardExchange, tag, u8 p.val ++ u16 timeout⟩ rfl
      (doCardExchange_noCommand (s := s.received) timeout) nofun
  · exact exec_refused h ⟨.cardPresent, tag, u8 p.val ++ byteString l ++ u16 timeout⟩
      (decide_eq_true (by simp [u8, u16, byteString, Config.recordPayload]; omega))
      (carryOut_noLength (s := s.received) (n := 8) rfl (by simp [u8, u16, byteString]; omega)) nofun

/-- Settles O48: the release's frames asked for in turn, and the abort in closed form on the card. -/
theorem releaseEjectsAndAbortEndsTheExchange : Obligations.ReleaseEjectsAndAbortEndsTheExchange := by
  refine ⟨fun s tag p h hx hl hw hs => ?_, fun s tag p x h hx ha hw hs => ?_, fun s tag p h hx => ?_,
    fun s tag p x h hx ha => ?_⟩
  · obtain ⟨m, hm, hfr, hst, hca, hch⟩ := release_starts (s := s.received) (p := p) tag hw
      (slotsFree_congr (s := s) rfl rfl hs)
    have he := exec_of_carryOut h ⟨.cardRelease, tag, u8 p.val⟩ rfl
      (doCardRelease_starts (s := s.received) tag hx hl) (.inl ⟨nofun, nofun⟩)
    rw [hm] at he
    refine ⟨_, he, withSide_cardFrame (s := s.received) _, rfl, withSide_entry_eq (s := s.received) rfl, rfl,
      withSide_xs _, ?_, ?_, ?_, ?_, ?_⟩
    · exact (congrArg CardLine.state (withSide_line _)).trans hst
    · exact (congrArg CardLine.cause (withSide_line _)).trans hca
    · exact (congrArg CardLine.changes (withSide_line _)).trans hch
    · exact (congrArg CardLine.frames (withSide_line _)).trans hfr
    · rfl
  · have he := exec_of_carryOut h ⟨.cardAbort, tag, u8 p.val⟩ rfl (doCardAbort_aborts (s := s.received) hx ha)
      (.inl ⟨nofun, nofun⟩)
    rw [abortExchange_side (s := s.received) hw (slotsFree_congr (s := s) rfl rfl hs),
      show s.received.side p = s.side p from rfl] at he
    obtain ⟨hst, -, -, -, hps⟩ := CardSide.poweredDown_moves (c := s.side p) p x.kind hw
    have hq : ∀ c : CardSide, ((s.received.withSide p c).replied .cardAbort tag (abortAnswer p x s.received)).oq.queue =
        s.oq.queue ++ c.posts.map .notice ++ [.reply .cardAbort tag (abortAnswer p x s)] := fun c => rfl
    refine ⟨_, he, withSide_cardFrame (s := s.received) _, rfl, rfl, (withSide_xs _).trans (by simp [CardSide.aborted]),
      withSide_entriesAfterEnd (s := s.received) rfl, fun hk => ⟨?_, ?_, (hq _).trans ?_⟩,
      fun hk => ⟨?_, ?_, (hq _).trans ?_⟩⟩
    · refine (congrArg CardLine.state (withSide_line _)).trans ?_
      simp [CardSide.aborted, CardSide.poweredDown, hk]
    · refine (congrArg CardLine.frames (withSide_line _)).trans ?_
      simp [CardSide.aborted, CardSide.poweredDown, hk]
    · simp [CardSide.aborted, CardSide.poweredDown, hk, abortAnswer]
      rfl
    · refine (congrArg CardLine.state (withSide_line _)).trans ?_
      simp [CardSide.aborted, hst, hk]
    · refine (congrArg CardLine.frames (withSide_line _)).trans ?_
      simp [CardSide.aborted, CardSide.poweredDown, hk]
    · cases hen : s.entry.get p <;>
        simp [CardSide.aborted, hps, hk, abortAnswer, cardNotice, holdAt, wipesEntry, hen]
  · exact exec_refused h ⟨.cardAbort, tag, u8 p.val⟩ rfl (doCardAbort_none (s := s.received) hx) nofun
  · exact exec_refused h ⟨.cardAbort, tag, u8 p.val⟩ rfl (doCardAbort_held (s := s.received) hx ha) nofun

end

section
/-! SUPPORT. The close of a position in closed form when nothing is owed, and the card powered off behind it, with a slot
free and without. -/

namespace Sys2Proof.Machine

open Sys2Proof

variable {p q : Pos} {s u : State}

/-! ### The close (R12) -/

/-- The position closed: its entry, prompts, codes and attention gone, the attention's slots free. -/
def State.afterClose (s : State) (p : Pos) : State :=
  { s with
    pos := s.pos.modify p fun r => { r with state := .closed }
    entry := s.entry.set p .none
    pu := s.pu.modify p PromptUnit.close
    intake := s.intake.voidPosition p
    attn := if ownsAttention p s then { s.attn with record := .none, lapseTimer := .stopped } else s.attn
    oq := { s.oq with reservation := if ownsAttention p s then 0 else s.oq.reservation } }

theorem afterClose_anyOwed (h : anyOwed s = false) : anyOwed (s.afterClose p) = false :=
  anyOwed_false_congr s _ rfl rfl rfl rfl rfl h

/-- With nothing owed, the close posts nothing. -/
theorem closeWork_of_none_owed (h : anyOwed s = false) : closeWork p s = s.afterClose p := by
  have hv : ∀ v : State, anyOwed v = false → voidAttention p v = { v with
      attn := if ownsAttention p v then { v.attn with record := .none, lapseTimer := .stopped } else v.attn
      oq := { v.oq with reservation := if ownsAttention p v then 0 else v.oq.reservation } } := fun v hv => by
    cases ho : ownsAttention p v with
    | false => rw [voidAttention_of_not ho]; rfl
    | true =>
      rw [voidAttention_of_owns ho, releaseReservation_of_none_owed _
        (anyOwed_false_congr v (dropAttention v) rfl rfl rfl rfl rfl hv)]
      rfl
  rw [closeWork, hv (((s.putEntry p .none).onPu p PromptUnit.close).onIntake (Intake.voidPosition p))
    (anyOwed_false_congr s _ rfl rfl rfl rfl rfl h)]
  rfl

theorem slotAfterVoid_iff : s.slotAfterVoid p ↔ 0 < (s.afterClose p).oq.freeSlots := by
  change _ ↔ 0 < 64 - (s.oq.notices + if ownsAttention p s then 0 else s.oq.reservation)
  rw [State.slotAfterVoid]
  omega

/-! ### The card powered off (R13, R14) -/

/-- The card powered off if it was powered. -/
def State.powersOff (u : State) (p : Pos) (moved : Bool) : State := if moved then powerOffCard p u else u

/-- What the power-off of a position's card leaves, its CARD_STATE queued with a slot free and owed without. -/
structure PoweredOff (u t : State) (p : Pos) (moved : Bool) : Prop where
  rest : t = { u with
    line := t.line, oq := { u.oq with queue := t.oq.queue, begun := t.oq.begun, cards := t.oq.cards } }
  others : ∀ q, q ≠ p → t.line.get q = u.line.get q
  kept : moved = false → t.line.get p = u.line.get p
  state : (t.line.get p).state = if moved then .seated else (u.line.get p).state
  frames : (t.line.get p).frames = (u.line.get p).frames ++ if moved then [.powerOff] else []
  queue : t.oq.queue = u.oq.queue ++ if moved = true ∧ 0 < u.oq.freeSlots then
    cardNotice p .seated (u.line.get p).presence (u.line.get p).cause (u.line.get p).changes else []
  owed : if moved = true ∧ ¬ 0 < u.oq.freeSlots then
      t.oq.cards = u.oq.cards.set p (.some ⟨.seated, (u.line.get p).presence, (u.line.get p).cause⟩) ∧
        (t.line.get p).changes = min 255 ((u.line.get p).changes + 1)
    else t.oq.cards = u.oq.cards ∧ (t.line.get p).changes = if moved then 0 else (u.line.get p).changes

/-- The blocks that the power-off leaves alone. -/
theorem PoweredOff.blocks {t : State} {moved : Bool} (h : PoweredOff u t p moved) :
    t.pending = u.pending ∧ t.timeCount = u.timeCount ∧ t.link = u.link ∧ t.pos = u.pos ∧ t.bus = u.bus ∧
      t.intake = u.intake ∧ t.tables = u.tables ∧ t.attn = u.attn ∧ t.entry = u.entry ∧ t.pu = u.pu ∧ t.xs = u.xs ∧
      t.oq.reservation = u.oq.reservation ∧ t.oq.expired = u.oq.expired ∧ t.oq.keypads = u.oq.keypads ∧
      t.oq.pressure = u.oq.pressure := by
  obtain ⟨hr, -, -, -, -, -, -⟩ := h
  rw [hr]
  simp

/-- The card's line as it is seated by a power-off. -/
def CardLine.seatedByOff (l : CardLine) : CardLine := (l.ask .powerOff).move .seated

@[simp] theorem CardLine.seatedByOff_fields (l : CardLine) :
    l.seatedByOff.state = .seated ∧ l.seatedByOff.frames = l.frames ++ [.powerOff] ∧
      l.seatedByOff.presence = l.presence ∧ l.seatedByOff.cause = l.cause ∧
      l.seatedByOff.changes = min 255 (l.changes + 1) := by
  simp [seatedByOff, CardLine.ask_frames, holdAt]

theorem powersOff_free (ho : anyOwed u = false) (hw : (u.line.get p).flows) (hf : 0 < u.oq.freeSlots) :
    u.powersOff p true = u.withSide p (((u.side p).onLine CardLine.seatedByOff).posted p) := by
  have free := side_free (p := p) (n := 1) ⟨ho, hf⟩
  have hp : powerOffCard p u = moveCard p .seated (ask p .powerOff (u.withSide p (u.side p))) := by
    rw [State.withSide_side]
    rfl
  rw [State.powersOff, if_pos rfl, hp, ask_withSide (f := .powerOff) nofun hw, (free.onLine _).moveCard]
  rfl

theorem powersOff_full (hw : (u.line.get p).flows) (hf : ¬ 0 < u.oq.freeSlots) :
    u.powersOff p true = (u.onLine p CardLine.seatedByOff).onOq fun q =>
      { q with cards := q.cards.set p (.some ⟨.seated, (u.line.get p).presence, (u.line.get p).cause⟩) } := by
  have h0 : u.oq.freeSlots = 0 := by omega
  rw [State.powersOff, if_pos rfl, powerOffCard, moveCard, ask_of_flows (f := .powerOff) nofun hw, State.onLine_onLine]
  refine (postCardState_full (s := u.onLine p CardLine.seatedByOff) p h0).trans ?_
  simp only [State.onLine_line, PerPos.get_modify_same, CardLine.seatedByOff_fields]

theorem powersOff_poweredOff (ho : anyOwed u = false) (hw : (u.line.get p).flows) (moved : Bool) :
    PoweredOff u (u.powersOff p moved) p moved := by
  cases moved with
  | false =>
    have h : u.powersOff p false = u := rfl
    rw [h]
    exact ⟨rfl, fun _ _ => rfl, fun _ => rfl, rfl, by simp, by simp, by simp⟩
  | true =>
    by_cases hf : 0 < u.oq.freeSlots
    · rw [powersOff_free ho hw hf]
      refine ⟨?_, fun q hq => withSide_line_ne _ hq, nofun, ?_, ?_, ?_, ?_⟩
      · simp [State.withSide]
      · simp
      · simp
      · simp [hf, cardNotice]
      · simp [hf]
    · rw [powersOff_full hw hf]
      refine ⟨rfl, fun q hq => ?_, nofun, ?_, ?_, ?_, ?_⟩
      · simp [PerPos.get_modify_ne _ _ hq]
      · simp
      · simp
      · simp [hf]
      · simp [hf]

/-! ### The requests (R11 to R14) -/

theorem doClosePosition_closes (ho : (s.pos.get p).state = .opened) (hx : s.xs.get p = .none) (h : anyOwed s = false) :
    doClosePosition (u8 p.val) s = ((s.afterClose p).powersOff p (decide ((s.line.get p).state = .ready)),
      .ok (closeFields p (decide ((s.line.get p).state = .ready)) s)) := by
  have hopen : (!s.isOpen p) = false := by simp [isOpen_iff.2 ho]
  simp only [doClosePosition, u8, below_pos, hopen, hx, Option.isSome_none, Bool.false_eq_true, if_false,
    closeWork_of_none_owed h]
  by_cases hr : (s.line.get p).state = .ready
  · rw [if_pos hr, decide_eq_true hr]
    rfl
  · rw [if_neg hr, decide_eq_false hr]
    rfl

theorem doClosePosition_closed (hc : (s.pos.get p).state = .closed) :
    doClosePosition (u8 p.val) s = (s, .no .positionClosed []) := by
  simp [doClosePosition, u8, not_isOpen_iff.2 hc]

theorem doClosePosition_busy (ho : (s.pos.get p).state = .opened) (hx : s.xs.get p ≠ .none) :
    doClosePosition (u8 p.val) s = (s, .no .busy []) := by
  simp [doClosePosition, u8, isOpen_iff.2 ho, Option.isSome_iff_ne_none.2 hx]

theorem removeExchange_anyOwed (h : ∀ k, k ≠ .result p → isOwed s k = false) : anyOwed (removeExchange p s) = false := by
  rw [anyOwed, List.any_eq_false]
  intro k _
  by_cases hk : k = .result p
  · rw [hk, isOwed_result]
    simp [removeExchange]
  · have hs := h k hk
    rw [Bool.not_eq_true]
    cases k with
    | result q =>
      have hq : q ≠ p := fun e => hk (by rw [e])
      rw [isOwed_result] at hs ⊢
      simpa [removeExchange, PerPos.get_set_ne _ _ hq] using hs
    | expired q => rw [isOwed_expired] at hs ⊢; exact hs
    | card q => rw [isOwed_card] at hs ⊢; exact hs
    | keypad q => rw [isOwed_keypad] at hs ⊢; exact hs
    | pressure => rw [isOwed_pressure] at hs ⊢; exact hs

theorem doResetPosition_resets (h : ∀ k, k ≠ .result p → isOwed s k = false) : doResetPosition (u8 p.val) s =
    ((((removeExchange p s).afterClose p).powersOff p (s.line.get p).state.powered).onPos p
      fun r => { PosRecord.initial with bank := r.bank, mode := r.mode },
      .ok (closeFields p (s.line.get p).state.powered s ++ yesNo (s.xs.get p).isSome)) := by
  simp only [doResetPosition, u8, below_pos, closeWork_of_none_owed (removeExchange_anyOwed h)]
  rfl

end Sys2Proof.Machine

open Sys2Proof Sys2Proof.Machine

/-- Settles O11: the close in closed form, and the READY card powered off behind it. -/
theorem closePositionEndsThePositionsWork : Obligations.ClosePositionEndsThePositionsWork := by
  refine ⟨fun s tag p h ho hx hw hn => ?_, fun s tag p h hc => ?_, fun s tag p h ho hx => ?_⟩
  · have he : exec (.closePosition tag (u8 p.val)) s = .next (((s.received.afterClose p).powersOff p
        (decide ((s.line.get p).state = .ready))).replied .closePosition tag
        (.ok (closeFields p (decide ((s.line.get p).state = .ready)) s))) :=
      exec_of_carryOut h ⟨.closePosition, tag, u8 p.val⟩ rfl (doClosePosition_closes (s := s.received) ho hx
      (anyOwed_false_congr s _ rfl rfl rfl rfl rfl hn)) (.inl ⟨nofun, nofun⟩)
    have off := powersOff_poweredOff (u := s.received.afterClose p) (p := p)
      (afterClose_anyOwed (anyOwed_false_congr s _ rfl rfl rfl rfl rfl hn)) hw (decide ((s.line.get p).state = .ready))
    generalize (s.received.afterClose p).powersOff p (decide ((s.line.get p).state = .ready)) = v at he off
    obtain ⟨hpe, htc, hli, hpo, hbu, hin, hta, hat, hen, hpu, hxs, hre, hex, hke, hpr⟩ := off.blocks
    refine ⟨_, he, hpo, hen, hpu, hin, hat, hre, ?_, ?_, ?_, off.others, hxs, hbu, hta, htc, hpe, ?_, hex, hke, hpr, ?_, ?_⟩
    · exact off.state.trans (by simp; rfl)
    · exact off.frames.trans (by simp; rfl)
    · exact fun hr => off.kept (decide_eq_false hr)
    · exact congrArg (fun l : Link => { l with armed := false }) hli
    · rw [State.seatedOwed]
      simp only [slotAfterVoid_iff]
      exact off.owed
    · rw [State.seatedNotice]
      simp only [slotAfterVoid_iff]
      exact congrArg (· ++ _) off.queue
  · exact exec_refused h ⟨.closePosition, tag, u8 p.val⟩ rfl (doClosePosition_closed (s := s.received) hc) nofun
  · exact exec_refused h ⟨.closePosition, tag, u8 p.val⟩ rfl (doClosePosition_busy (s := s.received) ho hx) nofun

/-- Settles O12: the exchange removed, the close in closed form, the powered card powered off, the counters 0. -/
theorem resetPositionEndsEverything : Obligations.ResetPositionEndsEverything := by
  intro s tag p h hw hn
  have hn' : ∀ k, k ≠ .result p → isOwed s.received k = false := fun k hk =>
    (isOwed_congr (t := s.received) (s := s) rfl rfl rfl rfl rfl k).trans (hn k hk)
  have he : exec (.resetPosition tag (u8 p.val)) s = .next
      (((((removeExchange p s.received).afterClose p).powersOff p (s.line.get p).state.powered).onPos p
        fun r => { PosRecord.initial with bank := r.bank, mode := r.mode }).replied .resetPosition tag
        (.ok (closeFields p (s.line.get p).state.powered s ++ yesNo (s.xs.get p).isSome))) :=
    exec_of_carryOut h ⟨.resetPosition, tag, u8 p.val⟩ rfl (doResetPosition_resets (s := s.received) hn')
      (.inl ⟨nofun, nofun⟩)
  have hl : ((removeExchange p s.received).afterClose p).line.get p = (s.line.get p).dropOpening := by
    change (s.line.modify p CardLine.dropOpening).get p = _
    rw [PerPos.get_modify_same]
  have off := powersOff_poweredOff (u := (removeExchange p s.received).afterClose p) (p := p)
    (afterClose_anyOwed (removeExchange_anyOwed hn')) (by rw [hl]; exact CardLine.flows_dropOpening hw)
    (s.line.get p).state.powered
  generalize ((removeExchange p s.received).afterClose p).powersOff p (s.line.get p).state.powered = v at he off
  obtain ⟨hpe, htc, hli, hpo, hbu, hin, hta, hat, hen, hpu, hxs, hre, hex, hke, hpr⟩ := off.blocks
  have hs := off.state
  have hf := off.frames
  have hq := off.queue
  have hd := off.owed
  rw [hl] at hs hf hq hd
  refine ⟨_, he, ?_, hen, hpu, hin, hat, hre, hxs, ?_, ?_, fun q hq => ?_, hbu, hta, htc, hpe, ?_, hex, hke, hpr, ?_, ?_⟩
  · refine (congrArg (fun t : PerPos PosRecord =>
      t.modify p fun r => { PosRecord.initial with bank := r.bank, mode := r.mode }) hpo).trans ?_
    exact PerPos.modify_modify_same s.pos p (fun r => { r with state := .closed }) _
  · exact hs.trans (by simp)
  · exact hf.trans (by simp [CardLine.framesWithoutOpening])
  · refine (off.others q hq).trans ?_
    change (s.line.modify p CardLine.dropOpening).get q = _
    rw [PerPos.get_modify_ne _ _ hq]
  · exact congrArg (fun l : Link => { l with armed := false }) hli
  · rw [State.seatedOwed]
    simp only [slotAfterVoid_iff]
    exact hd
  · rw [State.seatedNotice]
    simp only [slotAfterVoid_iff]
    exact congrArg (· ++ _) hq

end

section
/-! SUPPORT. The counter reset in closed form: the buses with round 0 started (R40), the card lines, and the acceptance
with its reply and STARTED (R181). -/

namespace Sys2Proof.Machine

open Sys2Proof

variable {p : Pos} {g : Group} {s : State}

/-! ### The buses (R21, R40) -/

/-- A bus behind a counter reset: round 0 with its first poll sent, or the poll in flight disowned. -/
def Bus.restarted (b : Bus) : Bus :=
  if b.poll = .none then { Bus.initial with round := .inProgress 3, poll := .some Poll.firstPoll } else b.counterReset

theorem Bus.restarted_of_none {b : Bus} (h : b.poll = .none) :
    b.restarted = { Bus.initial with round := .inProgress 3, poll := .some Poll.firstPoll } := if_pos h

theorem Bus.restarted_of_some {b : Bus} {q : Poll} (h : b.poll = .some q) : b.restarted = { Bus.initial with
    round := .finished, roundTimer := .stopped, windowTimer := b.windowTimer,
    poll := .some { q with disowned := true, reserved := 0 } } := by
  simp [restarted, counterReset, h]

/-- Whatever was in flight, a bus behind a counter reset has the settings and addresses of R17 and R18. -/
theorem Bus.restarted_fields (b : Bus) :
    b.restarted.settings = BusSettings.initial ∧ b.restarted.pending = .none ∧ b.restarted.roundDue = false ∧
      b.restarted.addrs = Quad.all AddrState.initial ∧ b.restarted.held ≤ 5 := by
  cases h : b.poll with
  | none => rw [restarted_of_none h]; simp [initial, held, Poll.firstPoll]
  | some q => rw [restarted_of_some h]; simp [initial, held]

/-- The counter-reset values with the lines at `L`, the buses at `bus` and so many places reserved. -/
def State.restarting (s : State) (L : PerPos CardLine) (bus : Quad Bus) (n : Nat) : State :=
  { s.counterResetValues with line := L, bus := bus, intake := { Intake.initial with reserved := n } }

section
variable {L : PerPos CardLine} {bus : Quad Bus} {n : Nat}

/-- Round 0 polls address 3, whose position is CLOSED (R21, R23). -/
theorem restarting_decision (hb : bus.get g = { Bus.initial with round := .inProgress 3 }) :
    (s.restarting L bus n).decision g 3 = .poll := by
  have hpos : ((s.restarting L bus n).pos.get (posAt g 3)).state = .closed := by
    simp [State.restarting, State.counterResetValues, PosRecord.initial]
  have hcount : ((s.restarting L bus n).bus.get g).roundCounter = 0 := congrArg Bus.roundCounter hb
  rw [decision_absent (by rintro ⟨h, _⟩; exact nomatch h) (.inl hpos), hcount]
  rfl

/-- The IF has room for that poll (R26). -/
theorem restarting_room (hn : n ≤ 15) :
    5 + (s.restarting L bus n).intake.flagCount ≤ (s.restarting L bus n).intake.free := by
  have hflags : (s.restarting L bus n).intake.flagCount = 0 := by
    rw [Intake.flagCount_eq_zero_iff]
    simp [State.restarting, Intake.initial, (PendingFlags.eq_clear_iff _).1 rfl]
  rw [hflags]
  simp only [State.restarting, Intake.free, Intake.occupied, Intake.initial, List.length_nil, Config.fifoPlaces]
  omega

theorem restarting_polled (hb : bus.get g = { Bus.initial with round := .inProgress 3 }) :
    (s.restarting L bus n).polled g 3 =
      s.restarting L (bus.set g { Bus.initial with round := .inProgress 3, poll := .some Poll.firstPoll }) (n + 5) := by
  have hsent : (s.restarting L bus n).pollSent g 3 = Poll.firstPoll :=
    (pollSent_eq (congrArg (fun b : Bus => (b.addrs.get 3).lastSeq) hb) (PerPos.get_all _ _)
      (congrArg Bus.settings hb)).trans rfl
  have hpu : (PerPos.all PromptUnit.initial).modify (posAt g 3) (fun u => { u with beep := .none }) =
      PerPos.all PromptUnit.initial :=
    (PerPos.modify_congr _ _ (h := id) (by simp [PromptUnit.initial])).trans (PerPos.set_get_same _ _)
  have hbus : bus.modify g (fun b => { b with
      addrs := b.addrs.modify 3 fun d => { d with quiet := min 8 (d.quiet + 1), thinning := 0 }
      poll := .some Poll.firstPoll }) =
      bus.set g { Bus.initial with round := .inProgress 3, poll := .some Poll.firstPoll } := by
    simp only [Quad.modify, hb]
    rfl
  unfold State.polled
  rw [hsent]
  exact congrArg₂ (fun b u => { s.restarting L b (n + 5) with pu := u }) hbus hpu

/-- With every position CLOSED and room in the IF, round 0 sends its first poll at the reset itself (R21, R40). -/
theorem firstRound_restarting (hb : bus.get g = Bus.initial) (hn : n ≤ 15) : firstRound g (s.restarting L bus n) =
    s.restarting L (bus.set g { Bus.initial with round := .inProgress 3, poll := .some Poll.firstPoll }) (n + 5) := by
  have hstart : ((s.restarting L bus n).onBus g (Bus.startRound true)).onBus g
      (fun b => { b with round := .inProgress (3 : Addr).val }) =
      s.restarting L (bus.set g { Bus.initial with round := .inProgress 3 }) n := by
    have h : (bus.modify g (Bus.startRound true)).modify g (fun b => { b with round := .inProgress 3 }) =
        bus.set g { Bus.initial with round := .inProgress 3 } := by
      rw [Quad.modify_modify_same, Quad.modify, hb]
      rfl
    exact congrArg (fun b => s.restarting L b n) h
  have hset := Quad.get_set_same bus g { Bus.initial with round := .inProgress 3 }
  have hpoll := continueRound_of_decision (a := 3) (s := (s.restarting L bus n).onBus g (Bus.startRound true))
    (by rw [hstart]; exact restarting_decision hset) (restarting_room (s := s) (L := L) (bus := bus) hn)
  rw [hstart, restarting_polled hset, Quad.set_set_same] at hpoll
  exact hpoll

theorem startAtReset_restarting {b : Bus}
    (hb : bus.get g = b.counterReset) (hn : n ≤ 15) :
    startAtReset (s.restarting L bus n) g = s.restarting L (bus.set g b.restarted) (n + b.restarted.held) := by
  unfold startAtReset
  cases h : b.poll with
  | none =>
    have hi : bus.get g = Bus.initial := by rw [hb, Bus.counterReset, h]
    have hq : ((s.restarting L bus n).bus.get g).poll = .none := congrArg Bus.poll hi
    simp only [hq, firstRound_restarting hi hn, Bus.restarted_of_none h]
    rfl
  | some q =>
    have hr : bus.get g = b.restarted := by rw [hb, Bus.restarted, if_neg (by rw [h]; nofun)]
    have hq : ((s.restarting L bus n).bus.get g).poll = .some { q with disowned := true, reserved := 0 } :=
      (congrArg Bus.poll hr).trans (congrArg Bus.poll (Bus.restarted_of_some h))
    have h0 : b.restarted.held = 0 := by simp [Bus.restarted_of_some h, Bus.held]
    rw [h0, ← hr, Quad.set_get_same]
    simp only [hq]
    rfl

end

/-- The places that the buses hold behind a counter reset (R27, R40). -/
def State.restartedPlaces (s : State) : Nat :=
  s.bus.q0.restarted.held + s.bus.q1.restarted.held + s.bus.q2.restarted.held + s.bus.q3.restarted.held

/-- The counter reset of every block, in closed form (R181 steps 1 and 2). -/
theorem counterResetBlocks_eq (s : State) :
    ∃ L, counterResetBlocks s = s.restarting L (s.bus.map Bus.restarted) s.restartedPlaces ∧
      ∀ p, L.get p = (s.line.get p).resetLine := by
  obtain ⟨L, hL, hget⟩ := counterReset_lines s
  have hle : ∀ b : Bus, b.restarted.held ≤ 5 := fun b => b.restarted_fields.2.2.2.2
  have h0 := hle s.bus.q0
  have h1 := hle s.bus.q1
  have h2 := hle s.bus.q2
  refine ⟨L, ?_, hget⟩
  have hstart : allPositions.foldl (lineAtReset s) s.counterResetValues =
      s.restarting L (s.bus.map Bus.counterReset) 0 := hL
  simp only [counterResetBlocks, hstart, allFour, List.foldl_cons, List.foldl_nil]
  rw [startAtReset_restarting (b := s.bus.q0) rfl (by omega), startAtReset_restarting (b := s.bus.q1) rfl (by omega),
    startAtReset_restarting (b := s.bus.q2) rfl (by omega), startAtReset_restarting (b := s.bus.q3) rfl (by omega),
    Nat.zero_add]
  rfl

/-! ### The card lines (R141, R152) -/

/-- A card line at a counter reset, field by field, before the frames it asks for. -/
theorem CardLine.counterReset_fields (l : CardLine) :
    l.counterReset.state = (if l.state.powered then .seated else l.state) ∧
      l.counterReset.frames = l.framesWithoutOpening ∧ l.counterReset.presence = l.presence ∧
      l.counterReset.cause = l.cause ∧ l.counterReset.powerUnknown = l.powerUnknown ∧ l.counterReset.misses = 0 ∧
      l.counterReset.checkFails = 0 ∧ l.counterReset.helloOut = false ∧ l.counterReset.helloTimer = .stopped ∧
      l.counterReset.silenceTimer = (if l.state = .noReader then l.silenceTimer else .running 500) ∧
      l.counterReset.noReaderTimer = l.noReaderTimer ∧ l.counterReset.rx = l.rx ∧
      l.counterReset.pending = .some LineSettings.initial ∧ l.counterReset.checkErrors = 0 ∧
      l.counterReset.lateFrames = 0 ∧ l.counterReset.faults = 0 ∧ l.counterReset.changes = 0 := by
  simp [counterReset, dropOpening, frames, framesWithoutOpening, Config.lineSilence]

@[simp] theorem CardLine.ask_pending (f : TxFrame) (l : CardLine) : (l.ask f).pending = l.pending := by
  obtain ⟨t, w, h⟩ := l.ask_same f
  rw [h]

/-- Pending settings that are tried are pending or in force. -/
theorem CardLine.settle_getD {l : CardLine} {ps : LineSettings} (b : Bool) (h : l.pending = .some ps) :
    (l.settle b).pending.getD (l.settle b).settings = ps := by
  unfold CardLine.settle
  split
  · next hn => exact nomatch hn.symm.trans h
  · next qs hq =>
    obtain rfl : qs = ps := Option.some.inj (hq.symm.trans h)
    split <;> simp [h]

theorem CardLine.resetLine_settings (l : CardLine) :
    l.resetLine.pending.getD l.resetLine.settings = LineSettings.initial :=
  settle_getD false (by split <;> simp [l.counterReset_fields])

/-- What a counter reset leaves of a card line, its settings apart. -/
theorem CardLine.resetLine_fields (l : CardLine) :
    l.resetLine.state = (if l.state.powered then .seated else l.state) ∧
      l.resetLine.frames = l.framesWithoutOpening ++ (if l.state.powered then [.powerOff] else []) ∧
      l.resetLine.presence = l.presence ∧ l.resetLine.cause = l.cause ∧ l.resetLine.powerUnknown = l.powerUnknown ∧
      l.resetLine.misses = 0 ∧ l.resetLine.checkFails = 0 ∧ l.resetLine.helloOut = false ∧
      l.resetLine.helloTimer = .stopped ∧
      l.resetLine.silenceTimer = (if l.state = .noReader then l.silenceTimer else .running 500) ∧
      l.resetLine.noReaderTimer = l.noReaderTimer ∧ l.resetLine.rx = l.rx ∧ l.resetLine.checkErrors = 0 ∧
      l.resetLine.lateFrames = 0 ∧ l.resetLine.faults = 0 ∧ l.resetLine.changes = 0 := by
  unfold resetLine
  by_cases hp : l.state.powered = true
  · simp [hp, l.counterReset_fields, CardLine.ask_frames]
  · simp [hp, l.counterReset_fields]

/-! ### The acceptance (R181 steps 3 and 4) -/

/-- The state behind an armed COUNTER_RESET: the blocks reset, the reply queued, and STARTED behind it. -/
def State.restarted (s : State) (tag : Byte) (L : PerPos CardLine) : State :=
  ((s.received.restarting L (s.bus.map Bus.restarted) s.restartedPlaces).enqueue
    (.reply .counterReset tag (.ok []))).enqueue (.notice (.started .counterReset s.link.mode))

theorem exec_counterReset {tag : Byte} (h : s.takesRequests) (ha : s.link.armed = true) :
    ∃ L, exec (.counterReset tag []) s = .next (s.restarted tag L) ∧ ∀ p, L.get p = (s.line.get p).resetLine := by
  obtain ⟨L, hblocks, hline⟩ := counterResetBlocks_eq s.received
  have hc : carryOut ⟨.counterReset, tag, []⟩ s.received = (counterResetBlocks s.received, .ok []) := if_pos ha
  refine ⟨L, (exec_of_takes h ⟨.counterReset, tag, []⟩ rfl).trans ?_, hline⟩
  rw [accept, hc, hblocks]
  rfl

section
variable (s) (tag : Byte) (L : PerPos CardLine)

theorem restarted_anyOwed : anyOwed (s.restarted tag L) = false := by
  rw [anyOwed_false_iff]
  simp [State.restarted, State.restarting, State.counterResetValues, OutQueue.counterReset, OutQueue.empty]

theorem restarted_queue : (s.restarted tag L).oq.queue = s.oq.counterReset.queue ++
    [.reply .counterReset tag (.ok []), .notice (.started .counterReset s.link.mode)] :=
  List.append_assoc _ _ _

theorem restarted_flagCount : (s.restarted tag L).intake.flagCount = 0 := by
  rw [Intake.flagCount_eq_zero_iff]
  simp [State.restarted, State.restarting, Intake.initial, (PendingFlags.eq_clear_iff _).1 rfl]

theorem restarted_bus (g : Group) : (s.restarted tag L).bus.get g = (s.bus.get g).restarted := Quad.get_map _ _ _

/-- A position and its entry, exchange and prompt unit behind a counter reset. -/
theorem restarted_position (p : Pos) : (s.restarted tag L).pos.get p = PosRecord.initial ∧
    (s.restarted tag L).entry.get p = .none ∧ (s.restarted tag L).xs.get p = .none ∧
    (s.restarted tag L).pu.get p = PromptUnit.initial := by
  simp [State.restarted, State.restarting, State.counterResetValues]

end

end Sys2Proof.Machine

open Sys2Proof Sys2Proof.Machine

/-- Settles O52: the blocks reset in closed form, with the fields of each bus and each card line. -/
theorem counterResetClearsTheCounterSide : Obligations.CounterResetClearsTheCounterSide := by
  intro s tag ht ha _
  obtain ⟨L, hexec, hline⟩ := exec_counterReset (tag := tag) ht ha
  refine ⟨_, hexec, restarted_queue s tag L, rfl, restarted_anyOwed s tag L, rfl, rfl, rfl, rfl, rfl, rfl,
    restarted_flagCount s tag L, rfl, restarted_position s tag L, fun g hg => ?_, fun g q hq => ?_, fun g => ?_, rfl,
    fun p => ?_⟩
  · rw [restarted_bus, Bus.restarted_of_none hg]
    exact ⟨rfl, rfl, rfl, rfl, rfl⟩
  · rw [restarted_bus, Bus.restarted_of_some hq]
    exact ⟨rfl, rfl, rfl, rfl, rfl⟩
  · obtain ⟨hset, hpend, hdue, haddrs, _⟩ := (s.bus.get g).restarted_fields
    rw [restarted_bus, hset, hpend, hdue, haddrs]
    exact ⟨rfl, rfl, rfl, fun a => Quad.get_all _ _⟩
  · obtain ⟨hstate, hframes, hpres, hcause, hpower, hmiss, hfails, hout, hhello, hsil, hnoReader, hrx, herr, hlate,
      hfaults, hchanges⟩ := (s.line.get p).resetLine_fields
    have hl : (s.restarted tag L).line.get p = (s.line.get p).resetLine := hline p
    rw [hl]
    exact ⟨hstate, hframes, hpres, hcause, hpower, hmiss, hfails, hout, hhello, hsil, hnoReader, hrx,
      CardLine.resetLine_settings _, herr, hlate, hfaults, hchanges⟩

end
